-- ==== Sys2Proof/Word.lean ====
section
/-! DEFINITION. The widths the spec fixes (R6, R35), the identifiers of agents and objects, and the type
of the numbers the calibration rules compute with (R8, R103, R219). -/

namespace Sys2Proof

/-- A device register, and one byte of a register access buffer: 8 bits (R6, R21). -/
abbrev Byte := BitVec 8

/-- A word of a duty-cycle element: 16 bits (R6, R27). -/
abbrev Half := BitVec 16

/-- A device bus address: 7 bits (R6, R35). -/
abbrev DevAddr := BitVec 7

/-- An agent, one caller of the block (R10, R255): a label, never computed with. -/
abbrev AgentId := Nat

/-- The identity of an object of one agent: its place in the agent's object list (R30). -/
abbrev ObjId := Nat

/-- An identifier of a program line (R99). -/
abbrev Name := List Char

/-- A number of the calibration rules (R8, R103). Under `ARITH = exact` every number is `rat`. Under
`ARITH = binary64` a finite value is `rat` of its exact value, but for the negative zero, and the
infinities and NaN are values too. -/
inductive Num where
  | rat (q : Rat)
  | negZero
  | inf (neg : Bool)
  | nan
deriving DecidableEq, Repr

end Sys2Proof
end

