-- ==== Sys2Proof/Config.lean ====
section
/-! DEFINITION. The implementation parameters of R5: the fixed ones as constants, the ones with a default
as a structure of plain data (`Params`, held in State so that a claim can speak of every setting), and the
OPEN ones and the free draws as opaque constants, of which nothing can be proved. -/

namespace Sys2Proof

/-- `ARITH` (R5, R8). -/
inductive Arith where
  | exact
  | binary64
deriving DecidableEq, Repr

/-- `ROUND_TIE` (R5, R8). -/
inductive RoundTie where
  | halfUp
  | halfEven
deriving DecidableEq, Repr

/-- `AI_MODEL` (R5, R62). -/
inductive AiModel where
  | always
  | mode1Ai
deriving DecidableEq, Repr

/-- `FULL_ON_MATCH` (R5, R196). -/
inductive FullOnMatch where
  | pair
  | onWord
deriving DecidableEq, Repr

/-- The parameters of a run that have a default (R5). They are fixed for the run. -/
structure Params where
  /-- `SLEEP_MASK` -/
  sleepMask : Byte
  /-- `AI_MASK` -/
  aiMask : Byte
  /-- `RESTART_MASK` -/
  restartMask : Byte
  /-- `SLEEP_ENTRY_CLEAR` -/
  sleepEntryClear : Byte
  /-- `MODE1_VOLATILE_MASK` -/
  mode1VolatileMask : Byte
  /-- `AI_MODEL` -/
  aiModel : AiModel
  /-- `ARITH` -/
  arith : Arith
  /-- `ROUND_TIE` -/
  roundTie : RoundTie
  /-- `FULL_ON_MATCH` -/
  fullOnMatch : FullOnMatch
  /-- `ACQUIRE_TIMEOUT` -/
  acquireTimeout : Option Nat
deriving DecidableEq, Repr

/-- The defaults of R5. -/
def Params.default : Params where
  sleepMask := 0x10
  aiMask := 0x20
  restartMask := 0x80
  sleepEntryClear := 0x80
  mode1VolatileMask := 0x00
  aiModel := .always
  arith := .exact
  roundTie := .halfUp
  fullOnMatch := .pair
  acquireTimeout := none

namespace Config

/-- `REF_CLK`'s default in Hz, the value of an omitted `ref` operand (R5, R160). -/
def refClkDefault : Rat := 25000000

/-- `OSC_SETTLE_MS`, the fixed lower bound of the settle delay (R5, R281). -/
def oscSettleMs : Rat := 5

/-- `DEVICES` (R5, R21): whether a device is present at a bus address. OPEN, so opaque. -/
opaque devicePresent : Nat → Bool

/-- `DEVICE_INIT` (R5, R270): the contents of register `a` of the device at bus address `d` at launch.
OPEN, so opaque. -/
opaque deviceInit : (d a : Nat) → Byte

/-- `DEVICE_INIT`'s pointer byte (R5, R270). OPEN, so opaque. -/
opaque deviceInitPtr : (d : Nat) → Byte

/-- The result of the n-th free choice when it is a transport result, `transport_draw()` (R66). -/
opaque transportDraw : Nat → Bool

/-- The n-th free choice when it is a byte (R64, R65, R66, R68, R31). -/
opaque byteDraw : Nat → Byte

/-- The n-th free choice when it is the agent that takes the next step: "any agent may be scheduled at any
step" (R10). -/
opaque turnDraw : Nat → AgentId

/-- `floor` of a NaN or an infinite binary64 value: the spec states no result (R8, R103, R211). -/
opaque floorNonFinite : Num → Int

/-- `round` of a NaN or an infinite binary64 value: the spec states no result (R8, R103, R164, R211). -/
opaque roundNonFinite : Num → Int

end Config

end Sys2Proof
end

