-- ==== Sys2Proof/Syntax.lean ====
section
/-! DEFINITION. The operations of the block (R98), one constructor per row of spec/opcode_table.json, with
the operands their rules give (R99, R103, R104), and the names of the ways a program line or a bus transfer
can fail to be one. -/

namespace Sys2Proof

/-- The direction of a transport primitive: write, read, write then read (R66, R91). -/
inductive TxKind where
  | w
  | r
  | wr
deriving DecidableEq, Repr

/-- A field type of a register descriptor (R140). -/
inductive Field where
  | u8
  | u16
deriving DecidableEq, Repr

/-- A resolved object reference (R104): an object of an agent, under the name the agent bound it to. A line
of an agent's program text always refers to the agent's own objects (R99); a reference to another agent's
object is refused when it is used (R255). -/
structure ObjRef where
  agent : AgentId
  name : Name
deriving DecidableEq, Repr

/-- The operations (R98). `dst` is the name of `name := MNEMONIC ...`, where the line binds one. Integer
operands are integers of any size (R103); a rational operand is a `Num`. -/
inductive Instr where
  /-- `r := BUS_TRY_LOCK c` (R120) -/
  | busTryLock (dst : Option Name) (c : ObjRef)
  /-- `BUS_UNLOCK c` (R121) -/
  | busUnlock (c : ObjRef)
  /-- `LOCK_ACQUIRE c` (R122) -/
  | lockAcquire (c : ObjRef)
  /-- `LOCK_RELEASE c` (R125) -/
  | lockRelease (c : ObjRef)
  /-- `BUS_PROBE c` (R124) -/
  | busProbe (c : ObjRef)
  /-- `BUS_WRITE c, [b0, ..., bm-1], st, en` (R127) -/
  | busWrite (c : ObjRef) (buf : List Byte) (st en : Int)
  /-- `r := BUS_READ c, m` (R128) -/
  | busRead (dst : Option Name) (c : ObjRef) (m : Int)
  /-- `r := BUS_WRITE_READ c, [b0, ..., bk-1], m` (R129) -/
  | busWriteRead (dst : Option Name) (c : ObjRef) (out : List Byte) (m : Int)
  /-- `r := SCALAR_GET c, addr, f` (R142) -/
  | scalarGet (dst : Option Name) (c : ObjRef) (addr : Int) (f : Field)
  /-- `SCALAR_SET c, addr, f, v` (R143) -/
  | scalarSet (c : ObjRef) (addr : Int) (f : Field) (v : Int)
  /-- `r := TUPLE_GET c, addr, (f1, ..., fk)` (R144) -/
  | tupleGet (dst : Option Name) (c : ObjRef) (addr : Int) (fs : List Field)
  /-- `TUPLE_SET c, addr, (f1, ..., fk), (v1, ..., vk)` (R145) -/
  | tupleSet (c : ObjRef) (addr : Int) (fs : List Field) (vs : List Int)
  /-- `r := ARRAY_GET c, base, (f1..fk), count, i` (R146) -/
  | arrayGet (dst : Option Name) (c : ObjRef) (base : Int) (fs : List Field) (count : Int) (i : Int)
  /-- `ARRAY_SET c, base, (f1..fk), count, i, (v1..vk)` (R147) -/
  | arraySet (c : ObjRef) (base : Int) (fs : List Field) (count : Int) (i : Int) (vs : List Int)
  /-- `c := CTRL_INIT addr=A, ref=F, probe=P` (R160) -/
  | ctrlInit (dst : Option Name) (addr : Int) (ref : Num) (probe : Bool)
  /-- `CTRL_RESET c` (R161) -/
  | ctrlReset (c : ObjRef)
  /-- `r := MODE1_GET c` (R166) -/
  | mode1Get (dst : Option Name) (c : ObjRef)
  /-- `MODE1_SET c, v` (R167) -/
  | mode1Set (c : ObjRef) (v : Int)
  /-- `r := MODE2_GET c` (R169) -/
  | mode2Get (dst : Option Name) (c : ObjRef)
  /-- `MODE2_SET c, v` (R170) -/
  | mode2Set (c : ObjRef) (v : Int)
  /-- `r := PRESCALE_GET c` (R171) -/
  | prescaleGet (dst : Option Name) (c : ObjRef)
  /-- `PRESCALE_SET c, v` (R172) -/
  | prescaleSet (c : ObjRef) (v : Int)
  /-- `r := LED_GET c, n` (R173) -/
  | ledGet (dst : Option Name) (c : ObjRef) (n : Int)
  /-- `LED_SET c, n, (on, off)` (R174) -/
  | ledSet (c : ObjRef) (n : Int) (on off : Int)
  /-- `r := FREQ_GET c` (R162) -/
  | freqGet (dst : Option Name) (c : ObjRef)
  /-- `FREQ_SET c, freq` (R163) -/
  | freqSet (c : ObjRef) (freq : Num)
  /-- `CTRL_DEINIT c` (R177) -/
  | ctrlDeinit (c : ObjRef)
  /-- `ch := CH_LOOKUP c, n` (R190) -/
  | chLookup (dst : Option Name) (c : ObjRef) (n : Int)
  /-- `r := CH_FREQ_GET ch` (R191) -/
  | chFreqGet (dst : Option Name) (ch : ObjRef)
  /-- `CH_FREQ_SET ch, f` (R192) -/
  | chFreqSet (ch : ObjRef) (f : Num)
  /-- `r := CH_DUTY_GET ch` (R193) -/
  | chDutyGet (dst : Option Name) (ch : ObjRef)
  /-- `CH_DUTY_SET ch, v` (R194) -/
  | chDutySet (ch : ObjRef) (v : Int)
  /-- `s := SERVO_INIT ch, range=A, min=P0, max=P1` (R210) -/
  | servoInit (dst : Option Name) (ch : ObjRef) (range min max : Num)
  /-- `SERVO_SET_PULSE_RANGE s, P0, P1` (R211) -/
  | servoSetPulseRange (sv : ObjRef) (min max : Num)
  /-- `r := SERVO_FRACTION_GET s` (R213) -/
  | servoFractionGet (dst : Option Name) (sv : ObjRef)
  /-- `SERVO_FRACTION_SET s, v`, `none` for `absent` (R214) -/
  | servoFractionSet (sv : ObjRef) (v : Option Num)
  /-- `r := SERVO_ANGLE_GET s` (R215) -/
  | servoAngleGet (dst : Option Name) (sv : ObjRef)
  /-- `SERVO_ANGLE_SET s, a`, `none` for `absent` (R216) -/
  | servoAngleSet (sv : ObjRef) (a : Option Num)
deriving DecidableEq, Repr

/-- Why a program line is ill formed (R99, R103, R248). -/
inductive Reject where
  /-- a character that is in no token of R99's lines, or a byte that is no ASCII character -/
  | badCharacter
  /-- the tokens do not form `[name :=] MNEMONIC operand, operand, ...` -/
  | badForm
  /-- the mnemonic is none of R98's -/
  | unknownMnemonic
  /-- wrong operand count, or an operand of another kind than the operation's rule gives -/
  | operandCount
  /-- a word where an object name or a bound name stands that is no identifier -/
  | notAName
  /-- a word where an integer stands that is no integer (R103) -/
  | notAnInteger
  /-- a word where a rational stands that is no rational (R103) -/
  | notARational
  /-- an element of a byte list that is no byte -/
  | notAByte
  /-- a field type other than `u8` and `u16` (R140, R248) -/
  | notAField
  /-- a keyword operand that is missing, given twice or unknown -/
  | badKeyword
  /-- `name :=` before an operation that has no result -/
  | noResult
  /-- the bytes of a fetched table word are no register access of the block (R96, R97) -/
  | notAnAccess
deriving DecidableEq, Repr

/-- Why a bus transfer is not one of the block's register accesses (R96, R97). -/
inductive WireReject where
  /-- a register address outside the map of R22 -/
  | unnamedRegister (a : Byte)
  /-- an address inside the duty-cycle array that is not of the form `0x06 + 4n` -/
  | ledMisaligned (a : Byte)
  /-- a set whose length is not `1 + payload`, or a get whose read length is not `payload` -/
  | wrongLength
  /-- a read of another length than one byte with no write before it, or a write then read whose written
  part is not the one address byte -/
  | notAnAccess
deriving DecidableEq, Repr

end Sys2Proof
end

