-- ==== Sys2Proof/Machine/State.lean ====
section
/-! DEFINITION. The state of the machine (R20, R21, R30-R33, R38) as plain data, the events, errors, model
faults and statuses it records, and the state at launch (R270). -/

namespace Sys2Proof.Machine

open Sys2Proof

/-- What a device's registers hold where nothing has been written since launch: `DEVICE_INIT` (R5, R270).
`unknown d` is the OPEN parameter itself; `given cells` is a launch whose contents are named, a register it
does not list holding 0x00. -/
inductive DeviceInit where
  | unknown (d : Nat)
  | given (cells : List Host.Cell)
deriving DecidableEq, Repr

/-- The registers of one present device (R21). `cells` lists the registers that do not hold their launch
contents, by rising address. `wake` is `wake_pending` (R38), the agents in rising order. -/
structure DeviceRegs where
  init : DeviceInit
  cells : List Host.Cell
  ptr : Byte
  wake : Option (List AgentId)
deriving DecidableEq, Repr

/-- The bus lock (R28). -/
inductive Lock where
  | free
  | held (g : AgentId)
deriving DecidableEq, Repr

/-- An event of the history (R70). `ok` is the transport result. -/
inductive Event where
  | acquire (g : AgentId)
  | release (g : AgentId)
  | tx (g : AgentId) (d : DevAddr) (kind : TxKind) (out inp : List Byte) (ok : Bool)
  | delay (g : AgentId) (ms : Rat)
deriving DecidableEq, Repr

/-- What a CalibrationError records: "the prescale read or computed, or the frequency" (R240). -/
inductive CalInfo where
  | prescale (p : Int)
  | frequency (f : Num)
deriving DecidableEq, Repr

/-- The result value of an operation (R11). -/
inductive Value where
  | bool (b : Bool)
  | int (n : Int)
  | bytes (bs : List Byte)
  | tuple (vs : List Int)
  | num (x : Num)
  | absent
deriving DecidableEq, Repr

/-- The error codes of R240, each with the info it records. -/
inductive ErrorCode where
  | deviceNotFound (d : DevAddr)
  | busTransport (d : DevAddr) (failing : Event)
  | calibration (info : CalInfo)
  | range (v : Value)
  | index (i : Int)
  | unsupportedOperation (ch : ObjId)
  | lockTimeout (d : DevAddr)
  | encoding (v : Int)
deriving DecidableEq, Repr

/-- The model faults of R247, members of the sticky set `faults`. They are state, recorded by the step in
which they arise; they are not outcomes that end the machine (`Fault` below). -/
inductive ModelFault where
  | unbalancedRelease (g : AgentId)
  | unlockedBusAccess (g : AgentId)
  | prescaleWhileRunning (d : DevAddr)
  | restartBeforeSettle (d : DevAddr)
  | zeroDutyRange (g : AgentId) (sv : ObjId)
  | useAfterDeinit (g : AgentId) (c : ObjId)
deriving DecidableEq, Repr

/-- The status of an agent (R30). -/
inductive Status where
  | running
  | ended
  | errored (e : ErrorCode)
  | faulted
  | refused
deriving DecidableEq, Repr

/-- An entry of an agent's program (R104): an operation, or a line that is none (R99), which is refused when
it is reached (R248). -/
inductive Slot where
  | op (i : Instr)
  | illFormed (why : Reject)
deriving DecidableEq, Repr

/-- How the body of a lock hold ended: every primitive ok, with the bytes read; a primitive failed, with its
event (R126); or both attempts of a probe failed (R124). -/
inductive BodyEnd where
  | ok (bytes : List Byte)
  | failed (ev : Event)
  | notFound
deriving DecidableEq, Repr

/-- The place of an agent inside its current operation (R30 `phase`). `replies` holds what each completed
transaction or delay of the operation returned, oldest first. -/
inductive Phase where
  /-- no operation in progress -/
  | idle
  /-- the next step is an attempt to take the lock (R122) -/
  | acquire (replies : List (List Byte))
  /-- the lock is held; the next step is the primitive of the transaction (R126) -/
  | body (replies : List (List Byte))
  /-- a probe's zero-length write failed; the next step is its one-byte read (R124) -/
  | probeRead (replies : List (List Byte))
  /-- the body is over; the next step is the release -/
  | release (replies : List (List Byte)) (how : BodyEnd)
  /-- the next step is the delay (R283) -/
  | wait (replies : List (List Byte))
deriving DecidableEq, Repr

/-- A controller object (R31). `chan` is the channel cache, `buf` the transfer buffer of the duty-cycle
array accessor. -/
structure Controller where
  devAddr : DevAddr
  refClk : Num
  live : Bool
  chan : Vector (Option ObjId) 16
  buf : Vector Byte 5
deriving DecidableEq, Repr

/-- A channel handle (R32): its controller and its index. -/
structure Channel where
  controller : ObjId
  index : Fin 16
deriving DecidableEq, Repr

/-- A servo object (R33). -/
structure Servo where
  channel : ObjId
  actuationRange : Num
  minPulseUs : Num
  maxPulseUs : Num
  minDuty : Int
  dutyRange : Int
deriving DecidableEq, Repr

/-- An object of an agent (R30). -/
inductive Object where
  | controller (c : Controller)
  | channel (ch : Channel)
  | servo (sv : Servo)
deriving DecidableEq, Repr

/-- The state of an agent (R30), with the names its program has bound to objects and to results (R99,
R288). An object is identified by its place in `objs`. -/
structure AgentState where
  prog : List Slot
  pc : Nat
  status : Status
  holding : Bool
  attempts : Nat
  phase : Phase
  objs : List Object
  names : List (Name × ObjId)
  results : List (Name × Value)
deriving DecidableEq, Repr

/-- An agent at launch (R270): `Ended` at once if its program is empty. -/
def AgentState.launch (prog : List Slot) : AgentState where
  prog := prog
  pc := 0
  status := if prog.isEmpty then .ended else .running
  holding := false
  attempts := 0
  phase := .idle
  objs := []
  names := []
  results := []

/-- The free choices of a run: the transport results (R66), the draws of bytes (R64, R65, R66, R68) and the
agent that steps next (R10). A choice is taken from its queue where one is left, which is how a claim names
the choices it assumes; otherwise it is the opaque choice number `drawn`. The model's own state, not the
spec's. -/
structure Oracle where
  results : List Bool
  bytes : List Byte
  turns : List AgentId
  drawn : Nat
deriving DecidableEq, Repr

/-- The machine state (R20), with the parameters of the run (R5), the agent that takes the next step (R10)
and the free choices. `dev` and `agents` are finite tables by rising key: an unlisted bus address has no
device, and an unlisted agent is one launched with an empty program. -/
structure State where
  params : Params
  lock : Lock
  dev : List (Nat × Option DeviceRegs)
  faults : List ModelFault
  refused : Bool
  history : List Event
  agents : List (AgentId × AgentState)
  turn : AgentId
  oracle : Oracle
deriving DecidableEq, Repr

/-- The ways a step can answer no next state. -/
inductive Fault where
  /-- Raised by the shared operation runner (Machine/Script.lean) when the agent's phase is not one that the
  operation it is given can be in. No run reaches such a state: an operation starts in phase idle and its own
  steps write its phases. Safe: the model stops. -/
  | phaseMismatch
deriving DecidableEq, Repr

/-- The refusals. The refusals of R248 are not among them: they are recorded in the state. -/
inductive Refusal where
  /-- Raised by an arm of exec whose instruction has no meaning yet, by the mnemonic of the table. Safe: the
  model stops. No arm raises it. -/
  | notModelled (mnemonic : String)
deriving DecidableEq, Repr

/-- The registers of a present device at launch (R270): OPEN contents and pointer, no wake pending. -/
def DeviceRegs.launch (d : Nat) : DeviceRegs where
  init := .unknown d
  cells := []
  ptr := Config.deviceInitPtr d
  wake := none

/-- Launch with no program loaded (R270): the lock free, the devices of the OPEN set `DEVICES` with OPEN
contents, no fault, no refusal, no event, every agent with an empty program. The agent that takes the first step
is a free choice, the first of the run (R10). -/
def State.reset : State where
  params := Params.default
  lock := .free
  dev := (List.range 128).filterMap fun d =>
    if Config.devicePresent d then some (d, some (DeviceRegs.launch d)) else none
  faults := []
  refused := false
  history := []
  agents := []
  turn := Config.turnDraw 0
  oracle := { results := [], bytes := [], turns := [], drawn := 1 }

end Sys2Proof.Machine
end

