-- ==== Sys2Proof/Machine/Table.lean ====
section
/-! DEFINITION. Finite tables by natural key in one canonical form: keys strictly rising, no entry equal to
what an unlisted key reads as. Device registers, the devices of the bus and the agents are such tables. -/

namespace Sys2Proof.Machine

/-- What key `a` reads as; `dflt a` where the table does not list it. -/
def Table.get {β : Type} (dflt : Nat → β) : List (Nat × β) → Nat → β
  | [], a => dflt a
  | (k, v) :: t, a => if a = k then v else Table.get dflt t a

/-- The table without key `a`. -/
def Table.erase {β : Type} (t : List (Nat × β)) (a : Nat) : List (Nat × β) :=
  t.filter fun e => e.1 != a

/-- The table with `b` listed at key `a`, in its place. -/
def Table.put {β : Type} : List (Nat × β) → Nat → β → List (Nat × β)
  | [], a, b => [(a, b)]
  | (k, v) :: t, a, b =>
    if a < k then (a, b) :: (k, v) :: t
    else if a = k then (a, b) :: t
    else (k, v) :: Table.put t a b

/-- Key `a` set to `b`: an entry that equals what an unlisted key reads as is removed. -/
def Table.set {β : Type} [DecidableEq β] (dflt : Nat → β) (t : List (Nat × β)) (a : Nat) (b : β) :
    List (Nat × β) :=
  if b = dflt a then Table.erase t a else Table.put t a b

/-- Every key of the table is above `a`. -/
def Table.above {β : Type} (a : Nat) (t : List (Nat × β)) : Bool :=
  t.all fun e => decide (a < e.1)

/-- The canonical form. -/
def Table.wf {β : Type} [DecidableEq β] (dflt : Nat → β) : List (Nat × β) → Bool
  | [] => true
  | (k, v) :: t => Table.above k t && decide (v ≠ dflt k) && Table.wf dflt t

end Sys2Proof.Machine
end

