-- ==== Sys2Proof/Machine/Flags.lean ====
section
/-! DEFINITION. The bit fields of MODE1 (R24). The block has no status flags or condition codes (R34): MODE1's
SLEEP, AI and RESTART bits, at the masks of R5, are the only bit fields any rule tests or computes. -/

namespace Sys2Proof.Machine

open Sys2Proof

/-- The register addresses of R22. -/
def regMode1 : Byte := 0x00
def regMode2 : Byte := 0x01
def regPrescale : Byte := 0xFE

/-- The address of element `n` of the duty-cycle array, `0x06 + 4n` (R22, R95). -/
def ledAddr (n : Fin 16) : Byte := BitVec.ofNat 8 (0x06 + 4 * n.val)

/-- The SLEEP bit of a MODE1 value is set. -/
def sleepSet (P : Params) (v : Byte) : Bool := v &&& P.sleepMask != 0

/-- The RESTART bit of a MODE1 value is set. -/
def restartSet (P : Params) (v : Byte) : Bool := v &&& P.restartMask != 0

/-- The AI bit of a MODE1 value is set. -/
def aiSet (P : Params) (v : Byte) : Bool := v &&& P.aiMask != 0

/-- `advances(d)`, for a device whose MODE1 holds `m` (R62). -/
def advances (P : Params) (m : Byte) : Bool :=
  match P.aiModel with
  | .always => true
  | .mode1Ai => aiSet P m

/-- What a read of MODE1 returns when it holds `stored`, with the draw of that read (R64). -/
def mode1ReadValue (P : Params) (stored draw : Byte) : Byte :=
  (stored &&& ~~~ P.mode1VolatileMask) ||| (draw &&& P.mode1VolatileMask)

/-- The MODE1 value of calibration step (2) (R165). -/
def sleepEntry (P : Params) (old : Byte) : Byte :=
  (old &&& ~~~ P.sleepEntryClear) ||| P.sleepMask

/-- The MODE1 value of calibration step (6) (R165). -/
def restartAi (P : Params) (old : Byte) : Byte :=
  old ||| P.restartMask ||| P.aiMask

end Sys2Proof.Machine
end

