-- ==== Sys2Proof/Machine/Arith.lean ====
section
/-! DEFINITION. The arithmetic of the calibration formulas (R8, R219): exact rationals, or one IEEE 754
binary64 operation for each operator; `floor`, and `round` under `ROUND_TIE`. -/

namespace Sys2Proof

/-- The nearest integer; a tie goes up, or to the even neighbour (R8). -/
def roundRat (tie : RoundTie) (q : Rat) : Int :=
  match tie with
  | .halfUp => (q + 1 / 2).floor
  | .halfEven =>
    let up := (q + 1 / 2).floor
    if q + 1 / 2 = (up : Rat) ∧ up % 2 ≠ 0 then up - 1 else up

/-- 2 to an integer power. -/
def pow2 (e : Int) : Rat :=
  match e with
  | .ofNat n => ((2 ^ n : Nat) : Rat)
  | .negSucc n => 1 / ((2 ^ (n + 1) : Nat) : Rat)

/-- The exponent `e` with `2^e ≤ q < 2^(e+1)`, for `q > 0`. -/
def floorLog2 (q : Rat) : Int :=
  let e := (Nat.log2 q.num.natAbs : Int) - (Nat.log2 q.den : Int)
  if pow2 e ≤ q then e else e - 1

/-- The magnitude a positive rational rounds to in binary64 with an unbounded upper exponent, ties to even:
53 bits, or multiples of 2^-1074 below the normal range. -/
def binary64Magnitude (q : Rat) : Rat :=
  let quantum := max (floorLog2 q) (-1022) - 52
  (roundRat .halfEven (q / pow2 quantum) : Rat) * pow2 quantum

/-- A signed zero of binary64. -/
def signedZero (neg : Bool) : Num := if neg then .negZero else .rat 0

/-- The binary64 value nearest to a rational; a zero result takes the sign `neg`. -/
def roundBinary64 (neg : Bool) (q : Rat) : Num :=
  if q = 0 then signedZero neg
  else
    let m := binary64Magnitude |q|
    if m = 0 then signedZero (decide (q < 0))
    else if pow2 1024 ≤ m then .inf (decide (q < 0))
    else .rat (if q < 0 then -m else m)

/-- The sign of a binary64 value; NaN counts as positive. -/
def Num.isNeg (x : Num) : Bool :=
  match x with
  | .rat q => decide (q < 0)
  | .negZero => true
  | .inf n => n
  | .nan => false

/-- The rational value of a finite number. -/
def Num.finiteValue (x : Num) : Option Rat :=
  match x with
  | .rat q => some q
  | .negZero => some 0
  | .inf _ => none
  | .nan => none

/-- The number is neither NaN nor infinite. -/
def Num.isFinite (x : Num) : Bool := (Num.finiteValue x).isSome

/-- The number is zero. -/
def Num.isZero (x : Num) : Bool := decide (Num.finiteValue x = some 0)

/-- The number with the other sign. -/
def Num.opp (x : Num) : Num :=
  match x with
  | .rat q => if q = 0 then .negZero else .rat (-q)
  | .negZero => .rat 0
  | .inf n => .inf (!n)
  | .nan => .nan

/-- binary64 addition. A zero sum is positive, but for the sum of two negative zeros. -/
def addBinary64 (x y : Num) : Num :=
  match x, y with
  | .nan, _ => .nan
  | _, .nan => .nan
  | .inf a, .inf b => if a = b then .inf a else .nan
  | .inf a, _ => .inf a
  | _, .inf b => .inf b
  | .negZero, .negZero => .negZero
  | .rat p, .rat q => roundBinary64 false (p + q)
  | .negZero, .rat q => roundBinary64 false q
  | .rat p, .negZero => roundBinary64 false p

/-- binary64 multiplication. -/
def mulBinary64 (x y : Num) : Num :=
  let neg := Num.isNeg x != Num.isNeg y
  match x, y with
  | .nan, _ => .nan
  | _, .nan => .nan
  | .inf _, _ => if Num.isZero y then .nan else .inf neg
  | _, .inf _ => if Num.isZero x then .nan else .inf neg
  | _, _ =>
    match Num.finiteValue x, Num.finiteValue y with
    | some p, some q => roundBinary64 neg (p * q)
    | _, _ => .nan

/-- binary64 division. -/
def divBinary64 (x y : Num) : Num :=
  let neg := Num.isNeg x != Num.isNeg y
  match x, y with
  | .nan, _ => .nan
  | _, .nan => .nan
  | .inf _, .inf _ => .nan
  | .inf _, _ => .inf neg
  | _, .inf _ => signedZero neg
  | _, _ =>
    match Num.finiteValue x, Num.finiteValue y with
    | some p, some q =>
      if q = 0 then (if p = 0 then .nan else .inf neg) else roundBinary64 neg (p / q)
    | _, _ => .nan

/-- An operator on exact rationals; under `ARITH = exact` both operands are rational (R103). -/
def exactOp (f : Rat → Rat → Rat) (x y : Num) : Num :=
  match x, y with
  | .rat p, .rat q => .rat (f p q)
  | _, _ => .nan

/-- The operators of the calibration formulas under `ARITH` (R8). -/
def Num.sub (ar : Arith) (x y : Num) : Num :=
  match ar with
  | .exact => exactOp (· - ·) x y
  | .binary64 => addBinary64 x (Num.opp y)

def Num.mul (ar : Arith) (x y : Num) : Num :=
  match ar with
  | .exact => exactOp (· * ·) x y
  | .binary64 => mulBinary64 x y

def Num.div (ar : Arith) (x y : Num) : Num :=
  match ar with
  | .exact => exactOp (· / ·) x y
  | .binary64 => divBinary64 x y

/-- A rational as a number of `ARITH`: itself, or its nearest binary64 value (R103). -/
def Num.ofRat (ar : Arith) (q : Rat) : Num :=
  match ar with
  | .exact => .rat q
  | .binary64 => roundBinary64 false q

/-- An integer of a calibration formula as a number of `ARITH`. -/
def Num.ofInt (ar : Arith) (n : Int) : Num := Num.ofRat ar (n : Rat)

/-- An operand as a number of `ARITH`; none where it is no operand (R103): under `ARITH = exact` there are no
NaN or infinite operands. -/
def Num.operand (ar : Arith) (x : Num) : Option Num :=
  match ar, x with
  | .exact, .rat q => some (.rat q)
  | .exact, _ => none
  | .binary64, .rat q => some (roundBinary64 false q)
  | .binary64, y => some y

/-- `x ≤ y`; false for NaN (R219). -/
def Num.le (x y : Num) : Bool :=
  match x, y with
  | .nan, _ => false
  | _, .nan => false
  | .inf true, _ => true
  | _, .inf false => true
  | .inf false, _ => false
  | _, .inf true => false
  | _, _ =>
    match Num.finiteValue x, Num.finiteValue y with
    | some p, some q => decide (p ≤ q)
    | _, _ => false

/-- `x > 0`; false for NaN. -/
def Num.pos (x : Num) : Bool :=
  match x with
  | .rat q => decide (0 < q)
  | .negZero => false
  | .inf n => !n
  | .nan => false

/-- `floor(x)` (R8). The spec states no floor of a NaN or infinite value: it is a free integer. -/
def Num.floor (x : Num) : Int :=
  match Num.finiteValue x with
  | some q => q.floor
  | none => Config.floorNonFinite x

/-- `round(x)` (R8). The spec states no rounding of a NaN or infinite value: it is a free integer. -/
def Num.round (tie : RoundTie) (x : Num) : Int :=
  match Num.finiteValue x with
  | some q => roundRat tie q
  | none => Config.roundNonFinite x

end Sys2Proof
end

