-- ==== Sys2Proof/Machine/Layout.lean ====
section
/-! DEFINITION. The register-descriptor mechanism: layouts, well-formed descriptors, element addresses, and
the little-endian payload encoding (R63, R93, R95, R140, R148, R149); the duty-cycle packing of the channels
(R195, R196). -/

namespace Sys2Proof.Machine

open Sys2Proof

/-- `size(f)` (R140). -/
def fieldSize (f : Field) : Nat :=
  match f with
  | .u8 => 1
  | .u16 => 2

/-- `element_size`, the sum of the field sizes (R140). -/
def elementSize (fs : List Field) : Nat := (fs.map fieldSize).sum

/-- The address lies in a named register: `{0x00, 0x01, 0xFE}` or `0x06..0x45` (R22, R140). -/
def namedAddr (a : Int) : Bool :=
  decide (a = 0x00) || decide (a = 0x01) || decide (a = 0xFE) || (decide (0x06 ≤ a) && decide (a ≤ 0x45))

/-- Every address of the span of `n` bytes from `a` is at most 0xFF and named (R140). -/
def spanNamed (a : Int) (n : Nat) : Bool :=
  decide (0 ≤ a) && decide (a + n ≤ 0x100) && (List.range n).all fun k => namedAddr (a + k)

/-- `wf(Scalar(addr, f))` (R140). -/
def scalarWf (addr : Int) (f : Field) : Bool := spanNamed addr (fieldSize f)

/-- `wf(Tuple(addr, fs))` (R140). -/
def tupleWf (addr : Int) (fs : List Field) : Bool :=
  decide (1 ≤ fs.length) && spanNamed addr (elementSize fs)

/-- `wf(Array(base, fs, count))` (R140). -/
def arrayWf (base : Int) (fs : List Field) (count : Int) : Bool :=
  decide (1 ≤ fs.length) && decide (1 ≤ count) && spanNamed base (count.toNat * elementSize fs)

/-- `0 <= i < count` (R146). -/
def indexOk (i count : Int) : Bool := decide (0 ≤ i) && decide (i < count)

/-- The register address of an access, as the byte sent first (R90). -/
def addrByte (a : Int) : Byte := BitVec.ofInt 8 a

/-- `base + i * element_size` (R95, R146). -/
def elementAddr (base : Int) (fs : List Field) (i : Int) : Byte := addrByte (base + i * elementSize fs)

/-- The value is in the range of the field (R93, R148). -/
def fieldHolds (f : Field) (v : Int) : Bool :=
  match f with
  | .u8 => decide (0 ≤ v) && decide (v ≤ 0xFF)
  | .u16 => decide (0 ≤ v) && decide (v ≤ 0xFFFF)

/-- The bytes of a value of a field, low byte first (R93, R148). -/
def fieldBytes (f : Field) (v : Int) : List Byte :=
  match f with
  | .u8 => [BitVec.ofInt 8 v]
  | .u16 => [BitVec.ofInt 8 v, BitVec.ofInt 8 (v / 256)]

/-- `encode(fs, vs)` (R148): the payload in declaration order, or the first value out of its field's range. -/
def encodeFields : List Field → List Int → Except Int (List Byte)
  | f :: fs, v :: vs =>
    if fieldHolds f v then
      match encodeFields fs vs with
      | .ok bs => .ok (fieldBytes f v ++ bs)
      | .error w => .error w
    else .error v
  | _, _ => .ok []

/-- The value of a field from its own bytes (R149). -/
def fieldValue (f : Field) (bs : List Byte) : Int :=
  match f with
  | .u8 => ((bs.getD 0 0).toNat : Int)
  | .u16 => ((bs.getD 0 0).toNat : Int) + 256 * ((bs.getD 1 0).toNat : Int)

/-- `decode(fs, bytes)` (R149). -/
def decodeFields : List Field → List Byte → List Int
  | [], _ => []
  | f :: fs, bs => fieldValue f (bs.take (fieldSize f)) :: decodeFields fs (bs.drop (fieldSize f))

/-- `0 <= st <= en <= length` (R127, R141). -/
def rangeOk (st en : Int) (length : Nat) : Bool :=
  decide (0 ≤ st) && decide (st ≤ en) && decide (en ≤ length)

/-- `buf[st..en)` (R66). -/
def slice (buf : List Byte) (st en : Int) : List Byte := (buf.take en.toNat).drop st.toNat

/-- The layout of a duty-cycle element, `(on, off)` (R27, R93). -/
def ledLayout : List Field := [.u16, .u16]

/-- `duty_encode(v)` for `0 <= v <= 0xFFFF` (R195): the full-on marker, or the 12-bit native duty
`(v + 1) >> 4` (C2). -/
def dutyEncode (v : Int) : Int × Int :=
  if v = 0xFFFF then (0x1000, 0x0000) else (0x0000, (v + 1) / 16)

/-- `full_on(on, off)` (R196). -/
def fullOn (m : FullOnMatch) (on off : Int) : Bool :=
  match m with
  | .pair => decide (on = 0x1000) && decide (off = 0x0000)
  | .onWord => decide (on = 0x1000)

/-- `duty_decode(on, off)` (R196): unmasked, so a foreign element may read above 0xFFFF. -/
def dutyDecode (m : FullOnMatch) (on off : Int) : Int :=
  if fullOn m on off then 0xFFFF else off * 16

end Sys2Proof.Machine
end

