-- ==== Sys2Proof/Machine/Ops.lean ====
section
/-! DEFINITION. The named operations over the state: free choices, device registers, agents, the bus lock,
taking an error, a model fault or a refusal, the delay, and the transport primitives. -/

namespace Sys2Proof.Machine

open Sys2Proof

/-! ### Free choices -/

/-- `transport_draw()` (R66): the next free transport result. -/
def Oracle.drawResult (o : Oracle) : Bool × Oracle :=
  match o.results with
  | r :: rest => (r, { o with results := rest })
  | [] => (Config.transportDraw o.drawn, { o with drawn := o.drawn + 1 })

/-- The next free byte (R64, R65, R68). -/
def Oracle.drawByte (o : Oracle) : Byte × Oracle :=
  match o.bytes with
  | b :: rest => (b, { o with bytes := rest })
  | [] => (Config.byteDraw o.drawn, { o with drawn := o.drawn + 1 })

/-- The next `n` free bytes. -/
def Oracle.drawBytes (o : Oracle) : Nat → List Byte × Oracle
  | 0 => ([], o)
  | n + 1 => (o.drawByte.1 :: (o.drawByte.2.drawBytes n).1, (o.drawByte.2.drawBytes n).2)

/-- The agent that takes the next step (R10). -/
def Oracle.drawTurn (o : Oracle) : AgentId × Oracle :=
  match o.turns with
  | g :: rest => (g, { o with turns := rest })
  | [] => (Config.turnDraw o.drawn, { o with drawn := o.drawn + 1 })

/-! ### Device registers -/

/-- What a register holds where nothing has been written since launch (R270): the one reading of an address
that a register file does not list. -/
def DeviceInit.byte (i : DeviceInit) (a : Nat) : Byte :=
  match i with
  | .unknown d => Config.deviceInit d a
  | .given cells => Table.get (fun _ => 0) cells a

/-- `dev(d)[a]` (R21). -/
def DeviceRegs.read (r : DeviceRegs) (a : Byte) : Byte := Table.get r.init.byte r.cells a.toNat

/-- `dev(d)[a] <- b` (R61). -/
def DeviceRegs.write (r : DeviceRegs) (a b : Byte) : DeviceRegs :=
  { r with cells := Table.set r.init.byte r.cells a.toNat b }

/-- The registers with another pointer (R62), and with another settle tracking (R38). -/
def DeviceRegs.setPtr (r : DeviceRegs) (p : Byte) : DeviceRegs := { r with ptr := p }

def DeviceRegs.setWake (r : DeviceRegs) (w : Option (List AgentId)) : DeviceRegs := { r with wake := w }

/-- `on(n)`, the little-endian word at `0x06 + 4n` (R27, R63). -/
def DeviceRegs.ledOn (r : DeviceRegs) (n : Fin 16) : Half :=
  r.read (ledAddr n + 1) ++ r.read (ledAddr n)

/-- `off(n)`, the little-endian word at `0x06 + 4n + 2` (R27, R63). -/
def DeviceRegs.ledOff (r : DeviceRegs) (n : Fin 16) : Half :=
  r.read (ledAddr n + 3) ++ r.read (ledAddr n + 2)

/-- The register file is in the canonical form of its table, with no address above 0xFF. -/
def DeviceRegs.wf (r : DeviceRegs) : Bool :=
  Table.wf r.init.byte r.cells && r.cells.all fun e => decide (e.1 < 256)

/-- The device at a bus address, if one is present (R20). -/
def State.device (s : State) (d : DevAddr) : Option DeviceRegs := Table.get (fun _ => none) s.dev d.toNat

/-- The state with another value of one shared field. -/
def State.setLock (s : State) (l : Lock) : State := { s with lock := l }

def State.setOracle (s : State) (o : Oracle) : State := { s with oracle := o }

def State.setRefused (s : State) : State := { s with refused := true }

/-- The state with the registers of device `d` replaced. -/
def State.setDevice (s : State) (d : DevAddr) (r : DeviceRegs) : State :=
  { s with dev := Table.set (fun _ => none) s.dev d.toNat (some r) }

/-- The memory of the machine is in canonical form: the devices by rising bus address, none outside 0..127, and
every register file of every device in its canonical form. -/
def Memory.wf (s : State) : Bool :=
  Table.wf (fun _ => none) s.dev && s.dev.all fun e => decide (e.1 < 128) && match e.2 with
    | some r => r.wf
    | none => true

/-! ### Agents -/

/-- The state of an agent; an unlisted agent is one launched with an empty program. -/
def State.agent (s : State) (g : AgentId) : AgentState :=
  Table.get (fun _ => AgentState.launch []) s.agents g

def State.setAgent (s : State) (g : AgentId) (a : AgentState) : State :=
  { s with agents := Table.set (fun _ => AgentState.launch []) s.agents g a }

/-- The agent that takes the step. -/
def State.me (s : State) : AgentState := s.agent s.turn

/-- The state with the stepping agent's state changed. -/
def State.updMe (s : State) (f : AgentState → AgentState) : State := s.setAgent s.turn (f s.me)

def State.setPhase (s : State) (p : Phase) : State := s.updMe fun a => { a with phase := p }

def State.setAttempts (s : State) (n : Nat) : State := s.updMe fun a => { a with attempts := n }

def State.setHolding (s : State) (b : Bool) : State := s.updMe fun a => { a with holding := b }

/-- The agent stops in a status; it has no operation in progress then. -/
def State.stopWith (s : State) (st : Status) : State :=
  s.updMe fun a => { a with status := st, phase := .idle }

/-- An event appended to the history (R70). -/
def State.record (s : State) (e : Event) : State := { s with history := s.history ++ [e] }

/-- A fault added to the sticky set (R29, R247). -/
def State.addFault (s : State) (f : ModelFault) : State :=
  { s with faults := if f ∈ s.faults then s.faults else s.faults ++ [f] }

def State.addFaults (s : State) (fs : List ModelFault) : State := fs.foldl State.addFault s

/-- A name bound to a value; an earlier binding of the name is replaced. -/
def bindName {α : Type} (l : List (Name × α)) (n : Option Name) (v : α) : List (Name × α) :=
  match n with
  | none => l
  | some x => (x, v) :: l.filter fun e => e.1 != x

/-- `r <- v` for the result name of the line, where it has one (R99). -/
def State.bindResult (s : State) (dst : Option Name) (v : Value) : State :=
  s.updMe fun a => { a with results := bindName a.results dst v }

/-- A new object of the stepping agent, bound to the name of the line, where it has one (R30, R99). -/
def State.addObject (s : State) (dst : Option Name) (o : Object) : State :=
  s.updMe fun a => { a with objs := a.objs ++ [o], names := bindName a.names dst a.objs.length }

/-- An object of the stepping agent replaced. -/
def State.setObject (s : State) (i : ObjId) (o : Object) : State :=
  s.updMe fun a => { a with objs := a.objs.set i o }

/-- An object of the stepping agent. -/
def State.object (s : State) (i : ObjId) : Option Object := s.me.objs[i]?

/-! ### The bus lock (R120, R121) -/

/-- The lock is free. -/
def State.lockFree (s : State) : Bool := decide (s.lock = .free)

/-- The stepping agent holds the lock. -/
def State.lockMine (s : State) : Bool := decide (s.lock = .held s.turn)

/-- The effect of a successful `TryLock()` (R120). -/
def State.takeLock (s : State) : State :=
  ((s.setLock (.held s.turn)).setHolding true).record (.acquire s.turn)

/-- `lock <- Free; holding(g) <- false; record Release(g)`, unconditionally (R121). -/
def State.unlock (s : State) : State :=
  ((s.setLock .free).setHolding false).record (.release s.turn)

/-- The scope guard: a lock the agent holds is released (R130). -/
def State.guardRelease (s : State) : State := if s.lockMine then s.unlock else s

/-! ### The ends of an operation (R11) -/

/-- The operation is done: `pc <- pc + 1` (R11, R30). -/
def State.finish (s : State) : State := s.updMe fun a => { a with pc := a.pc + 1, phase := .idle }

/-- The number of an error (R240). -/
def ErrorCode.code (e : ErrorCode) : Nat :=
  match e with
  | .deviceNotFound _ => 1
  | .busTransport _ _ => 2
  | .calibration _ => 3
  | .range _ => 4
  | .index _ => 5
  | .unsupportedOperation _ => 6
  | .lockTimeout _ => 7
  | .encoding _ => 8

/-- Error entry (R244), the block's one exception mechanism: the scope guard releases a held lock, the agent's
status records the error with its info, `pc` is not advanced, and the agent takes no further step. There is
no handler and no return from an error (R245). -/
def State.raiseError (s : State) (e : ErrorCode) : State := s.guardRelease.stopWith (.errored e)

/-- A model fault (R247): recorded in the sticky set; the agent stops and the scope guard releases any lock it
holds. -/
def State.faultStop (s : State) (fs : List ModelFault) : State :=
  (s.addFaults fs).guardRelease.stopWith .faulted

/-- A refusal (R248): the sticky mark is set and the agent stops; the scope guard releases any lock it holds,
as on every abort (R130). -/
def State.refuseOp (s : State) : State := s.setRefused.guardRelease.stopWith .refused

/-- The end of an agent's program (R30, R130): the scope guard releases a lock that is still held. -/
def State.endProgram (s : State) : State := s.guardRelease.stopWith .ended

/-! ### Turns and fetching -/

/-- What the agent that steps finds at its program counter (R30). -/
def State.fetch (s : State) : Option Slot := s.me.prog[s.me.pc]?

/-- The turn passes to the agent that takes the next step (R10). -/
def State.passTurn (s : State) : State :=
  { s with turn := s.oracle.drawTurn.1, oracle := s.oracle.drawTurn.2 }

/-! ### The delay (R283) -/

/-- An agent added to a set of agents in rising order. -/
def insertAgent (g : AgentId) : List AgentId → List AgentId
  | [] => [g]
  | h :: t => if g < h then g :: h :: t else if g = h then h :: t else h :: insertAgent g t

/-- `wake_pending(d) <- some (S ∪ {g})` where it is `some S` (R38, R283). -/
def DeviceRegs.discharge (g : AgentId) (r : DeviceRegs) : DeviceRegs :=
  r.setWake (r.wake.map (insertAgent g))

/-- `Delay(ms)` by the stepping agent (R283). -/
def State.delay (s : State) (ms : Rat) : State :=
  let t := s.record (.delay s.turn ms)
  if Config.oscSettleMs ≤ ms then
    { t with dev := t.dev.map fun e => (e.1, e.2.map (DeviceRegs.discharge s.turn)) }
  else t

/-! ### The device side of a transfer (R61, R62, R64, R65, R68, R282) -/

/-- What a transfer works on: the addressed device, the free choices, the faults it raises. -/
structure Bus where
  dev : DeviceRegs
  oracle : Oracle
  raised : List ModelFault
deriving DecidableEq, Repr

/-- `wake_pending(d)` after byte `b` is stored into MODE1 over `old` (R282). -/
def wakeAfter (P : Params) (old b : Byte) (wake : Option (List AgentId)) : Option (List AgentId) :=
  if restartSet P b || sleepSet P b then none
  else if sleepSet P old then some []
  else wake

/-- The check of R282: RESTART is set while a wake is pending that agent `g` has not waited out. -/
def restartTooEarly (P : Params) (g : AgentId) (b : Byte) (wake : Option (List AgentId)) : Bool :=
  restartSet P b && match wake with
    | some S => !(S.contains g)
    | none => false

/-- `store(d, a, b)` by agent `g` (R61), with the settle check for MODE1 (R282) and the undefined store into
PRESCALE while the oscillator runs (R65). -/
def Bus.store (P : Params) (g : AgentId) (d : DevAddr) (a b : Byte) (u : Bus) : Bus :=
  if a = regMode1 then
    { u with
      dev := (u.dev.write regMode1 b).setWake (wakeAfter P (u.dev.read regMode1) b u.dev.wake)
      raised := if restartTooEarly P g b u.dev.wake then u.raised ++ [.restartBeforeSettle d] else u.raised }
  else if a = regPrescale && !sleepSet P (u.dev.read regMode1) then
    { dev := u.dev.write regPrescale u.oracle.drawByte.1
      oracle := u.oracle.drawByte.2
      raised := u.raised ++ [.prescaleWhileRunning d] }
  else { u with dev := u.dev.write a b }

/-- The pointer after one byte has moved at address `a`, for the MODE1 value `m` (R61, R62). -/
def nextPtr (P : Params) (m a : Byte) : Byte := if advances P m then a + 1 else a

/-- The data bytes of a successful write, each stored at the pointer (R61). -/
def Bus.writeData (P : Params) (g : AgentId) (d : DevAddr) : List Byte → Bus → Bus
  | [], u => u
  | b :: rest, u =>
    let v := u.store P g d u.dev.ptr b
    Bus.writeData P g d rest { v with dev := v.dev.setPtr (nextPtr P (v.dev.read regMode1) u.dev.ptr) }

/-- The device-side effect of a successful write of `out` (R61): byte 0 sets the pointer; a zero-length write
changes nothing. -/
def Bus.write (P : Params) (g : AgentId) (d : DevAddr) (out : List Byte) (u : Bus) : Bus :=
  match out with
  | [] => u
  | a :: data => Bus.writeData P g d data { u with dev := u.dev.setPtr a }

/-- The register addresses to which the data bytes of a write go (R61): from address `a`, MODE1 holding `m`
before the first of them. -/
def dataAddrs (P : Params) : (m a : Byte) → List Byte → List Byte
  | _, _, [] => []
  | m, a, b :: rest =>
    let m' := if a = regMode1 then b else m
    a :: dataAddrs P m' (nextPtr P m' a) rest

/-- The register addresses a write of `out` stores to, on a device whose MODE1 holds `m`. -/
def storedAddrs (P : Params) (m : Byte) (out : List Byte) : List Byte :=
  match out with
  | [] => []
  | a :: data => dataAddrs P m a data

/-- A draw into each of the listed registers; a draw into MODE1 runs no settle check and sets `wake_pending`
to none (R68, R282). -/
def Bus.scramble : List Byte → Bus → Bus
  | [], u => u
  | a :: rest, u =>
    Bus.scramble rest
      { u with
        dev := (u.dev.write a u.oracle.drawByte.1).setWake (if a = regMode1 then none else u.dev.wake)
        oracle := u.oracle.drawByte.2 }

/-- The effect of a failed transfer on the device (R66, R68): a draw into every register byte the written part
would have stored, and into the pointer. -/
def Bus.failed (P : Params) (out : List Byte) (u : Bus) : Bus :=
  let v := u.scramble (storedAddrs P (u.dev.read regMode1) out)
  { v with dev := v.dev.setPtr v.oracle.drawByte.1, oracle := v.oracle.drawByte.2 }

/-- The byte at the pointer (R62); a read of MODE1 takes a draw for its volatile bits (R64). -/
def Bus.readByte (P : Params) (u : Bus) : Byte × Bus :=
  let a := u.dev.ptr
  let m := u.dev.read regMode1
  let moved := u.dev.setPtr (nextPtr P m a)
  if a = regMode1 then
    (mode1ReadValue P m u.oracle.drawByte.1, { u with dev := moved, oracle := u.oracle.drawByte.2 })
  else (u.dev.read a, { u with dev := moved })

/-- A successful read of `n` bytes from the pointer (R62). -/
def Bus.readBytes (P : Params) : Nat → Bus → List Byte × Bus
  | 0, u => ([], u)
  | n + 1, u => ((u.readByte P).1 :: ((u.readByte P).2.readBytes P n).1, ((u.readByte P).2.readBytes P n).2)

/-! ### The transport primitives (R66, R67, R70) -/

/-- A data primitive: the bytes written and the number of bytes read (R66). -/
structure Prim where
  kind : TxKind
  out : List Byte
  inLen : Nat
deriving DecidableEq, Repr

/-- `BusWrite`: nothing is read (R66). -/
def Prim.write (out : List Byte) : Prim := { kind := .w, out := out, inLen := 0 }

/-- `BusRead` of `n` bytes (R66). -/
def Prim.read (n : Nat) : Prim := { kind := .r, out := [], inLen := n }

/-- `BusWriteRead` of `n` bytes after `out` (R66). -/
def Prim.writeRead (out : List Byte) (n : Nat) : Prim := { kind := .wr, out := out, inLen := n }

/-- What a primitive answers: its result, the bytes read (draws where it failed), its event, the faults it
raised, and the state after it. -/
structure Transfer where
  ok : Bool
  inp : List Byte
  event : Event
  raised : List ModelFault
  state : State

/-- A primitive issued outside a lock hold faults; its effect happens all the same (R67). -/
def State.unlockedFault (s : State) : List ModelFault :=
  if s.lockMine then [] else [.unlockedBusAccess s.turn]

/-- The device side of a primitive to a present device, after the transport result `r` (R66). -/
def Bus.transfer (P : Params) (g : AgentId) (d : DevAddr) (p : Prim) (r : Bool) (u : Bus) : List Byte × Bus :=
  if r then (u.write P g d p.out).readBytes P p.inLen
  else
    let v := u.failed P p.out
    ((v.oracle.drawBytes p.inLen).1, { v with oracle := (v.oracle.drawBytes p.inLen).2 })

/-- A data primitive of the stepping agent to bus address `d`, one atomic step (R66): it fails where no device
is present; else the transport result is free. Every primitive is recorded (R70, R241). -/
def State.transfer (s : State) (d : DevAddr) (p : Prim) : Transfer :=
  match s.device d with
  | none =>
    let bs := s.oracle.drawBytes p.inLen
    let ev := Event.tx s.turn d p.kind p.out bs.1 false
    { ok := false, inp := bs.1, event := ev, raised := s.unlockedFault,
      state := (s.setOracle bs.2).record ev }
  | some r =>
    let res := s.oracle.drawResult
    let x := Bus.transfer s.params s.turn d p res.1 { dev := r, oracle := res.2, raised := s.unlockedFault }
    let ev := Event.tx s.turn d p.kind p.out x.1 res.1
    { ok := res.1, inp := x.1, event := ev, raised := x.2.raised,
      state := ((s.setOracle x.2.oracle).setDevice d x.2.dev).record ev }

end Sys2Proof.Machine
end

