-- ==== Sys2Proof/Machine/Script.lean ====
section
/-! DEFINITION. Operations as scripts, and the one runner that executes a script a step at a time. A script is
the pseudocode of an operation's rule: local checks, transactions and delays in order, each continuing on what
it returned. The runner gives every operation the steps of R66, R120-R126 and R283: an attempt to take the
lock, a primitive, a release and a delay are one step each, and other agents may step between them (R10, R75). -/

namespace Sys2Proof.Machine

open Sys2Proof

/-- What an operation that is done leaves in its agent (R11): a bound result, a new or changed object. -/
inductive Effect where
  | none
  /-- the result value bound to the line's name -/
  | result (dst : Option Name) (v : Value)
  /-- a controller constructed and bound (R160, R271) -/
  | newController (dst : Option Name) (addr : DevAddr) (ref : Num)
  /-- the channel handle of an index, created on its first lookup (R190) -/
  | lookup (dst : Option Name) (c : ObjId) (n : Fin 16)
  /-- `c.live <- false` (R177) -/
  | deinit (c : ObjId)
  /-- a servo constructed and bound (R210) -/
  | newServo (dst : Option Name) (sv : Servo)
  /-- a servo's pulse range and calibration (R211) -/
  | calibrate (sv : ObjId) (p0 p1 : Num) (minDuty dutyRange : Int)
deriving DecidableEq, Repr

/-- A script. -/
inductive Script where
  /-- the operation is done -/
  | done (eff : Effect)
  /-- `raise E` -/
  | raise (e : ErrorCode)
  /-- `fault F` with no other effect -/
  | fault (f : ModelFault)
  /-- `fault F` in a rule that goes on to its end: nothing is bound, `pc` advances (R213, R247) -/
  | faultDone (f : ModelFault)
  /-- `refuse` -/
  | refuse
  /-- `r <- TryLock()` and done (R120) -/
  | tryLock (dst : Option Name)
  /-- `Unlock()` and done (R121, R125) -/
  | unlock
  /-- acquire and done (R122) -/
  | acquire (d : DevAddr)
  /-- a transaction of one primitive to device `d` (R126), continuing on the bytes read. `via` is the
  controller whose transfer buffer it goes through, for the duty-cycle array accessor (R150). -/
  | transact (d : DevAddr) (via : Option ObjId) (p : Prim) (k : List Byte → Script)
  /-- the lock hold of a probe (R124) -/
  | probe (d : DevAddr) (k : Script)
  /-- `Delay(ms)` (R283) -/
  | delay (ms : Rat) (k : Script)

/-- The script after the listed replies, oldest first. -/
def Script.resume : Script → List (List Byte) → Option Script
  | sc, [] => some sc
  | .transact _ _ _ k, r :: rs => (k r).resume rs
  | .probe _ k, _ :: rs => k.resume rs
  | .delay _ k, _ :: rs => k.resume rs
  | _, _ :: _ => none

/-- Bytes placed at the start of the five-byte transfer buffer. -/
def fillBuf (buf : Vector Byte 5) (bs : List Byte) : Vector Byte 5 :=
  Vector.ofFn fun i => bs.getD i.val (buf[i])

/-- The transfer buffer of controller `via` filled from its start (R31, R150). -/
def State.stage (s : State) (via : Option ObjId) (bs : List Byte) : State :=
  match via with
  | none => s
  | some c =>
    match s.object c with
    | some (.controller ctl) => s.setObject c (.controller { ctl with buf := fillBuf ctl.buf bs })
    | _ => s

/-- The buffer of a descriptor access as it is built: the bytes to be sent, then zeros for the bytes to be read
(R141). -/
def builtBuf (p : Prim) : List Byte := p.out ++ List.replicate p.inLen 0

/-- The effect of an operation that is done. -/
def State.applyEffect (s : State) (eff : Effect) : State :=
  match eff with
  | .none => s
  | .result dst v => s.bindResult dst v
  | .newController dst addr ref =>
    let bs := s.oracle.drawBytes 5
    (s.setOracle bs.2).addObject dst (.controller
      { devAddr := addr, refClk := ref, live := true, chan := Vector.replicate 16 none,
        buf := fillBuf (Vector.replicate 5 0) bs.1 })
  | .lookup dst c n =>
    match s.object c with
    | some (.controller ctl) =>
      match ctl.chan[n] with
      | some ch => s.updMe fun a => { a with names := bindName a.names dst ch }
      | none =>
        (s.setObject c (.controller { ctl with chan := ctl.chan.set n (some s.me.objs.length) })).addObject dst
          (.channel { controller := c, index := n })
    | _ => s
  | .deinit c =>
    match s.object c with
    | some (.controller ctl) => s.setObject c (.controller { ctl with live := false })
    | _ => s
  | .newServo dst sv => s.addObject dst (.servo sv)
  | .calibrate i p0 p1 md dr =>
    match s.object i with
    | some (.servo sv) =>
      s.setObject i (.servo { sv with minPulseUs := p0, maxPulseUs := p1, minDuty := md, dutyRange := dr })
    | _ => s

/-- The script begins with an acquire of the lock for this device. -/
def Script.locks (sc : Script) : Option DevAddr :=
  match sc with
  | .acquire d => some d
  | .transact d _ _ _ => some d
  | .probe d _ => some d
  | _ => none

/-- `attempts(g) <- 0` and the wait for the lock (R122). -/
def State.beginAcquire (s : State) (rs : List (List Byte)) : State :=
  (s.setAttempts 0).setPhase (.acquire rs)

/-- `r <- TryLock()`, done (R120). A held lock is left as it is, whoever holds it (R123). -/
def State.tryLockOp (s : State) (dst : Option Name) : State :=
  if s.lockFree then (s.takeLock.bindResult dst (.bool true)).finish
  else (s.bindResult dst (.bool false)).finish

/-- `Unlock()`, done (R121): the unlock happens whoever holds the lock, and a caller that is not the holder
faults; the rule's effect, `pc` included, is complete before the agent stops (R247). -/
def State.unlockOp (s : State) : State :=
  if s.lockMine then s.unlock.finish else s.unlock.finish.faultStop [.unbalancedRelease s.turn]

/-- The agent comes to a script: what it does in this step. -/
def State.enter (s : State) (sc : Script) (rs : List (List Byte)) : State :=
  match sc with
  | .done eff => (s.applyEffect eff).finish
  | .raise e => s.raiseError e
  | .fault f => s.faultStop [f]
  | .faultDone f => s.finish.faultStop [f]
  | .refuse => s.refuseOp
  | .tryLock dst => s.tryLockOp dst
  | .unlock => s.unlockOp
  | .acquire _ => s.beginAcquire rs
  | .transact _ via p _ => (s.stage via (builtBuf p)).beginAcquire rs
  | .probe _ _ => s.beginAcquire rs
  | .delay _ _ => s.setPhase (.wait rs)

/-- The acquire has failed often enough to give up (R122). -/
def timedOut (P : Params) (attempts : Nat) : Bool :=
  match P.acquireTimeout with
  | none => false
  | some n => decide (n ≤ attempts)

/-- A failed attempt (R122): counted; after `ACQUIRE_TIMEOUT` of them the acquire raises LockTimeoutError. -/
def State.failedAttempt (s : State) (d : DevAddr) : State :=
  let t := s.setAttempts (s.me.attempts + 1)
  if timedOut s.params (s.me.attempts + 1) then t.raiseError (.lockTimeout d) else t

/-- One attempt to take the lock for the script the agent waits at (R122). It tests the lock, as R120 writes it, and
not the agent's own `holding` (DEDUCED, log entry 39). -/
def State.attempt (s : State) (sc : Script) (rs : List (List Byte)) : State :=
  match sc.locks with
  | none => s
  | some d =>
    if s.lockFree then
      match sc with
      | .acquire _ => s.takeLock.finish
      | _ => s.takeLock.setPhase (.body rs)
    else s.failedAttempt d

/-- The step of a primitive whose transaction goes on in phase `next` unless the primitive faults (R126,
R247). -/
def State.afterPrim (s : State) (raised : List ModelFault) (next : Phase) : State :=
  if raised.isEmpty then s.setPhase next else s.faultStop raised

/-- The primitive of a transaction (R126, R66). -/
def State.bodyStep (s : State) (d : DevAddr) (via : Option ObjId) (p : Prim) (rs : List (List Byte)) : State :=
  let t := s.transfer d p
  (t.state.stage via (p.out ++ t.inp)).afterPrim t.raised
    (.release rs (if t.ok then .ok t.inp else .failed t.event))

/-- A probe's first attempt, the zero-length write (R124). -/
def State.probeWriteStep (s : State) (d : DevAddr) (rs : List (List Byte)) : State :=
  let t := s.transfer d (Prim.write [])
  t.state.afterPrim t.raised (if t.ok then .release rs (.ok []) else .probeRead rs)

/-- A probe's second attempt, the one-byte read, its byte discarded (R124). -/
def State.probeReadStep (s : State) (d : DevAddr) (rs : List (List Byte)) : State :=
  let t := s.transfer d (Prim.read 1)
  t.state.afterPrim t.raised (.release rs (if t.ok then .ok [] else .notFound))

/-- The release that ends a lock hold (R125, R126), and what the operation does next. -/
def State.releaseStep (s : State) (d : DevAddr) (k : List Byte → Script) (rs : List (List Byte))
    (how : BodyEnd) : State :=
  if s.lockMine then
    match how with
    | .ok bs => s.unlock.enter (k bs) (rs ++ [bs])
    | .failed ev => s.unlock.raiseError (.busTransport d ev)
    | .notFound => s.unlock.raiseError (.deviceNotFound d)
  else s.unlock.faultStop [.unbalancedRelease s.turn]

/-- One step of the stepping agent inside the operation whose script is `sc`. -/
def runScript (sc : Script) (s : State) : Host.Outcome State Fault Refusal :=
  match s.me.phase with
  | .idle => .next ((s.enter sc []).attempt sc [])
  | .acquire rs =>
    match sc.resume rs with
    | some n => if n.locks.isSome then .next (s.attempt n rs) else .fault .phaseMismatch
    | none => .fault .phaseMismatch
  | .body rs =>
    match sc.resume rs with
    | some (.transact d via p _) => .next (s.bodyStep d via p rs)
    | some (.probe d _) => .next (s.probeWriteStep d rs)
    | _ => .fault .phaseMismatch
  | .probeRead rs =>
    match sc.resume rs with
    | some (.probe d _) => .next (s.probeReadStep d rs)
    | _ => .fault .phaseMismatch
  | .release rs how =>
    match sc.resume rs with
    | some (.transact d _ _ k) => .next (s.releaseStep d k rs how)
    | some (.probe d k) => .next (s.releaseStep d (fun _ => k) rs how)
    | _ => .fault .phaseMismatch
  | .wait rs =>
    match sc.resume rs with
    | some (.delay ms k) => .next ((s.delay ms).enter k (rs ++ [[]]))
    | _ => .fault .phaseMismatch

end Sys2Proof.Machine
end

