-- ==== Sys2Proof/Machine/Operands.lean ====
section
/-! DEFINITION. The operand forms: object references (R99, R102, R255), deinitialised controllers (R168),
numbers (R103); and the transactions shared by several operations: the descriptor get and set (R141), the
frequency read (R162), the duty-cycle read and write (R193, R194). -/

namespace Sys2Proof.Machine

open Sys2Proof

/-- The object a reference names: one of the stepping agent's own, under a name it has bound. -/
def State.resolve (s : State) (r : ObjRef) : Option ObjId :=
  if r.agent = s.turn then s.me.names.lookup r.name else none

/-- The controller with identity `i`, live; a deinitialised one faults (R168). -/
def withLive (s : State) (i : ObjId) (k : Controller → Script) : Script :=
  match s.object i with
  | some (.controller c) => if c.live then k c else .fault (.useAfterDeinit s.turn i)
  | _ => .refuse

/-- A controller operand. A name that is unknown or names another kind of object, and another agent's object,
are refused (R99, R103, R255). -/
def withCtrl (s : State) (r : ObjRef) (k : ObjId → Controller → Script) : Script :=
  match s.resolve r with
  | some i => withLive s i (k i)
  | none => .refuse

/-- The channel handle with identity `i`, and its live controller. -/
def withHandle (s : State) (i : ObjId) (k : Channel → Controller → Script) : Script :=
  match s.object i with
  | some (.channel ch) => withLive s ch.controller (k ch)
  | _ => .refuse

/-- A channel operand. -/
def withChan (s : State) (r : ObjRef) (k : ObjId → Channel → Controller → Script) : Script :=
  match s.resolve r with
  | some i => withHandle s i (k i)
  | none => .refuse

/-- A servo operand, with its channel and the channel's live controller. -/
def withServo (s : State) (r : ObjRef) (k : ObjId → Servo → Channel → Controller → Script) : Script :=
  match s.resolve r with
  | some i =>
    match s.object i with
    | some (.servo sv) => withHandle s sv.channel (k i sv)
    | _ => .refuse
  | none => .refuse

/-- A rational operand as a number of `ARITH` (R103). -/
def withNum (s : State) (x : Num) (k : Num → Script) : Script :=
  match Num.operand s.params.arith x with
  | some y => k y
  | none => .refuse

/-- The refusal of a semantic operand check (R248). -/
def require (ok : Bool) (sc : Script) : Script := if ok then sc else .refuse

/-- The IndexError check (R146, R190). -/
def checkIndex (i count : Int) (sc : Script) : Script := if indexOk i count then sc else .raise (.index i)

/-- `get(a, fs)` (R141): write the register address, then read the payload. -/
def getFields (d : DevAddr) (via : Option ObjId) (a : Byte) (fs : List Field) (k : List Int → Script) :
    Script :=
  .transact d via (Prim.writeRead [a] (elementSize fs)) fun bs => k (decodeFields fs bs)

/-- `set(a, fs, vs)` (R141): encode, then write the address and the payload. -/
def setFields (d : DevAddr) (via : Option ObjId) (a : Byte) (fs : List Field) (vs : List Int) (k : Script) :
    Script :=
  match encodeFields fs vs with
  | .ok payload => .transact d via (Prim.write (a :: payload)) fun _ => k
  | .error v => .raise (.encoding v)

/-- The scalar get of an 8-bit register. -/
def getByte (d : DevAddr) (a : Byte) (k : Byte → Script) : Script :=
  .transact d none (Prim.writeRead [a] 1) fun bs => k (bs.getD 0 0)

/-- The scalar set of an 8-bit register to a byte. -/
def setByte (d : DevAddr) (a v : Byte) (k : Script) : Script :=
  .transact d none (Prim.write [a, v]) fun _ => k

/-- `c.ref_clk / 4096 / p`, in its written order (R162). -/
def freqOf (ar : Arith) (ref : Num) (p : Byte) : Num :=
  Num.div ar (Num.div ar ref (Num.ofInt ar 4096)) (Num.ofInt ar p.toNat)

/-- `get frequency()` (R162): one transaction, then the check of the prescale read. -/
def getFreq (P : Params) (c : Controller) (k : Num → Script) : Script :=
  getByte c.devAddr regPrescale fun p =>
    if p.toNat < 3 then .raise (.calibration (.prescale p.toNat)) else k (freqOf P.arith c.refClk p)

/-- `get duty_cycle()` of channel `n` (R193), through the controller's buffer (R150). -/
def getDuty (P : Params) (ci : ObjId) (c : Controller) (n : Fin 16) (k : Int → Script) : Script :=
  getFields c.devAddr (some ci) (ledAddr n) ledLayout fun vs =>
    k (dutyDecode P.fullOnMatch (vs.getD 0 0) (vs.getD 1 0))

/-- `set duty_cycle(v)` of channel `n` (R194), through the controller's buffer (R150). -/
def setDuty (ci : ObjId) (c : Controller) (n : Fin 16) (v : Int) (k : Script) : Script :=
  if fieldHolds .u16 v then
    setFields c.devAddr (some ci) (ledAddr n) ledLayout [(dutyEncode v).1, (dutyEncode v).2] k
  else .raise (.range (.int v))

end Sys2Proof.Machine
end

