-- ==== Sys2Proof/Machine/BusLock.lean ====
section
/-! DEFINITION. The BusLock operations (40_buslock.md, R120-R131). -/

namespace Sys2Proof.Machine

open Sys2Proof

/-- `r := BUS_TRY_LOCK c` (R120). -/
def busTryLockScript (dst : Option Name) (c : ObjRef) (s : State) : Script :=
  withCtrl s c fun _ _ => .tryLock dst

/-- The meaning of `BUS_TRY_LOCK`: one step of its script. -/
def execBusTryLock (dst : Option Name) (c : ObjRef) (s : State) : Host.Outcome State Fault Refusal :=
  runScript (busTryLockScript dst c s) s

/-- `BUS_UNLOCK c` (R121). -/
def busUnlockScript (c : ObjRef) (s : State) : Script :=
  withCtrl s c fun _ _ => .unlock

/-- The meaning of `BUS_UNLOCK`: one step of its script. -/
def execBusUnlock (c : ObjRef) (s : State) : Host.Outcome State Fault Refusal :=
  runScript (busUnlockScript c s) s

/-- `LOCK_ACQUIRE c` (R122, R123): each attempt is one step. -/
def lockAcquireScript (c : ObjRef) (s : State) : Script :=
  withCtrl s c fun _ ctl => .acquire ctl.devAddr

/-- The meaning of `LOCK_ACQUIRE`: one step of its script. -/
def execLockAcquire (c : ObjRef) (s : State) : Host.Outcome State Fault Refusal :=
  runScript (lockAcquireScript c s) s

/-- `LOCK_RELEASE c` (R125). -/
def lockReleaseScript (c : ObjRef) (s : State) : Script :=
  withCtrl s c fun _ _ => .unlock

/-- The meaning of `LOCK_RELEASE`: one step of its script. -/
def execLockRelease (c : ObjRef) (s : State) : Host.Outcome State Fault Refusal :=
  runScript (lockReleaseScript c s) s

/-- `BUS_PROBE c` (R124). -/
def busProbeScript (c : ObjRef) (s : State) : Script :=
  withCtrl s c fun _ ctl => .probe ctl.devAddr (.done .none)

/-- The meaning of `BUS_PROBE`: one step of its script. -/
def execBusProbe (c : ObjRef) (s : State) : Host.Outcome State Fault Refusal :=
  runScript (busProbeScript c s) s

/-- `BUS_WRITE c, [b0, ..., bm-1], st, en` (R127). -/
def busWriteScript (c : ObjRef) (buf : List Byte) (st en : Int) (s : State) : Script :=
  withCtrl s c fun _ ctl => require (rangeOk st en buf.length)
    (.transact ctl.devAddr none (Prim.write (slice buf st en)) fun _ => .done .none)

/-- The meaning of `BUS_WRITE`: one step of its script. -/
def execBusWrite (c : ObjRef) (buf : List Byte) (st en : Int) (s : State) : Host.Outcome State Fault Refusal :=
  runScript (busWriteScript c buf st en s) s

/-- `r := BUS_READ c, m` (R128). -/
def busReadScript (dst : Option Name) (c : ObjRef) (m : Int) (s : State) : Script :=
  withCtrl s c fun _ ctl => require (decide (1 ≤ m))
    (.transact ctl.devAddr none (Prim.read m.toNat) fun bs => .done (.result dst (.bytes bs)))

/-- The meaning of `BUS_READ`: one step of its script. -/
def execBusRead (dst : Option Name) (c : ObjRef) (m : Int) (s : State) : Host.Outcome State Fault Refusal :=
  runScript (busReadScript dst c m s) s

/-- `r := BUS_WRITE_READ c, [b0, ..., bk-1], m` (R129). -/
def busWriteReadScript (dst : Option Name) (c : ObjRef) (out : List Byte) (m : Int) (s : State) : Script :=
  withCtrl s c fun _ ctl => require (decide (0 ≤ m))
    (.transact ctl.devAddr none (Prim.writeRead out m.toNat) fun bs => .done (.result dst (.bytes bs)))

/-- The meaning of `BUS_WRITE_READ`: one step of its script. -/
def execBusWriteRead (dst : Option Name) (c : ObjRef) (out : List Byte) (m : Int) (s : State) :
    Host.Outcome State Fault Refusal :=
  runScript (busWriteReadScript dst c out m s) s

end Sys2Proof.Machine
end

