-- ==== Sys2Proof/Machine/Register.lean ====
section
/-! DEFINITION. The generic register-descriptor operations (41_register_descriptor.md, R140-R150). -/

namespace Sys2Proof.Machine

open Sys2Proof

/-- `r := SCALAR_GET c, addr, f` (R142). -/
def scalarGetScript (dst : Option Name) (c : ObjRef) (addr : Int) (f : Field) (s : State) : Script :=
  withCtrl s c fun _ ctl => require (scalarWf addr f)
    (getFields ctl.devAddr none (addrByte addr) [f] fun vs => .done (.result dst (.int (vs.getD 0 0))))

/-- The meaning of `SCALAR_GET`: one step of its script. -/
def execScalarGet (dst : Option Name) (c : ObjRef) (addr : Int) (f : Field) (s : State) :
    Host.Outcome State Fault Refusal :=
  runScript (scalarGetScript dst c addr f s) s

/-- `SCALAR_SET c, addr, f, v` (R143). -/
def scalarSetScript (c : ObjRef) (addr : Int) (f : Field) (v : Int) (s : State) : Script :=
  withCtrl s c fun _ ctl => require (scalarWf addr f)
    (setFields ctl.devAddr none (addrByte addr) [f] [v] (.done .none))

/-- The meaning of `SCALAR_SET`: one step of its script. -/
def execScalarSet (c : ObjRef) (addr : Int) (f : Field) (v : Int) (s : State) :
    Host.Outcome State Fault Refusal :=
  runScript (scalarSetScript c addr f v s) s

/-- `r := TUPLE_GET c, addr, (f1, ..., fk)` (R144). -/
def tupleGetScript (dst : Option Name) (c : ObjRef) (addr : Int) (fs : List Field) (s : State) : Script :=
  withCtrl s c fun _ ctl => require (tupleWf addr fs)
    (getFields ctl.devAddr none (addrByte addr) fs fun vs => .done (.result dst (.tuple vs)))

/-- The meaning of `TUPLE_GET`: one step of its script. -/
def execTupleGet (dst : Option Name) (c : ObjRef) (addr : Int) (fs : List Field) (s : State) :
    Host.Outcome State Fault Refusal :=
  runScript (tupleGetScript dst c addr fs s) s

/-- `TUPLE_SET c, addr, (f1, ..., fk), (v1, ..., vk)` (R145). -/
def tupleSetScript (c : ObjRef) (addr : Int) (fs : List Field) (vs : List Int) (s : State) : Script :=
  withCtrl s c fun _ ctl => require (tupleWf addr fs && decide (vs.length = fs.length))
    (setFields ctl.devAddr none (addrByte addr) fs vs (.done .none))

/-- The meaning of `TUPLE_SET`: one step of its script. -/
def execTupleSet (c : ObjRef) (addr : Int) (fs : List Field) (vs : List Int) (s : State) :
    Host.Outcome State Fault Refusal :=
  runScript (tupleSetScript c addr fs vs s) s

/-- `r := ARRAY_GET c, base, (f1..fk), count, i` (R146). The result is a tuple for a layout of one field too (DESIGN
CHOICE, log entry 37), and the access is built in a fresh buffer whatever the descriptor (DESIGN CHOICE, log entry
38). -/
def arrayGetScript (dst : Option Name) (c : ObjRef) (base : Int) (fs : List Field) (count i : Int) (s : State) :
    Script :=
  withCtrl s c fun _ ctl => require (arrayWf base fs count) (checkIndex i count
    (getFields ctl.devAddr none (elementAddr base fs i) fs fun vs => .done (.result dst (.tuple vs))))

/-- The meaning of `ARRAY_GET`: one step of its script. -/
def execArrayGet (dst : Option Name) (c : ObjRef) (base : Int) (fs : List Field) (count i : Int) (s : State) :
    Host.Outcome State Fault Refusal :=
  runScript (arrayGetScript dst c base fs count i s) s

/-- `ARRAY_SET c, base, (f1..fk), count, i, (v1..vk)` (R147): the index check comes before the encoding
check (R243). The access is built in a fresh buffer whatever the descriptor (DESIGN CHOICE, log entry 38). -/
def arraySetScript (c : ObjRef) (base : Int) (fs : List Field) (count i : Int) (vs : List Int) (s : State) :
    Script :=
  withCtrl s c fun _ ctl => require (arrayWf base fs count && decide (vs.length = fs.length))
    (checkIndex i count (setFields ctl.devAddr none (elementAddr base fs i) fs vs (.done .none)))

/-- The meaning of `ARRAY_SET`: one step of its script. -/
def execArraySet (c : ObjRef) (base : Int) (fs : List Field) (count i : Int) (vs : List Int) (s : State) :
    Host.Outcome State Fault Refusal :=
  runScript (arraySetScript c base fs count i vs s) s

end Sys2Proof.Machine
end

