-- ==== Sys2Proof/Machine/Controller.lean ====
section
/-! DEFINITION. The PwmController operations (42_pwm_controller.md, R160-R177). -/

namespace Sys2Proof.Machine

open Sys2Proof

/-- `c := CTRL_INIT addr=A, ref=F, probe=P` (R160): the operand checks, the probe where it is asked for, the
reset write, and the controller bound. -/
def ctrlInitScript (dst : Option Name) (addr : Int) (ref : Num) (probe : Bool) (s : State) : Script :=
  let d : DevAddr := BitVec.ofInt 7 addr
  require (decide (0 ≤ addr) && decide (addr ≤ 0x7F)) (withNum s ref fun F => require F.pos
    (let reset := setByte d regMode1 0x00 (.done (.newController dst d F))
     if probe then .probe d reset else reset))

/-- The meaning of `CTRL_INIT`: one step of its script. -/
def execCtrlInit (dst : Option Name) (addr : Int) (ref : Num) (probe : Bool) (s : State) :
    Host.Outcome State Fault Refusal :=
  runScript (ctrlInitScript dst addr ref probe s) s

/-- `CTRL_RESET c` (R161): MODE1 is written 0. -/
def ctrlResetScript (c : ObjRef) (s : State) : Script :=
  withCtrl s c fun _ ctl => setByte ctl.devAddr regMode1 0x00 (.done .none)

/-- The meaning of `CTRL_RESET`: one step of its script. -/
def execCtrlReset (c : ObjRef) (s : State) : Host.Outcome State Fault Refusal :=
  runScript (ctrlResetScript c s) s

/-- `r := MODE1_GET c` (R166). -/
def mode1GetScript (dst : Option Name) (c : ObjRef) (s : State) : Script :=
  withCtrl s c fun _ ctl => getByte ctl.devAddr regMode1 fun v =>
    .done (.result dst (.int v.toNat))

/-- The meaning of `MODE1_GET`: one step of its script. -/
def execMode1Get (dst : Option Name) (c : ObjRef) (s : State) : Host.Outcome State Fault Refusal :=
  runScript (mode1GetScript dst c s) s

/-- `MODE1_SET c, v` (R167). -/
def mode1SetScript (c : ObjRef) (v : Int) (s : State) : Script :=
  withCtrl s c fun _ ctl => setFields ctl.devAddr none regMode1 [.u8] [v] (.done .none)

/-- The meaning of `MODE1_SET`: one step of its script. -/
def execMode1Set (c : ObjRef) (v : Int) (s : State) : Host.Outcome State Fault Refusal :=
  runScript (mode1SetScript c v s) s

/-- `r := MODE2_GET c` (R169). -/
def mode2GetScript (dst : Option Name) (c : ObjRef) (s : State) : Script :=
  withCtrl s c fun _ ctl => getByte ctl.devAddr regMode2 fun v =>
    .done (.result dst (.int v.toNat))

/-- The meaning of `MODE2_GET`: one step of its script. -/
def execMode2Get (dst : Option Name) (c : ObjRef) (s : State) : Host.Outcome State Fault Refusal :=
  runScript (mode2GetScript dst c s) s

/-- `MODE2_SET c, v` (R170). -/
def mode2SetScript (c : ObjRef) (v : Int) (s : State) : Script :=
  withCtrl s c fun _ ctl => setFields ctl.devAddr none regMode2 [.u8] [v] (.done .none)

/-- The meaning of `MODE2_SET`: one step of its script. -/
def execMode2Set (c : ObjRef) (v : Int) (s : State) : Host.Outcome State Fault Refusal :=
  runScript (mode2SetScript c v s) s

/-- `r := PRESCALE_GET c` (R171): no range check. -/
def prescaleGetScript (dst : Option Name) (c : ObjRef) (s : State) : Script :=
  withCtrl s c fun _ ctl => getByte ctl.devAddr regPrescale fun v =>
    .done (.result dst (.int v.toNat))

/-- The meaning of `PRESCALE_GET`: one step of its script. -/
def execPrescaleGet (dst : Option Name) (c : ObjRef) (s : State) : Host.Outcome State Fault Refusal :=
  runScript (prescaleGetScript dst c s) s

/-- `PRESCALE_SET c, v` (R172): no range check. -/
def prescaleSetScript (c : ObjRef) (v : Int) (s : State) : Script :=
  withCtrl s c fun _ ctl => setFields ctl.devAddr none regPrescale [.u8] [v] (.done .none)

/-- The meaning of `PRESCALE_SET`: one step of its script. -/
def execPrescaleSet (c : ObjRef) (v : Int) (s : State) : Host.Outcome State Fault Refusal :=
  runScript (prescaleSetScript c v s) s

/-- `r := LED_GET c, n` (R173), through the controller's buffer (R150). -/
def ledGetScript (dst : Option Name) (c : ObjRef) (n : Int) (s : State) : Script :=
  withCtrl s c fun ci ctl => checkIndex n 16
    (getFields ctl.devAddr (some ci) (elementAddr 0x06 ledLayout n) ledLayout fun vs =>
      .done (.result dst (.tuple vs)))

/-- The meaning of `LED_GET`: one step of its script. -/
def execLedGet (dst : Option Name) (c : ObjRef) (n : Int) (s : State) : Host.Outcome State Fault Refusal :=
  runScript (ledGetScript dst c n s) s

/-- `LED_SET c, n, (on, off)` (R174), through the controller's buffer (R150). -/
def ledSetScript (c : ObjRef) (n on off : Int) (s : State) : Script :=
  withCtrl s c fun ci ctl => checkIndex n 16
    (setFields ctl.devAddr (some ci) (elementAddr 0x06 ledLayout n) ledLayout [on, off] (.done .none))

/-- The meaning of `LED_SET`: one step of its script. -/
def execLedSet (c : ObjRef) (n on off : Int) (s : State) : Host.Outcome State Fault Refusal :=
  runScript (ledSetScript c n on off s) s

/-- `r := FREQ_GET c` (R162). -/
def freqGetScript (dst : Option Name) (c : ObjRef) (s : State) : Script :=
  withCtrl s c fun _ ctl => getFreq s.params ctl fun f => .done (.result dst (.num f))

/-- The meaning of `FREQ_GET`: one step of its script. -/
def execFreqGet (dst : Option Name) (c : ObjRef) (s : State) : Host.Outcome State Fault Refusal :=
  runScript (freqGetScript dst c s) s

/-- `prescale_for(ref, freq)` (R164), with its checks in the order of R243. -/
def prescaleFor (P : Params) (ref freq : Num) : Except ErrorCode Byte :=
  if freq.isZero then .error (.calibration (.frequency freq))
  else
    let p := Num.round P.roundTie (Num.div P.arith (Num.div P.arith ref (Num.ofInt P.arith 4096)) freq)
    if p < 3 then .error (.calibration (.prescale p))
    else if 255 < p then .error (.calibration (.prescale p))
    else .ok (BitVec.ofInt 8 p)

/-- The six steps of the calibration sequence on device `d` for prescale `p` (R163). -/
def calibrationSequence (P : Params) (d : DevAddr) (p : Byte) : Script :=
  getByte d regMode1 fun old =>
    setByte d regMode1 (sleepEntry P old) <|
    setByte d regPrescale p <|
    setByte d regMode1 old <|
    .delay Config.oscSettleMs <|
    setByte d regMode1 (restartAi P old) <|
    .done .none

/-- `FREQ_SET c, freq` (R163, R175). -/
def freqSetScript (c : ObjRef) (freq : Num) (s : State) : Script :=
  withCtrl s c fun _ ctl => withNum s freq fun f =>
    match prescaleFor s.params ctl.refClk f with
    | .ok p => calibrationSequence s.params ctl.devAddr p
    | .error e => .raise e

/-- The meaning of `FREQ_SET`: one step of its script. -/
def execFreqSet (c : ObjRef) (freq : Num) (s : State) : Host.Outcome State Fault Refusal :=
  runScript (freqSetScript c freq s) s

/-- `CTRL_DEINIT c` (R177): MODE1 is written 0, then the controller is no longer live. -/
def ctrlDeinitScript (c : ObjRef) (s : State) : Script :=
  withCtrl s c fun ci ctl => setByte ctl.devAddr regMode1 0x00 (.done (.deinit ci))

/-- The meaning of `CTRL_DEINIT`: one step of its script. -/
def execCtrlDeinit (c : ObjRef) (s : State) : Host.Outcome State Fault Refusal :=
  runScript (ctrlDeinitScript c s) s

end Sys2Proof.Machine
end

