-- ==== Sys2Proof/Machine/Channel.lean ====
section
/-! DEFINITION. The Channel operations (43_channel.md, R190-R198). -/

namespace Sys2Proof.Machine

open Sys2Proof

/-- `ch := CH_LOOKUP c, n` (R190): no bus traffic. -/
def chLookupScript (dst : Option Name) (c : ObjRef) (n : Int) (s : State) : Script :=
  withCtrl s c fun ci _ => checkIndex n 16 (.done (.lookup dst ci (Fin.ofNat 16 n.toNat)))

/-- The meaning of `CH_LOOKUP`: one step of its script. -/
def execChLookup (dst : Option Name) (c : ObjRef) (n : Int) (s : State) : Host.Outcome State Fault Refusal :=
  runScript (chLookupScript dst c n s) s

/-- `r := CH_FREQ_GET ch` (R191): the controller's frequency. -/
def chFreqGetScript (dst : Option Name) (ch : ObjRef) (s : State) : Script :=
  withChan s ch fun _ _ ctl => getFreq s.params ctl fun f => .done (.result dst (.num f))

/-- The meaning of `CH_FREQ_GET`: one step of its script. -/
def execChFreqGet (dst : Option Name) (ch : ObjRef) (s : State) : Host.Outcome State Fault Refusal :=
  runScript (chFreqGetScript dst ch s) s

/-- `CH_FREQ_SET ch, f` (R192): always UnsupportedOperationError; `f` is not examined. -/
def chFreqSetScript (ch : ObjRef) (_f : Num) (s : State) : Script :=
  withChan s ch fun i _ _ => .raise (.unsupportedOperation i)

/-- The meaning of `CH_FREQ_SET`: one step of its script. -/
def execChFreqSet (ch : ObjRef) (_f : Num) (s : State) : Host.Outcome State Fault Refusal :=
  runScript (chFreqSetScript ch _f s) s

/-- `r := CH_DUTY_GET ch` (R193). -/
def chDutyGetScript (dst : Option Name) (ch : ObjRef) (s : State) : Script :=
  withChan s ch fun _ h ctl => getDuty s.params h.controller ctl h.index fun v =>
    .done (.result dst (.int v))

/-- The meaning of `CH_DUTY_GET`: one step of its script. -/
def execChDutyGet (dst : Option Name) (ch : ObjRef) (s : State) : Host.Outcome State Fault Refusal :=
  runScript (chDutyGetScript dst ch s) s

/-- `CH_DUTY_SET ch, v` (R194). -/
def chDutySetScript (ch : ObjRef) (v : Int) (s : State) : Script :=
  withChan s ch fun _ h ctl => setDuty h.controller ctl h.index v (.done .none)

/-- The meaning of `CH_DUTY_SET`: one step of its script. -/
def execChDutySet (ch : ObjRef) (v : Int) (s : State) : Host.Outcome State Fault Refusal :=
  runScript (chDutySetScript ch v s) s

end Sys2Proof.Machine
end

