-- ==== Sys2Proof/Machine/Servo.lean ====
section
/-! DEFINITION. The Servo operations (44_servo.md, R210-R219). -/

namespace Sys2Proof.Machine

open Sys2Proof

/-- `pulse * f / 1000000 * 65535`, in its written order (R211, R219). -/
def pulseDuty (ar : Arith) (pulse f : Num) : Num :=
  Num.mul ar (Num.div ar (Num.mul ar pulse f) (Num.ofInt ar 1000000)) (Num.ofInt ar 65535)

/-- `min_duty` for a pulse width and a frequency (R211). -/
def minDutyFor (P : Params) (p0 f : Num) : Int := Num.floor (pulseDuty P.arith p0 f)

/-- `duty_range` for a pulse width, a frequency and `min_duty` (R211). -/
def dutyRangeFor (P : Params) (p1 f : Num) (minDuty : Int) : Int :=
  Num.round P.roundTie (pulseDuty P.arith p1 f) - minDuty

/-- `s := SERVO_INIT ch, range=A, min=P0, max=P1` (R210). -/
def servoInitScript (dst : Option Name) (ch : ObjRef) (range min max : Num) (s : State) : Script :=
  withChan s ch fun i _ ctl => withNum s range fun A => withNum s min fun p0 =>
    withNum s max fun p1 => require A.pos (getFreq s.params ctl fun f =>
      .done (.newServo dst
        { channel := i, actuationRange := A, minPulseUs := p0, maxPulseUs := p1,
          minDuty := minDutyFor s.params p0 f,
          dutyRange := dutyRangeFor s.params p1 f (minDutyFor s.params p0 f) }))

/-- The meaning of `SERVO_INIT`: one step of its script. -/
def execServoInit (dst : Option Name) (ch : ObjRef) (range min max : Num) (s : State) :
    Host.Outcome State Fault Refusal :=
  runScript (servoInitScript dst ch range min max s) s

/-- `SERVO_SET_PULSE_RANGE s, P0, P1` (R211): nothing is assigned before the frequency read returns. -/
def servoSetPulseRangeScript (sv : ObjRef) (min max : Num) (s : State) : Script :=
  withServo s sv fun i _ _ ctl => withNum s min fun p0 => withNum s max fun p1 =>
    getFreq s.params ctl fun f =>
      .done (.calibrate i p0 p1 (minDutyFor s.params p0 f)
        (dutyRangeFor s.params p1 f (minDutyFor s.params p0 f)))

/-- The meaning of `SERVO_SET_PULSE_RANGE`: one step of its script. -/
def execServoSetPulseRange (sv : ObjRef) (min max : Num) (s : State) : Host.Outcome State Fault Refusal :=
  runScript (servoSetPulseRangeScript sv min max s) s

/-- `(dc - min_duty) / duty_range`, not clamped (R213, R219). -/
def fractionOf (ar : Arith) (dc minDuty dutyRange : Int) : Num :=
  Num.div ar (Num.sub ar (Num.ofInt ar dc) (Num.ofInt ar minDuty)) (Num.ofInt ar dutyRange)

/-- `get fraction()` of servo `i` (R213): absent for a duty of 0, the not-driven sentinel. A driven channel with a
zero duty range faults, and the rule is completed before the agent stops: `pc` advances and no result is bound
(R213, R215, R247; DEDUCED, log entry 35). -/
def getFraction (s : State) (i : ObjId) (sv : Servo) (h : Channel) (ctl : Controller)
    (k : Option Num → Script) : Script :=
  getDuty s.params h.controller ctl h.index fun dc =>
    if dc = 0 then k none
    else if sv.dutyRange = 0 then .faultDone (.zeroDutyRange s.turn i)
    else k (some (fractionOf s.params.arith dc sv.minDuty sv.dutyRange))

/-- A fraction or an angle as a result value. -/
def optValue (x : Option Num) : Value :=
  match x with
  | some y => .num y
  | none => .absent

/-- `r := SERVO_FRACTION_GET s` (R213). -/
def servoFractionGetScript (dst : Option Name) (sv : ObjRef) (s : State) : Script :=
  withServo s sv fun i v h ctl => getFraction s i v h ctl fun fr =>
    .done (.result dst (optValue fr))

/-- The meaning of `SERVO_FRACTION_GET`: one step of its script. -/
def execServoFractionGet (dst : Option Name) (sv : ObjRef) (s : State) : Host.Outcome State Fault Refusal :=
  runScript (servoFractionGetScript dst sv s) s

/-- `0 <= v <= hi` (R214, R216). A NaN and an infinite `v` fail it, whatever `hi` is (R219). -/
def inRange (v hi : Num) : Bool := v.isFinite && Num.le (.rat 0) v && Num.le v hi

/-- `min_duty + round(v * duty_range)` (R214). -/
def fractionDuty (P : Params) (sv : Servo) (v : Num) : Int :=
  sv.minDuty + Num.round P.roundTie (Num.mul P.arith v (Num.ofInt P.arith sv.dutyRange))

/-- `set fraction(v)` for a number (R214). -/
def setFraction (P : Params) (sv : Servo) (h : Channel) (ctl : Controller) (v : Num) : Script :=
  if inRange v (.rat 1) then setDuty h.controller ctl h.index (fractionDuty P sv v) (.done .none)
  else .raise (.range (.num v))

/-- `SERVO_FRACTION_SET s, v` (R214): absent releases the servo. -/
def servoFractionSetScript (sv : ObjRef) (v : Option Num) (s : State) : Script :=
  withServo s sv fun _ sv h ctl =>
    match v with
    | none => setDuty h.controller ctl h.index 0 (.done .none)
    | some x => withNum s x fun y => setFraction s.params sv h ctl y

/-- The meaning of `SERVO_FRACTION_SET`: one step of its script. -/
def execServoFractionSet (sv : ObjRef) (v : Option Num) (s : State) : Host.Outcome State Fault Refusal :=
  runScript (servoFractionSetScript sv v s) s

/-- `r := SERVO_ANGLE_GET s` (R215): the fraction rescaled, not clamped. -/
def servoAngleGetScript (dst : Option Name) (sv : ObjRef) (s : State) : Script :=
  withServo s sv fun i v h ctl => getFraction s i v h ctl fun fr =>
    .done (.result dst (optValue (fr.map (Num.mul s.params.arith v.actuationRange))))

/-- The meaning of `SERVO_ANGLE_GET`: one step of its script. -/
def execServoAngleGet (dst : Option Name) (sv : ObjRef) (s : State) : Host.Outcome State Fault Refusal :=
  runScript (servoAngleGetScript dst sv s) s

/-- `SERVO_ANGLE_SET s, a` (R216): absent releases the servo. -/
def servoAngleSetScript (sv : ObjRef) (a : Option Num) (s : State) : Script :=
  withServo s sv fun _ sv h ctl =>
    match a with
    | none => setDuty h.controller ctl h.index 0 (.done .none)
    | some x => withNum s x fun y =>
      if inRange y sv.actuationRange then
        setFraction s.params sv h ctl (Num.div s.params.arith y sv.actuationRange)
      else .raise (.range (.num y))

/-- The meaning of `SERVO_ANGLE_SET`: one step of its script. -/
def execServoAngleSet (sv : ObjRef) (a : Option Num) (s : State) : Host.Outcome State Fault Refusal :=
  runScript (servoAngleSetScript sv a s) s

end Sys2Proof.Machine
end

