-- ==== Sys2Proof/Machine/Dispatch.lean ====
section
/-! DEFINITION. The dispatch of every instruction to its meaning. -/

namespace Sys2Proof.Machine

open Sys2Proof

def exec (i : Instr) (s : State) : Host.Outcome State Fault Refusal :=
  match i with
  | .busTryLock dst c => Sys2Proof.Machine.execBusTryLock dst c s
  | .busUnlock c => Sys2Proof.Machine.execBusUnlock c s
  | .lockAcquire c => Sys2Proof.Machine.execLockAcquire c s
  | .lockRelease c => Sys2Proof.Machine.execLockRelease c s
  | .busProbe c => Sys2Proof.Machine.execBusProbe c s
  | .busWrite c buf st en => Sys2Proof.Machine.execBusWrite c buf st en s
  | .busRead dst c m => Sys2Proof.Machine.execBusRead dst c m s
  | .busWriteRead dst c out m => Sys2Proof.Machine.execBusWriteRead dst c out m s
  | .scalarGet dst c addr f => Sys2Proof.Machine.execScalarGet dst c addr f s
  | .scalarSet c addr f v => Sys2Proof.Machine.execScalarSet c addr f v s
  | .tupleGet dst c addr fs => Sys2Proof.Machine.execTupleGet dst c addr fs s
  | .tupleSet c addr fs vs => Sys2Proof.Machine.execTupleSet c addr fs vs s
  | .arrayGet dst c base fs count n => Sys2Proof.Machine.execArrayGet dst c base fs count n s
  | .arraySet c base fs count n vs => Sys2Proof.Machine.execArraySet c base fs count n vs s
  | .ctrlInit dst addr ref probe => Sys2Proof.Machine.execCtrlInit dst addr ref probe s
  | .ctrlReset c => Sys2Proof.Machine.execCtrlReset c s
  | .mode1Get dst c => Sys2Proof.Machine.execMode1Get dst c s
  | .mode1Set c v => Sys2Proof.Machine.execMode1Set c v s
  | .mode2Get dst c => Sys2Proof.Machine.execMode2Get dst c s
  | .mode2Set c v => Sys2Proof.Machine.execMode2Set c v s
  | .prescaleGet dst c => Sys2Proof.Machine.execPrescaleGet dst c s
  | .prescaleSet c v => Sys2Proof.Machine.execPrescaleSet c v s
  | .ledGet dst c n => Sys2Proof.Machine.execLedGet dst c n s
  | .ledSet c n on off => Sys2Proof.Machine.execLedSet c n on off s
  | .freqGet dst c => Sys2Proof.Machine.execFreqGet dst c s
  | .freqSet c freq => Sys2Proof.Machine.execFreqSet c freq s
  | .ctrlDeinit c => Sys2Proof.Machine.execCtrlDeinit c s
  | .chLookup dst c n => Sys2Proof.Machine.execChLookup dst c n s
  | .chFreqGet dst ch => Sys2Proof.Machine.execChFreqGet dst ch s
  | .chFreqSet ch f => Sys2Proof.Machine.execChFreqSet ch f s
  | .chDutyGet dst ch => Sys2Proof.Machine.execChDutyGet dst ch s
  | .chDutySet ch v => Sys2Proof.Machine.execChDutySet ch v s
  | .servoInit dst ch range min max => Sys2Proof.Machine.execServoInit dst ch range min max s
  | .servoSetPulseRange sv min max => Sys2Proof.Machine.execServoSetPulseRange sv min max s
  | .servoFractionGet dst sv => Sys2Proof.Machine.execServoFractionGet dst sv s
  | .servoFractionSet sv v => Sys2Proof.Machine.execServoFractionSet sv v s
  | .servoAngleGet dst sv => Sys2Proof.Machine.execServoAngleGet dst sv s
  | .servoAngleSet sv a => Sys2Proof.Machine.execServoAngleSet sv a s

end Sys2Proof.Machine
end

