-- ==== Sys2Proof/WellFormed.lean ====
section
/-! DEFINITION. Which operations are well formed: the operand checks whose failure R248 refuses whatever the
state, and which operations a line of an agent's program text can write (R99, R103). -/

namespace Sys2Proof

open Sys2Proof.Machine

/-- A first character of an identifier. -/
def nameStart (c : Char) : Bool := c.isAlpha || c == '_'

/-- A later character of an identifier. -/
def nameChar (c : Char) : Bool := c.isAlphanum || c == '_'

/-- An identifier. R99 does not say which words are: an ASCII letter or an underscore, then letters, digits and
underscores (DESIGN CHOICE, log entry 40). -/
def nameOk (n : Name) : Bool :=
  match n with
  | [] => false
  | c :: cs => nameStart c && cs.all nameChar

/-- The operand checks of R248 that need no state: descriptors (R140), arities (R145, R147), raw ranges (R127,
R128, R129, R141), `CTRL_INIT`'s address and reference clock (R160), `SERVO_INIT`'s range (R210). -/
def Instr.wf (i : Instr) : Bool :=
  match i with
  | .busTryLock _ _ => true
  | .busUnlock _ => true
  | .lockAcquire _ => true
  | .lockRelease _ => true
  | .busProbe _ => true
  | .busWrite _ buf st en => rangeOk st en buf.length
  | .busRead _ _ m => decide (1 ≤ m)
  | .busWriteRead _ _ _ m => decide (0 ≤ m)
  | .scalarGet _ _ addr f => scalarWf addr f
  | .scalarSet _ addr f _ => scalarWf addr f
  | .tupleGet _ _ addr fs => tupleWf addr fs
  | .tupleSet _ addr fs vs => tupleWf addr fs && decide (vs.length = fs.length)
  | .arrayGet _ _ base fs count _ => arrayWf base fs count
  | .arraySet _ base fs count _ vs => arrayWf base fs count && decide (vs.length = fs.length)
  | .ctrlInit _ addr ref _ => decide (0 ≤ addr) && decide (addr ≤ 0x7F) && ref.pos
  | .ctrlReset _ => true
  | .mode1Get _ _ => true
  | .mode1Set _ _ => true
  | .mode2Get _ _ => true
  | .mode2Set _ _ => true
  | .prescaleGet _ _ => true
  | .prescaleSet _ _ => true
  | .ledGet _ _ _ => true
  | .ledSet _ _ _ _ => true
  | .freqGet _ _ => true
  | .freqSet _ _ => true
  | .ctrlDeinit _ => true
  | .chLookup _ _ _ => true
  | .chFreqGet _ _ => true
  | .chFreqSet _ _ => true
  | .chDutyGet _ _ => true
  | .chDutySet _ _ => true
  | .servoInit _ _ range _ _ => range.pos
  | .servoSetPulseRange _ _ _ => true
  | .servoFractionGet _ _ => true
  | .servoFractionSet _ _ => true
  | .servoAngleGet _ _ => true
  | .servoAngleSet _ _ => true

/-- A reference that a line of agent `g` can write: one of its own objects. -/
def refOk (g : AgentId) (r : ObjRef) : Bool := decide (r.agent = g) && nameOk r.name

/-- A result binding that a line can write. -/
def dstOk (d : Option Name) : Bool :=
  match d with
  | some n => nameOk n
  | none => true

/-- A number that R99's rational operands can write. -/
def numOk (x : Num) : Bool :=
  match x with
  | .rat _ => true
  | .negZero => false
  | .inf _ => false
  | .nan => false

def optNumOk (x : Option Num) : Bool :=
  match x with
  | some y => numOk y
  | none => true

/-- A layout that a line can write. -/
def layoutOk (fs : List Field) : Bool := !fs.isEmpty

/-- The operation can be written as a line of agent `g`'s program text (R99). -/
def Instr.writable (g : AgentId) (i : Instr) : Bool :=
  match i with
  | .busTryLock dst c => dstOk dst && refOk g c
  | .busUnlock c => refOk g c
  | .lockAcquire c => refOk g c
  | .lockRelease c => refOk g c
  | .busProbe c => refOk g c
  | .busWrite c _ _ _ => refOk g c
  | .busRead dst c _ => dstOk dst && refOk g c
  | .busWriteRead dst c _ _ => dstOk dst && refOk g c
  | .scalarGet dst c _ _ => dstOk dst && refOk g c
  | .scalarSet c _ _ _ => refOk g c
  | .tupleGet dst c _ fs => dstOk dst && refOk g c && layoutOk fs
  | .tupleSet c _ fs vs => refOk g c && layoutOk fs && !vs.isEmpty
  | .arrayGet dst c _ fs _ _ => dstOk dst && refOk g c && layoutOk fs
  | .arraySet c _ fs _ _ vs => refOk g c && layoutOk fs && !vs.isEmpty
  | .ctrlInit dst _ ref _ => dstOk dst && numOk ref
  | .ctrlReset c => refOk g c
  | .mode1Get dst c => dstOk dst && refOk g c
  | .mode1Set c _ => refOk g c
  | .mode2Get dst c => dstOk dst && refOk g c
  | .mode2Set c _ => refOk g c
  | .prescaleGet dst c => dstOk dst && refOk g c
  | .prescaleSet c _ => refOk g c
  | .ledGet dst c _ => dstOk dst && refOk g c
  | .ledSet c _ _ _ => refOk g c
  | .freqGet dst c => dstOk dst && refOk g c
  | .freqSet c freq => refOk g c && numOk freq
  | .ctrlDeinit c => refOk g c
  | .chLookup dst c _ => dstOk dst && refOk g c
  | .chFreqGet dst ch => dstOk dst && refOk g ch
  | .chFreqSet ch f => refOk g ch && numOk f
  | .chDutyGet dst ch => dstOk dst && refOk g ch
  | .chDutySet ch _ => refOk g ch
  | .servoInit dst ch range min max => dstOk dst && refOk g ch && numOk range && numOk min && numOk max
  | .servoSetPulseRange sv min max => refOk g sv && numOk min && numOk max
  | .servoFractionGet dst sv => dstOk dst && refOk g sv
  | .servoFractionSet sv v => refOk g sv && optNumOk v
  | .servoAngleGet dst sv => dstOk dst && refOk g sv
  | .servoAngleSet sv a => refOk g sv && optNumOk a

end Sys2Proof
end

