-- ==== Sys2Proof/Decode.lean ====
section
/-! DEFINITION. Decoding and encoding, at the two levels of 30_encoding.md: the wire (the byte buffers of the
register accesses, R90-R97) and the operation lines of a program (R98, R99, R104). Both decoders are total and
reject by name. -/

namespace Sys2Proof

open Sys2Proof.Machine

/-! ### The wire (R91, R92, R96, R97) -/

/-- A register of the scalar formats `G1` and `S1` (R92). -/
inductive ScalarReg where
  | mode1
  | mode2
  | prescale
deriving DecidableEq, Repr

/-- A bus transfer of the block, by its format (R91): `Z`, `R1`, `G1`, `S1`, `G4`, `S4`. -/
inductive Access where
  | zeroWrite
  | byteRead
  | get1 (r : ScalarReg)
  | set1 (r : ScalarReg) (v : Byte)
  | get4 (n : Fin 16)
  | set4 (n : Fin 16) (on off : Half)
deriving DecidableEq, Repr

/-- A transfer as seen on the bus: its direction, the bytes written, the number of bytes read. -/
structure BusTransfer where
  kind : TxKind
  out : List Byte
  inLen : Nat
deriving DecidableEq, Repr

/-- The address byte of a scalar register (R22, R92). -/
def ScalarReg.addr (r : ScalarReg) : Byte :=
  match r with
  | .mode1 => 0x00
  | .mode2 => 0x01
  | .prescale => 0xFE

/-- The address byte of element `n`, `06+4n` (R92, R95). -/
def elementByte (n : Fin 16) : Byte := BitVec.ofNat 8 (0x06 + 4 * n.val)

/-- The low byte of a word, and its high byte (R93). -/
def lowByte (w : Half) : Byte := w.extractLsb' 0 8
def highByte (w : Half) : Byte := w.extractLsb' 8 8

/-- What byte 0 addresses (R96): a scalar register, an element, or nothing the block accesses (R97). -/
def decodeAddr (a : Byte) : Except WireReject (ScalarReg ⊕ Fin 16) :=
  if a = 0x00 then .ok (.inl .mode1)
  else if a = 0x01 then .ok (.inl .mode2)
  else if a = 0xFE then .ok (.inl .prescale)
  else if 0x06 ≤ a.toNat ∧ a.toNat ≤ 0x45 then
    if (a.toNat - 0x06) % 4 = 0 then .ok (.inr (Fin.ofNat 16 ((a.toNat - 0x06) / 4)))
    else .error (.ledMisaligned a)
  else .error (.unnamedRegister a)

/-- The register access that a transfer on the bus is (R96). -/
def decodeTransfer (t : BusTransfer) : Except WireReject Access :=
  match t.kind, t.out with
  | .w, [] => if t.inLen = 0 then .ok .zeroWrite else .error .notAnAccess
  | .w, a :: payload =>
    if t.inLen ≠ 0 then .error .notAnAccess
    else match decodeAddr a, payload with
      | .ok (.inl r), [v] => .ok (.set1 r v)
      | .ok (.inr n), [onLo, onHi, offLo, offHi] => .ok (.set4 n (onHi ++ onLo) (offHi ++ offLo))
      | .ok _, _ => .error .wrongLength
      | .error e, _ => .error e
  | .r, [] => if t.inLen = 1 then .ok .byteRead else .error .notAnAccess
  | .r, _ :: _ => .error .notAnAccess
  | .wr, [a] =>
    match decodeAddr a with
    | .ok (.inl r) => if t.inLen = 1 then .ok (.get1 r) else .error .wrongLength
    | .ok (.inr n) => if t.inLen = 4 then .ok (.get4 n) else .error .wrongLength
    | .error e => .error e
  | .wr, [] => .error .notAnAccess
  | .wr, _ :: _ :: _ => .error .notAnAccess

/-- The transfer of a register access, from the tables of R91 and R92. -/
def encodeAccess (x : Access) : BusTransfer :=
  match x with
  | .zeroWrite => { kind := .w, out := [], inLen := 0 }
  | .byteRead => { kind := .r, out := [], inLen := 1 }
  | .get1 r => { kind := .wr, out := [r.addr], inLen := 1 }
  | .set1 r v => { kind := .w, out := [r.addr, v], inLen := 0 }
  | .get4 n => { kind := .wr, out := [elementByte n], inLen := 4 }
  | .set4 n on off =>
    { kind := .w, out := [elementByte n, lowByte on, highByte on, lowByte off, highByte off], inLen := 0 }

/-- The element is one the block's channels write: full-on or driven (R27, R97). -/
def elementEmitted (on off : Half) : Bool :=
  (on == 0x1000 && off == 0) || (on == 0 && off.toNat < 0x1000)

/-- The transfer is one of those the block never emits although it has a register access's form: an element of
the foreign class (R97). -/
def Access.foreign (x : Access) : Bool :=
  match x with
  | .zeroWrite => false
  | .byteRead => false
  | .get1 _ => false
  | .set1 _ _ => false
  | .get4 _ => false
  | .set4 _ on off => !elementEmitted on off

/-- The operation that issues a register access and nothing else: the raw accessors of the controller
(R166-R174), and the raw read and the probe for the two transfers with no address byte. A wire buffer carries
no object, so the controller is an argument. -/
def Access.instr (c : ObjRef) (x : Access) : Instr :=
  match x with
  | .zeroWrite => .busProbe c
  | .byteRead => .busRead none c 1
  | .get1 .mode1 => .mode1Get none c
  | .get1 .mode2 => .mode2Get none c
  | .get1 .prescale => .prescaleGet none c
  | .set1 .mode1 v => .mode1Set c v.toNat
  | .set1 .mode2 v => .mode2Set c v.toNat
  | .set1 .prescale v => .prescaleSet c v.toNat
  | .get4 n => .ledGet none c n.val
  | .set4 n on off => .ledSet c n.val on.toNat off.toNat

/-- The bytes of a table word, the first byte its bits 7..0. -/
def wordBytes (w : Nat) : Nat → List Byte
  | 0 => []
  | n + 1 => BitVec.ofNat 8 w :: wordBytes (w / 256) n

/-- The transfer that writes these bytes: one byte is the address of a get, whose payload is then read (R90,
R96 rule 4); anything else is a write. -/
def transferOf (out : List Byte) : BusTransfer :=
  match out with
  | [a] =>
    match decodeAddr a with
    | .ok (.inr _) => { kind := .wr, out := [a], inLen := 4 }
    | .ok (.inl _) => { kind := .wr, out := [a], inLen := 1 }
    | .error _ => { kind := .wr, out := [a], inLen := 1 }
  | _ => { kind := .w, out := out, inLen := 0 }

/-- The controller that a table word's operation is taken to be issued on: agent 0's `c`. -/
def tableRef : ObjRef := { agent := 0, name := ['c'] }

/-- The operation of a table word: its bytes, read by the wire decoder. -/
def decodeTableWord (nbits w : Nat) : Option Instr :=
  match decodeTransfer (transferOf (wordBytes w ((nbits + 7) / 8))) with
  | .ok x => some (x.instr tableRef)
  | .error _ => none

/-! ### The words of a line (R99) -/

/-- A token of an operation line. `colon` stands only before `eq`, the two of `:=`. -/
inductive Tok where
  | word (cs : List Char)
  | colon
  | comma
  | eq
  | lpar
  | rpar
  | lbrk
  | rbrk
deriving DecidableEq, Repr

/-- A character of a word: an identifier, a mnemonic, a number. -/
def wordChar (c : Char) : Bool := c.isAlphanum || c == '_' || c == '.' || c == '/' || c == '-'

/-- A character that separates words: a blank, a tab, a carriage return. R99 does not say which do (DESIGN CHOICE,
log entry 21). -/
def spaceChar (c : Char) : Bool := c == ' ' || c == '\t' || c == '\r'

/-- The token a single character is. -/
def symbolTok (c : Char) : Option Tok :=
  if c = ',' then some .comma
  else if c = ':' then some .colon
  else if c = '=' then some .eq
  else if c = '(' then some .lpar
  else if c = ')' then some .rpar
  else if c = '[' then some .lbrk
  else if c = ']' then some .rbrk
  else none

/-- The pending word, read backwards, before the tokens that follow it. -/
def flushWord (acc : List Char) (ts : List Tok) : List Tok :=
  if acc.isEmpty then ts else .word acc.reverse :: ts

/-- The tokens of a line; `;` starts a comment to its end. `acc` is the word being read, backwards. -/
def lexLine (acc : List Char) : List Char → Except Reject (List Tok)
  | [] => .ok (flushWord acc [])
  | c :: cs =>
    if wordChar c then lexLine (c :: acc) cs
    else if c = ';' then .ok (flushWord acc [])
    else if c = ':' ∧ cs.head? ≠ some '=' then .error .badCharacter
    else if spaceChar c then
      match lexLine [] cs with
      | .ok ts => .ok (flushWord acc ts)
      | .error e => .error e
    else match symbolTok c, lexLine [] cs with
      | some t, .ok ts => .ok (flushWord acc (t :: ts))
      | none, _ => .error .badCharacter
      | _, .error e => .error e

/-- An operand as it is written: a word, `name=value`, a byte list, a parenthesised tuple. -/
inductive Arg where
  | word (w : List Char)
  | kw (k v : List Char)
  | bytes (ws : List (List Char))
  | tuple (ws : List (List Char))
deriving DecidableEq, Repr

/-- The words of a bracket up to its closing token. -/
def readGroup (close : Tok) : List Tok → Option (List (List Char) × List Tok)
  | .word w :: .comma :: ts =>
    match readGroup close ts with
    | some (ws, rest) => some (w :: ws, rest)
    | none => none
  | .word w :: t :: ts => if t = close then some ([w], ts) else none
  | _ => none

/-- The first operand of a token list. -/
def readArg (ts : List Tok) : Option (Arg × List Tok) :=
  match ts with
  | .word k :: .eq :: .word v :: rest => some (.kw k v, rest)
  | .word w :: rest => some (.word w, rest)
  | .lbrk :: .rbrk :: rest => some (.bytes [], rest)
  | .lbrk :: rest =>
    match readGroup .rbrk rest with
    | some (ws, r) => some (.bytes ws, r)
    | none => none
  | .lpar :: rest =>
    match readGroup .rpar rest with
    | some (ws, r) => some (.tuple ws, r)
    | none => none
  | _ => none

/-- The operands of a line, at most `fuel` of them. -/
def readArgs : (fuel : Nat) → List Tok → Except Reject (List Arg)
  | 0, _ => .error .badForm
  | fuel + 1, ts =>
    match readArg ts with
    | some (a, []) => .ok [a]
    | some (a, .comma :: rest) =>
      match readArgs fuel rest with
      | .ok as => .ok (a :: as)
      | .error e => .error e
    | _ => .error .badForm

/-! ### Numbers (R99, R103) -/

/-- The value of a digit of a base. -/
def digitValue (base : Nat) (c : Char) : Option Nat :=
  let v :=
    if '0' ≤ c ∧ c ≤ '9' then c.toNat - '0'.toNat
    else if 'a' ≤ c ∧ c ≤ 'f' then c.toNat - 'a'.toNat + 10
    else if 'A' ≤ c ∧ c ≤ 'F' then c.toNat - 'A'.toNat + 10
    else base
  if v < base then some v else none

/-- Digits after the value read so far. -/
def readDigits (base : Nat) (acc : Nat) : List Char → Option Nat
  | [] => some acc
  | c :: cs =>
    match digitValue base c with
    | some v => readDigits base (acc * base + v) cs
    | none => none

/-- A number of at least one digit. -/
def readBase (base : Nat) (cs : List Char) : Option Nat :=
  match cs with
  | [] => none
  | _ :: _ => readDigits base 0 cs

/-- A natural number, decimal or `0x` hexadecimal (R99), the digits of either case (DESIGN CHOICE, log entry 21). -/
def readNat (cs : List Char) : Option Nat :=
  match cs with
  | a :: b :: rest => if a = '0' ∧ b = 'x' then readBase 16 rest else readBase 10 cs
  | _ => readBase 10 cs

/-- An integer. -/
def readInt (cs : List Char) : Option Int :=
  match cs with
  | a :: rest => if a = '-' then (readNat rest).map fun n => -(n : Int) else (readNat cs).map fun n => (n : Int)
  | [] => none

/-- The parts of a word around its first `c`. -/
def splitAtChar (c : Char) : List Char → Option (List Char × List Char)
  | [] => none
  | x :: xs =>
    if x = c then some ([], xs)
    else match splitAtChar c xs with
      | some (a, b) => some (x :: a, b)
      | none => none

/-- An unsigned rational: `p/q` with `q` not 0, a decimal fraction (R99), or a natural number. R99 does not say that a
`0x` word alone is a rational, that `p` and `q` are decimal, or that a fraction has digits on both sides of its dot
(DESIGN CHOICE, log entry 41). -/
def readURat (cs : List Char) : Option Rat :=
  match splitAtChar '/' cs with
  | some (p, q) =>
    match readBase 10 p, readBase 10 q with
    | some a, some b => if b = 0 then none else some ((a : Rat) / (b : Rat))
    | _, _ => none
  | none =>
    match splitAtChar '.' cs with
    | some (p, q) =>
      match readBase 10 p, readBase 10 q with
      | some a, some b => some ((a : Rat) + (b : Rat) / ((10 ^ q.length : Nat) : Rat))
      | _, _ => none
    | none => (readNat cs).map fun n => (n : Rat)

/-- A rational: a minus may stand before an unsigned one, and nowhere else (DESIGN CHOICE, log entry 41). -/
def readRat (cs : List Char) : Option Rat :=
  match cs with
  | a :: rest => if a = '-' then (readURat rest).map fun q => -q else readURat cs
  | [] => none

/-! ### The operand kinds of a line (R99) -/

def asName (w : List Char) : Except Reject Name := if nameOk w then .ok w else .error .notAName

/-- An object of the line's own agent. -/
def asRef (g : AgentId) (w : List Char) : Except Reject ObjRef :=
  if nameOk w then .ok { agent := g, name := w } else .error .notAName

def asInt (w : List Char) : Except Reject Int :=
  match readInt w with
  | some n => .ok n
  | none => .error .notAnInteger

def asNum (w : List Char) : Except Reject Num :=
  match readRat w with
  | some q => .ok (.rat q)
  | none => .error .notARational

/-- A rational or `absent`. -/
def asOptNum (w : List Char) : Except Reject (Option Num) :=
  if w = ['a', 'b', 's', 'e', 'n', 't'] then .ok none
  else match asNum w with
    | .ok x => .ok (some x)
    | .error e => .error e

def asByte (w : List Char) : Except Reject Byte :=
  match readInt w with
  | some n => if 0 ≤ n ∧ n ≤ 0xFF then .ok (BitVec.ofInt 8 n) else .error .notAByte
  | none => .error .notAByte

def asField (w : List Char) : Except Reject Field :=
  if w = ['u', '8'] then .ok .u8
  else if w = ['u', '1', '6'] then .ok .u16
  else .error .notAField

def asBool (w : List Char) : Except Reject Bool :=
  if w = ['t', 'r', 'u', 'e'] then .ok true
  else if w = ['f', 'a', 'l', 's', 'e'] then .ok false
  else .error .badKeyword

/-- Every word of a list in the same kind. -/
def asAll {α : Type} (f : List Char → Except Reject α) : List (List Char) → Except Reject (List α)
  | [] => .ok []
  | w :: ws =>
    match f w with
    | .error e => .error e
    | .ok x =>
      match asAll f ws with
      | .ok xs => .ok (x :: xs)
      | .error e => .error e

/-- A layout operand: a field type, or a parenthesised tuple of them. -/
def asLayout (a : Arg) : Except Reject (List Field) :=
  match a with
  | .word w => asAll asField [w]
  | .tuple ws => asAll asField ws
  | .kw _ _ => .error .operandCount
  | .bytes _ => .error .operandCount

/-- Operands that are all keyword operands. -/
def asKeywords : List Arg → Except Reject (List (List Char × List Char))
  | [] => .ok []
  | .kw k v :: as =>
    match asKeywords as with
    | .ok kvs => .ok ((k, v) :: kvs)
    | .error e => .error e
  | .word _ :: _ => .error .operandCount
  | .bytes _ :: _ => .error .operandCount
  | .tuple _ :: _ => .error .operandCount

/-- The keywords are among the known ones and none is given twice. -/
def keywordsOk (known : List (List Char)) (kvs : List (List Char × List Char)) : Bool :=
  kvs.all (fun e => known.contains e.1) && decide ((kvs.map Prod.fst).Nodup)

/-- The value of a keyword that must be given. -/
def keyword (kvs : List (List Char × List Char)) (k : List Char) : Except Reject (List Char) :=
  match kvs.lookup k with
  | some v => .ok v
  | none => .error .badKeyword

def kwAddr : List Char := ['a', 'd', 'd', 'r']
def kwRef : List Char := ['r', 'e', 'f']
def kwProbe : List Char := ['p', 'r', 'o', 'b', 'e']
def kwRange : List Char := ['r', 'a', 'n', 'g', 'e']
def kwMin : List Char := ['m', 'i', 'n']
def kwMax : List Char := ['m', 'a', 'x']

/-! ### Mnemonics (R98) -/

/-- The operations by name, one per row of the table. -/
inductive Mnemonic where
  | busTryLock | busUnlock | lockAcquire | lockRelease | busProbe | busWrite | busRead | busWriteRead
  | scalarGet | scalarSet | tupleGet | tupleSet | arrayGet | arraySet
  | ctrlInit | ctrlReset | mode1Get | mode1Set | mode2Get | mode2Set | prescaleGet | prescaleSet
  | ledGet | ledSet | freqGet | freqSet | ctrlDeinit
  | chLookup | chFreqGet | chFreqSet | chDutyGet | chDutySet
  | servoInit | servoSetPulseRange | servoFractionGet | servoFractionSet | servoAngleGet | servoAngleSet
deriving DecidableEq, Repr

/-- The mnemonic as the spec spells it. -/
def Mnemonic.text (m : Mnemonic) : String :=
  match m with
  | .busTryLock => "BUS_TRY_LOCK"
  | .busUnlock => "BUS_UNLOCK"
  | .lockAcquire => "LOCK_ACQUIRE"
  | .lockRelease => "LOCK_RELEASE"
  | .busProbe => "BUS_PROBE"
  | .busWrite => "BUS_WRITE"
  | .busRead => "BUS_READ"
  | .busWriteRead => "BUS_WRITE_READ"
  | .scalarGet => "SCALAR_GET"
  | .scalarSet => "SCALAR_SET"
  | .tupleGet => "TUPLE_GET"
  | .tupleSet => "TUPLE_SET"
  | .arrayGet => "ARRAY_GET"
  | .arraySet => "ARRAY_SET"
  | .ctrlInit => "CTRL_INIT"
  | .ctrlReset => "CTRL_RESET"
  | .mode1Get => "MODE1_GET"
  | .mode1Set => "MODE1_SET"
  | .mode2Get => "MODE2_GET"
  | .mode2Set => "MODE2_SET"
  | .prescaleGet => "PRESCALE_GET"
  | .prescaleSet => "PRESCALE_SET"
  | .ledGet => "LED_GET"
  | .ledSet => "LED_SET"
  | .freqGet => "FREQ_GET"
  | .freqSet => "FREQ_SET"
  | .ctrlDeinit => "CTRL_DEINIT"
  | .chLookup => "CH_LOOKUP"
  | .chFreqGet => "CH_FREQ_GET"
  | .chFreqSet => "CH_FREQ_SET"
  | .chDutyGet => "CH_DUTY_GET"
  | .chDutySet => "CH_DUTY_SET"
  | .servoInit => "SERVO_INIT"
  | .servoSetPulseRange => "SERVO_SET_PULSE_RANGE"
  | .servoFractionGet => "SERVO_FRACTION_GET"
  | .servoFractionSet => "SERVO_FRACTION_SET"
  | .servoAngleGet => "SERVO_ANGLE_GET"
  | .servoAngleSet => "SERVO_ANGLE_SET"

/-- The mnemonics of each family (R98). -/
def busMnemonics : List Mnemonic :=
  [.busTryLock, .busUnlock, .lockAcquire, .lockRelease, .busProbe, .busWrite, .busRead, .busWriteRead]

def registerMnemonics : List Mnemonic :=
  [.scalarGet, .scalarSet, .tupleGet, .tupleSet, .arrayGet, .arraySet]

def controllerMnemonics : List Mnemonic :=
  [.ctrlInit, .ctrlReset, .mode1Get, .mode1Set, .mode2Get, .mode2Set, .prescaleGet, .prescaleSet,
    .ledGet, .ledSet, .freqGet, .freqSet, .ctrlDeinit]

def channelMnemonics : List Mnemonic := [.chLookup, .chFreqGet, .chFreqSet, .chDutyGet, .chDutySet]

def servoMnemonics : List Mnemonic :=
  [.servoInit, .servoSetPulseRange, .servoFractionGet, .servoFractionSet, .servoAngleGet, .servoAngleSet]

/-- Every mnemonic, in the table's order. -/
def allMnemonics : List Mnemonic :=
  busMnemonics ++ registerMnemonics ++ controllerMnemonics ++ channelMnemonics ++ servoMnemonics

/-- The mnemonic a word spells. -/
def readMnemonic (w : List Char) : Option Mnemonic := allMnemonics.find? fun m => m.text.toList == w

/-! ### Lines (R99, R104) -/

def args1 (as : List Arg) : Except Reject (List Char) :=
  match as with
  | [.word a] => .ok a
  | _ => .error .operandCount

def args2 (as : List Arg) : Except Reject (List Char × List Char) :=
  match as with
  | [.word a, .word b] => .ok (a, b)
  | _ => .error .operandCount

def args3 (as : List Arg) : Except Reject (List Char × List Char × List Char) :=
  match as with
  | [.word a, .word b, .word c] => .ok (a, b, c)
  | _ => .error .operandCount

/-- The operations with no result are not bound to a name. -/
def noDst (dst : Option Name) : Except Reject Unit :=
  match dst with
  | none => .ok ()
  | some _ => .error .noResult

/-- `c` -/
def lineC (g : AgentId) (as : List Arg) : Except Reject ObjRef := do
  let a ← args1 as
  asRef g a

/-- `c, n` with an integer -/
def lineCI (g : AgentId) (as : List Arg) : Except Reject (ObjRef × Int) := do
  let (a, b) ← args2 as
  let c ← asRef g a
  let n ← asInt b
  .ok (c, n)

/-- `c, x` with a rational -/
def lineCN (g : AgentId) (as : List Arg) : Except Reject (ObjRef × Num) := do
  let (a, b) ← args2 as
  let c ← asRef g a
  let x ← asNum b
  .ok (c, x)

/-- `s, x` with a rational or `absent` -/
def lineCO (g : AgentId) (as : List Arg) : Except Reject (ObjRef × Option Num) := do
  let (a, b) ← args2 as
  let c ← asRef g a
  let x ← asOptNum b
  .ok (c, x)

/-- The operands of `BUS_WRITE`: omitted `st, en` mean the whole buffer (R127). They are given both or not at all; a
line with one of them is ill-formed (DESIGN CHOICE, log entry 36). -/
def lineBusWrite (g : AgentId) (as : List Arg) : Except Reject Instr :=
  match as with
  | [.word c, .bytes ws] => do
    let c ← asRef g c
    let bs ← asAll asByte ws
    .ok (.busWrite c bs 0 bs.length)
  | [.word c, .bytes ws, .word st, .word en] => do
    let c ← asRef g c
    let bs ← asAll asByte ws
    let st ← asInt st
    let en ← asInt en
    .ok (.busWrite c bs st en)
  | _ => .error .operandCount

def lineBusWriteRead (g : AgentId) (dst : Option Name) (as : List Arg) : Except Reject Instr :=
  match as with
  | [.word c, .bytes ws, .word m] => do
    let c ← asRef g c
    let bs ← asAll asByte ws
    let m ← asInt m
    .ok (.busWriteRead dst c bs m)
  | _ => .error .operandCount

def lineScalarGet (g : AgentId) (dst : Option Name) (as : List Arg) : Except Reject Instr := do
  let (c, a, f) ← args3 as
  let c ← asRef g c
  let a ← asInt a
  let f ← asField f
  .ok (.scalarGet dst c a f)

def lineScalarSet (g : AgentId) (as : List Arg) : Except Reject Instr :=
  match as with
  | [.word c, .word a, .word f, .word v] => do
    let c ← asRef g c
    let a ← asInt a
    let f ← asField f
    let v ← asInt v
    .ok (.scalarSet c a f v)
  | _ => .error .operandCount

def lineTupleGet (g : AgentId) (dst : Option Name) (as : List Arg) : Except Reject Instr :=
  match as with
  | [.word c, .word a, fs] => do
    let c ← asRef g c
    let a ← asInt a
    let fs ← asLayout fs
    .ok (.tupleGet dst c a fs)
  | _ => .error .operandCount

def lineTupleSet (g : AgentId) (as : List Arg) : Except Reject Instr :=
  match as with
  | [.word c, .word a, fs, .tuple vs] => do
    let c ← asRef g c
    let a ← asInt a
    let fs ← asLayout fs
    let vs ← asAll asInt vs
    .ok (.tupleSet c a fs vs)
  | _ => .error .operandCount

def lineArrayGet (g : AgentId) (dst : Option Name) (as : List Arg) : Except Reject Instr :=
  match as with
  | [.word c, .word b, fs, .word n, .word i] => do
    let c ← asRef g c
    let b ← asInt b
    let fs ← asLayout fs
    let n ← asInt n
    let i ← asInt i
    .ok (.arrayGet dst c b fs n i)
  | _ => .error .operandCount

def lineArraySet (g : AgentId) (as : List Arg) : Except Reject Instr :=
  match as with
  | [.word c, .word b, fs, .word n, .word i, .tuple vs] => do
    let c ← asRef g c
    let b ← asInt b
    let fs ← asLayout fs
    let n ← asInt n
    let i ← asInt i
    let vs ← asAll asInt vs
    .ok (.arraySet c b fs n i vs)
  | _ => .error .operandCount

def lineLedSet (g : AgentId) (as : List Arg) : Except Reject Instr :=
  match as with
  | [.word c, .word n, .tuple [on, off]] => do
    let c ← asRef g c
    let n ← asInt n
    let on ← asInt on
    let off ← asInt off
    .ok (.ledSet c n on off)
  | _ => .error .operandCount

/-- `addr=A, ref=F, probe=P`; an omitted `ref` is its default (R160). -/
def lineCtrlInit (dst : Option Name) (as : List Arg) : Except Reject Instr := do
  let kvs ← asKeywords as
  if keywordsOk [kwAddr, kwRef, kwProbe] kvs then
    let a ← keyword kvs kwAddr
    let a ← asInt a
    let F ← match kvs.lookup kwRef with
      | some w => asNum w
      | none => .ok (.rat Config.refClkDefault)
    let p ← keyword kvs kwProbe
    let p ← asBool p
    .ok (.ctrlInit dst a F p)
  else .error .badKeyword

/-- `ch, range=A, min=P0, max=P1` (R210). -/
def lineServoInit (g : AgentId) (dst : Option Name) (as : List Arg) : Except Reject Instr :=
  match as with
  | .word c :: rest => do
    let c ← asRef g c
    let kvs ← asKeywords rest
    if keywordsOk [kwRange, kwMin, kwMax] kvs then
      let a ← keyword kvs kwRange
      let a ← asNum a
      let p0 ← keyword kvs kwMin
      let p0 ← asNum p0
      let p1 ← keyword kvs kwMax
      let p1 ← asNum p1
      .ok (.servoInit dst c a p0 p1)
    else .error .badKeyword
  | _ => .error .operandCount

def lineServoPulse (g : AgentId) (as : List Arg) : Except Reject Instr := do
  let (c, a, b) ← args3 as
  let c ← asRef g c
  let a ← asNum a
  let b ← asNum b
  .ok (.servoSetPulseRange c a b)

/-- The operation of a mnemonic with its operands, for a line of agent `g` (R99, R104). -/
def readOperation (g : AgentId) (dst : Option Name) (m : Mnemonic) (as : List Arg) : Except Reject Instr :=
  match m with
  | .busTryLock => do let c ← lineC g as; .ok (.busTryLock dst c)
  | .busUnlock => do noDst dst; let c ← lineC g as; .ok (.busUnlock c)
  | .lockAcquire => do noDst dst; let c ← lineC g as; .ok (.lockAcquire c)
  | .lockRelease => do noDst dst; let c ← lineC g as; .ok (.lockRelease c)
  | .busProbe => do noDst dst; let c ← lineC g as; .ok (.busProbe c)
  | .busWrite => do noDst dst; lineBusWrite g as
  | .busRead => do let (c, n) ← lineCI g as; .ok (.busRead dst c n)
  | .busWriteRead => lineBusWriteRead g dst as
  | .scalarGet => lineScalarGet g dst as
  | .scalarSet => do noDst dst; lineScalarSet g as
  | .tupleGet => lineTupleGet g dst as
  | .tupleSet => do noDst dst; lineTupleSet g as
  | .arrayGet => lineArrayGet g dst as
  | .arraySet => do noDst dst; lineArraySet g as
  | .ctrlInit => lineCtrlInit dst as
  | .ctrlReset => do noDst dst; let c ← lineC g as; .ok (.ctrlReset c)
  | .mode1Get => do let c ← lineC g as; .ok (.mode1Get dst c)
  | .mode1Set => do noDst dst; let (c, n) ← lineCI g as; .ok (.mode1Set c n)
  | .mode2Get => do let c ← lineC g as; .ok (.mode2Get dst c)
  | .mode2Set => do noDst dst; let (c, n) ← lineCI g as; .ok (.mode2Set c n)
  | .prescaleGet => do let c ← lineC g as; .ok (.prescaleGet dst c)
  | .prescaleSet => do noDst dst; let (c, n) ← lineCI g as; .ok (.prescaleSet c n)
  | .ledGet => do let (c, n) ← lineCI g as; .ok (.ledGet dst c n)
  | .ledSet => do noDst dst; lineLedSet g as
  | .freqGet => do let c ← lineC g as; .ok (.freqGet dst c)
  | .freqSet => do noDst dst; let (c, x) ← lineCN g as; .ok (.freqSet c x)
  | .ctrlDeinit => do noDst dst; let c ← lineC g as; .ok (.ctrlDeinit c)
  | .chLookup => do let (c, n) ← lineCI g as; .ok (.chLookup dst c n)
  | .chFreqGet => do let c ← lineC g as; .ok (.chFreqGet dst c)
  | .chFreqSet => do noDst dst; let (c, x) ← lineCN g as; .ok (.chFreqSet c x)
  | .chDutyGet => do let c ← lineC g as; .ok (.chDutyGet dst c)
  | .chDutySet => do noDst dst; let (c, n) ← lineCI g as; .ok (.chDutySet c n)
  | .servoInit => lineServoInit g dst as
  | .servoSetPulseRange => do noDst dst; lineServoPulse g as
  | .servoFractionGet => do let c ← lineC g as; .ok (.servoFractionGet dst c)
  | .servoFractionSet => do noDst dst; let (c, x) ← lineCO g as; .ok (.servoFractionSet c x)
  | .servoAngleGet => do let c ← lineC g as; .ok (.servoAngleGet dst c)
  | .servoAngleSet => do noDst dst; let (c, x) ← lineCO g as; .ok (.servoAngleSet c x)

/-- The mnemonic and operands of a line, after its binding. -/
def readBound (g : AgentId) (dst : Option Name) (ts : List Tok) : Except Reject Instr :=
  match ts with
  | .word w :: rest =>
    match readMnemonic w with
    | none => .error .unknownMnemonic
    | some m =>
      match readArgs rest.length rest with
      | .ok as => readOperation g dst m as
      | .error e => .error e
  | _ => .error .badForm

/-- The tokens of a line: `[name :=] MNEMONIC operand, operand, ...`. -/
def readTokens (g : AgentId) (ts : List Tok) : Except Reject Instr :=
  match ts with
  | .word n :: .colon :: .eq :: rest =>
    match asName n with
    | .ok n => readBound g (some n) rest
    | .error e => .error e
  | _ => readBound g none ts

/-- The operation of one line of agent `g`'s program text (R99, R104). -/
def decodeLine (g : AgentId) (line : List Char) : Except Reject Instr :=
  match lexLine [] line with
  | .ok ts => readTokens g ts
  | .error e => .error e

/-- The character of a byte of program text. -/
def byteChar (b : Byte) : Char := Char.ofNat b.toNat

/-- The operation that the bytes of one line are, or why they are none. -/
def decode (g : AgentId) (line : List Byte) : Except Reject Instr := decodeLine g (line.map byteChar)

/-- The lines of a program text. -/
def splitLines : List Char → List (List Char)
  | [] => [[]]
  | c :: cs =>
    if c = '\n' then [] :: splitLines cs
    else match splitLines cs with
      | l :: ls => (c :: l) :: ls
      | [] => [[c]]

/-- The line holds nothing but blanks and a comment: it is no operation. -/
def blankLine (line : List Char) : Bool := decide (lexLine [] line = .ok [])

/-! ### Writing lines (R99) -/

/-- The digit of a value below ten. -/
def digitChar (n : Nat) : Char := Char.ofNat (48 + n)

/-- Decimal digits before the digits written so far; `fuel` bounds their number. -/
def writeDigits : (fuel : Nat) → Nat → List Char → List Char
  | 0, _, acc => acc
  | fuel + 1, n, acc =>
    if n < 10 then digitChar n :: acc else writeDigits fuel (n / 10) (digitChar (n % 10) :: acc)

def writeNat (n : Nat) : List Char := writeDigits (n + 1) n []

def writeInt (n : Int) : List Char :=
  match n with
  | .ofNat k => writeNat k
  | .negSucc k => '-' :: writeNat (k + 1)

def writeRat (q : Rat) : List Char := writeInt q.num ++ '/' :: writeNat q.den

def writeNum (x : Num) : List Char :=
  match x with
  | .rat q => writeRat q
  | .negZero => []
  | .inf _ => []
  | .nan => []

def writeOptNum (x : Option Num) : List Char :=
  match x with
  | some y => writeNum y
  | none => ['a', 'b', 's', 'e', 'n', 't']

def writeField (f : Field) : List Char :=
  match f with
  | .u8 => ['u', '8']
  | .u16 => ['u', '1', '6']

def writeBool (b : Bool) : List Char := if b then ['t', 'r', 'u', 'e'] else ['f', 'a', 'l', 's', 'e']

def writeByte (b : Byte) : List Char := writeNat b.toNat

def layoutArg (fs : List Field) : Arg := .tuple (fs.map writeField)
def intsArg (vs : List Int) : Arg := .tuple (vs.map writeInt)
def bytesArg (bs : List Byte) : Arg := .bytes (bs.map writeByte)
def intArg (n : Int) : Arg := .word (writeInt n)
def numArg (x : Num) : Arg := .word (writeNum x)
def refArg (r : ObjRef) : Arg := .word r.name

/-- The binding, the mnemonic and the operands of an operation's line. -/
def Instr.parts (i : Instr) : Option Name × Mnemonic × List Arg :=
  match i with
  | .busTryLock dst c => (dst, .busTryLock, [refArg c])
  | .busUnlock c => (none, .busUnlock, [refArg c])
  | .lockAcquire c => (none, .lockAcquire, [refArg c])
  | .lockRelease c => (none, .lockRelease, [refArg c])
  | .busProbe c => (none, .busProbe, [refArg c])
  | .busWrite c buf st en => (none, .busWrite, [refArg c, bytesArg buf, intArg st, intArg en])
  | .busRead dst c m => (dst, .busRead, [refArg c, intArg m])
  | .busWriteRead dst c out m => (dst, .busWriteRead, [refArg c, bytesArg out, intArg m])
  | .scalarGet dst c addr f => (dst, .scalarGet, [refArg c, intArg addr, .word (writeField f)])
  | .scalarSet c addr f v => (none, .scalarSet, [refArg c, intArg addr, .word (writeField f), intArg v])
  | .tupleGet dst c addr fs => (dst, .tupleGet, [refArg c, intArg addr, layoutArg fs])
  | .tupleSet c addr fs vs => (none, .tupleSet, [refArg c, intArg addr, layoutArg fs, intsArg vs])
  | .arrayGet dst c base fs count n =>
    (dst, .arrayGet, [refArg c, intArg base, layoutArg fs, intArg count, intArg n])
  | .arraySet c base fs count n vs =>
    (none, .arraySet, [refArg c, intArg base, layoutArg fs, intArg count, intArg n, intsArg vs])
  | .ctrlInit dst addr ref probe =>
    (dst, .ctrlInit, [.kw kwAddr (writeInt addr), .kw kwRef (writeNum ref), .kw kwProbe (writeBool probe)])
  | .ctrlReset c => (none, .ctrlReset, [refArg c])
  | .mode1Get dst c => (dst, .mode1Get, [refArg c])
  | .mode1Set c v => (none, .mode1Set, [refArg c, intArg v])
  | .mode2Get dst c => (dst, .mode2Get, [refArg c])
  | .mode2Set c v => (none, .mode2Set, [refArg c, intArg v])
  | .prescaleGet dst c => (dst, .prescaleGet, [refArg c])
  | .prescaleSet c v => (none, .prescaleSet, [refArg c, intArg v])
  | .ledGet dst c n => (dst, .ledGet, [refArg c, intArg n])
  | .ledSet c n on off => (none, .ledSet, [refArg c, intArg n, intsArg [on, off]])
  | .freqGet dst c => (dst, .freqGet, [refArg c])
  | .freqSet c freq => (none, .freqSet, [refArg c, numArg freq])
  | .ctrlDeinit c => (none, .ctrlDeinit, [refArg c])
  | .chLookup dst c n => (dst, .chLookup, [refArg c, intArg n])
  | .chFreqGet dst ch => (dst, .chFreqGet, [refArg ch])
  | .chFreqSet ch f => (none, .chFreqSet, [refArg ch, numArg f])
  | .chDutyGet dst ch => (dst, .chDutyGet, [refArg ch])
  | .chDutySet ch v => (none, .chDutySet, [refArg ch, intArg v])
  | .servoInit dst ch range min max =>
    (dst, .servoInit, [refArg ch, .kw kwRange (writeNum range), .kw kwMin (writeNum min), .kw kwMax (writeNum max)])
  | .servoSetPulseRange sv min max => (none, .servoSetPulseRange, [refArg sv, numArg min, numArg max])
  | .servoFractionGet dst sv => (dst, .servoFractionGet, [refArg sv])
  | .servoFractionSet sv v => (none, .servoFractionSet, [refArg sv, .word (writeOptNum v)])
  | .servoAngleGet dst sv => (dst, .servoAngleGet, [refArg sv])
  | .servoAngleSet sv a => (none, .servoAngleSet, [refArg sv, .word (writeOptNum a)])

/-- The words of a bracket and its closing token. -/
def groupToks (close : Tok) : List (List Char) → List Tok
  | [] => [close]
  | [w] => [.word w, close]
  | w :: ws => .word w :: .comma :: groupToks close ws

def Arg.toks (a : Arg) : List Tok :=
  match a with
  | .word w => [.word w]
  | .kw k v => [.word k, .eq, .word v]
  | .bytes ws => .lbrk :: groupToks .rbrk ws
  | .tuple ws => .lpar :: groupToks .rpar ws

/-- The operands separated by commas. -/
def argsToks : List Arg → List Tok
  | [] => []
  | [a] => a.toks
  | a :: as => a.toks ++ .comma :: argsToks as

/-- The tokens of an operation's line. -/
def Instr.toks (i : Instr) : List Tok :=
  let body := Tok.word (i.parts.2.1.text.toList) :: argsToks i.parts.2.2
  match i.parts.1 with
  | none => body
  | some n => .word n :: .colon :: .eq :: body

/-- The characters of a token. -/
def Tok.chars (t : Tok) : List Char :=
  match t with
  | .word cs => cs
  | .colon => [':']
  | .comma => [',']
  | .eq => ['=']
  | .lpar => ['(']
  | .rpar => [')']
  | .lbrk => ['[']
  | .rbrk => [']']

/-- A token list as text, a blank after each token but the colon of `:=`. -/
def toksChars : List Tok → List Char
  | [] => []
  | t :: ts => t.chars ++ (if t = .colon then toksChars ts else ' ' :: toksChars ts)

/-- The line of an operation (R99). -/
def encodeLine (i : Instr) : List Char := toksChars i.toks

/-- The bytes of an operation's line. -/
def encode (i : Instr) : List Byte := (encodeLine i).map fun c => BitVec.ofNat 8 c.toNat

end Sys2Proof
end

