-- ==== Sys2Proof/Machine/Program.lean ====
section
/-! DEFINITION. How a program text becomes an agent's program (R99, R104). -/

namespace Sys2Proof.Machine

open Sys2Proof

/-- The program of a text, for agent `g`: one entry a line, blank and comment lines left out (R99, R104). -/
def readProgram (g : AgentId) (text : List Byte) : List Slot :=
  ((splitLines (text.map byteChar)).filter fun l => !blankLine l).map fun l =>
    match decodeLine g l with
    | .ok i => .op i
    | .error e => .illFormed e

/-- Agent `g` launched with a program text (R104, R270), in a machine that has not started. -/
def State.loadProgram (s : State) (g : AgentId) (text : List Byte) : State :=
  s.setAgent g (AgentState.launch (readProgram g text))

end Sys2Proof.Machine
end

