-- ==== Sys2Proof/Machine/Step.lean ====
section
/-! DEFINITION. One step of the machine, and how a program comes to be in an agent. -/

namespace Sys2Proof.Machine

open Sys2Proof

/-- The turn passes after an agent's step. -/
def andPassTurn (o : Host.Outcome State Fault Refusal) : Host.Outcome State Fault Refusal :=
  match o with
  | .next s => .next s.passTurn
  | .fault f => .fault f
  | .refused r => .refused r

/-- One step of the machine: one step of the agent whose turn it is (R10). A running agent steps inside the
operation at its `pc`; a line that is no operation is refused (R248); at the end of its program it ends (R30,
R130). An agent that has stopped takes no step (R30, R244): the turn passes on. -/
def step (s : State) : Host.Outcome State Fault Refusal :=
  match s.me.status with
  | .running =>
    match s.fetch with
    | some (.op i) => andPassTurn (exec i s)
    | some (.illFormed _) => .next s.refuseOp.passTurn
    | none => .next s.endProgram.passTurn
  | .ended => .next s.passTurn
  | .errored _ => .next s.passTurn
  | .faulted => .next s.passTurn
  | .refused => .next s.passTurn

/-- The table word's operation placed where agent 0, whose object it names (`tableRef`), fetches next: the last
entry of its program, the agent running with no operation in progress, and its turn the next. -/
def State.withFetchWord (s : State) (nbits w : Nat) : State :=
  ({ s with turn := tableRef.agent } : State).updMe fun a =>
    { a with
      prog := a.prog.take a.pc ++
        [match decodeTableWord nbits w with
          | some i => .op i
          | none => .illFormed .notAnAccess]
      pc := (a.prog.take a.pc).length
      status := .running
      phase := .idle }

end Sys2Proof.Machine
end

