-- ==== Sys2Proof/Safety.lean ====
section
/-! DEFINITION. The terms in which claims speak: an operation run to its end, the premises of a run, who owns
which object, what a run leaves, the invariants of the machine, safe and final states. -/

namespace Sys2Proof.Machine

open Sys2Proof

/-! ### Running an operation -/

/-- The script of an operation in a state: what its rule does, in order. -/
def scriptOf (i : Instr) (s : State) : Script :=
  match i with
  | .busTryLock dst c => busTryLockScript dst c s
  | .busUnlock c => busUnlockScript c s
  | .lockAcquire c => lockAcquireScript c s
  | .lockRelease c => lockReleaseScript c s
  | .busProbe c => busProbeScript c s
  | .busWrite c buf st en => busWriteScript c buf st en s
  | .busRead dst c m => busReadScript dst c m s
  | .busWriteRead dst c out m => busWriteReadScript dst c out m s
  | .scalarGet dst c addr f => scalarGetScript dst c addr f s
  | .scalarSet c addr f v => scalarSetScript c addr f v s
  | .tupleGet dst c addr fs => tupleGetScript dst c addr fs s
  | .tupleSet c addr fs vs => tupleSetScript c addr fs vs s
  | .arrayGet dst c base fs count n => arrayGetScript dst c base fs count n s
  | .arraySet c base fs count n vs => arraySetScript c base fs count n vs s
  | .ctrlInit dst addr ref probe => ctrlInitScript dst addr ref probe s
  | .ctrlReset c => ctrlResetScript c s
  | .mode1Get dst c => mode1GetScript dst c s
  | .mode1Set c v => mode1SetScript c v s
  | .mode2Get dst c => mode2GetScript dst c s
  | .mode2Set c v => mode2SetScript c v s
  | .prescaleGet dst c => prescaleGetScript dst c s
  | .prescaleSet c v => prescaleSetScript c v s
  | .ledGet dst c n => ledGetScript dst c n s
  | .ledSet c n on off => ledSetScript c n on off s
  | .freqGet dst c => freqGetScript dst c s
  | .freqSet c freq => freqSetScript c freq s
  | .ctrlDeinit c => ctrlDeinitScript c s
  | .chLookup dst c n => chLookupScript dst c n s
  | .chFreqGet dst ch => chFreqGetScript dst ch s
  | .chFreqSet ch f => chFreqSetScript ch f s
  | .chDutyGet dst ch => chDutyGetScript dst ch s
  | .chDutySet ch v => chDutySetScript ch v s
  | .servoInit dst ch range min max => servoInitScript dst ch range min max s
  | .servoSetPulseRange sv min max => servoSetPulseRangeScript sv min max s
  | .servoFractionGet dst sv => servoFractionGetScript dst sv s
  | .servoFractionSet sv v => servoFractionSetScript sv v s
  | .servoAngleGet dst sv => servoAngleGetScript dst sv s
  | .servoAngleSet sv a => servoAngleSetScript sv a s

/-- `n` steps of the stepping agent inside operation `i`, no other agent stepping between them, lead from `s`
to `t`: `exec` answers a next state each time. -/
def Runs (i : Instr) : Nat → State → State → Prop
  | 0, s, t => t = s
  | n + 1, s, t => ∃ u, exec i s = .next u ∧ Runs i n u t

/-! ### Premises -/

/-- The stepping agent is between operations, and the bus lock is free. (Its `holding` may still be set, where another
agent has unlocked its lock: that it then takes the lock as R120 says is log entry 39.) -/
structure Ready (s : State) : Prop where
  idle : s.me.phase = .idle
  free : s.lock = .free

/-- ReliableTransport (R66) for the next `n` primitives: the choices already named, and every later one where
fewer are named, are `ok`. -/
def Oracle.Reliable (n : Nat) (o : Oracle) : Prop :=
  (∀ r ∈ o.results.take n, r = true) ∧
  (o.results.length < n → ∀ k, o.drawn ≤ k → Config.transportDraw k = true)

/-! ### Ownership -/

/-- `c` names the stepping agent's live controller `ctl`, which is its object `ci`. -/
structure OwnsCtrl (s : State) (c : ObjRef) (ci : ObjId) (ctl : Controller) : Prop where
  named : s.resolve c = some ci
  object : s.object ci = some (.controller ctl)
  live : ctl.live = true

/-- `r` names the stepping agent's channel handle `h`, its object `hi`, of the live controller `ctl`. -/
structure OwnsChan (s : State) (r : ObjRef) (hi : ObjId) (h : Channel) (ctl : Controller) : Prop where
  named : s.resolve r = some hi
  object : s.object hi = some (.channel h)
  controller : s.object h.controller = some (.controller ctl)
  live : ctl.live = true

/-- `r` names the stepping agent's servo `sv`, its object `si`, on the channel handle `h` of the live
controller `ctl`. -/
structure OwnsServo (s : State) (r : ObjRef) (si : ObjId) (sv : Servo) (h : Channel) (ctl : Controller) :
    Prop where
  named : s.resolve r = some si
  object : s.object si = some (.servo sv)
  channel : s.object sv.channel = some (.channel h)
  controller : s.object h.controller = some (.controller ctl)
  live : ctl.live = true

/-- The object operand of an operation; `CTRL_INIT` has none. -/
def operandRef (i : Instr) : Option ObjRef :=
  match i with
  | .busTryLock _ c => some c
  | .busUnlock c => some c
  | .lockAcquire c => some c
  | .lockRelease c => some c
  | .busProbe c => some c
  | .busWrite c _ _ _ => some c
  | .busRead _ c _ => some c
  | .busWriteRead _ c _ _ => some c
  | .scalarGet _ c _ _ => some c
  | .scalarSet c _ _ _ => some c
  | .tupleGet _ c _ _ => some c
  | .tupleSet c _ _ _ => some c
  | .arrayGet _ c _ _ _ _ => some c
  | .arraySet c _ _ _ _ _ => some c
  | .ctrlInit _ _ _ _ => none
  | .ctrlReset c => some c
  | .mode1Get _ c => some c
  | .mode1Set c _ => some c
  | .mode2Get _ c => some c
  | .mode2Set c _ => some c
  | .prescaleGet _ c => some c
  | .prescaleSet c _ => some c
  | .ledGet _ c _ => some c
  | .ledSet c _ _ _ => some c
  | .freqGet _ c => some c
  | .freqSet c _ => some c
  | .ctrlDeinit c => some c
  | .chLookup _ c _ => some c
  | .chFreqGet _ ch => some ch
  | .chFreqSet ch _ => some ch
  | .chDutyGet _ ch => some ch
  | .chDutySet ch _ => some ch
  | .servoInit _ ch _ _ _ => some ch
  | .servoSetPulseRange sv _ _ => some sv
  | .servoFractionGet _ sv => some sv
  | .servoFractionSet sv _ => some sv
  | .servoAngleGet _ sv => some sv
  | .servoAngleSet sv _ => some sv

/-- The kind of object an operand names. -/
inductive OperandKind where
  | none
  | controller
  | channel
  | servo
deriving DecidableEq, Repr

/-- The kind of an object. -/
def Object.kind (o : Object) : OperandKind :=
  match o with
  | .controller _ => .controller
  | .channel _ => .channel
  | .servo _ => .servo

/-- The kind of an operation's object operand (40_buslock.md to 44_servo.md). -/
def operandKind (i : Instr) : OperandKind :=
  match i with
  | .ctrlInit _ _ _ _ => .none
  | .chFreqGet _ _ => .channel
  | .chFreqSet _ _ => .channel
  | .chDutyGet _ _ => .channel
  | .chDutySet _ _ => .channel
  | .servoInit _ _ _ _ _ => .channel
  | .servoSetPulseRange _ _ _ => .servo
  | .servoFractionGet _ _ => .servo
  | .servoFractionSet _ _ => .servo
  | .servoAngleGet _ _ => .servo
  | .servoAngleSet _ _ => .servo
  | .busTryLock _ _ => .controller
  | .busUnlock _ => .controller
  | .lockAcquire _ => .controller
  | .lockRelease _ => .controller
  | .busProbe _ => .controller
  | .busWrite _ _ _ _ => .controller
  | .busRead _ _ _ => .controller
  | .busWriteRead _ _ _ _ => .controller
  | .scalarGet _ _ _ _ => .controller
  | .scalarSet _ _ _ _ => .controller
  | .tupleGet _ _ _ _ => .controller
  | .tupleSet _ _ _ _ => .controller
  | .arrayGet _ _ _ _ _ _ => .controller
  | .arraySet _ _ _ _ _ _ => .controller
  | .ctrlReset _ => .controller
  | .mode1Get _ _ => .controller
  | .mode1Set _ _ => .controller
  | .mode2Get _ _ => .controller
  | .mode2Set _ _ => .controller
  | .prescaleGet _ _ => .controller
  | .prescaleSet _ _ => .controller
  | .ledGet _ _ _ => .controller
  | .ledSet _ _ _ _ => .controller
  | .freqGet _ _ => .controller
  | .freqSet _ _ => .controller
  | .ctrlDeinit _ => .controller
  | .chLookup _ _ _ => .controller

/-- The operand, object `oi`, is controller `ci`, or a channel handle of it, or a servo on such a handle, as the
kind of operand asks. -/
def standsOn (s : State) (kind : OperandKind) (oi ci : ObjId) : Prop :=
  match kind with
  | .none => False
  | .controller => oi = ci
  | .channel => ∃ h, s.object oi = some (.channel h) ∧ h.controller = ci
  | .servo => ∃ sv h, s.object oi = some (.servo sv) ∧ s.object sv.channel = some (.channel h) ∧ h.controller = ci

/-- A call on a controller that nothing disturbs: the agent is between operations, the lock is free, `c` is a
live controller of the agent, its device is present with registers `r`, and the next transport result is
`ok`. -/
structure CtrlCall (s : State) (c : ObjRef) (ci : ObjId) (ctl : Controller) (r : DeviceRegs) : Prop where
  ready : Ready s
  owns : OwnsCtrl s c ci ctl
  present : s.device ctl.devAddr = some r
  reliable : s.oracle.drawResult.1 = true

/-- A call on a channel handle that nothing disturbs. -/
structure ChanCall (s : State) (c : ObjRef) (hi : ObjId) (h : Channel) (ctl : Controller) (r : DeviceRegs) :
    Prop where
  ready : Ready s
  owns : OwnsChan s c hi h ctl
  present : s.device ctl.devAddr = some r
  reliable : s.oracle.drawResult.1 = true

/-- A call on a servo that nothing disturbs. -/
structure ServoCall (s : State) (c : ObjRef) (si : ObjId) (sv : Servo) (h : Channel) (ctl : Controller)
    (r : DeviceRegs) : Prop where
  ready : Ready s
  owns : OwnsServo s c si sv h ctl
  present : s.device ctl.devAddr = some r
  reliable : s.oracle.drawResult.1 = true

/-! ### What a run leaves -/

/-- `t` is `s` but for: the lock, the faults added, the events appended, the devices, and the stepping agent.
The free choices used up are the model's own and are left out. -/
structure Leaves (s t : State) (lock : Lock) (faults : List ModelFault) (events : List Event)
    (dev : DevAddr → Option DeviceRegs) (me : AgentState) : Prop where
  params : t.params = s.params
  lock : t.lock = lock
  devices : ∀ d, t.device d = dev d
  faults : ∀ f, f ∈ t.faults ↔ f ∈ s.faults ∨ f ∈ faults
  refused : t.refused = s.refused
  history : t.history = s.history ++ events
  turn : t.turn = s.turn
  me : t.me = me
  others : ∀ g, g ≠ s.turn → t.agent g = s.agent g

/-- The agent was stopped before any bus traffic, in status `st`: `t` is `s` but for the agent, the faults added and
the refusal mark, and a lock that the agent held is released by the scope guard (R130, R244, R247, R248). -/
structure Aborts (s t : State) (st : Status) (faults : List ModelFault) (refused : Bool) : Prop where
  params : t.params = s.params
  lock : t.lock = if s.lock = .held s.turn then .free else s.lock
  devices : t.dev = s.dev
  faults : ∀ f, f ∈ t.faults ↔ f ∈ s.faults ∨ f ∈ faults
  refused : t.refused = (s.refused || refused)
  history : t.history = s.history ++ if s.lock = .held s.turn then [.release s.turn] else []
  turn : t.turn = s.turn
  me : t.me =
    { s.me with
      status := st
      phase := .idle
      holding := if s.lock = .held s.turn then false else s.me.holding }
  others : ∀ g, g ≠ s.turn → t.agent g = s.agent g

/-- The next step of the stepping agent, inside operation `i`, issues primitive `p` to device `d`, through the transfer
buffer of controller `via` where there is one: the primitive of a transaction (R126), or the zero-length write or the
one-byte read of a probe (R124). -/
inductive Issues (i : Instr) (s : State) (d : DevAddr) : Option ObjId → Prim → Prop where
  | transact (rs : List (List Byte)) (via : Option ObjId) (p : Prim) (k : List Byte → Script) :
      s.me.phase = .body rs → (scriptOf i s).resume rs = some (.transact d via p k) → Issues i s d via p
  | probeWrite (rs : List (List Byte)) (k : Script) :
      s.me.phase = .body rs → (scriptOf i s).resume rs = some (.probe d k) → Issues i s d none (Prim.write [])
  | probeRead (rs : List (List Byte)) (k : Script) :
      s.me.phase = .probeRead rs → (scriptOf i s).resume rs = some (.probe d k) → Issues i s d none (Prim.read 1)

/-- The devices of `s` with the registers of device `d` replaced. -/
def devWith (s : State) (d : DevAddr) (r : DeviceRegs) : DevAddr → Option DeviceRegs :=
  fun e => if e = d then some r else s.device e

/-- The events of one lock hold with one primitive (R126). -/
def heldTx (g : AgentId) (d : DevAddr) (kind : TxKind) (out inp : List Byte) (ok : Bool) : List Event :=
  [.acquire g, .tx g d kind out inp ok, .release g]

/-- The agent after an operation that is done and used no lock: `pc` advanced, the rest as it was. -/
def AgentState.advanced (a : AgentState) : AgentState := { a with pc := a.pc + 1, phase := .idle }

/-- The agent after an operation that is done and acquired the lock: `pc` advanced, nothing held, no failed
attempt in its last acquire. -/
def AgentState.done (a : AgentState) : AgentState :=
  { a with pc := a.pc + 1, phase := .idle, holding := false, attempts := 0 }

/-- The agent stopped in a status by an operation that acquired the lock: `pc` as it was (R244). -/
def AgentState.stopped (a : AgentState) (st : Status) : AgentState :=
  { a with status := st, phase := .idle, holding := false, attempts := 0 }

/-- The agent stopped in a status by an operation that did not reach the lock. -/
def AgentState.halted (a : AgentState) (st : Status) : AgentState := { a with status := st, phase := .idle }

/-- The agent with a result bound. -/
def AgentState.bound (a : AgentState) (dst : Option Name) (v : Value) : AgentState :=
  { a with results := bindName a.results dst v }

/-- The agent with a new object, bound to a name. -/
def AgentState.withNew (a : AgentState) (dst : Option Name) (o : Object) : AgentState :=
  { a with objs := a.objs ++ [o], names := bindName a.names dst a.objs.length }

/-- The agent with an object replaced. -/
def AgentState.withObj (a : AgentState) (i : ObjId) (o : Object) : AgentState := { a with objs := a.objs.set i o }

/-- The agent with the bytes of the last transfer in the transfer buffer of its controller `ci` (R150). -/
def AgentState.withBuf (a : AgentState) (ci : ObjId) (ctl : Controller) (bs : List Byte) : AgentState :=
  a.withObj ci (.controller { ctl with buf := fillBuf ctl.buf bs })

/-- The objects with the transfer buffer of controller `via` filled from its start (R31, R150). -/
def stageObjs (objs : List Object) (via : Option ObjId) (bs : List Byte) : List Object :=
  match via with
  | none => objs
  | some c =>
    match objs[c]? with
    | some (.controller ctl) => objs.set c (.controller { ctl with buf := fillBuf ctl.buf bs })
    | _ => objs

/-- The objects after an operation has built the buffer of its script's first transaction (R141, R150). -/
def Script.builtObjs (sc : Script) (objs : List Object) : List Object :=
  match sc with
  | .transact _ via p _ => stageObjs objs via (builtBuf p)
  | _ => objs

/-- The pointer of a device advances after each byte (R62). -/
def DeviceRegs.adv (r : DeviceRegs) (P : Params) : Bool := advances P (r.read regMode1)

/-! ### Registers -/

/-- A byte that reading register `a` may return: the stored byte, MODE1's volatile bits free (R64). -/
def readsAs (P : Params) (r : DeviceRegs) (a b : Byte) : Prop :=
  if a = regMode1 then
    ∃ draw : Byte, b = (r.read regMode1 &&& ~~~ P.mode1VolatileMask) ||| (draw &&& P.mode1VolatileMask)
  else b = r.read a

/-- The address of the `k`-th byte read from address `a` on (R62). -/
def readAddr (adv : Bool) (a : Byte) (k : Nat) : Byte := if adv then a + BitVec.ofNat 8 k else a

/-- The bytes are what a read from address `a` on may return (R62, R64). -/
def ReadsFrom (P : Params) (r : DeviceRegs) (a : Byte) (bs : List Byte) : Prop :=
  ∀ k (h : k < bs.length), readsAs P r (readAddr (r.adv P) a k) bs[k]

/-- What register `x` holds after a successful write of `out` (R61): the last data byte stored there, else what
it held. -/
def writtenReg (P : Params) (r : DeviceRegs) (out : List Byte) (x : Byte) : Byte :=
  (((storedAddrs P (r.read regMode1) out).zip out.tail).reverse.lookup x).getD (r.read x)

/-- The model faults that a successful write of `out` by agent `g` raises (R65, R282). -/
def writeFaults (P : Params) (g : AgentId) (d : DevAddr) (out : List Byte) (r : DeviceRegs) (o : Oracle) :
    List ModelFault :=
  (Bus.write P g d out { dev := r, oracle := o, raised := [] }).raised

/-- A successful write of `out` by agent `g` raises no model fault (R65, R282). -/
def QuietWrite (P : Params) (g : AgentId) (d : DevAddr) (out : List Byte) (r : DeviceRegs) (o : Oracle) : Prop :=
  (Bus.write P g d out { dev := r, oracle := o, raised := [] }).raised = []

/-- Step (2) of agent `g`'s calibration sequence sets no RESTART bit over a wake that `g` has not waited out: the
masks keep RESTART out of the value that it writes, as the defaults do, or no such wake is pending (R165, R282). -/
def SleepsQuietly (P : Params) (g : AgentId) (r : DeviceRegs) : Prop :=
  (P.sleepMask ||| ~~~ P.sleepEntryClear) &&& P.restartMask = 0 ∨ ∀ S, r.wake = some S → g ∈ S

/-- The registers after a successful write of `out` (R61). -/
def afterWrite (P : Params) (g : AgentId) (d : DevAddr) (out : List Byte) (r : DeviceRegs) (o : Oracle) :
    DeviceRegs :=
  (Bus.write P g d out { dev := r, oracle := o, raised := [] }).dev

/-! ### Plain spans of registers -/

/-- None of the `n` addresses from `a` is MODE1 or PRESCALE. -/
def plainSpan (a : Byte) (n : Nat) : Prop :=
  ∀ k < n, a + BitVec.ofNat 8 k ≠ regMode1 ∧ a + BitVec.ofNat 8 k ≠ regPrescale

/-- None of the `n` addresses from `a` is MODE1. -/
def offMode1 (a : Byte) (n : Nat) : Prop := ∀ k < n, a + BitVec.ofNat 8 k ≠ regMode1

/-- What register `x` holds after `data` has been stored from address `a` on, outside MODE1 and PRESCALE:
consecutively where the pointer advances, else all at `a` (R61, R286). -/
def storedAt (adv : Bool) (r : DeviceRegs) (a : Byte) (data : List Byte) (x : Byte) : Byte :=
  if adv then (if (x - a).toNat < data.length then data.getD (x - a).toNat 0 else r.read x)
  else if x = a then data.getLastD (r.read x) else r.read x

/-- The bytes of `n` registers from address `a` on (R62). -/
def bytesAt (adv : Bool) (r : DeviceRegs) (a : Byte) (n : Nat) : List Byte :=
  (List.range n).map fun k => r.read (readAddr adv a k)

/-- The pointer after `n` data bytes from address `a` (R61, R62). -/
def ptrAfter (adv : Bool) (a : Byte) (n : Nat) : Byte := readAddr adv a n

/-- What a duty value reads back as (R197). -/
def rt (v : Int) : Int := if v = 0xFFFF then 0xFFFF else 16 * ((v + 1) / 16)

/-- The register addresses of element `n` (R27). -/
def elementAddrs (n : Fin 16) : List Byte := [ledAddr n, ledAddr n + 1, ledAddr n + 2, ledAddr n + 3]

/-! ### Invariants and final states -/

/-- The agent is inside a lock hold of its operation. -/
def Phase.inHold (p : Phase) : Bool :=
  match p with
  | .idle => false
  | .acquire _ => false
  | .body _ => true
  | .probeRead _ => true
  | .release _ _ => true
  | .wait _ => false

/-- The lock and its holder agree (R28, R73): the holder is a running agent that knows it holds; an agent inside
a lock hold has taken the lock; and, until some agent has released a lock it did not hold, an agent that has
taken the lock and not released it is the holder. -/
structure LockInv (s : State) : Prop where
  holder : ∀ g, s.lock = .held g → (s.agent g).holding = true ∧ (s.agent g).status = .running
  inHold : ∀ g, (s.agent g).phase.inHold = true → (s.agent g).holding = true
  exclusive : (∀ g, ModelFault.unbalancedRelease g ∉ s.faults) →
    ∀ g, (s.agent g).holding = true → s.lock = .held g

/-- The script is a lock hold with a primitive. -/
def Script.isHold (sc : Script) : Bool :=
  match sc with
  | .transact _ _ _ _ => true
  | .probe _ _ => true
  | _ => false

/-- A place inside an operation that its script has. -/
def Phase.fits (p : Phase) (sc : Script) : Bool :=
  match p with
  | .idle => true
  | .acquire rs => match sc.resume rs with
    | some n => n.locks.isSome
    | none => false
  | .body rs => match sc.resume rs with
    | some n => n.isHold
    | none => false
  | .probeRead rs => match sc.resume rs with
    | some (.probe _ _) => true
    | _ => false
  | .release rs _ => match sc.resume rs with
    | some n => n.isHold
    | none => false
  | .wait rs => match sc.resume rs with
    | some (.delay _ _) => true
    | _ => false

/-- Every running agent is at a place that its current operation has (R30 `phase`). -/
def Consistent (s : State) : Prop :=
  ∀ g, (s.agent g).status = .running → ∀ i, (s.agent g).prog[(s.agent g).pc]? = some (.op i) →
    (s.agent g).phase.fits (scriptOf i { s with turn := g }) = true

/-- The agent takes no further step (R30). -/
def Status.stopped (st : Status) : Bool :=
  match st with
  | .running => false
  | .ended => true
  | .errored _ => true
  | .faulted => true
  | .refused => true

/-- The run has ended (R288). -/
def RunOver (s : State) : Prop := ∀ g, (s.agent g).status.stopped = true

/-- A final state (R288). -/
def Final (s : State) : Prop := RunOver s ∧ s.faults = [] ∧ s.refused = false

end Sys2Proof.Machine
end

