-- ==== Sys2Proof/Certificates/Slice0/Obligations.lean ====
section
/-! DEFINITION. The statements about the model, from the numbered rules of the spec. -/

open Sys2Proof Sys2Proof.Machine

/-! ### The wire (30_encoding.md) -/

/-- Every register access of the block is read back from its transfer, with every operand (R91, R92, R96). -/
def Obligations.WireDecodeEncode : Prop :=
  ∀ x : Access, decodeTransfer (encodeAccess x) = .ok x

/-- A transfer that the wire decoder reads as a register access is the transfer of that access: nothing else is
read as one (R96, R97). -/
def Obligations.WireEncodeDecode : Prop :=
  ∀ (t : BusTransfer) (x : Access), decodeTransfer t = .ok x → encodeAccess x = t

/-- The transfers the block never emits, each rejected by its name (R97): an unnamed register address, an
address inside the duty-cycle array that begins no element, a set or a get of another length; and the elements
that no channel writes are told from the others. -/
def Obligations.WireRejectsByName : Prop :=
  (∀ (a : Byte) (payload : List Byte) (n : Nat),
    ((0x02 ≤ a.toNat ∧ a.toNat ≤ 0x05) ∨ (0x46 ≤ a.toNat ∧ a.toNat ≤ 0xFD) ∨ a.toNat = 0xFF) →
      decodeTransfer { kind := .w, out := a :: payload, inLen := 0 } = .error (.unnamedRegister a) ∧
      decodeTransfer { kind := .wr, out := [a], inLen := n } = .error (.unnamedRegister a)) ∧
  (∀ (a : Byte) (payload : List Byte) (n : Nat),
    0x06 ≤ a.toNat → a.toNat ≤ 0x45 → (a.toNat - 0x06) % 4 ≠ 0 →
      decodeTransfer { kind := .w, out := a :: payload, inLen := 0 } = .error (.ledMisaligned a) ∧
      decodeTransfer { kind := .wr, out := [a], inLen := n } = .error (.ledMisaligned a)) ∧
  (∀ (a : Byte) (payload : List Byte) (n : Nat), a ∈ [0x00, 0x01, 0xFE] →
    (payload.length ≠ 1 → decodeTransfer { kind := .w, out := a :: payload, inLen := 0 } = .error .wrongLength) ∧
    (n ≠ 1 → decodeTransfer { kind := .wr, out := [a], inLen := n } = .error .wrongLength)) ∧
  (∀ (n : Fin 16) (payload : List Byte) (m : Nat),
    (payload.length ≠ 4 →
      decodeTransfer { kind := .w, out := elementByte n :: payload, inLen := 0 } = .error .wrongLength) ∧
    (m ≠ 4 → decodeTransfer { kind := .wr, out := [elementByte n], inLen := m } = .error .wrongLength)) ∧
  (∀ (n : Fin 16) (on off : Half), (Access.set4 n on off).foreign = true ↔
    ¬ (on = 0x1000 ∧ off = 0) ∧ ¬ (on = 0 ∧ off.toNat ≤ 0xFFF))

/-- Words written out from R92's table are read as the accesses of that table, and lines of the spec's own examples
as the operations they stand for (R92, R99). -/
def Obligations.WordsAreReadRight : Prop :=
  (decodeTransfer { kind := .wr, out := [0x00], inLen := 1 } = .ok (.get1 .mode1) ∧
  decodeTransfer { kind := .w, out := [0xFE, 0x7A], inLen := 0 } = .ok (.set1 .prescale 0x7A) ∧
  decodeTransfer { kind := .wr, out := [0x42], inLen := 4 } = .ok (.get4 15) ∧
  decodeTransfer { kind := .w, out := [0x12, 0x00, 0x00, 0x33, 0x01], inLen := 0 } = .ok (.set4 3 0 0x133) ∧
  decodeTransfer { kind := .w, out := [0x06, 0x00, 0x10, 0x00, 0x00], inLen := 0 } = .ok (.set4 0 0x1000 0)) ∧
  (decodeLine 0 "c0 := CTRL_INIT addr=0x40, ref=25000000, probe=true".toList
    = .ok (.ctrlInit (some ['c', '0']) 0x40 (.rat 25000000) true) ∧
  decodeLine 0 "r := TUPLE_GET c, 0x06, (u16,u16)".toList
    = .ok (.tupleGet (some ['r']) { agent := 0, name := ['c'] } 6 [.u16, .u16]) ∧
  decodeLine 1 "LED_SET c, 15, (0x1000, 0) ; full on".toList
    = .ok (.ledSet { agent := 1, name := ['c'] } 15 0x1000 0) ∧
  decodeLine 0 "SERVO_ANGLE_SET s, absent".toList
    = .ok (.servoAngleSet { agent := 0, name := ['s'] } none) ∧
  decodeLine 0 "BUS_WRITE c, [0x01, 0x04]".toList
    = .ok (.busWrite { agent := 0, name := ['c'] } [0x01, 0x04] 0 2))

/-! ### The lines of a program (30_encoding.md) -/

/-- Every operation that a line can write is read back from its line by the line decoder, with every operand
(R99, R103, R104). How a line is cut into words is the model's choice, log entry 21, and which words are
names and numbers log entries 40 and 41. -/
def Obligations.LineDecodeEncode : Prop :=
  ∀ (g : AgentId) (i : Instr), i.writable g = true → decode g (encode i) = .ok i

/-- An operation whose operand check of R248 fails is refused in one step, whatever the state, unless its object
operand stands on a deinitialised controller: then it faults UseAfterDeinit with that controller (R168, R242, R248).
Either way nothing goes over the bus, and a lock that the agent holds is released. The model's choices: that the fault
comes before the refusal of another operand is log entry 18, the release at a refusal log entry 15. -/
def Obligations.IllFormedOperandsAreRefused : Prop :=
  ∀ (i : Instr) (s : State), i.wf = false → s.me.phase = .idle →
    ∃ t, exec i s = .next t ∧
      (Aborts s t .refused [] true ∨
        ∃ ref oi ci ctl, operandRef i = some ref ∧ s.resolve ref = some oi ∧ standsOn s (operandKind i) oi ci ∧
          s.object ci = some (.controller ctl) ∧ ctl.live = false ∧
          Aborts s t .faulted [.useAfterDeinit s.turn ci] false)

/-! ### Steps (10_state.md, 60_exceptions.md) -/

/-- A step of a running agent whose program has an operation at `pc` is `exec` of that operation (R10, R30). That the
turn then passes to the agent that the next free choice names is the model's choice, log entry 2: R10 lets any agent
step next. -/
def Obligations.StepRunsTheOperationAtPc : Prop :=
  ∀ (s : State) (i : Instr), s.me.status = .running → s.me.prog[s.me.pc]? = some (.op i) →
    (∀ t, exec i s = .next t → step s = .next { t with turn := t.oracle.drawTurn.1, oracle := t.oracle.drawTurn.2 }) ∧
    (∀ f, exec i s = .fault f → step s = .fault f) ∧ (∀ x, exec i s = .refused x → step s = .refused x)

/-- The program of a text has one entry for each line that is not blank, in order and no other: the line's operation,
or the line as none where it is no operation (R99, R104); the agent starts at its first entry, and has ended at once
where there is none (R270). The model's choices: that a program is loaded from outside is log entry 7, that an
ill-formed line stands as an entry log entry 8, the characters of a text and that blank and comment lines are left out
log entry 21. -/
def Obligations.ProgramIsTheLinesOfItsText : Prop :=
  ∀ (s : State) (g : AgentId) (text : List Byte),
    let lines := (splitLines (text.map byteChar)).filter fun l => !blankLine l
    let a := (s.loadProgram g text).agent g
    a.prog.length = lines.length ∧ a.pc = 0 ∧ (lines ≠ [] → a.status = .running) ∧ (lines = [] → a.status = .ended) ∧
    ∀ (k : Nat) (l : List Char), lines[k]? = some l →
      (∀ i, decodeLine g l = .ok i → a.prog[k]? = some (.op i)) ∧
      (∀ e, decodeLine g l = .error e → a.prog[k]? = some (.illFormed e))

/-- An agent that has ended, raised an error, faulted or been refused takes no further step: its turn passes and
nothing else changes (R30, R244).
At the end of its program an agent ends, and the scope guard releases a lock it still holds (R30, R130); at a
line that is no operation it is refused, `pc` as it was, with the same release (R99, R248).
The model's choices: the passing turn is log entries 2 and 9, the step at which an agent ends or a bad line is refused
log entry 8, the release at a refusal log entry 15. -/
def Obligations.AgentsStop : Prop :=
  (∀ s : State, s.me.status.stopped = true →
    step s = .next { s with turn := s.oracle.drawTurn.1, oracle := s.oracle.drawTurn.2 }) ∧
  (∀ s : State, s.me.status = .running →
    (s.me.prog.length ≤ s.me.pc →
      ∃ t : State, step s = .next t.passTurn ∧ t.oracle = s.oracle ∧ Aborts s t .ended [] false) ∧
    (∀ why, s.me.prog[s.me.pc]? = some (.illFormed why) →
      ∃ t : State, step s = .next t.passTurn ∧ t.oracle = s.oracle ∧ Aborts s t .refused [] true))

/-! ### The bus lock (40_buslock.md) -/

/-- `BUS_TRY_LOCK` (R120): a free lock is taken, and the result is true; a held lock, whoever holds it, is left
as it is, and the result is false. Either way it is one step and nothing else changes. That the lock is tested and not
the agent's own `holding` is the model's choice where the two differ (R120, R123), log entry 39. -/
def Obligations.TryLockTakesAFreeLock : Prop :=
  ∀ (s : State) (c : ObjRef) (ci : ObjId) (ctl : Controller) (dst : Option Name),
    OwnsCtrl s c ci ctl → s.me.phase = .idle →
    (s.lock = .free → ∃ t, exec (.busTryLock dst c) s = .next t ∧
      Leaves s t (.held s.turn) [] [.acquire s.turn] s.device
        (({ s.me with holding := true } : AgentState).advanced.bound dst (.bool true))) ∧
    (s.lock ≠ .free → ∃ t, exec (.busTryLock dst c) s = .next t ∧
      Leaves s t s.lock [] [] s.device (s.me.advanced.bound dst (.bool false)))

/-- `BUS_UNLOCK` and `LOCK_RELEASE` by the holder free the lock in one step (R121, R125). By an agent that is not
the holder, a free lock included, they unlock all the same and fault UnbalancedRelease, and the agent stops, the
effect of the rule done (R121, R125, R247). That `pc` is advanced before the agent is Faulted is the model's reading
of R121 with R247, log entry 16. -/
def Obligations.UnlockFreesTheLock : Prop :=
  (∀ (s : State) (c : ObjRef) (ci : ObjId) (ctl : Controller),
    OwnsCtrl s c ci ctl → s.me.phase = .idle → s.lock = .held s.turn →
    ∀ i ∈ [Instr.busUnlock c, Instr.lockRelease c], ∃ t, exec i s = .next t ∧
      Leaves s t .free [] [.release s.turn] s.device ({ s.me with holding := false } : AgentState).advanced) ∧
  (∀ (s : State) (c : ObjRef) (ci : ObjId) (ctl : Controller),
    OwnsCtrl s c ci ctl → s.me.phase = .idle → s.lock ≠ .held s.turn →
    ∀ i ∈ [Instr.busUnlock c, Instr.lockRelease c], ∃ t, exec i s = .next t ∧
      Leaves s t .free [.unbalancedRelease s.turn] [.release s.turn] s.device
        (({ s.me with holding := false } : AgentState).advanced.halted .faulted))

/-- `LOCK_ACQUIRE` of a free lock is one step, and an agent that waits, whatever failed attempts it has made, takes the
lock in its next step once the lock is free: the operation is done (R76, R122).
The same of every operation that acquires the lock, at each of its acquires, waiting or at the first attempt: with the
lock free it takes it in one step and is inside its lock hold, its first primitive the next step (R76, R122, R126).
The model's readings: that the operation's checks are made and its buffer is built before the first attempt, in the same
step, is log entry 1; that the count of failed attempts stays as it was when the acquire succeeds is log entry 33; and
that an agent whose lock another agent has unlocked, its `holding` still set, takes a free lock like any other is log
entry 39: R123 says that its TryLock fails, and the model follows R120. -/
def Obligations.LockAcquireTakesAFreeLock : Prop :=
  (∀ (s : State) (c : ObjRef) (ci : ObjId) (ctl : Controller), OwnsCtrl s c ci ctl → s.lock = .free →
    (s.me.phase = .idle → ∃ t, exec (.lockAcquire c) s = .next t ∧
      Leaves s t (.held s.turn) [] [.acquire s.turn] s.device
        ({ s.me with holding := true, attempts := 0 } : AgentState).advanced) ∧
    (s.me.phase = .acquire [] → ∃ t, exec (.lockAcquire c) s = .next t ∧
      Leaves s t (.held s.turn) [] [.acquire s.turn] s.device
        ({ s.me with holding := true } : AgentState).advanced)) ∧
  (∀ (i : Instr) (s : State) (rs : List (List Byte)) (sc : Script) (d : DevAddr),
    (scriptOf i s).resume rs = some sc → sc.locks = some d → s.lock = .free →
    let takes := fun (me : AgentState) => ∃ t, exec i s = .next t ∧
      Leaves s t (.held s.turn) [] [.acquire s.turn] s.device
        (if sc.isHold = true then { me with holding := true, phase := .body rs }
          else ({ me with holding := true } : AgentState).advanced)
    (s.me.phase = .acquire rs → takes s.me) ∧
    (s.me.phase = .idle → rs = [] → takes { s.me with attempts := 0, objs := sc.builtObjs s.me.objs }))

/-- A failed attempt of `LOCK_ACQUIRE` counts itself and changes nothing else, and the agent goes on waiting;
after `ACQUIRE_TIMEOUT` of them, where it is set, the operation raises LockTimeoutError, and a lock the agent
itself holds is released (R122, R123, R244).
The same of every operation that acquires the lock, at each of its acquires, and at the first attempt, which starts the
count at 1 (R122, R126): the operation's checks are made and its buffer is built by then, in the same step, which is
the model's reading, log entry 1. -/
def Obligations.FailedAttemptsAreCounted : Prop :=
  (∀ (s : State) (c : ObjRef) (ci : ObjId) (ctl : Controller),
    OwnsCtrl s c ci ctl → s.me.phase = .acquire [] → s.lock ≠ .free →
    let tried : AgentState := { s.me with attempts := s.me.attempts + 1 }
    (s.params.acquireTimeout = none ∨ (∃ n, s.params.acquireTimeout = some n ∧ s.me.attempts + 1 < n) →
      ∃ t, exec (.lockAcquire c) s = .next t ∧ Leaves s t s.lock [] [] s.device tried) ∧
    (∀ n, s.params.acquireTimeout = some n → n ≤ s.me.attempts + 1 →
      (s.lock ≠ .held s.turn → ∃ t, exec (.lockAcquire c) s = .next t ∧
        Leaves s t s.lock [] [] s.device (tried.halted (.errored (.lockTimeout ctl.devAddr)))) ∧
      (s.lock = .held s.turn → ∃ t, exec (.lockAcquire c) s = .next t ∧
        Leaves s t .free [] [.release s.turn] s.device
          (({ tried with holding := false } : AgentState).halted (.errored (.lockTimeout ctl.devAddr)))))) ∧
  (∀ (i : Instr) (s : State) (rs : List (List Byte)) (sc : Script) (d : DevAddr),
    (scriptOf i s).resume rs = some sc → sc.locks = some d → s.lock ≠ .free →
    let waits := fun (tried : AgentState) =>
      (s.params.acquireTimeout = none ∨ (∃ n, s.params.acquireTimeout = some n ∧ tried.attempts < n) →
        ∃ t, exec i s = .next t ∧ Leaves s t s.lock [] [] s.device tried) ∧
      (∀ n, s.params.acquireTimeout = some n → n ≤ tried.attempts →
        (s.lock ≠ .held s.turn → ∃ t, exec i s = .next t ∧
          Leaves s t s.lock [] [] s.device (tried.halted (.errored (.lockTimeout d)))) ∧
        (s.lock = .held s.turn → ∃ t, exec i s = .next t ∧
          Leaves s t .free [] [.release s.turn] s.device
            (({ tried with holding := false } : AgentState).halted (.errored (.lockTimeout d)))))
    (s.me.phase = .acquire rs → waits { s.me with attempts := s.me.attempts + 1 }) ∧
    (s.me.phase = .idle → rs = [] →
      waits { s.me with attempts := 1, phase := .acquire [], objs := sc.builtObjs s.me.objs }))

/-- The lock is not reentrant, and a held lock is taken by no one: no step of any operation, the holder's own
included, records an acquire while the lock is held (R28, R73, R123). -/
def Obligations.NoStepTakesAHeldLock : Prop :=
  ∀ (i : Instr) (s t : State), s.lock ≠ .free → exec i s = .next t →
    ∃ evs, t.history = s.history ++ evs ∧ ∀ g, Event.acquire g ∉ evs

/-- A probe of a present device (R124): where the zero-length write succeeds it is one lock hold with that write;
where it fails and the one-byte read succeeds, the byte read is discarded and only the pointer has moved; where
both fail, DeviceNotFoundError. No register changes in any of the three. That a failed zero-length write draws the
pointer is the model's reading of R68, log entry 11. -/
def Obligations.ProbeOfAPresentDevice : Prop :=
  ∀ (s : State) (c : ObjRef) (ci : ObjId) (ctl : Controller) (r : DeviceRegs),
    OwnsCtrl s c ci ctl → Ready s → s.device ctl.devAddr = some r →
    (s.oracle.drawResult.1 = true → ∃ t, Runs (.busProbe c) 3 s t ∧
      Leaves s t .free [] (heldTx s.turn ctl.devAddr .w [] [] true) s.device s.me.done) ∧
    (∀ rest, s.oracle.results = false :: true :: rest → ∃ t p b, Runs (.busProbe c) 4 s t ∧
      readsAs s.params r p b ∧
      Leaves s t .free []
        [.acquire s.turn, .tx s.turn ctl.devAddr .w [] [] false, .tx s.turn ctl.devAddr .r [] [b] true,
          .release s.turn]
        (devWith s ctl.devAddr (r.setPtr (ptrAfter (r.adv s.params) p 1))) s.me.done) ∧
    (∀ rest, s.oracle.results = false :: false :: rest → ∃ t q b, Runs (.busProbe c) 4 s t ∧
      Leaves s t .free []
        [.acquire s.turn, .tx s.turn ctl.devAddr .w [] [] false, .tx s.turn ctl.devAddr .r [] [b] false,
          .release s.turn]
        (devWith s ctl.devAddr (r.setPtr q)) (s.me.stopped (.errored (.deviceNotFound ctl.devAddr))))

/-- A probe of an absent device raises DeviceNotFoundError, that of `CTRL_INIT` too, and no controller is bound; every
other operation's transaction with an absent device raises BusTransportError. The lock is released, and no device
changes (R66, R124, R126, R160, R244). That the primitive is recorded, although R66's pseudocode returns before its
record line, is the model's reading of R70 and R241, log entry 10. -/
def Obligations.AbsentDevicesFail : Prop :=
  (∀ (s : State) (c : ObjRef) (ci : ObjId) (ctl : Controller),
    OwnsCtrl s c ci ctl → Ready s → s.device ctl.devAddr = none → ∃ t b, Runs (.busProbe c) 4 s t ∧
      Leaves s t .free []
        [.acquire s.turn, .tx s.turn ctl.devAddr .w [] [] false, .tx s.turn ctl.devAddr .r [] [b] false,
          .release s.turn]
        s.device (s.me.stopped (.errored (.deviceNotFound ctl.devAddr)))) ∧
  (∀ (s : State) (dst : Option Name) (addr : Int) (ref F : Sys2Proof.Num),
    Ready s → 0 ≤ addr → addr ≤ 0x7F → Sys2Proof.Num.operand s.params.arith ref = some F → F.pos = true →
    let d := BitVec.ofInt 7 addr
    s.device d = none → ∃ t b, Runs (.ctrlInit dst addr ref true) 4 s t ∧
      Leaves s t .free []
        [.acquire s.turn, .tx s.turn d .w [] [] false, .tx s.turn d .r [] [b] false, .release s.turn]
        s.device (s.me.stopped (.errored (.deviceNotFound d)))) ∧
  (∀ (i : Instr) (s : State) (d : DevAddr) (via : Option ObjId) (p : Prim) (k : List Byte → Script),
    scriptOf i s = .transact d via p k → Ready s → s.device d = none → ∃ t inp, Runs i 3 s t ∧
      inp.length = p.inLen ∧
      Leaves s t .free [] (heldTx s.turn d p.kind p.out inp false) s.device
        (({ s.me with objs := stageObjs s.me.objs via (p.out ++ inp) } : AgentState).stopped
          (.errored (.busTransport d (.tx s.turn d p.kind p.out inp false)))))

/-- `BUS_WRITE` (R127) completes in one lock hold with one write of the bytes in its range; the registers are as
that write leaves them (R61), and every register it does not store to is unchanged.
`BUS_READ` (R128) completes in one lock hold with one read of `m` bytes from the device's pointer; no register
changes, the pointer advances (R62, R64), and the result is the bytes read.
`BUS_WRITE_READ` (R129) completes in one lock hold with one write then read: the bytes read are those at the
pointer the write leaves, and the result is those bytes. -/
def Obligations.RawTransfersComplete : Prop :=
  (∀ (s : State) (c : ObjRef) (ci : ObjId) (ctl : Controller) (r : DeviceRegs) (buf : List Byte) (st en : Int),
    CtrlCall s c ci ctl r → 0 ≤ st → st ≤ en → en ≤ buf.length →
    QuietWrite s.params s.turn ctl.devAddr (slice buf st en) r s.oracle.drawResult.2 →
    ∃ t q, Runs (.busWrite c buf st en) 3 s t ∧
      Leaves s t .free [] (heldTx s.turn ctl.devAddr .w ((buf.take en.toNat).drop st.toNat) [] true)
        (devWith s ctl.devAddr q) s.me.done ∧
      q = afterWrite s.params s.turn ctl.devAddr (slice buf st en) r s.oracle.drawResult.2 ∧
      ∀ x, x ∉ storedAddrs s.params (r.read regMode1) (slice buf st en) → q.read x = r.read x) ∧
  (∀ (s : State) (c : ObjRef) (ci : ObjId) (ctl : Controller) (r : DeviceRegs) (dst : Option Name) (m : Int),
    CtrlCall s c ci ctl r → 1 ≤ m →
    ∃ t bs, Runs (.busRead dst c m) 3 s t ∧ bs.length = m.toNat ∧ ReadsFrom s.params r r.ptr bs ∧
      Leaves s t .free [] (heldTx s.turn ctl.devAddr .r [] bs true)
        (devWith s ctl.devAddr (r.setPtr (ptrAfter (r.adv s.params) r.ptr m.toNat)))
        (s.me.done.bound dst (.bytes bs))) ∧
  (∀ (s : State) (c : ObjRef) (ci : ObjId) (ctl : Controller) (r : DeviceRegs) (dst : Option Name)
    (out : List Byte) (m : Int), CtrlCall s c ci ctl r → 0 ≤ m →
    QuietWrite s.params s.turn ctl.devAddr out r s.oracle.drawResult.2 →
    ∃ t q bs, Runs (.busWriteRead dst c out m) 3 s t ∧
      q = afterWrite s.params s.turn ctl.devAddr out r s.oracle.drawResult.2 ∧
      bs.length = m.toNat ∧ ReadsFrom s.params q q.ptr bs ∧
      Leaves s t .free [] (heldTx s.turn ctl.devAddr .wr out bs true)
        (devWith s ctl.devAddr (q.setPtr (ptrAfter (q.adv s.params) q.ptr m.toNat)))
        (s.me.done.bound dst (.bytes bs)) ∧
      ∀ x, x ∉ storedAddrs s.params (r.read regMode1) out → q.read x = r.read x)

/-- A register file is read as it was written (R61, R63): a register holds the byte stored to it, every other one is
unchanged, and the words of a duty-cycle element are its bytes, low byte first (R27).
The device side of a successful write (R61): a zero-length write changes nothing; byte 0 sets the pointer;
where no model fault is raised, every register holds the last data byte stored to it, or what it held; and the
data bytes go to consecutive registers, the pointer ending after them, where the pointer advances, and all to
byte 0's register where it does not (R62, R286). -/
def Obligations.WritesLandWhereThePointerPoints : Prop :=
  (∀ (r : DeviceRegs) (a b x : Byte) (n : Fin 16),
    (r.write a b).read x = (if x = a then b else r.read x) ∧
    (r.ledOn n).toNat = (r.read (BitVec.ofNat 8 (0x06 + 4 * n.val))).toNat
      + 256 * (r.read (BitVec.ofNat 8 (0x06 + 4 * n.val + 1))).toNat ∧
    (r.ledOff n).toNat = (r.read (BitVec.ofNat 8 (0x06 + 4 * n.val + 2))).toNat
      + 256 * (r.read (BitVec.ofNat 8 (0x06 + 4 * n.val + 3))).toNat) ∧
  (∀ (P : Params) (g : AgentId) (d : DevAddr) (r : DeviceRegs) (o : Oracle),
    afterWrite P g d [] r o = r ∧
    ∀ (a : Byte) (data : List Byte),
      (QuietWrite P g d (a :: data) r o → ∀ x, (afterWrite P g d (a :: data) r o).read x
        = writtenReg P r (a :: data) x) ∧
      ((P.aiModel = .always ∨ regMode1 ∉ storedAddrs P (r.read regMode1) (a :: data)) →
        storedAddrs P (r.read regMode1) (a :: data) = (List.range data.length).map (readAddr (r.adv P) a) ∧
        (afterWrite P g d (a :: data) r o).ptr = ptrAfter (r.adv P) a data.length))

/-- When a successful write raises a model fault: a write that stores to neither MODE1 nor PRESCALE raises none; a
write of one byte into MODE1 raises one exactly where it sets RESTART while a wake is pending that the writer has
not waited out (R282); a write of one byte into PRESCALE raises one exactly where SLEEP is clear (R65).
A write of any length is checked store by store, each on the device that the earlier bytes left (R61): a write of no
data byte raises none; and a write of data bytes `b :: rest` at address `a` raises what the store of `b` at `a` raises,
and then what the write of `rest` at the next address raises on the device after that store, and leaves what that write
leaves. A store into MODE1 that sets RESTART over a wake that the writer has not waited out adds RestartBeforeSettle,
the byte stored and the wake cleared all the same (R38, R282); a store into PRESCALE with SLEEP clear adds
PrescaleWhileRunning and stores a draw (R65); every other store adds none and stores its byte. -/
def Obligations.WhenAWriteFaults : Prop :=
  ∀ (P : Params) (g : AgentId) (d : DevAddr) (r : DeviceRegs) (o : Oracle),
    (∀ out, regMode1 ∉ storedAddrs P (r.read regMode1) out → regPrescale ∉ storedAddrs P (r.read regMode1) out →
      QuietWrite P g d out r o) ∧
    (∀ v : Byte, QuietWrite P g d [0x00, v] r o ↔
      ¬ (v &&& P.restartMask ≠ 0 ∧ ∃ S, r.wake = some S ∧ g ∉ S)) ∧
    (∀ v : Byte, QuietWrite P g d [0xFE, v] r o ↔ r.read 0x00 &&& P.sleepMask ≠ 0) ∧
    (∀ out, QuietWrite P g d out r o ↔ writeFaults P g d out r o = []) ∧
    writeFaults P g d [] r o = [] ∧ (∀ a : Byte, writeFaults P g d [a] r o = []) ∧
    (∀ (a b : Byte) (rest : List Byte),
      let goesOn := fun (raised : List ModelFault) (stored : DeviceRegs) (o' : Oracle) =>
        let next := ptrAfter (stored.adv P) a 1
        writeFaults P g d (a :: b :: rest) r o = raised ++ writeFaults P g d (next :: rest) stored o' ∧
        afterWrite P g d (a :: b :: rest) r o = afterWrite P g d (next :: rest) stored o'
      let wake := if b &&& P.restartMask ≠ 0 ∨ b &&& P.sleepMask ≠ 0 then none
        else if r.read 0x00 &&& P.sleepMask ≠ 0 then some [] else r.wake
      let tooEarly := b &&& P.restartMask ≠ 0 ∧ ∃ S, r.wake = some S ∧ g ∉ S
      (a = 0x00 → tooEarly → goesOn [.restartBeforeSettle d] ((r.write 0x00 b).setWake wake) o) ∧
      (a = 0x00 → ¬ tooEarly → goesOn [] ((r.write 0x00 b).setWake wake) o) ∧
      (a = 0xFE → r.read 0x00 &&& P.sleepMask = 0 →
        goesOn [.prescaleWhileRunning d] (r.write 0xFE o.drawByte.1) o.drawByte.2) ∧
      (a ≠ 0x00 → ¬ (a = 0xFE ∧ r.read 0x00 &&& P.sleepMask = 0) → goesOn [] (r.write a b) o))

/-- A failed transfer, whichever operation of one transaction it stops: the operation ends with BusTransportError,
recording the device and the failing event, after one lock hold, the lock released and nothing retried; `pc` is
not advanced; no register changes but those the written part would have stored to, which take draws, and the
pointer takes a draw (R66, R68, R126, R241, R244, R246, R282). The model's readings: that no model fault is raised,
by a draw into PRESCALE while the oscillator runs either, is log entry 12; that the pointer takes a draw for every
failed primitive log entry 11; that the transfer buffer holds the draws log entry 26. -/
def Obligations.FailedTransfersEndTheOperation : Prop :=
  ∀ (i : Instr) (s : State) (d : DevAddr) (via : Option ObjId) (p : Prim) (k : List Byte → Script)
    (r : DeviceRegs), scriptOf i s = .transact d via p k → Ready s → s.device d = some r →
    s.oracle.drawResult.1 = false →
    ∃ t q inp, Runs i 3 s t ∧
      Leaves s t .free [] (heldTx s.turn d p.kind p.out inp false) (devWith s d q)
        (({ s.me with objs := stageObjs s.me.objs via (p.out ++ inp) } : AgentState).stopped
          (.errored (.busTransport d (.tx s.turn d p.kind p.out inp false)))) ∧
      inp.length = p.inLen ∧
      (∀ x, x ∉ storedAddrs s.params (r.read regMode1) p.out → q.read x = r.read x) ∧
      (regMode1 ∉ storedAddrs s.params (r.read regMode1) p.out → q.wake = r.wake) ∧
      (regMode1 ∈ storedAddrs s.params (r.read regMode1) p.out → q.wake = none)

/-- A primitive that its agent issues without holding the lock, another agent having released it, faults
UnlockedBusAccess and stops the agent, and has its effect all the same, the faults of its stores included (R67, R247):
where it succeeds its bytes are stored and read as those of any other (R61, R62, R64); where it fails no register but
those that it would have stored to changes (R68); and to an absent device it fails, and no device changes (R66). It is
recorded, and the lock is left as it is.
A lock hold that ends after another agent has released its lock faults UnbalancedRelease: the lock is freed, whoever
holds it by then, and the agent stops with its operation not done (R125, R126, R247).
Both hold of every primitive and of every lock hold of every operation: both attempts of a probe, the reset write of
CTRL_INIT and the later transactions of FREQ_SET included (R124, R126, R160, R163).
The model's readings: that a primitive to an absent device is recorded is log entry 10; that a failed primitive draws
the pointer and its stores raise no fault log entries 11 and 12; that the agent stops in the step of the transfer, `pc`
as it was, log entry 14; that the scope guard makes no second release log entry 15; that the operation is not done,
also after a primitive that succeeded, log entry 17; that the transfer buffer holds the draws log entry 26. -/
def Obligations.LostLocksFault : Prop :=
  (∀ (i : Instr) (s : State) (d : DevAddr) (via : Option ObjId) (p : Prim),
    Issues i s d via p → s.lock ≠ .held s.turn →
    let ok := s.oracle.drawResult.1
    let o := s.oracle.drawResult.2
    let me := fun inp => ({ s.me with objs := stageObjs s.me.objs via (p.out ++ inp) } : AgentState).halted .faulted
    (s.device d = none → ∃ t inp, exec i s = .next t ∧ inp.length = p.inLen ∧
      Leaves s t s.lock [.unlockedBusAccess s.turn] [.tx s.turn d p.kind p.out inp false] s.device (me inp)) ∧
    (∀ r, s.device d = some r → ∃ t inp q, exec i s = .next t ∧ inp.length = p.inLen ∧
      Leaves s t s.lock
        (.unlockedBusAccess s.turn :: if ok = true then writeFaults s.params s.turn d p.out r o else [])
        [.tx s.turn d p.kind p.out inp ok] (devWith s d q) (me inp) ∧
      (ok = true →
        let w := afterWrite s.params s.turn d p.out r o
        ReadsFrom s.params w w.ptr inp ∧ q = w.setPtr (ptrAfter (w.adv s.params) w.ptr p.inLen)) ∧
      (∀ x, x ∉ storedAddrs s.params (r.read regMode1) p.out → q.read x = r.read x) ∧
      (ok = false → (regMode1 ∉ storedAddrs s.params (r.read regMode1) p.out → q.wake = r.wake) ∧
        (regMode1 ∈ storedAddrs s.params (r.read regMode1) p.out → q.wake = none)))) ∧
  (∀ (i : Instr) (s : State) (rs : List (List Byte)) (how : BodyEnd) (sc : Script),
    s.me.phase = .release rs how → (scriptOf i s).resume rs = some sc → sc.isHold = true → s.lock ≠ .held s.turn →
    ∃ t, exec i s = .next t ∧
      Leaves s t .free [.unbalancedRelease s.turn] [.release s.turn] s.device
        (({ s.me with holding := false } : AgentState).halted .faulted))

/-! ### Register descriptors (41_register_descriptor.md) -/

/-- Encoding and decoding a layout (R148, R149): values that encode decode back to themselves from a payload of
the layout's size; every byte string of that size decodes to values that encode back to it; and a list of values
of the layout's arity fails to encode exactly where some value is out of its field's range. -/
def Obligations.PayloadsDecodeBack : Prop :=
  (∀ (fs : List Field) (vs : List Int) (bs : List Byte), vs.length = fs.length →
    encodeFields fs vs = .ok bs → bs.length = elementSize fs ∧ decodeFields fs bs = vs) ∧
  (∀ (fs : List Field) (bs : List Byte), bs.length = elementSize fs →
    encodeFields fs (decodeFields fs bs) = .ok bs) ∧
  (∀ (fs : List Field) (vs : List Int), vs.length = fs.length →
    ((∃ bs, encodeFields fs vs = .ok bs) ↔ ∀ e ∈ fs.zip vs, fieldHolds e.1 e.2 = true))

/-- `SCALAR_GET`, `TUPLE_GET` and `ARRAY_GET` of a well-formed descriptor complete in one lock hold: the element's
address is written, its bytes are read, no register changes, and the result is the decoded value (R141, R142,
R144, R146). The model's choices: that `ARRAY_GET` of a layout of one field gives a tuple of one is log entry 37, and
that it goes through no controller's buffer log entry 38. -/
def Obligations.DescriptorGetsComplete : Prop :=
  ∀ (s : State) (c : ObjRef) (ci : ObjId) (ctl : Controller) (r : DeviceRegs) (dst : Option Name),
    CtrlCall s c ci ctl r →
    let got := fun (i : Instr) (a : Byte) (n : Nat) (v : List Byte → Value) =>
      ∃ t bs, Runs i 3 s t ∧ bs.length = n ∧ ReadsFrom s.params r a bs ∧
        Leaves s t .free [] (heldTx s.turn ctl.devAddr .wr [a] bs true)
          (devWith s ctl.devAddr (r.setPtr (ptrAfter (r.adv s.params) a n))) (s.me.done.bound dst (v bs))
    (∀ addr, scalarWf addr .u8 = true → got (.scalarGet dst c addr .u8) (BitVec.ofInt 8 addr) 1 fun bs =>
      .int (bs.getD 0 0).toNat) ∧
    (∀ addr, scalarWf addr .u16 = true → got (.scalarGet dst c addr .u16) (BitVec.ofInt 8 addr) 2 fun bs =>
      .int ((bs.getD 0 0).toNat + 256 * (bs.getD 1 0).toNat)) ∧
    (∀ addr fs, tupleWf addr fs = true → got (.tupleGet dst c addr fs) (BitVec.ofInt 8 addr) (elementSize fs)
      fun bs => .tuple (decodeFields fs bs)) ∧
    (∀ base fs count i, arrayWf base fs count = true → 0 ≤ i → i < count →
      got (.arrayGet dst c base fs count i) (BitVec.ofInt 8 (base + i * elementSize fs)) (elementSize fs)
        fun bs => .tuple (decodeFields fs bs))

/-- `SCALAR_SET`, `TUPLE_SET` and `ARRAY_SET` of a well-formed descriptor with values in their fields' ranges
complete in one lock hold with one write of the element's address and the encoded payload: each register it
stores to holds its byte, every other register is unchanged (R141, R143, R145, R147). That `ARRAY_SET` goes through no
controller's buffer is the model's choice, log entry 38. -/
def Obligations.DescriptorSetsComplete : Prop :=
  ∀ (s : State) (c : ObjRef) (ci : ObjId) (ctl : Controller) (r : DeviceRegs),
    CtrlCall s c ci ctl r →
    let put := fun (i : Instr) (out : List Byte) =>
      QuietWrite s.params s.turn ctl.devAddr out r s.oracle.drawResult.2 →
      ∃ t q, Runs i 3 s t ∧
        Leaves s t .free [] (heldTx s.turn ctl.devAddr .w out [] true) (devWith s ctl.devAddr q) s.me.done ∧
        q = afterWrite s.params s.turn ctl.devAddr out r s.oracle.drawResult.2 ∧
        (∀ x, q.read x = writtenReg s.params r out x) ∧
        ∀ x, x ∉ storedAddrs s.params (r.read regMode1) out → q.read x = r.read x
    (∀ addr v, scalarWf addr .u8 = true → 0 ≤ v → v ≤ 0xFF →
      put (.scalarSet c addr .u8 v) [BitVec.ofInt 8 addr, BitVec.ofInt 8 v]) ∧
    (∀ addr v, scalarWf addr .u16 = true → 0 ≤ v → v ≤ 0xFFFF →
      put (.scalarSet c addr .u16 v) [BitVec.ofInt 8 addr, BitVec.ofInt 8 (v % 256), BitVec.ofInt 8 (v / 256)]) ∧
    (∀ addr fs vs payload, tupleWf addr fs = true → vs.length = fs.length → encodeFields fs vs = .ok payload →
      put (.tupleSet c addr fs vs) (BitVec.ofInt 8 addr :: payload)) ∧
    (∀ base fs count i vs payload, arrayWf base fs count = true → 0 ≤ i → i < count → vs.length = fs.length →
      encodeFields fs vs = .ok payload →
      put (.arraySet c base fs count i vs) (BitVec.ofInt 8 (base + i * elementSize fs) :: payload))

/-- An index outside its range raises IndexError in one step, before any bus traffic and before the encoding of
the values is checked; a lock that the agent holds is released (R130, R146, R147, R173, R174, R190, R243, R244). -/
def Obligations.IndexErrorsComeFirst : Prop :=
  ∀ (s : State) (c : ObjRef) (ci : ObjId) (ctl : Controller) (dst : Option Name) (n : Int),
    OwnsCtrl s c ci ctl → s.me.phase = .idle →
    let fails := fun (i : Instr) => ∃ t, exec i s = .next t ∧ Aborts s t (.errored (.index n)) [] false
    (¬ (0 ≤ n ∧ n ≤ 15) → fails (.chLookup dst c n) ∧ fails (.ledGet dst c n) ∧
      ∀ on off, fails (.ledSet c n on off)) ∧
    (∀ base fs count, arrayWf base fs count = true → ¬ (0 ≤ n ∧ n < count) →
      fails (.arrayGet dst c base fs count n) ∧
      ∀ vs, vs.length = fs.length → fails (.arraySet c base fs count n vs))

/-- A value out of its field's range raises EncodingError with that value, the first one out of range, in one step
and before any bus traffic; a lock that the agent holds is released (R130, R143, R145, R147, R148, R167, R170, R172,
R174, R244). -/
def Obligations.EncodingErrorsTouchNoBus : Prop :=
  ∀ (s : State) (c : ObjRef) (ci : ObjId) (ctl : Controller) (v : Int),
    OwnsCtrl s c ci ctl → s.me.phase = .idle →
    let fails := fun (i : Instr) => ∃ t, exec i s = .next t ∧ Aborts s t (.errored (.encoding v)) [] false
    (¬ (0 ≤ v ∧ v ≤ 0xFF) → fails (.mode1Set c v) ∧ fails (.mode2Set c v) ∧ fails (.prescaleSet c v) ∧
      ∀ addr, scalarWf addr .u8 = true → fails (.scalarSet c addr .u8 v)) ∧
    (¬ (0 ≤ v ∧ v ≤ 0xFFFF) → (∀ addr, scalarWf addr .u16 = true → fails (.scalarSet c addr .u16 v)) ∧
      ∀ n, 0 ≤ n → n ≤ 15 → (∀ off, fails (.ledSet c n v off)) ∧
        ∀ on, 0 ≤ on → on ≤ 0xFFFF → fails (.ledSet c n on v)) ∧
    (∀ fs vs, vs.length = fs.length → encodeFields fs vs = .error v →
      (∀ addr, tupleWf addr fs = true → fails (.tupleSet c addr fs vs)) ∧
      ∀ base count n, arrayWf base fs count = true → 0 ≤ n → n < count → fails (.arraySet c base fs count n vs))

/-! ### The controller (42_pwm_controller.md) -/

/-- `CTRL_INIT` without a probe completes in one lock hold, the reset write: MODE1 becomes 0, no other register
changes, a device that was asleep wakes, and a new live controller with the operands, no cached channel and
unspecified buffer bytes is bound (R160, R161, R271).
`CTRL_INIT` with a probe, on a transport that answers `ok`, makes the probe's lock hold first, then the reset's
(R124, R160); where the probe falls back to its read, it completes all the same.
Where both attempts of the probe fail, it raises DeviceNotFoundError and no register has changed; where the probe
succeeds, by either attempt, and the reset write fails, it raises BusTransportError and no register but MODE1 has
changed; in both no controller is bound, and the lock is free (R124, R126, R160, R244). That a failed zero-length
write draws the pointer is log entry 11. -/
def Obligations.CtrlInitCompletes : Prop :=
  (∀ (s : State) (dst : Option Name) (addr : Int) (ref F : Sys2Proof.Num) (r : DeviceRegs),
    Ready s → 0 ≤ addr → addr ≤ 0x7F → Sys2Proof.Num.operand s.params.arith ref = some F → F.pos = true →
    s.device (BitVec.ofInt 7 addr) = some r → s.oracle.drawResult.1 = true →
    ∃ t buf, Runs (.ctrlInit dst addr ref false) 3 s t ∧
      Leaves s t .free [] (heldTx s.turn (BitVec.ofInt 7 addr) .w [0x00, 0x00] [] true)
        (devWith s (BitVec.ofInt 7 addr)
          (((r.write 0x00 0x00).setPtr (if s.params.aiModel = .always then 0x01 else 0x00)).setWake
            (if r.read 0x00 &&& s.params.sleepMask ≠ 0 then some [] else r.wake)))
        (s.me.done.withNew dst (.controller
          { devAddr := BitVec.ofInt 7 addr, refClk := F, live := true, chan := Vector.replicate 16 none, buf := buf }))) ∧
  (∀ (s : State) (dst : Option Name) (addr : Int) (ref F : Sys2Proof.Num) (r : DeviceRegs),
    Ready s → 0 ≤ addr → addr ≤ 0x7F → Sys2Proof.Num.operand s.params.arith ref = some F → F.pos = true →
    s.device (BitVec.ofInt 7 addr) = some r → s.oracle.Reliable 2 →
    ∃ t buf, Runs (.ctrlInit dst addr ref true) 6 s t ∧
      Leaves s t .free []
        (heldTx s.turn (BitVec.ofInt 7 addr) .w [] [] true ++
          heldTx s.turn (BitVec.ofInt 7 addr) .w [0x00, 0x00] [] true)
        (devWith s (BitVec.ofInt 7 addr)
          (((r.write 0x00 0x00).setPtr (if s.params.aiModel = .always then 0x01 else 0x00)).setWake
            (if r.read 0x00 &&& s.params.sleepMask ≠ 0 then some [] else r.wake)))
        (s.me.done.withNew dst (.controller
          { devAddr := BitVec.ofInt 7 addr, refClk := F, live := true, chan := Vector.replicate 16 none, buf := buf }))) ∧
  (∀ (s : State) (dst : Option Name) (addr : Int) (ref F : Sys2Proof.Num) (r : DeviceRegs) (rest : List Bool),
    Ready s → 0 ≤ addr → addr ≤ 0x7F → Sys2Proof.Num.operand s.params.arith ref = some F → F.pos = true →
    let d := BitVec.ofInt 7 addr
    s.device d = some r →
    let fellBack := fun (b : Byte) (ok : Bool) =>
      [Event.acquire s.turn, .tx s.turn d .w [] [] false, .tx s.turn d .r [] [b] ok, .release s.turn]
    let resetFails := fun (n : Nat) (probe : Byte → List Event) =>
      ∃ t q b, Runs (.ctrlInit dst addr ref true) n s t ∧
        Leaves s t .free [] (probe b ++ heldTx s.turn d .w [0x00, 0x00] [] false) (devWith s d q)
          (s.me.stopped (.errored (.busTransport d (.tx s.turn d .w [0x00, 0x00] [] false)))) ∧
        q.wake = none ∧ ∀ x, x ≠ 0x00 → q.read x = r.read x
    (s.oracle.results = false :: true :: true :: rest →
      ∃ t b buf, Runs (.ctrlInit dst addr ref true) 7 s t ∧
        Leaves s t .free [] (fellBack b true ++ heldTx s.turn d .w [0x00, 0x00] [] true)
          (devWith s d
            (((r.write 0x00 0x00).setPtr (if s.params.aiModel = .always then 0x01 else 0x00)).setWake
              (if r.read 0x00 &&& s.params.sleepMask ≠ 0 then some [] else r.wake)))
          (s.me.done.withNew dst (.controller
            { devAddr := d, refClk := F, live := true, chan := Vector.replicate 16 none, buf := buf }))) ∧
    (s.oracle.results = false :: false :: rest →
      ∃ t q b, Runs (.ctrlInit dst addr ref true) 4 s t ∧
        Leaves s t .free [] (fellBack b false) (devWith s d (r.setPtr q))
          (s.me.stopped (.errored (.deviceNotFound d)))) ∧
    (s.oracle.results = true :: false :: rest → resetFails 6 fun _ => heldTx s.turn d .w [] [] true) ∧
    (s.oracle.results = false :: true :: false :: rest → resetFails 7 fun b => fellBack b true))

/-- `CTRL_RESET` and `CTRL_DEINIT` complete in one lock hold: MODE1 becomes 0 and every other register keeps its
value; a deinitialised controller is no longer live, and nothing else of the agent's objects changes (R161,
R177). -/
def Obligations.ResetAndDeinitComplete : Prop :=
  ∀ (s : State) (c : ObjRef) (ci : ObjId) (ctl : Controller) (r : DeviceRegs), CtrlCall s c ci ctl r →
    let dev := devWith s ctl.devAddr
      (((r.write 0x00 0x00).setPtr (if s.params.aiModel = .always then 0x01 else 0x00)).setWake
        (if r.read 0x00 &&& s.params.sleepMask ≠ 0 then some [] else r.wake))
    (∃ t, Runs (.ctrlReset c) 3 s t ∧
      Leaves s t .free [] (heldTx s.turn ctl.devAddr .w [0x00, 0x00] [] true) dev s.me.done) ∧
    (∃ t, Runs (.ctrlDeinit c) 3 s t ∧
      Leaves s t .free [] (heldTx s.turn ctl.devAddr .w [0x00, 0x00] [] true) dev
        (s.me.done.withObj ci (.controller { ctl with live := false })))

/-- `MODE1_GET`, `MODE2_GET` and `PRESCALE_GET` complete in one lock hold: no register changes, and the result is
the register's byte, MODE1's volatile bits free (R64, R166, R169, R171). -/
def Obligations.ScalarRegisterGetsComplete : Prop :=
  ∀ (s : State) (c : ObjRef) (ci : ObjId) (ctl : Controller) (r : DeviceRegs) (dst : Option Name),
    CtrlCall s c ci ctl r →
    let got := fun (i : Instr) (a v : Byte) =>
      ∃ t, Runs i 3 s t ∧
        Leaves s t .free [] (heldTx s.turn ctl.devAddr .wr [a] [v] true)
          (devWith s ctl.devAddr (r.setPtr (ptrAfter (r.adv s.params) a 1)))
          (s.me.done.bound dst (.int v.toNat))
    (∃ draw : Byte, got (.mode1Get dst c) 0x00
      ((r.read 0x00 &&& ~~~ s.params.mode1VolatileMask) ||| (draw &&& s.params.mode1VolatileMask))) ∧
    got (.mode2Get dst c) 0x01 (r.read 0x01) ∧ got (.prescaleGet dst c) 0xFE (r.read 0xFE)

/-- `MODE1_SET` of a byte, no wake being pending that a set RESTART bit would cut short, completes in one lock
hold: MODE1 holds the byte, every other register keeps its value, and the settle obligation is taken up, dropped
or kept as R38 and R282 say (R167). -/
def Obligations.Mode1SetCompletes : Prop :=
  ∀ (s : State) (c : ObjRef) (ci : ObjId) (ctl : Controller) (r : DeviceRegs) (v : Int),
    CtrlCall s c ci ctl r → 0 ≤ v → v ≤ 0xFF →
    ¬ (BitVec.ofInt 8 v &&& s.params.restartMask ≠ 0 ∧ ∃ S, r.wake = some S ∧ s.turn ∉ S) →
    ∃ t q, Runs (.mode1Set c v) 3 s t ∧
      Leaves s t .free [] (heldTx s.turn ctl.devAddr .w [0x00, BitVec.ofInt 8 v] [] true)
        (devWith s ctl.devAddr q) s.me.done ∧
      (∀ x, q.read x = if x = 0x00 then BitVec.ofInt 8 v else r.read x) ∧
      q.ptr = ptrAfter (q.adv s.params) 0x00 1 ∧
      q.wake =
        if BitVec.ofInt 8 v &&& s.params.restartMask ≠ 0 ∨ BitVec.ofInt 8 v &&& s.params.sleepMask ≠ 0 then none
        else if r.read 0x00 &&& s.params.sleepMask ≠ 0 then some []
        else r.wake

/-- `MODE1_SET` that sets RESTART while a wake is pending that the agent has not waited out faults
RestartBeforeSettle in the step of its write, the byte stored all the same; the agent stops and its lock is
released (R247, R282).
`PRESCALE_SET` while MODE1's SLEEP bit is clear faults PrescaleWhileRunning in the step of its write; the byte
stored is free, every other register keeps its value, the agent stops and its lock is released (R65, R172,
R247).
`BUS_WRITE`, `BUS_WRITE_READ`, `SCALAR_SET`, `TUPLE_SET` and `ARRAY_SET` whose write raises a model fault stop in the
same way, the write's whole effect done, with the faults that the write raises, which are of these two kinds (R65,
R127, R129, R143, R145, R147, R247, R282).
That the operation ends in the step of the faulting write, `pc` kept and the lock released in that step, is the
model's reading of R247, log entry 14. -/
def Obligations.StoresThatFault : Prop :=
  (∀ (s : State) (c : ObjRef) (ci : ObjId) (ctl : Controller) (r : DeviceRegs) (v : Int) (S : List AgentId),
    CtrlCall s c ci ctl r → 0 ≤ v → v ≤ 0xFF → BitVec.ofInt 8 v &&& s.params.restartMask ≠ 0 →
    r.wake = some S → s.turn ∉ S →
    ∃ t q, Runs (.mode1Set c v) 2 s t ∧
      Leaves s t .free [.restartBeforeSettle ctl.devAddr]
        [.acquire s.turn, .tx s.turn ctl.devAddr .w [0x00, BitVec.ofInt 8 v] [] true, .release s.turn]
        (devWith s ctl.devAddr q) (s.me.stopped .faulted) ∧
      (∀ x, q.read x = if x = 0x00 then BitVec.ofInt 8 v else r.read x) ∧ q.wake = none) ∧
  (∀ (s : State) (c : ObjRef) (ci : ObjId) (ctl : Controller) (r : DeviceRegs) (v : Int),
    CtrlCall s c ci ctl r → 0 ≤ v → v ≤ 0xFF → r.read 0x00 &&& s.params.sleepMask = 0 →
    ∃ t draw, Runs (.prescaleSet c v) 2 s t ∧
      Leaves s t .free [.prescaleWhileRunning ctl.devAddr]
        [.acquire s.turn, .tx s.turn ctl.devAddr .w [0xFE, BitVec.ofInt 8 v] [] true, .release s.turn]
        (devWith s ctl.devAddr ((r.write 0xFE draw).setPtr (ptrAfter (r.adv s.params) 0xFE 1)))
        (s.me.stopped .faulted)) ∧
  (∀ (s : State) (c : ObjRef) (ci : ObjId) (ctl : Controller) (r : DeviceRegs), CtrlCall s c ci ctl r →
    let o := s.oracle.drawResult.2
    let stops := fun (i : Instr) (kind : TxKind) (out : List Byte) (n : Nat) =>
      ¬ QuietWrite s.params s.turn ctl.devAddr out r o →
      ∃ t q inp, Runs i 2 s t ∧ inp.length = n ∧
        Leaves s t .free (writeFaults s.params s.turn ctl.devAddr out r o)
          [.acquire s.turn, .tx s.turn ctl.devAddr kind out inp true, .release s.turn]
          (devWith s ctl.devAddr q) (s.me.stopped .faulted) ∧
        (∀ x, q.read x = (afterWrite s.params s.turn ctl.devAddr out r o).read x) ∧
        q.wake = (afterWrite s.params s.turn ctl.devAddr out r o).wake ∧
        ∀ x, x ∉ storedAddrs s.params (r.read regMode1) out → q.read x = r.read x
    (∀ buf st en, 0 ≤ st → st ≤ en → en ≤ (buf.length : Int) →
      stops (.busWrite c buf st en) .w ((buf.take en.toNat).drop st.toNat) 0) ∧
    (∀ dst out m, 0 ≤ m → stops (.busWriteRead dst c out m) .wr out m.toNat) ∧
    (∀ addr v, scalarWf addr .u8 = true → 0 ≤ v → v ≤ 0xFF →
      stops (.scalarSet c addr .u8 v) .w [BitVec.ofInt 8 addr, BitVec.ofInt 8 v] 0) ∧
    (∀ addr v, scalarWf addr .u16 = true → 0 ≤ v → v ≤ 0xFFFF →
      stops (.scalarSet c addr .u16 v) .w
        [BitVec.ofInt 8 addr, BitVec.ofInt 8 (v % 256), BitVec.ofInt 8 (v / 256)] 0) ∧
    (∀ addr fs vs payload, tupleWf addr fs = true → vs.length = fs.length → encodeFields fs vs = .ok payload →
      stops (.tupleSet c addr fs vs) .w (BitVec.ofInt 8 addr :: payload) 0) ∧
    (∀ base fs count i vs payload, arrayWf base fs count = true → 0 ≤ i → i < count → vs.length = fs.length →
      encodeFields fs vs = .ok payload →
      stops (.arraySet c base fs count i vs) .w (BitVec.ofInt 8 (base + i * elementSize fs) :: payload) 0)) ∧
  (∀ (P : Params) (g : AgentId) (d : DevAddr) (out : List Byte) (r : DeviceRegs) (o : Oracle),
    ∀ f ∈ writeFaults P g d out r o, f = .prescaleWhileRunning d ∨ f = .restartBeforeSettle d)

/-- `MODE2_SET` of a byte, and `PRESCALE_SET` of a byte while MODE1's SLEEP bit is set, complete in one lock hold:
that register holds the byte and nothing else of the device but the pointer changes (R170, R172). -/
def Obligations.Mode2AndPrescaleSetsComplete : Prop :=
  ∀ (s : State) (c : ObjRef) (ci : ObjId) (ctl : Controller) (r : DeviceRegs) (v : Int),
    CtrlCall s c ci ctl r → 0 ≤ v → v ≤ 0xFF →
    (∃ t, Runs (.mode2Set c v) 3 s t ∧
      Leaves s t .free [] (heldTx s.turn ctl.devAddr .w [0x01, BitVec.ofInt 8 v] [] true)
        (devWith s ctl.devAddr ((r.write 0x01 (BitVec.ofInt 8 v)).setPtr (ptrAfter (r.adv s.params) 0x01 1)))
        s.me.done) ∧
    (r.read 0x00 &&& s.params.sleepMask ≠ 0 → ∃ t, Runs (.prescaleSet c v) 3 s t ∧
      Leaves s t .free [] (heldTx s.turn ctl.devAddr .w [0xFE, BitVec.ofInt 8 v] [] true)
        (devWith s ctl.devAddr ((r.write 0xFE (BitVec.ofInt 8 v)).setPtr (ptrAfter (r.adv s.params) 0xFE 1)))
        s.me.done)

/-- `LED_GET` and `LED_SET` of an index 0..15 complete in one lock hold through the controller's transfer buffer,
which holds the bytes of the transfer afterwards (log entry 26): a get changes no register and its result is the two
little-endian words of the element; a set stores the four bytes of the element, to no register outside it, each
at its own address where the pointer advances and all at the element's first where it does not (R150, R173, R174,
R286). -/
def Obligations.LedAccessesComplete : Prop :=
  ∀ (s : State) (c : ObjRef) (ci : ObjId) (ctl : Controller) (r : DeviceRegs) (dst : Option Name) (n : Fin 16),
    CtrlCall s c ci ctl r →
    let a : Byte := BitVec.ofNat 8 (0x06 + 4 * n.val)
    let b := fun k => r.read (readAddr (r.adv s.params) a k)
    (∃ t, Runs (.ledGet dst c n.val) 3 s t ∧
      Leaves s t .free [] (heldTx s.turn ctl.devAddr .wr [a] [b 0, b 1, b 2, b 3] true)
        (devWith s ctl.devAddr (r.setPtr (ptrAfter (r.adv s.params) a 4)))
        ((s.me.done.withBuf ci ctl [a, b 0, b 1, b 2, b 3]).bound dst
          (.tuple [(b 0).toNat + 256 * (b 1).toNat, (b 2).toNat + 256 * (b 3).toNat]))) ∧
    (∀ on off : Int, 0 ≤ on → on ≤ 0xFFFF → 0 ≤ off → off ≤ 0xFFFF →
      let payload := [BitVec.ofInt 8 on, BitVec.ofInt 8 (on / 256), BitVec.ofInt 8 off, BitVec.ofInt 8 (off / 256)]
      ∃ t q, Runs (.ledSet c n.val on off) 3 s t ∧
        Leaves s t .free [] (heldTx s.turn ctl.devAddr .w (a :: payload) [] true)
          (devWith s ctl.devAddr q) (s.me.done.withBuf ci ctl (a :: payload)) ∧
        q.wake = r.wake ∧ q.ptr = ptrAfter (r.adv s.params) a 4 ∧
        ∀ x, q.read x = storedAt (r.adv s.params) r a payload x)

/-- `FREQ_GET` of a live controller, and `CH_FREQ_GET` of a channel of one (R162, R191), complete in one lock hold that
reads PRESCALE; with `p ≥ 3` the result is `ref_clk / 4096 / p`, and with `p < 3` the operation ends with
CalibrationError carrying `p`. No register changes. -/
def Obligations.FrequencyGetsComplete : Prop :=
  let gets := fun (i : Instr) (s : State) (ctl : Controller) (r : DeviceRegs) (dst : Option Name) =>
    ∃ t, Runs i 3 s t ∧
      Leaves s t .free [] (heldTx s.turn ctl.devAddr .wr [0xFE] [r.read 0xFE] true)
        (devWith s ctl.devAddr (r.setPtr (ptrAfter (r.adv s.params) 0xFE 1)))
        (if (r.read 0xFE).toNat < 3 then
          s.me.stopped (.errored (.calibration (.prescale (r.read 0xFE).toNat)))
        else s.me.done.bound dst (.num (Sys2Proof.Num.div s.params.arith
          (Sys2Proof.Num.div s.params.arith ctl.refClk (Sys2Proof.Num.ofRat s.params.arith 4096))
          (Sys2Proof.Num.ofRat s.params.arith (r.read 0xFE).toNat))))
  (∀ (s : State) (c : ObjRef) (ci : ObjId) (ctl : Controller) (r : DeviceRegs) (dst : Option Name),
    CtrlCall s c ci ctl r → gets (.freqGet dst c) s ctl r dst) ∧
  (∀ (s : State) (ch : ObjRef) (hi : ObjId) (h : Channel) (ctl : Controller) (r : DeviceRegs) (dst : Option Name),
    ChanCall s ch hi h ctl r → gets (.chFreqGet dst ch) s ctl r dst)

/-- The prescale of a frequency under exact arithmetic (R164): `round(ref / 4096 / freq)` where that is in 3..255,
the error otherwise, 0 Hz included; and with the default reference clock and ties up, the accepted frequencies are
exactly those above 6103.515625/255.5 and at most 6103.515625/2.5 Hz. -/
def Obligations.PrescaleForAFrequency : Prop :=
  (∀ (P : Params) (ref freq : Rat), P.arith = .exact →
    prescaleFor P (.rat ref) (.rat freq) =
      if freq = 0 then .error (.calibration (.frequency (.rat freq)))
      else
        let p := roundRat P.roundTie (ref / 4096 / freq)
        if 3 ≤ p ∧ p ≤ 255 then .ok (BitVec.ofInt 8 p) else .error (.calibration (.prescale p))) ∧
  (∀ (P : Params) (freq : Rat), P.arith = .exact → P.roundTie = .halfUp →
    ((∃ p, prescaleFor P (.rat 25000000) (.rat freq) = .ok p) ↔
      (6103515625 / 1000000 : Rat) / (511 / 2) < freq ∧ freq ≤ (6103515625 / 1000000 : Rat) / (5 / 2)))

/-- `FREQ_SET` of a frequency that has a prescale `p`, the SLEEP and RESTART masks not being 0, completes on a transport
that answers `ok`, undisturbed: the six steps of R163 in their order, MODE1 restored and then written with RESTART and AI set, PRESCALE = `p`, every
other register of the device unchanged, no model fault, and at every other device only the delay's discharge of
its settle obligation (R163, R165, R283). `old` is the MODE1 value its first step read. Where the masks would let
step (2) set RESTART, no wake may be pending that the agent has not waited out (R282). -/
def Obligations.FreqSetCompletes : Prop :=
  ∀ (s : State) (c : ObjRef) (ci : ObjId) (ctl : Controller) (r : DeviceRegs) (freq F : Sys2Proof.Num) (p : Byte),
    CtrlCall s c ci ctl r → s.oracle.Reliable 5 → s.params.sleepMask ≠ 0 → s.params.restartMask ≠ 0 →
    SleepsQuietly s.params s.turn r →
    Sys2Proof.Num.operand s.params.arith freq = some F → prescaleFor s.params ctl.refClk F = .ok p →
    ∃ t q old, Runs (.freqSet c freq) 16 s t ∧ readsAs s.params r 0x00 old ∧
      Leaves s t .free []
        (heldTx s.turn ctl.devAddr .wr [0x00] [old] true ++
          heldTx s.turn ctl.devAddr .w
            [0x00, (old &&& ~~~ s.params.sleepEntryClear) ||| s.params.sleepMask] [] true ++
          heldTx s.turn ctl.devAddr .w [0xFE, p] [] true ++
          heldTx s.turn ctl.devAddr .w [0x00, old] [] true ++
          [.delay s.turn 5] ++
          heldTx s.turn ctl.devAddr .w [0x00, old ||| s.params.restartMask ||| s.params.aiMask] [] true)
        (fun e => if e = ctl.devAddr then some q else (s.device e).map (DeviceRegs.discharge s.turn))
        s.me.done ∧
      (∀ x, q.read x = if x = 0x00 then old ||| s.params.restartMask ||| s.params.aiMask
        else if x = 0xFE then p else r.read x) ∧
      q.ptr = ptrAfter (q.adv s.params) 0x00 1 ∧ q.wake = none

/-- `FREQ_SET` of a frequency that has none raises its CalibrationError in one step, before any bus traffic (R163,
R164, R243).
`CH_FREQ_SET` raises UnsupportedOperationError with the channel, whatever its operand, in one step and with no
bus traffic (R192). That a NaN or infinite operand, which exact arithmetic does not have, is not refused here is the
model's reading of R192, log entry 19. A lock that the agent holds is released (R130, R244). -/
def Obligations.FrequencySetsThatFail : Prop :=
  (∀ (s : State) (c : ObjRef) (ci : ObjId) (ctl : Controller) (freq F : Sys2Proof.Num) (e : ErrorCode),
    OwnsCtrl s c ci ctl → s.me.phase = .idle →
    Sys2Proof.Num.operand s.params.arith freq = some F → prescaleFor s.params ctl.refClk F = .error e →
    ∃ t, exec (.freqSet c freq) s = .next t ∧ Aborts s t (.errored e) [] false) ∧
  (∀ (s : State) (ch : ObjRef) (hi : ObjId) (h : Channel) (ctl : Controller) (f : Sys2Proof.Num),
    OwnsChan s ch hi h ctl → s.me.phase = .idle →
    ∃ t, exec (.chFreqSet ch f) s = .next t ∧ Aborts s t (.errored (.unsupportedOperation hi)) [] false)

/-- When a transaction of `FREQ_SET` fails, the steps before it keep their effects, the later ones do not run, and the
lock is released (R175): the device is left as the rule's table says, for each of the five transactions, and the
history holds the lock holds of the steps before it and its own. As for `FREQ_SET` that completes, no wake may be
pending that step (2) would cut short (R282).
Between its transactions other agents may step, and each write of `FREQ_SET` acts on the device as it finds it
(R75, R284): step (3) stores `p` where SLEEP is set, and faults PrescaleWhileRunning where another agent has
cleared it; steps (2), (4) and (6) store their value over whatever MODE1 holds by then, from the MODE1 byte `old`
that step (1) read, and fault RestartBeforeSettle exactly where R282 says; every other register keeps what it
holds, PRESCALE too. That a fault ends the operation in the step of the write is log entry 14. -/
def Obligations.FailedFreqSetLeavesItsSteps : Prop :=
  (∀ (s : State) (c : ObjRef) (ci : ObjId) (ctl : Controller) (r : DeviceRegs) (freq F : Sys2Proof.Num) (p : Byte),
    OwnsCtrl s c ci ctl → Ready s → s.device ctl.devAddr = some r →
    s.params.sleepMask ≠ 0 → s.params.restartMask ≠ 0 → SleepsQuietly s.params s.turn r →
    Sys2Proof.Num.operand s.params.arith freq = some F → prescaleFor s.params ctl.refClk F = .ok p →
    let fails := fun (n : Nat) (before : Byte → List Event) (kind : TxKind) (out : Byte → List Byte)
        (left : DeviceRegs → Byte → Prop) =>
      ∃ t q old inp, Runs (.freqSet c freq) n s t ∧ readsAs s.params r 0x00 old ∧ t.lock = .free ∧
        t.me.status = .errored (.busTransport ctl.devAddr (.tx s.turn ctl.devAddr kind (out old) inp false)) ∧
        t.me.pc = s.me.pc ∧ (∀ f, f ∈ t.faults ↔ f ∈ s.faults) ∧
        t.history = s.history ++ (before old ++ heldTx s.turn ctl.devAddr kind (out old) inp false) ∧
        t.device ctl.devAddr = some q ∧ left q old
    let sleeping := fun old : Byte => (old &&& ~~~ s.params.sleepEntryClear) ||| s.params.sleepMask
    let got := fun old : Byte => heldTx s.turn ctl.devAddr .wr [0x00] [old] true
    let wrote := fun out : List Byte => heldTx s.turn ctl.devAddr .w out [] true
    (s.oracle.results.take 1 = [false] → fails 3 (fun _ => []) .wr (fun _ => [0x00]) fun q _ =>
      ∀ x, q.read x = r.read x) ∧
    (s.oracle.results.take 2 = [true, false] → fails 6 got .w (fun old => [0x00, sleeping old]) fun q _ =>
      ∀ x, x ≠ 0x00 → q.read x = r.read x) ∧
    (s.oracle.results.take 3 = [true, true, false] →
      fails 9 (fun old => got old ++ wrote [0x00, sleeping old]) .w (fun _ => [0xFE, p]) fun q old =>
        q.read 0x00 = sleeping old ∧ ∀ x, x ≠ 0x00 → x ≠ 0xFE → q.read x = r.read x) ∧
    (s.oracle.results.take 4 = [true, true, true, false] →
      fails 12 (fun old => got old ++ wrote [0x00, sleeping old] ++ wrote [0xFE, p]) .w (fun old => [0x00, old])
        fun q _ => q.read 0xFE = p ∧ ∀ x, x ≠ 0x00 → x ≠ 0xFE → q.read x = r.read x) ∧
    (s.oracle.results.take 5 = [true, true, true, true, false] →
      fails 16
        (fun old => got old ++ wrote [0x00, sleeping old] ++ wrote [0xFE, p] ++ wrote [0x00, old] ++
          [.delay s.turn 5]) .w
        (fun old => [0x00, old ||| s.params.restartMask ||| s.params.aiMask]) fun q _ =>
        q.read 0xFE = p ∧ ∀ x, x ≠ 0x00 → x ≠ 0xFE → q.read x = r.read x)) ∧
  (∀ (s : State) (c : ObjRef) (ci : ObjId) (ctl : Controller) (r : DeviceRegs) (freq F : Sys2Proof.Num) (p : Byte)
    (old : Byte) (rs : List (List Byte)),
    OwnsCtrl s c ci ctl → s.device ctl.devAddr = some r → s.oracle.drawResult.1 = true → s.lock = .held s.turn →
    Sys2Proof.Num.operand s.params.arith freq = some F → prescaleFor s.params ctl.refClk F = .ok p →
    s.me.phase = .body ([old] :: rs) →
    let sent := fun out : List Byte => Event.tx s.turn ctl.devAddr .w out [] true
    let goesOn := fun (out : List Byte) (left : DeviceRegs → Prop) =>
      ∃ t q, exec (.freqSet c freq) s = .next t ∧ left q ∧
        Leaves s t s.lock [] [sent out] (devWith s ctl.devAddr q)
          { s.me with phase := .release ([old] :: rs) (.ok []) }
    let stops := fun (out : List Byte) (f : ModelFault) (left : DeviceRegs → Prop) =>
      ∃ t q, exec (.freqSet c freq) s = .next t ∧ left q ∧
        Leaves s t .free [f] [sent out, .release s.turn] (devWith s ctl.devAddr q)
          (({ s.me with holding := false } : AgentState).halted .faulted)
    (rs.length = 1 →
      (r.read 0x00 &&& s.params.sleepMask ≠ 0 → goesOn [0xFE, p] fun q =>
        q = (r.write 0xFE p).setPtr (ptrAfter (r.adv s.params) 0xFE 1)) ∧
      (r.read 0x00 &&& s.params.sleepMask = 0 → stops [0xFE, p] (.prescaleWhileRunning ctl.devAddr) fun q =>
        ∃ draw, q = (r.write 0xFE draw).setPtr (ptrAfter (r.adv s.params) 0xFE 1))) ∧
    (∀ v : Byte, (rs.length = 0 ∧ v = ((old &&& ~~~ s.params.sleepEntryClear) ||| s.params.sleepMask)) ∨
        (rs.length = 2 ∧ v = old) ∨
        (rs.length = 4 ∧ v = (old ||| s.params.restartMask ||| s.params.aiMask)) →
      let left := fun q : DeviceRegs => (∀ x, q.read x = if x = 0x00 then v else r.read x) ∧
        q.ptr = ptrAfter (q.adv s.params) 0x00 1 ∧
        q.wake =
          if v &&& s.params.restartMask ≠ 0 ∨ v &&& s.params.sleepMask ≠ 0 then none
          else if r.read 0x00 &&& s.params.sleepMask ≠ 0 then some []
          else r.wake
      (v &&& s.params.restartMask ≠ 0 ∧ (∃ S, r.wake = some S ∧ s.turn ∉ S) →
        stops [0x00, v] (.restartBeforeSettle ctl.devAddr) left) ∧
      (¬ (v &&& s.params.restartMask ≠ 0 ∧ ∃ S, r.wake = some S ∧ s.turn ∉ S) → goesOn [0x00, v] left)))

/-- Every operation on a deinitialised controller, on a channel of one or on a servo of one faults UseAfterDeinit
in one step and does nothing else (R102, R168).
An operation whose operand names another agent's object, no object of its own, or an object of another kind is refused
in one step and does nothing else (R99, R102, R248, R255). A lock that the agent holds is released (R130, R247).
The model's choices: that UseAfterDeinit comes before the refusals of other operands and before CH_FREQ_SET's error,
although R243 puts that error first, is log entry 18; the release at a refusal is log entry 15. -/
def Obligations.UnusableObjects : Prop :=
  (∀ (i : Instr) (s : State) (ref : ObjRef) (oi ci : ObjId) (ctl : Controller),
    operandRef i = some ref → s.resolve ref = some oi → standsOn s (operandKind i) oi ci →
    s.object ci = some (.controller ctl) → ctl.live = false → s.me.phase = .idle →
    ∃ t, exec i s = .next t ∧ Aborts s t .faulted [.useAfterDeinit s.turn ci] false) ∧
  (∀ (i : Instr) (s : State) (ref : ObjRef),
    operandRef i = some ref → s.me.phase = .idle →
    (ref.agent ≠ s.turn ∨ s.me.names.lookup ref.name = none ∨
      ∃ oi o, s.resolve ref = some oi ∧ s.object oi = some o ∧ o.kind ≠ operandKind i) →
    ∃ t, exec i s = .next t ∧ Aborts s t .refused [] true)

/-! ### Channels (43_channel.md) -/

/-- `CH_LOOKUP` (R190), in one step and with no bus traffic: an index outside 0..15 raises IndexError before any
other effect; of an index in 0..15 the first lookup makes the handle, caches it and binds it, and every later one
binds the handle that is cached. -/
def Obligations.ChannelLookupCompletes : Prop :=
  ∀ (s : State) (c : ObjRef) (ci : ObjId) (ctl : Controller) (dst : Option Name),
    OwnsCtrl s c ci ctl → s.me.phase = .idle →
    (∀ n : Int, ¬ (0 ≤ n ∧ n ≤ 15) → s.lock ≠ .held s.turn → ∃ t, exec (.chLookup dst c n) s = .next t ∧
      Leaves s t s.lock [] [] s.device (s.me.halted (.errored (.index n)))) ∧
    (∀ n : Int, ¬ (0 ≤ n ∧ n ≤ 15) → s.lock = .held s.turn → ∃ t, exec (.chLookup dst c n) s = .next t ∧
      Leaves s t .free [] [.release s.turn] s.device
        (({ s.me with holding := false } : AgentState).halted (.errored (.index n)))) ∧
    ∀ n : Fin 16,
      (∀ hi, ctl.chan[n] = some hi → ∃ t, exec (.chLookup dst c n.val) s = .next t ∧
        Leaves s t s.lock [] [] s.device { s.me.advanced with names := bindName s.me.names dst hi }) ∧
      (ctl.chan[n] = none → ∃ t, exec (.chLookup dst c n.val) s = .next t ∧
        Leaves s t s.lock [] [] s.device
          ((s.me.advanced.withObj ci (.controller { ctl with chan := ctl.chan.set n (some s.me.objs.length) })).withNew
            dst (.channel { controller := ci, index := n })))

/-- The duty encoding and decoding (R195, R196): the full-on marker for 0xFFFF, else the 12-bit native duty
`floor((v + 1) / 16)`, at most 0xFFF; what is decoded from an encoding is `rt v`, under either `FULL_ON_MATCH`; and
a foreign element decodes unmasked. -/
def Obligations.DutyEncodingAndDecoding : Prop :=
  (∀ v : Int, 0 ≤ v → v ≤ 0xFFFF →
    (v = 0xFFFF → dutyEncode v = (0x1000, 0)) ∧
    (v ≠ 0xFFFF → dutyEncode v = (0, (v + 1) / 16) ∧ 0 ≤ (v + 1) / 16 ∧ (v + 1) / 16 ≤ 0xFFF) ∧
    ∀ m, dutyDecode m (dutyEncode v).1 (dutyEncode v).2 = if v = 0xFFFF then 0xFFFF else 16 * ((v + 1) / 16)) ∧
  (∀ on off : Int, 0 ≤ on → 0 ≤ off →
    dutyDecode .pair on off = (if on = 0x1000 ∧ off = 0 then 0xFFFF else off * 16) ∧
    dutyDecode .onWord on off = (if on = 0x1000 then 0xFFFF else off * 16))

/-- `CH_DUTY_GET` completes in one lock hold (R193): no register changes, and the result is the decoded element. -/
def Obligations.ChannelDutyGetCompletes : Prop :=
  ∀ (s : State) (ch : ObjRef) (hi : ObjId) (h : Channel) (ctl : Controller) (r : DeviceRegs) (dst : Option Name),
    ChanCall s ch hi h ctl r →
    let a : Byte := BitVec.ofNat 8 (0x06 + 4 * h.index.val)
    let b := fun k => r.read (readAddr (r.adv s.params) a k)
    ∃ t, Runs (.chDutyGet dst ch) 3 s t ∧
      Leaves s t .free [] (heldTx s.turn ctl.devAddr .wr [a] [b 0, b 1, b 2, b 3] true)
        (devWith s ctl.devAddr (r.setPtr (ptrAfter (r.adv s.params) a 4)))
        ((s.me.done.withBuf h.controller ctl [a, b 0, b 1, b 2, b 3]).bound dst
          (.int (dutyDecode s.params.fullOnMatch ((b 0).toNat + 256 * (b 1).toNat)
            ((b 2).toNat + 256 * (b 3).toNat))))

/-- `CH_DUTY_SET` of a value in 0..0xFFFF completes in one lock hold that writes the encoded element: no register
outside the element changes (R194, R195); a value outside raises RangeError with that value in one step, before any
bus traffic, whatever the device and the lock, and a lock that the agent holds is released (R130, R194, R244). -/
def Obligations.ChannelDutySetCompletes : Prop :=
  (∀ (s : State) (ch : ObjRef) (hi : ObjId) (h : Channel) (ctl : Controller) (r : DeviceRegs) (v : Int),
    ChanCall s ch hi h ctl r → 0 ≤ v → v ≤ 0xFFFF →
    let a : Byte := BitVec.ofNat 8 (0x06 + 4 * h.index.val)
    let payload : List Byte := if v = 0xFFFF then [0x00, 0x10, 0x00, 0x00]
      else [0x00, 0x00, BitVec.ofInt 8 ((v + 1) / 16), BitVec.ofInt 8 ((v + 1) / 16 / 256)]
    ∃ t q, Runs (.chDutySet ch v) 3 s t ∧
      Leaves s t .free [] (heldTx s.turn ctl.devAddr .w (a :: payload) [] true) (devWith s ctl.devAddr q)
        (s.me.done.withBuf h.controller ctl (a :: payload)) ∧
      q.wake = r.wake ∧ q.ptr = ptrAfter (r.adv s.params) a 4 ∧
      ∀ x, q.read x = storedAt (r.adv s.params) r a payload x) ∧
  (∀ (s : State) (ch : ObjRef) (hi : ObjId) (h : Channel) (ctl : Controller) (v : Int),
    OwnsChan s ch hi h ctl → s.me.phase = .idle → ¬ (0 ≤ v ∧ v ≤ 0xFFFF) →
    ∃ t, exec (.chDutySet ch v) s = .next t ∧ Aborts s t (.errored (.range (.int v))) [] false)

/-- The round trip of a duty value (R197): on a reliable transport, with the pointer advancing and no other write in
between, `CH_DUTY_SET ch, v` then `CH_DUTY_GET ch` returns `rt v`; and `rt` is within `v - 14 .. v + 1` below
0xFFFF and idempotent. -/
def Obligations.DutyRoundTrip : Prop :=
  (∀ (s : State) (ch : ObjRef) (hi : ObjId) (h : Channel) (ctl : Controller) (r : DeviceRegs) (n : Name) (v : Int),
    ChanCall s ch hi h ctl r → s.oracle.Reliable 2 → r.adv s.params = true → 0 ≤ v → v ≤ 0xFFFF →
    ∃ t u, Runs (.chDutySet ch v) 3 s t ∧ Runs (.chDutyGet (some n) ch) 3 t u ∧
      u.me.results.lookup n = some (.int (rt v))) ∧
  (∀ v : Int, 0 ≤ v → v < 0xFFFF → v - 14 ≤ rt v ∧ rt v ≤ v + 1 ∧ rt v % 16 = 0) ∧
  (∀ v : Int, 0 ≤ v → v ≤ 0xFFFF → rt (rt v) = rt v)

/-- A channel operation writes only the four bytes of its own element (R198): whatever its steps, failed transfers
and foreign interleavings included, no step of `CH_LOOKUP`, `CH_FREQ_GET`, `CH_FREQ_SET`, `CH_DUTY_GET` or
`CH_DUTY_SET` changes another register of any device; and all channels of a controller read the same frequency. -/
def Obligations.ChannelsWriteOnlyTheirElement : Prop :=
  (∀ (s t : State) (i : Instr) (c ch : ObjRef) (ci hi : ObjId) (h : Channel) (ctl ctl' : Controller)
    (dst : Option Name) (f : Sys2Proof.Num) (n v : Int),
    OwnsChan s ch hi h ctl → OwnsCtrl s c ci ctl' →
    i ∈ [Instr.chLookup dst c n, .chFreqGet dst ch, .chFreqSet ch f, .chDutyGet dst ch, .chDutySet ch v] →
    exec i s = .next t →
    ∀ d r, s.device d = some r → ∃ q, t.device d = some q ∧
      ∀ x, d ≠ ctl.devAddr ∨ x ∉ elementAddrs h.index → q.read x = r.read x) ∧
  (∀ (s : State) (c1 c2 : ObjRef) (h1 h2 : ObjId) (n1 n2 : Fin 16) (ci : ObjId) (ctl : Controller)
    (dst : Option Name),
    OwnsChan s c1 h1 { controller := ci, index := n1 } ctl →
    OwnsChan s c2 h2 { controller := ci, index := n2 } ctl →
    exec (.chFreqGet dst c1) s = exec (.chFreqGet dst c2) s)

/-! ### Servos (44_servo.md) -/

/-- `SERVO_INIT` of a channel handle, the first servo of the channel or a further one, and `SERVO_SET_PULSE_RANGE` of a
servo (R210, R211) complete in one lock hold that reads PRESCALE: with `p ≥ 3` the calibration is computed from the
frequency of that moment, and the servo is bound, or its pulse range and calibration replaced and nothing else of it;
with `p < 3` the operation ends with CalibrationError, no servo is bound and none is changed. No register changes. -/
def Obligations.ServoCalibrationCompletes : Prop :=
  let md := fun (s : State) (ctl : Controller) (r : DeviceRegs) (p0 : Sys2Proof.Num) =>
    Sys2Proof.Num.floor (pulseDuty s.params.arith p0 (freqOf s.params.arith ctl.refClk (r.read 0xFE)))
  let dr := fun (s : State) (ctl : Controller) (r : DeviceRegs) (p0 p1 : Sys2Proof.Num) =>
    Sys2Proof.Num.round s.params.roundTie
      (pulseDuty s.params.arith p1 (freqOf s.params.arith ctl.refClk (r.read 0xFE))) - md s ctl r p0
  let ends := fun (i : Instr) (s : State) (ctl : Controller) (r : DeviceRegs) (me : AgentState) =>
    ∃ t, Runs i 3 s t ∧
      Leaves s t .free [] (heldTx s.turn ctl.devAddr .wr [0xFE] [r.read 0xFE] true)
        (devWith s ctl.devAddr (r.setPtr (ptrAfter (r.adv s.params) 0xFE 1))) me
  (∀ (s : State) (ch : ObjRef) (hi : ObjId) (h : Channel) (ctl : Controller) (r : DeviceRegs) (dst : Option Name)
    (range min max A p0 p1 : Sys2Proof.Num), ChanCall s ch hi h ctl r →
    Sys2Proof.Num.operand s.params.arith range = some A → A.pos = true →
    Sys2Proof.Num.operand s.params.arith min = some p0 → Sys2Proof.Num.operand s.params.arith max = some p1 →
    (3 ≤ (r.read 0xFE).toNat → ends (.servoInit dst ch range min max) s ctl r
      (s.me.done.withNew dst (.servo
        { channel := hi
          actuationRange := A
          minPulseUs := p0
          maxPulseUs := p1
          minDuty := md s ctl r p0
          dutyRange := dr s ctl r p0 p1 }))) ∧
    ((r.read 0xFE).toNat < 3 → ends (.servoInit dst ch range min max) s ctl r
      (s.me.stopped (.errored (.calibration (.prescale (r.read 0xFE).toNat)))))) ∧
  (∀ (s : State) (sr : ObjRef) (si : ObjId) (sv : Servo) (h : Channel) (ctl : Controller) (r : DeviceRegs)
    (min max p0 p1 : Sys2Proof.Num), ServoCall s sr si sv h ctl r →
    Sys2Proof.Num.operand s.params.arith min = some p0 → Sys2Proof.Num.operand s.params.arith max = some p1 →
    (3 ≤ (r.read 0xFE).toNat → ends (.servoSetPulseRange sr min max) s ctl r
      (s.me.done.withObj si (.servo
        { sv with
          minPulseUs := p0
          maxPulseUs := p1
          minDuty := md s ctl r p0
          dutyRange := dr s ctl r p0 p1 }))) ∧
    ((r.read 0xFE).toNat < 3 → ends (.servoSetPulseRange sr min max) s ctl r
      (s.me.stopped (.errored (.calibration (.prescale (r.read 0xFE).toNat))))))

/-- The calibration formulas under exact arithmetic (R162, R211, R213, R214): frequency, `min_duty`, `duty_range`,
fraction and written duty are the rules' formulas over the rationals. -/
def Obligations.CalibrationFormulas : Prop :=
  ∀ (P : Params) (ref pulse f v : Rat) (p : Byte) (sv : Servo) (md dr dc : Int), P.arith = .exact →
    freqOf P.arith (.rat ref) p = .rat (ref / 4096 / p.toNat) ∧
    minDutyFor P (.rat pulse) (.rat f) = (pulse * f / 1000000 * 65535).floor ∧
    dutyRangeFor P (.rat pulse) (.rat f) md = roundRat P.roundTie (pulse * f / 1000000 * 65535) - md ∧
    fractionOf P.arith dc md dr = .rat (((dc : Rat) - md) / dr) ∧
    fractionDuty P sv (.rat v) = sv.minDuty + roundRat P.roundTie (v * sv.dutyRange)

/-- `SERVO_FRACTION_GET` and `SERVO_ANGLE_GET` (R213, R215) complete in one lock hold that reads the element: a duty
of 0 gives absent, any other the fraction `(dc - min_duty) / duty_range`, or that times the actuation range; with a
zero `duty_range` a driven channel faults ZeroDutyRange, the lock released by then (R213, R217, R247). That `pc` is
advanced and nothing bound before the agent is Faulted is the model's reading of R213's and R215's last lines with
R247, log entry 35. -/
def Obligations.ServoReadsComplete : Prop :=
  ∀ (s : State) (sr : ObjRef) (si : ObjId) (sv : Servo) (h : Channel) (ctl : Controller) (r : DeviceRegs)
    (dst : Option Name), ServoCall s sr si sv h ctl r →
    let a : Byte := BitVec.ofNat 8 (0x06 + 4 * h.index.val)
    let b := fun k => r.read (readAddr (r.adv s.params) a k)
    let dc := dutyDecode s.params.fullOnMatch ((b 0).toNat + 256 * (b 1).toNat) ((b 2).toNat + 256 * (b 3).toNat)
    let fr := Sys2Proof.Num.div s.params.arith (Sys2Proof.Num.sub s.params.arith (Sys2Proof.Num.ofRat s.params.arith dc)
      (Sys2Proof.Num.ofRat s.params.arith sv.minDuty)) (Sys2Proof.Num.ofRat s.params.arith sv.dutyRange)
    let leaves := fun (t : State) (fs : List ModelFault) (me : AgentState) =>
      Leaves s t .free fs (heldTx s.turn ctl.devAddr .wr [a] [b 0, b 1, b 2, b 3] true)
        (devWith s ctl.devAddr (r.setPtr (ptrAfter (r.adv s.params) a 4)))
        (me.withBuf h.controller ctl [a, b 0, b 1, b 2, b 3])
    (dc = 0 → ∀ i ∈ [Instr.servoFractionGet dst sr, .servoAngleGet dst sr], ∃ t, Runs i 3 s t ∧
      leaves t [] (s.me.done.bound dst .absent)) ∧
    (dc ≠ 0 → sv.dutyRange ≠ 0 →
      (∃ t, Runs (.servoFractionGet dst sr) 3 s t ∧ leaves t [] (s.me.done.bound dst (.num fr))) ∧
      (∃ t, Runs (.servoAngleGet dst sr) 3 s t ∧
        leaves t [] (s.me.done.bound dst (.num (Sys2Proof.Num.mul s.params.arith sv.actuationRange fr))))) ∧
    (dc ≠ 0 → sv.dutyRange = 0 → ∀ i ∈ [Instr.servoFractionGet dst sr, .servoAngleGet dst sr], ∃ t, Runs i 3 s t ∧
      leaves t [.zeroDutyRange s.turn si] (s.me.advanced.stopped .faulted))

/-- `SERVO_FRACTION_SET` and `SERVO_ANGLE_SET` complete, for absent and for a value in its range whose duty is in
0..0xFFFF, in one lock hold that writes the element of their channel and no other register (R214, R216). -/
def Obligations.ServoSetsComplete : Prop :=
  ∀ (s : State) (sr : ObjRef) (si : ObjId) (sv : Servo) (h : Channel) (ctl : Controller) (r : DeviceRegs)
    (v y : Sys2Proof.Num), ServoCall s sr si sv h ctl r → Sys2Proof.Num.operand s.params.arith v = some y →
    let a : Byte := BitVec.ofNat 8 (0x06 + 4 * h.index.val)
    let writes := fun (i : Instr) (w : Int) => ∃ t q payload, Runs i 3 s t ∧
      payload = (if w = 0xFFFF then [0x00, 0x10, 0x00, 0x00]
        else [0x00, 0x00, BitVec.ofInt 8 ((w + 1) / 16), BitVec.ofInt 8 ((w + 1) / 16 / 256)] : List Byte) ∧
      Leaves s t .free [] (heldTx s.turn ctl.devAddr .w (a :: payload) [] true) (devWith s ctl.devAddr q)
        (s.me.done.withBuf h.controller ctl (a :: payload)) ∧
      q.wake = r.wake ∧ q.ptr = ptrAfter (r.adv s.params) a 4 ∧
      ∀ x, q.read x = storedAt (r.adv s.params) r a payload x
    writes (.servoFractionSet sr none) 0 ∧ writes (.servoAngleSet sr none) 0 ∧
    (inRange y (.rat 1) = true → 0 ≤ fractionDuty s.params sv y → fractionDuty s.params sv y ≤ 0xFFFF →
      writes (.servoFractionSet sr (some v)) (fractionDuty s.params sv y)) ∧
    (inRange y sv.actuationRange = true →
      let fr := Sys2Proof.Num.div s.params.arith y sv.actuationRange
      inRange fr (.rat 1) = true → 0 ≤ fractionDuty s.params sv fr → fractionDuty s.params sv fr ≤ 0xFFFF →
      writes (.servoAngleSet sr (some v)) (fractionDuty s.params sv fr))

/-- A fraction outside 0..1, an angle outside 0..range (NaN and the infinities included, whatever the range), or a
computed duty outside 0..0xFFFF, of a fraction or of an angle, raises RangeError with that value in one step, before
any bus traffic (R214, R216, R219, R243); so does a fraction `a / A` outside 0..1 of an angle in its range, with that
fraction, which a servo of range 0 alone has. A lock that the agent holds is released (R130, R244). -/
def Obligations.ServoRangeErrorsTouchNoBus : Prop :=
  ∀ (s : State) (sr : ObjRef) (si : ObjId) (sv : Servo) (h : Channel) (ctl : Controller) (v y : Sys2Proof.Num),
    OwnsServo s sr si sv h ctl → s.me.phase = .idle →
    Sys2Proof.Num.operand s.params.arith v = some y →
    let fails := fun (i : Instr) (x : Value) => ∃ t, exec i s = .next t ∧ Aborts s t (.errored (.range x)) [] false
    let fr := Sys2Proof.Num.div s.params.arith y sv.actuationRange
    (inRange y (.rat 1) = false → fails (.servoFractionSet sr (some v)) (.num y)) ∧
    (∀ w, inRange y (.rat 1) = true → w = fractionDuty s.params sv y → ¬ (0 ≤ w ∧ w ≤ 0xFFFF) →
      fails (.servoFractionSet sr (some v)) (.int w)) ∧
    (inRange y sv.actuationRange = false → fails (.servoAngleSet sr (some v)) (.num y)) ∧
    (inRange y sv.actuationRange = true → inRange fr (.rat 1) = false →
      fails (.servoAngleSet sr (some v)) (.num fr)) ∧
    (∀ w, inRange y sv.actuationRange = true → inRange fr (.rat 1) = true → w = fractionDuty s.params sv fr →
      ¬ (0 ≤ w ∧ w ≤ 0xFFFF) → fails (.servoAngleSet sr (some v)) (.int w)) ∧
    (y = .nan ∨ (∃ n, y = .inf n) → ∀ hi, inRange y hi = false)

/-- The quantisation bound of an angle (R218): under exact arithmetic, on a reliable transport with the pointer
advancing, `SERVO_ANGLE_SET s, a` then `SERVO_ANGLE_GET s` returns `a + e` with `e` as the rule computes it, between
`-14.5 * A / R` and `1.5 * A / R`, wherever the duty written is in 15..0xFFFE. -/
def Obligations.AngleQuantisationBound : Prop :=
  ∀ (s : State) (sr : ObjRef) (si : ObjId) (sv : Servo) (h : Channel) (ctl : Controller) (r : DeviceRegs)
    (n : Name) (A a : Rat),
    ServoCall s sr si sv h ctl r → s.oracle.Reliable 2 → r.adv s.params = true → s.params.arith = .exact →
    sv.actuationRange = .rat A → 0 < A → 0 < sv.dutyRange → 0 ≤ a → a ≤ A →
    let x := a / A * sv.dutyRange
    let w := sv.minDuty + roundRat s.params.roundTie x
    15 ≤ w → w ≤ 0xFFFE →
    ∃ t u e, Runs (.servoAngleSet sr (some (.rat a))) 3 s t ∧ Runs (.servoAngleGet (some n) sr) 3 t u ∧
      u.me.results.lookup n = some (.num (.rat (a + e))) ∧
      e = A * (((rt w - w : Int) : Rat) + ((roundRat s.params.roundTie x : Rat) - x)) / sv.dutyRange ∧
      -(29 / 2) * A / sv.dutyRange ≤ e ∧ e ≤ 3 / 2 * A / sv.dutyRange

/-- A servo's calibration changes only through `SERVO_SET_PULSE_RANGE` of that servo (R212, R285): no step of any
other operation changes a servo of any agent, and a step of `SERVO_SET_PULSE_RANGE` changes no servo but its
operand, whose channel and range it keeps. -/
def Obligations.CalibrationsGoStale : Prop :=
  ∀ (i : Instr) (s t : State) (g : AgentId) (j : ObjId) (sv : Servo),
    exec i s = .next t → (s.agent g).objs[j]? = some (.servo sv) →
    (t.agent g).objs[j]? = some (.servo sv) ∨
    (g = s.turn ∧ ∃ ref min max sv', i = .servoSetPulseRange ref min max ∧ s.resolve ref = some j ∧
      (t.agent g).objs[j]? = some (.servo sv') ∧ sv'.channel = sv.channel ∧
      sv'.actuationRange = sv.actuationRange)

/-! ### The whole machine -/

/-- Step (5) of `FREQ_SET`, the machine's one delay, is one step, of 5 ms: it records itself, adds the agent to every
pending settle obligation and changes nothing else, of the lock, the faults, the refusal mark, the parameters and the
other agents neither (R38, R163, R283); the agent goes on to the acquire of step (6), its count at 0 in the same step,
which is the model's reading, log entry 1.
`Delay(ms)` in general (R38, R283): of at least 5 ms it records itself and adds the agent to every pending settle
obligation, a shorter one only records itself; and adding an agent changes neither a register nor the pointer. -/
def Obligations.DelayDischargesTheSettle : Prop :=
  (∀ (s : State) (c : ObjRef) (ci : ObjId) (ctl : Controller) (freq F : Sys2Proof.Num) (p : Byte)
    (rs : List (List Byte)), OwnsCtrl s c ci ctl →
    Sys2Proof.Num.operand s.params.arith freq = some F → prescaleFor s.params ctl.refClk F = .ok p →
    s.me.phase = .wait rs → rs.length = 4 →
    ∃ t, exec (.freqSet c freq) s = .next t ∧
      Leaves s t s.lock [] [.delay s.turn 5] (fun d => (s.device d).map (DeviceRegs.discharge s.turn))
        { s.me with attempts := 0, phase := .acquire (rs ++ [[]]) }) ∧
  (∀ (s : State) (ms : Rat),
    (5 ≤ ms → Leaves s (s.delay ms) s.lock [] [.delay s.turn ms]
      (fun d => (s.device d).map (DeviceRegs.discharge s.turn)) s.me) ∧
    (ms < 5 → Leaves s (s.delay ms) s.lock [] [.delay s.turn ms] s.device s.me)) ∧
  (∀ (g : AgentId) (r : DeviceRegs), (∀ x, (r.discharge g).read x = r.read x) ∧ (r.discharge g).ptr = r.ptr ∧
    (r.wake = none → (r.discharge g).wake = none) ∧
    ∀ S, r.wake = some S → ∃ S', (r.discharge g).wake = some S' ∧ ∀ a, a ∈ S' ↔ a = g ∨ a ∈ S)

/-- A step of the machine changes no parameter and no agent but the one whose turn it is, changes no program, moves
`pc` forward by at most one, and only adds to the history, to the faults and to the refusal mark (R10, R29, R30,
R70, R78, R104). -/
def Obligations.StepsOnlyAdd : Prop :=
  ∀ s t : State, step s = .next t →
    t.params = s.params ∧ (∀ g, g ≠ s.turn → t.agent g = s.agent g) ∧
    (∀ g, (t.agent g).prog = (s.agent g).prog) ∧
    ((t.agent s.turn).pc = s.me.pc ∨ (t.agent s.turn).pc = s.me.pc + 1) ∧
    (∃ evs, t.history = s.history ++ evs) ∧ (∀ f, f ∈ s.faults → f ∈ t.faults) ∧
    (s.refused = true → t.refused = true) ∧
    (∀ d, (t.device d).isSome = (s.device d).isSome)

/-- Every step keeps the memory, every register file of every device, in its canonical form. -/
def Obligations.StepKeepsMemoryCanonical : Prop :=
  ∀ s t : State, Memory.wf s = true → step s = .next t → Memory.wf t = true

/-- The canonical form is the only form: canonical memories of two states in which every address reads alike, and
whose devices agree in presence, launch contents, pointer and settle tracking, are the same data. -/
def Obligations.CanonicalMemoryIsUnique : Prop :=
  ∀ s t : State, Memory.wf s = true → Memory.wf t = true →
    (∀ d, (s.device d = none ∧ t.device d = none) ∨ ∃ r q, s.device d = some r ∧ t.device d = some q ∧
      r.init = q.init ∧ r.ptr = q.ptr ∧ r.wake = q.wake ∧ ∀ x, r.read x = q.read x) →
    s.dev = t.dev

/-- Every step keeps the lock and its holder in agreement (R28, R73, R126). -/
def Obligations.StepKeepsLockInvariant : Prop :=
  ∀ s t : State, LockInv s → step s = .next t → LockInv t

/-- At launch nobody holds the lock, every state of the machine has the value R270 gives, and the
invariants and the canonical form hold. The model's choices: that the OPEN contents of the devices are opaque is log
entry 5, that every agent has an empty program, and so is Ended, until one is loaded log entry 7, and the canonical
form of the tables log entry 31. -/
def Obligations.ResetState : Prop :=
  Memory.wf State.reset = true ∧
  (LockInv State.reset ∧ Consistent State.reset ∧
  State.reset.lock = .free ∧ State.reset.faults = [] ∧ State.reset.refused = false ∧ State.reset.history = [] ∧
  (∀ g, (State.reset.agent g).pc = 0 ∧ (State.reset.agent g).holding = false ∧
    (State.reset.agent g).attempts = 0 ∧ (State.reset.agent g).phase = .idle ∧ (State.reset.agent g).objs = [] ∧
    (State.reset.agent g).status = .ended) ∧
  (∀ g prog, prog ≠ [] → (AgentState.launch prog).status = .running ∧ (AgentState.launch prog).pc = 0 ∧
    (AgentState.launch prog).prog = prog ∧ ((State.reset.setAgent g (AgentState.launch prog)).agent g).objs = []) ∧
  (∀ d, (State.reset.device d).isSome = Config.devicePresent d.toNat) ∧
  (∀ d r, State.reset.device d = some r → r.wake = none ∧ r.ptr = Config.deviceInitPtr d.toNat ∧
    ∀ a, r.read a = Config.deviceInit d.toNat a.toNat))

/-- While no release by an agent that was not the holder has been recorded, every primitive is issued inside a lock
hold of its agent: no step records UnlockedBusAccess, and no step but a `BUS_UNLOCK` or `LOCK_RELEASE` records the
first UnbalancedRelease (R67, R73, R126).
When a run is over the lock is free, in a final state too (R288); that a refused agent's lock is released is log
entry 15. -/
def Obligations.LockHoldsAreExclusive : Prop :=
  (∀ s t : State, LockInv s → (∀ g, ModelFault.unbalancedRelease g ∉ s.faults) → step s = .next t →
    (∀ g, ModelFault.unlockedBusAccess g ∈ t.faults → ModelFault.unlockedBusAccess g ∈ s.faults) ∧
    ((∃ g, ModelFault.unbalancedRelease g ∈ t.faults) →
      ∃ c, s.fetch = some (.op (.busUnlock c)) ∨ s.fetch = some (.op (.lockRelease c)))) ∧
  (∀ s : State, LockInv s → RunOver s → s.lock = .free)

/-- The machine never stops of itself: from a state in which every running agent is at a place its operation has,
the step answers a next state, which is again such a state. -/
def Obligations.NoStepStopsTheMachine : Prop :=
  ∀ s : State, Consistent s → ∃ t, step s = .next t ∧ Consistent t
end

