-- ==== Sys2Proof/Laws/Table.lean ====
section
/-! SUPPORT. The laws of finite tables: read after write, the canonical form is kept, and canonical tables
that read alike are equal. -/

namespace Sys2Proof.Machine

variable {β : Type} {dflt : Nat → β}

theorem Table.get_erase_self (t : List (Nat × β)) (a : Nat) :
    Table.get dflt (Table.erase t a) a = dflt a := by
  induction t with
  | nil => rfl
  | cons e t ih =>
    by_cases h : e.1 = a
    · simpa [Table.erase, h] using ih
    · have h' : a ≠ e.1 := fun x => h x.symm
      simpa [Table.erase, Table.get, h, h'] using ih

theorem Table.get_erase_ne (t : List (Nat × β)) {a c : Nat} (hc : c ≠ a) :
    Table.get dflt (Table.erase t a) c = Table.get dflt t c := by
  induction t with
  | nil => rfl
  | cons e t ih =>
    by_cases h : e.1 = a
    · have : c ≠ e.1 := fun x => hc (x.trans h)
      simpa [Table.erase, Table.get, h, hc] using ih
    · by_cases hk : c = e.1
      · simp [Table.erase, Table.get, h, hk]
      · simpa [Table.erase, Table.get, h, hk] using ih

theorem Table.get_put_self (t : List (Nat × β)) (a : Nat) (b : β) :
    Table.get dflt (Table.put t a b) a = b := by
  induction t with
  | nil => simp [Table.put, Table.get]
  | cons e t ih =>
    obtain ⟨k, v⟩ := e
    simp only [Table.put]
    split
    · simp [Table.get]
    · split
      · simp [Table.get]
      · rename_i h; simp [Table.get, h, ih]

theorem Table.get_put_ne (t : List (Nat × β)) {a c : Nat} (hc : c ≠ a) (b : β) :
    Table.get dflt (Table.put t a b) c = Table.get dflt t c := by
  induction t with
  | nil => simp [Table.put, Table.get, hc]
  | cons e t ih =>
    obtain ⟨k, v⟩ := e
    simp only [Table.put]
    split
    · simp [Table.get, hc]
    · split
      · rename_i h; subst h; simp [Table.get, hc]
      · simp [Table.get, ih]

@[simp] theorem Table.get_set_self [DecidableEq β] (t : List (Nat × β)) (a : Nat) (b : β) :
    Table.get dflt (Table.set dflt t a b) a = b := by
  unfold Table.set
  split
  · rename_i h; rw [Table.get_erase_self, h]
  · exact Table.get_put_self t a b

theorem Table.get_set_ne [DecidableEq β] (t : List (Nat × β)) {a c : Nat} (hc : c ≠ a) (b : β) :
    Table.get dflt (Table.set dflt t a b) c = Table.get dflt t c := by
  unfold Table.set
  split
  · exact Table.get_erase_ne t hc
  · exact Table.get_put_ne t hc b

theorem Table.get_set [DecidableEq β] (t : List (Nat × β)) (a c : Nat) (b : β) :
    Table.get dflt (Table.set dflt t a b) c = if c = a then b else Table.get dflt t c := by
  split
  · rename_i h; subst h; simp
  · rename_i h; exact Table.get_set_ne t h b

theorem Table.above_erase {k : Nat} {t : List (Nat × β)} (h : Table.above k t = true) (a : Nat) :
    Table.above k (Table.erase t a) = true := by
  simp only [Table.above, Table.erase, List.all_eq_true, List.mem_filter] at *
  exact fun e he => h e he.1

theorem Table.above_put {k a : Nat} {t : List (Nat × β)} (h : Table.above k t = true) (hk : k < a) (b : β) :
    Table.above k (Table.put t a b) = true := by
  induction t with
  | nil => simp [Table.put, Table.above, hk]
  | cons e t ih =>
    obtain ⟨k', v⟩ := e
    simp only [Table.above, List.all_cons, Bool.and_eq_true, decide_eq_true_eq] at h ih
    simp only [Table.put]
    split
    · simp [Table.above, hk, h]
    · split
      · simp [Table.above, hk]; simpa using h.2
      · have := ih h.2
        simp [Table.above, h.1]; simpa [Table.above] using this

theorem Table.above_trans {j k : Nat} {t : List (Nat × β)} (h : Table.above k t = true) (hj : j ≤ k) :
    Table.above j t = true := by
  simp only [Table.above, List.all_eq_true, decide_eq_true_eq] at *
  exact fun e he => lt_of_le_of_lt hj (h e he)

theorem Table.get_of_above {k a : Nat} {t : List (Nat × β)} (h : Table.above k t = true) (ha : a ≤ k) :
    Table.get dflt t a = dflt a := by
  induction t with
  | nil => rfl
  | cons e t ih =>
    obtain ⟨k', v⟩ := e
    simp only [Table.above, List.all_cons, Bool.and_eq_true, decide_eq_true_eq] at h ih
    have : a ≠ k' := by omega
    simp [Table.get, this, ih h.2]

variable [DecidableEq β]

theorem Table.wf_cons {k : Nat} {v : β} {t : List (Nat × β)} :
    Table.wf dflt ((k, v) :: t) = true ↔ Table.above k t = true ∧ v ≠ dflt k ∧ Table.wf dflt t = true := by
  simp [Table.wf, and_assoc]

theorem Table.wf_erase {t : List (Nat × β)} (h : Table.wf dflt t = true) (a : Nat) :
    Table.wf dflt (Table.erase t a) = true := by
  induction t with
  | nil => rfl
  | cons e t ih =>
    obtain ⟨k, v⟩ := e
    obtain ⟨h1, h2, h3⟩ := Table.wf_cons.mp h
    by_cases hk : k = a
    · simpa [Table.erase, hk] using ih h3
    · have : Table.erase ((k, v) :: t) a = (k, v) :: Table.erase t a := by simp [Table.erase, hk]
      rw [this]
      exact Table.wf_cons.mpr ⟨Table.above_erase h1 a, h2, ih h3⟩

theorem Table.wf_put {t : List (Nat × β)} (h : Table.wf dflt t = true) {a : Nat} {b : β} (hb : b ≠ dflt a) :
    Table.wf dflt (Table.put t a b) = true := by
  induction t with
  | nil => simp [Table.put, Table.wf, Table.above, hb]
  | cons e t ih =>
    obtain ⟨k, v⟩ := e
    obtain ⟨h1, h2, h3⟩ := Table.wf_cons.mp h
    simp only [Table.put]
    split
    · rename_i hk
      refine Table.wf_cons.mpr ⟨?_, hb, h⟩
      have := Table.above_trans h1 (le_of_lt hk)
      simp only [Table.above, List.all_cons, Bool.and_eq_true, decide_eq_true_eq] at *
      exact ⟨hk, this⟩
    · split
      · rename_i hk; subst hk; exact Table.wf_cons.mpr ⟨h1, hb, h3⟩
      · rename_i hlt hne
        exact Table.wf_cons.mpr ⟨Table.above_put h1 (by omega) b, h2, ih h3⟩

/-- A write keeps the canonical form. -/
theorem Table.wf_set {t : List (Nat × β)} (h : Table.wf dflt t = true) (a : Nat) (b : β) :
    Table.wf dflt (Table.set dflt t a b) = true := by
  unfold Table.set
  split
  · exact Table.wf_erase h a
  · rename_i hb; exact Table.wf_put h hb

/-- Canonical tables that read alike are the same data. -/
theorem Table.ext_of_wf {t u : List (Nat × β)} (ht : Table.wf dflt t = true) (hu : Table.wf dflt u = true)
    (h : ∀ a, Table.get dflt t a = Table.get dflt u a) : t = u := by
  induction t generalizing u with
  | nil =>
    cases u with
    | nil => rfl
    | cons e u =>
      obtain ⟨k, v⟩ := e
      have := h k
      simp [Table.get] at this
      exact absurd this.symm (Table.wf_cons.mp hu).2.1
  | cons e t ih =>
    obtain ⟨k, v⟩ := e
    obtain ⟨h1, h2, h3⟩ := Table.wf_cons.mp ht
    cases u with
    | nil => have := h k; simp [Table.get] at this; exact absurd this h2
    | cons f u =>
      obtain ⟨j, w⟩ := f
      obtain ⟨g1, g2, g3⟩ := Table.wf_cons.mp hu
      have hkj : k = j := by
        by_contra hne
        rcases Nat.lt_or_gt_of_ne hne with hlt | hgt
        · have := h k
          rw [Table.get, if_pos rfl, Table.get, if_neg hne, Table.get_of_above g1 (le_of_lt hlt)] at this
          exact h2 this
        · have := h j
          rw [Table.get, if_neg (Ne.symm hne), Table.get_of_above h1 (le_of_lt hgt), Table.get, if_pos rfl] at this
          exact g2 this.symm
      subst hkj
      have hv : v = w := by simpa [Table.get] using h k
      subst hv
      have : t = u := ih h3 g3 fun a => by
        by_cases ha : a = k
        · subst ha; rw [Table.get_of_above h1 le_rfl, Table.get_of_above g1 le_rfl]
        · simpa [Table.get, ha] using h a
      rw [this]

theorem Table.mem_set {t : List (Nat × β)} {a : Nat} {b : β} {e : Nat × β}
    (he : e ∈ Table.set dflt t a b) : e = (a, b) ∨ e ∈ t := by
  unfold Table.set at he
  split at he
  · exact .inr (List.mem_filter.mp he).1
  · clear * - he
    induction t with
    | nil => simp [Table.put] at he; exact .inl he
    | cons f t ih =>
      obtain ⟨k, v⟩ := f
      simp only [Table.put] at he
      split at he
      · rcases List.mem_cons.mp he with h | h
        · exact .inl h
        · exact .inr h
      · split at he
        · rcases List.mem_cons.mp he with h | h
          · exact .inl h
          · exact .inr (List.mem_cons_of_mem _ h)
        · rcases List.mem_cons.mp he with h | h
          · exact .inr (h ▸ List.mem_cons_self ..)
          · rcases ih h with h | h
            · exact .inl h
            · exact .inr (List.mem_cons_of_mem _ h)

end Sys2Proof.Machine
end

