-- ==== Sys2Proof/Laws/State.lean ====
section
/-! SUPPORT. One lemma for each field of the state after each update of it, so that no later proof unfolds an
update; then the same for the named operations of the lock and of the ends of an operation. -/

namespace Sys2Proof.Machine

open Sys2Proof

/-! ### The plain updates -/

@[simp] theorem State.setAgent_params (s : State) (g : AgentId) (a : AgentState) : (s.setAgent g a).params = s.params := rfl
@[simp] theorem State.setAgent_lock (s : State) (g : AgentId) (a : AgentState) : (s.setAgent g a).lock = s.lock := rfl
@[simp] theorem State.setAgent_dev (s : State) (g : AgentId) (a : AgentState) : (s.setAgent g a).dev = s.dev := rfl
@[simp] theorem State.setAgent_faults (s : State) (g : AgentId) (a : AgentState) : (s.setAgent g a).faults = s.faults := rfl
@[simp] theorem State.setAgent_refused (s : State) (g : AgentId) (a : AgentState) : (s.setAgent g a).refused = s.refused := rfl
@[simp] theorem State.setAgent_history (s : State) (g : AgentId) (a : AgentState) : (s.setAgent g a).history = s.history := rfl
@[simp] theorem State.setAgent_turn (s : State) (g : AgentId) (a : AgentState) : (s.setAgent g a).turn = s.turn := rfl
@[simp] theorem State.setAgent_oracle (s : State) (g : AgentId) (a : AgentState) : (s.setAgent g a).oracle = s.oracle := rfl
@[simp] theorem State.setAgent_device (s : State) (g : AgentId) (a : AgentState) (e : DevAddr) : (s.setAgent g a).device e = s.device e := rfl

@[simp] theorem State.updMe_params (s : State) (f : AgentState → AgentState) : (s.updMe f).params = s.params := rfl
@[simp] theorem State.updMe_lock (s : State) (f : AgentState → AgentState) : (s.updMe f).lock = s.lock := rfl
@[simp] theorem State.updMe_dev (s : State) (f : AgentState → AgentState) : (s.updMe f).dev = s.dev := rfl
@[simp] theorem State.updMe_faults (s : State) (f : AgentState → AgentState) : (s.updMe f).faults = s.faults := rfl
@[simp] theorem State.updMe_refused (s : State) (f : AgentState → AgentState) : (s.updMe f).refused = s.refused := rfl
@[simp] theorem State.updMe_history (s : State) (f : AgentState → AgentState) : (s.updMe f).history = s.history := rfl
@[simp] theorem State.updMe_turn (s : State) (f : AgentState → AgentState) : (s.updMe f).turn = s.turn := rfl
@[simp] theorem State.updMe_oracle (s : State) (f : AgentState → AgentState) : (s.updMe f).oracle = s.oracle := rfl
@[simp] theorem State.updMe_device (s : State) (f : AgentState → AgentState) (e : DevAddr) : (s.updMe f).device e = s.device e := rfl

@[simp] theorem State.setLock_params (s : State) (l : Lock) : (s.setLock l).params = s.params := rfl
@[simp] theorem State.setLock_lock (s : State) (l : Lock) : (s.setLock l).lock = l := rfl
@[simp] theorem State.setLock_dev (s : State) (l : Lock) : (s.setLock l).dev = s.dev := rfl
@[simp] theorem State.setLock_faults (s : State) (l : Lock) : (s.setLock l).faults = s.faults := rfl
@[simp] theorem State.setLock_refused (s : State) (l : Lock) : (s.setLock l).refused = s.refused := rfl
@[simp] theorem State.setLock_history (s : State) (l : Lock) : (s.setLock l).history = s.history := rfl
@[simp] theorem State.setLock_turn (s : State) (l : Lock) : (s.setLock l).turn = s.turn := rfl
@[simp] theorem State.setLock_oracle (s : State) (l : Lock) : (s.setLock l).oracle = s.oracle := rfl
@[simp] theorem State.setLock_agents (s : State) (l : Lock) : (s.setLock l).agents = s.agents := rfl
@[simp] theorem State.setLock_device (s : State) (l : Lock) (e : DevAddr) : (s.setLock l).device e = s.device e := rfl
@[simp] theorem State.setLock_agent (s : State) (l : Lock) (h : AgentId) : (s.setLock l).agent h = s.agent h := rfl
@[simp] theorem State.setLock_me (s : State) (l : Lock) : (s.setLock l).me = s.me := rfl

@[simp] theorem State.setOracle_params (s : State) (o : Oracle) : (s.setOracle o).params = s.params := rfl
@[simp] theorem State.setOracle_lock (s : State) (o : Oracle) : (s.setOracle o).lock = s.lock := rfl
@[simp] theorem State.setOracle_dev (s : State) (o : Oracle) : (s.setOracle o).dev = s.dev := rfl
@[simp] theorem State.setOracle_faults (s : State) (o : Oracle) : (s.setOracle o).faults = s.faults := rfl
@[simp] theorem State.setOracle_refused (s : State) (o : Oracle) : (s.setOracle o).refused = s.refused := rfl
@[simp] theorem State.setOracle_history (s : State) (o : Oracle) : (s.setOracle o).history = s.history := rfl
@[simp] theorem State.setOracle_turn (s : State) (o : Oracle) : (s.setOracle o).turn = s.turn := rfl
@[simp] theorem State.setOracle_oracle (s : State) (o : Oracle) : (s.setOracle o).oracle = o := rfl
@[simp] theorem State.setOracle_agents (s : State) (o : Oracle) : (s.setOracle o).agents = s.agents := rfl
@[simp] theorem State.setOracle_device (s : State) (o : Oracle) (e : DevAddr) : (s.setOracle o).device e = s.device e := rfl
@[simp] theorem State.setOracle_agent (s : State) (o : Oracle) (h : AgentId) : (s.setOracle o).agent h = s.agent h := rfl
@[simp] theorem State.setOracle_me (s : State) (o : Oracle) : (s.setOracle o).me = s.me := rfl

@[simp] theorem State.setRefused_params (s : State) : (s.setRefused).params = s.params := rfl
@[simp] theorem State.setRefused_lock (s : State) : (s.setRefused).lock = s.lock := rfl
@[simp] theorem State.setRefused_dev (s : State) : (s.setRefused).dev = s.dev := rfl
@[simp] theorem State.setRefused_faults (s : State) : (s.setRefused).faults = s.faults := rfl
@[simp] theorem State.setRefused_refused (s : State) : (s.setRefused).refused = true := rfl
@[simp] theorem State.setRefused_history (s : State) : (s.setRefused).history = s.history := rfl
@[simp] theorem State.setRefused_turn (s : State) : (s.setRefused).turn = s.turn := rfl
@[simp] theorem State.setRefused_oracle (s : State) : (s.setRefused).oracle = s.oracle := rfl
@[simp] theorem State.setRefused_agents (s : State) : (s.setRefused).agents = s.agents := rfl
@[simp] theorem State.setRefused_device (s : State) (e : DevAddr) : (s.setRefused).device e = s.device e := rfl
@[simp] theorem State.setRefused_agent (s : State) (h : AgentId) : (s.setRefused).agent h = s.agent h := rfl
@[simp] theorem State.setRefused_me (s : State) : (s.setRefused).me = s.me := rfl

@[simp] theorem State.record_params (s : State) (e : Event) : (s.record e).params = s.params := rfl
@[simp] theorem State.record_lock (s : State) (e : Event) : (s.record e).lock = s.lock := rfl
@[simp] theorem State.record_dev (s : State) (e : Event) : (s.record e).dev = s.dev := rfl
@[simp] theorem State.record_faults (s : State) (e : Event) : (s.record e).faults = s.faults := rfl
@[simp] theorem State.record_refused (s : State) (e : Event) : (s.record e).refused = s.refused := rfl
@[simp] theorem State.record_history (s : State) (e : Event) : (s.record e).history = s.history ++ [e] := rfl
@[simp] theorem State.record_turn (s : State) (e : Event) : (s.record e).turn = s.turn := rfl
@[simp] theorem State.record_oracle (s : State) (e : Event) : (s.record e).oracle = s.oracle := rfl
@[simp] theorem State.record_agents (s : State) (e : Event) : (s.record e).agents = s.agents := rfl
@[simp] theorem State.record_device (s : State) (e : Event) (d : DevAddr) : (s.record e).device d = s.device d := rfl
@[simp] theorem State.record_agent (s : State) (e : Event) (h : AgentId) : (s.record e).agent h = s.agent h := rfl
@[simp] theorem State.record_me (s : State) (e : Event) : (s.record e).me = s.me := rfl

@[simp] theorem State.addFault_params (s : State) (x : ModelFault) : (s.addFault x).params = s.params := rfl
@[simp] theorem State.addFault_lock (s : State) (x : ModelFault) : (s.addFault x).lock = s.lock := rfl
@[simp] theorem State.addFault_dev (s : State) (x : ModelFault) : (s.addFault x).dev = s.dev := rfl
@[simp] theorem State.addFault_faults (s : State) (x : ModelFault) : (s.addFault x).faults = if x ∈ s.faults then s.faults else s.faults ++ [x] := rfl
@[simp] theorem State.addFault_refused (s : State) (x : ModelFault) : (s.addFault x).refused = s.refused := rfl
@[simp] theorem State.addFault_history (s : State) (x : ModelFault) : (s.addFault x).history = s.history := rfl
@[simp] theorem State.addFault_turn (s : State) (x : ModelFault) : (s.addFault x).turn = s.turn := rfl
@[simp] theorem State.addFault_oracle (s : State) (x : ModelFault) : (s.addFault x).oracle = s.oracle := rfl
@[simp] theorem State.addFault_agents (s : State) (x : ModelFault) : (s.addFault x).agents = s.agents := rfl
@[simp] theorem State.addFault_device (s : State) (x : ModelFault) (e : DevAddr) : (s.addFault x).device e = s.device e := rfl
@[simp] theorem State.addFault_agent (s : State) (x : ModelFault) (h : AgentId) : (s.addFault x).agent h = s.agent h := rfl
@[simp] theorem State.addFault_me (s : State) (x : ModelFault) : (s.addFault x).me = s.me := rfl

@[simp] theorem State.setDevice_params (s : State) (d : DevAddr) (r : DeviceRegs) : (s.setDevice d r).params = s.params := rfl
@[simp] theorem State.setDevice_lock (s : State) (d : DevAddr) (r : DeviceRegs) : (s.setDevice d r).lock = s.lock := rfl
@[simp] theorem State.setDevice_faults (s : State) (d : DevAddr) (r : DeviceRegs) : (s.setDevice d r).faults = s.faults := rfl
@[simp] theorem State.setDevice_refused (s : State) (d : DevAddr) (r : DeviceRegs) : (s.setDevice d r).refused = s.refused := rfl
@[simp] theorem State.setDevice_history (s : State) (d : DevAddr) (r : DeviceRegs) : (s.setDevice d r).history = s.history := rfl
@[simp] theorem State.setDevice_turn (s : State) (d : DevAddr) (r : DeviceRegs) : (s.setDevice d r).turn = s.turn := rfl
@[simp] theorem State.setDevice_oracle (s : State) (d : DevAddr) (r : DeviceRegs) : (s.setDevice d r).oracle = s.oracle := rfl
@[simp] theorem State.setDevice_agents (s : State) (d : DevAddr) (r : DeviceRegs) : (s.setDevice d r).agents = s.agents := rfl
@[simp] theorem State.setDevice_agent (s : State) (d : DevAddr) (r : DeviceRegs) (h : AgentId) : (s.setDevice d r).agent h = s.agent h := rfl
@[simp] theorem State.setDevice_me (s : State) (d : DevAddr) (r : DeviceRegs) : (s.setDevice d r).me = s.me := rfl

/-! ### Agents and devices -/

theorem State.setAgent_agent (s : State) (g : AgentId) (a : AgentState) (h : AgentId) :
    (s.setAgent g a).agent h = if h = g then a else s.agent h := by
  simp [State.agent, State.setAgent, Table.get_set]

@[simp] theorem State.updMe_me (s : State) (f : AgentState → AgentState) : (s.updMe f).me = f s.me := by
  simp [State.updMe, State.me, State.setAgent_agent]

theorem State.updMe_agent (s : State) (f : AgentState → AgentState) (h : AgentId) :
    (s.updMe f).agent h = if h = s.turn then f s.me else s.agent h := by
  simp [State.updMe, State.setAgent_agent]

@[simp] theorem State.updMe_agent_ne (s : State) (f : AgentState → AgentState) {h : AgentId} (hh : h ≠ s.turn) :
    (s.updMe f).agent h = s.agent h := by simp [State.updMe_agent, hh]

theorem State.setDevice_device (s : State) (d e : DevAddr) (r : DeviceRegs) :
    (s.setDevice d r).device e = if e = d then some r else s.device e := by
  simp [State.device, State.setDevice, Table.get_set, BitVec.toNat_inj]

@[simp] theorem State.setDevice_device_self (s : State) (d : DevAddr) (r : DeviceRegs) :
    (s.setDevice d r).device d = some r := by simp [State.setDevice_device]

@[simp] theorem State.setDevice_device_ne (s : State) {d e : DevAddr} (h : e ≠ d) (r : DeviceRegs) :
    (s.setDevice d r).device e = s.device e := by simp [State.setDevice_device, h]

/-! ### The updates of the stepping agent are `updMe` -/

@[simp] theorem State.setPhase_eq (s : State) (p : Phase) :
    s.setPhase p = s.updMe fun a => { a with phase := p } := rfl

@[simp] theorem State.setAttempts_eq (s : State) (n : Nat) :
    s.setAttempts n = s.updMe fun a => { a with attempts := n } := rfl

@[simp] theorem State.setHolding_eq (s : State) (b : Bool) :
    s.setHolding b = s.updMe fun a => { a with holding := b } := rfl

@[simp] theorem State.stopWith_eq (s : State) (st : Status) :
    s.stopWith st = s.updMe fun a => { a with status := st, phase := .idle } := rfl

@[simp] theorem State.finish_eq (s : State) :
    s.finish = s.updMe fun a => { a with pc := a.pc + 1, phase := .idle } := rfl

@[simp] theorem State.bindResult_eq (s : State) (dst : Option Name) (v : Value) :
    s.bindResult dst v = s.updMe fun a => { a with results := bindName a.results dst v } := rfl

@[simp] theorem State.addObject_eq (s : State) (dst : Option Name) (o : Object) :
    s.addObject dst o =
      s.updMe fun a => { a with objs := a.objs ++ [o], names := bindName a.names dst a.objs.length } := rfl

@[simp] theorem State.setObject_eq (s : State) (i : ObjId) (o : Object) :
    s.setObject i o = s.updMe fun a => { a with objs := a.objs.set i o } := rfl

/-! ### The lock -/

@[simp] theorem State.takeLock_lock (s : State) : s.takeLock.lock = .held s.turn := rfl
@[simp] theorem State.takeLock_history (s : State) : s.takeLock.history = s.history ++ [.acquire s.turn] := rfl
@[simp] theorem State.takeLock_params (s : State) : s.takeLock.params = s.params := rfl
@[simp] theorem State.takeLock_dev (s : State) : s.takeLock.dev = s.dev := rfl
@[simp] theorem State.takeLock_faults (s : State) : s.takeLock.faults = s.faults := rfl
@[simp] theorem State.takeLock_refused (s : State) : s.takeLock.refused = s.refused := rfl
@[simp] theorem State.takeLock_turn (s : State) : s.takeLock.turn = s.turn := rfl
@[simp] theorem State.takeLock_oracle (s : State) : s.takeLock.oracle = s.oracle := rfl
@[simp] theorem State.takeLock_device (s : State) (d : DevAddr) : s.takeLock.device d = s.device d := rfl
@[simp] theorem State.takeLock_me (s : State) : s.takeLock.me = { s.me with holding := true } := by
  simp [State.takeLock]
@[simp] theorem State.takeLock_agent_ne (s : State) {h : AgentId} (hh : h ≠ s.turn) :
    s.takeLock.agent h = s.agent h := by simp [State.takeLock, State.updMe_agent, hh]

@[simp] theorem State.unlock_lock (s : State) : s.unlock.lock = .free := rfl
@[simp] theorem State.unlock_history (s : State) : s.unlock.history = s.history ++ [.release s.turn] := rfl
@[simp] theorem State.unlock_params (s : State) : s.unlock.params = s.params := rfl
@[simp] theorem State.unlock_dev (s : State) : s.unlock.dev = s.dev := rfl
@[simp] theorem State.unlock_faults (s : State) : s.unlock.faults = s.faults := rfl
@[simp] theorem State.unlock_refused (s : State) : s.unlock.refused = s.refused := rfl
@[simp] theorem State.unlock_turn (s : State) : s.unlock.turn = s.turn := rfl
@[simp] theorem State.unlock_oracle (s : State) : s.unlock.oracle = s.oracle := rfl
@[simp] theorem State.unlock_device (s : State) (d : DevAddr) : s.unlock.device d = s.device d := rfl
@[simp] theorem State.unlock_me (s : State) : s.unlock.me = { s.me with holding := false } := by
  simp [State.unlock]
@[simp] theorem State.unlock_agent_ne (s : State) {h : AgentId} (hh : h ≠ s.turn) :
    s.unlock.agent h = s.agent h := by simp [State.unlock, State.updMe_agent, hh]

/-- The scope guard does nothing where the agent does not hold the lock. -/
theorem State.guardRelease_of_not_mine {s : State} (h : s.lock ≠ .held s.turn) : s.guardRelease = s := by
  simp [State.guardRelease, State.lockMine, h]

/-- The scope guard releases a lock the agent holds. -/
theorem State.guardRelease_of_mine {s : State} (h : s.lock = .held s.turn) : s.guardRelease = s.unlock := by
  simp [State.guardRelease, State.lockMine, h]

@[simp] theorem State.guardRelease_params (s : State) : s.guardRelease.params = s.params := by
  unfold State.guardRelease; split <;> rfl

@[simp] theorem State.guardRelease_dev (s : State) : s.guardRelease.dev = s.dev := by
  unfold State.guardRelease; split <;> rfl

@[simp] theorem State.guardRelease_faults (s : State) : s.guardRelease.faults = s.faults := by
  unfold State.guardRelease; split <;> rfl

@[simp] theorem State.guardRelease_refused (s : State) : s.guardRelease.refused = s.refused := by
  unfold State.guardRelease; split <;> rfl

@[simp] theorem State.guardRelease_turn (s : State) : s.guardRelease.turn = s.turn := by
  unfold State.guardRelease; split <;> rfl

@[simp] theorem State.guardRelease_oracle (s : State) : s.guardRelease.oracle = s.oracle := by
  unfold State.guardRelease; split <;> rfl

@[simp] theorem State.guardRelease_device (s : State) (d : DevAddr) :
    s.guardRelease.device d = s.device d := by unfold State.guardRelease; split <;> rfl

@[simp] theorem State.guardRelease_agent_ne (s : State) {h : AgentId} (hh : h ≠ s.turn) :
    s.guardRelease.agent h = s.agent h := by unfold State.guardRelease; split <;> simp [hh]

theorem State.guardRelease_lock (s : State) :
    s.guardRelease.lock = if s.lock = .held s.turn then .free else s.lock := by
  unfold State.guardRelease State.lockMine; by_cases h : s.lock = .held s.turn <;> simp [h]

theorem State.guardRelease_me (s : State) :
    s.guardRelease.me = if s.lock = .held s.turn then { s.me with holding := false } else s.me := by
  unfold State.guardRelease State.lockMine; by_cases h : s.lock = .held s.turn <;> simp [h]

theorem State.guardRelease_history (s : State) :
    s.guardRelease.history = if s.lock = .held s.turn then s.history ++ [.release s.turn] else s.history := by
  unfold State.guardRelease State.lockMine; by_cases h : s.lock = .held s.turn <;> simp [h]

/-- After the scope guard the agent does not hold the lock. -/
theorem State.guardRelease_lock_ne (s : State) : s.guardRelease.lock ≠ .held s.turn := by
  rw [State.guardRelease_lock]; split <;> simp_all

/-! ### Faults -/

theorem State.addFaults_eq (s : State) (fs : List ModelFault) :
    ∃ l, s.addFaults fs = { s with faults := l } ∧ ∀ f, f ∈ l ↔ f ∈ s.faults ∨ f ∈ fs := by
  induction fs generalizing s with
  | nil => exact ⟨s.faults, rfl, by simp⟩
  | cons f fs ih =>
    obtain ⟨l, h1, h2⟩ := ih (s.addFault f)
    refine ⟨l, h1, fun x => ?_⟩
    rw [h2, State.addFault_faults]
    by_cases hf : f ∈ s.faults
    · simp only [hf, if_true, List.mem_cons]
      exact ⟨fun h => h.elim .inl (fun h => .inr (.inr h)),
        fun h => h.elim .inl fun h => h.elim (fun h => .inl (h ▸ hf)) .inr⟩
    · simp only [hf, if_false, List.mem_append, List.mem_cons, List.not_mem_nil, or_false, or_assoc]

theorem State.mem_addFaults (s : State) (fs : List ModelFault) (f : ModelFault) :
    f ∈ (s.addFaults fs).faults ↔ f ∈ s.faults ∨ f ∈ fs := by
  obtain ⟨l, h1, h2⟩ := s.addFaults_eq fs
  rw [h1]; exact h2 f

@[simp] theorem State.addFaults_params (s : State) (fs : List ModelFault) : (s.addFaults fs).params = s.params := by
  obtain ⟨l, h, -⟩ := s.addFaults_eq fs; rw [h]

@[simp] theorem State.addFaults_lock (s : State) (fs : List ModelFault) : (s.addFaults fs).lock = s.lock := by
  obtain ⟨l, h, -⟩ := s.addFaults_eq fs; rw [h]

@[simp] theorem State.addFaults_dev (s : State) (fs : List ModelFault) : (s.addFaults fs).dev = s.dev := by
  obtain ⟨l, h, -⟩ := s.addFaults_eq fs; rw [h]

@[simp] theorem State.addFaults_refused (s : State) (fs : List ModelFault) : (s.addFaults fs).refused = s.refused := by
  obtain ⟨l, h, -⟩ := s.addFaults_eq fs; rw [h]

@[simp] theorem State.addFaults_history (s : State) (fs : List ModelFault) : (s.addFaults fs).history = s.history := by
  obtain ⟨l, h, -⟩ := s.addFaults_eq fs; rw [h]

@[simp] theorem State.addFaults_turn (s : State) (fs : List ModelFault) : (s.addFaults fs).turn = s.turn := by
  obtain ⟨l, h, -⟩ := s.addFaults_eq fs; rw [h]

@[simp] theorem State.addFaults_oracle (s : State) (fs : List ModelFault) : (s.addFaults fs).oracle = s.oracle := by
  obtain ⟨l, h, -⟩ := s.addFaults_eq fs; rw [h]

@[simp] theorem State.addFaults_agents (s : State) (fs : List ModelFault) : (s.addFaults fs).agents = s.agents := by
  obtain ⟨l, h, -⟩ := s.addFaults_eq fs; rw [h]

@[simp] theorem State.addFaults_device (s : State) (fs : List ModelFault) (d : DevAddr) :
    (s.addFaults fs).device d = s.device d := by simp [State.device]

@[simp] theorem State.addFaults_agent (s : State) (fs : List ModelFault) (h : AgentId) :
    (s.addFaults fs).agent h = s.agent h := by simp [State.agent]

@[simp] theorem State.addFaults_me (s : State) (fs : List ModelFault) : (s.addFaults fs).me = s.me := by
  simp [State.me]

/-! ### Binding names -/

@[simp] theorem bindName_none {α : Type} (l : List (Name × α)) (v : α) : bindName l none v = l := rfl

/-- A bound name reads as the value it was bound to. -/
theorem bindName_lookup_self {α : Type} (l : List (Name × α)) (n : Name) (v : α) :
    (bindName l (some n) v).lookup n = some v := by simp [bindName]

/-- Binding a name leaves every other name bound as before. -/
theorem bindName_lookup_ne {α : Type} (l : List (Name × α)) {n m : Name} (h : m ≠ n) (v : α) :
    (bindName l (some n) v).lookup m = l.lookup m := by
  have hb : (m == n) = false := by simpa using h
  simp only [bindName, List.lookup, hb]
  induction l with
  | nil => rfl
  | cons e l ih =>
    obtain ⟨k, w⟩ := e
    by_cases hk : k = n
    · subst hk; simp [List.filter, List.lookup, hb, ih]
    · have : (k != n) = true := by simpa using hk
      simp only [List.filter, this, List.lookup]
      split <;> simp_all

end Sys2Proof.Machine
end

