-- ==== Sys2Proof/Laws/Bus.lean ====
section
/-! SUPPORT. What a transfer does to the registers of a device: reads after writes, the frame of a write and of
a failed transfer, plain stores and reads of a span, and the canonical form of the register file. -/

namespace Sys2Proof.Machine

open Sys2Proof

/-! ### One register -/

theorem DeviceRegs.read_write (r : DeviceRegs) (a b x : Byte) :
    (r.write a b).read x = if x = a then b else r.read x := by
  simp [DeviceRegs.read, DeviceRegs.write, Table.get_set, BitVec.toNat_inj]

@[simp] theorem DeviceRegs.read_write_self (r : DeviceRegs) (a b : Byte) : (r.write a b).read a = b := by
  simp [DeviceRegs.read_write]

@[simp] theorem DeviceRegs.read_write_ne (r : DeviceRegs) {a x : Byte} (h : x ≠ a) (b : Byte) :
    (r.write a b).read x = r.read x := by simp [DeviceRegs.read_write, h]

@[simp] theorem DeviceRegs.write_ptr (r : DeviceRegs) (a b : Byte) : (r.write a b).ptr = r.ptr := rfl
@[simp] theorem DeviceRegs.write_wake (r : DeviceRegs) (a b : Byte) : (r.write a b).wake = r.wake := rfl
@[simp] theorem DeviceRegs.write_init (r : DeviceRegs) (a b : Byte) : (r.write a b).init = r.init := rfl

/-! The pointer and the settle tracking are no registers. -/

@[simp] theorem DeviceRegs.setPtr_read (r : DeviceRegs) (p x : Byte) : (r.setPtr p).read x = r.read x := rfl
@[simp] theorem DeviceRegs.setPtr_ptr (r : DeviceRegs) (p : Byte) : (r.setPtr p).ptr = p := rfl
@[simp] theorem DeviceRegs.setPtr_wake (r : DeviceRegs) (p : Byte) : (r.setPtr p).wake = r.wake := rfl
@[simp] theorem DeviceRegs.setPtr_init (r : DeviceRegs) (p : Byte) : (r.setPtr p).init = r.init := rfl
@[simp] theorem DeviceRegs.setPtr_wf (r : DeviceRegs) (p : Byte) : (r.setPtr p).wf = r.wf := rfl
@[simp] theorem DeviceRegs.setPtr_setPtr (r : DeviceRegs) (p q : Byte) : (r.setPtr p).setPtr q = r.setPtr q := rfl
@[simp] theorem DeviceRegs.setPtr_write (r : DeviceRegs) (p a b : Byte) :
    (r.setPtr p).write a b = (r.write a b).setPtr p := rfl

@[simp] theorem DeviceRegs.setWake_read (r : DeviceRegs) (w : Option (List AgentId)) (x : Byte) :
    (r.setWake w).read x = r.read x := rfl
@[simp] theorem DeviceRegs.setWake_ptr (r : DeviceRegs) (w : Option (List AgentId)) : (r.setWake w).ptr = r.ptr := rfl
@[simp] theorem DeviceRegs.setWake_wake (r : DeviceRegs) (w : Option (List AgentId)) : (r.setWake w).wake = w := rfl
@[simp] theorem DeviceRegs.setWake_init (r : DeviceRegs) (w : Option (List AgentId)) :
    (r.setWake w).init = r.init := rfl
@[simp] theorem DeviceRegs.setWake_wf (r : DeviceRegs) (w : Option (List AgentId)) : (r.setWake w).wf = r.wf := rfl
@[simp] theorem DeviceRegs.setWake_write (r : DeviceRegs) (w : Option (List AgentId)) (a b : Byte) :
    (r.setWake w).write a b = (r.write a b).setWake w := rfl
@[simp] theorem DeviceRegs.setWake_setPtr (r : DeviceRegs) (w : Option (List AgentId)) (p : Byte) :
    (r.setWake w).setPtr p = (r.setPtr p).setWake w := rfl
@[simp] theorem DeviceRegs.setWake_setWake (r : DeviceRegs) (v w : Option (List AgentId)) :
    (r.setWake v).setWake w = r.setWake w := rfl

/-- A register write keeps the canonical form. -/
theorem DeviceRegs.wf_write {r : DeviceRegs} (h : r.wf = true) (a b : Byte) : (r.write a b).wf = true := by
  simp only [DeviceRegs.wf, Bool.and_eq_true, List.all_eq_true, decide_eq_true_eq] at h ⊢
  refine ⟨Table.wf_set h.1 _ _, fun e he => ?_⟩
  rcases Table.mem_set he with rfl | he
  · exact a.isLt
  · exact h.2 e he

/-- Canonical register files that agree in every register, the launch contents, the pointer and the settle
tracking are equal. -/
theorem DeviceRegs.ext_of_wf {r q : DeviceRegs} (hr : r.wf = true) (hq : q.wf = true) (hi : r.init = q.init)
    (hp : r.ptr = q.ptr) (hw : r.wake = q.wake) (h : ∀ x, r.read x = q.read x) : r = q := by
  obtain ⟨i, c, p, w⟩ := r
  obtain ⟨i', c', p', w'⟩ := q
  simp only at hi hp hw
  subst hi hp hw
  simp only [DeviceRegs.wf, Bool.and_eq_true, List.all_eq_true, decide_eq_true_eq] at hr hq
  have : c = c' := Table.ext_of_wf hr.1 hq.1 fun a => by
    by_cases ha : a < 256
    · simpa [DeviceRegs.read, Nat.mod_eq_of_lt ha] using h (BitVec.ofNat 8 a)
    · have out : ∀ t : List (Nat × Byte), (∀ e ∈ t, e.1 < 256) → Table.get i.byte t a = i.byte a := by
        intro t
        induction t with
        | nil => intro _; rfl
        | cons e t ih =>
          intro ht
          have : a ≠ e.1 := by have := ht e List.mem_cons_self; omega
          simpa [Table.get, this] using ih fun e he => ht e (List.mem_cons_of_mem _ he)
      rw [out c hr.2, out c' hq.2]
  rw [this]

/-! ### Stores -/

/-- A store changes one register, the addressed one. -/
theorem Bus.store_read_ne (P : Params) (g : AgentId) (d : DevAddr) {a x : Byte} (h : x ≠ a) (b : Byte) (u : Bus) :
    (u.store P g d a b).dev.read x = u.dev.read x := by
  unfold Bus.store
  split
  · rename_i ha; subst ha; simp [h]
  · split
    · rename_i ha; simp only [Bool.and_eq_true, decide_eq_true_eq] at ha; rw [ha.1] at h; simp [h]
    · simp [h]

@[simp] theorem Bus.store_ptr (P : Params) (g : AgentId) (d : DevAddr) (a b : Byte) (u : Bus) :
    (u.store P g d a b).dev.ptr = u.dev.ptr := by
  unfold Bus.store; split
  · rfl
  · split <;> rfl

@[simp] theorem Bus.store_init (P : Params) (g : AgentId) (d : DevAddr) (a b : Byte) (u : Bus) :
    (u.store P g d a b).dev.init = u.dev.init := by
  unfold Bus.store; split
  · rfl
  · split <;> rfl

/-- MODE1 holds what was stored into it, and a store elsewhere leaves it. -/
theorem Bus.store_mode1 (P : Params) (g : AgentId) (d : DevAddr) (a b : Byte) (u : Bus) :
    (u.store P g d a b).dev.read regMode1 = if a = regMode1 then b else u.dev.read regMode1 := by
  by_cases h : a = regMode1
  · subst h; simp [Bus.store]
  · rw [if_neg h]; exact Bus.store_read_ne P g d (fun x => h x.symm) b u

/-- A store outside MODE1 and PRESCALE is plain. -/
theorem Bus.store_plain (P : Params) (g : AgentId) (d : DevAddr) {a : Byte} (h1 : a ≠ regMode1)
    (h2 : a ≠ regPrescale) (b : Byte) (u : Bus) :
    u.store P g d a b = ⟨u.dev.write a b, u.oracle, u.raised⟩ := by
  simp [Bus.store, h1, h2]

theorem Bus.store_wf (P : Params) (g : AgentId) (d : DevAddr) (a b : Byte) {u : Bus} (h : u.dev.wf = true) :
    (u.store P g d a b).dev.wf = true := by
  unfold Bus.store; split
  · exact DeviceRegs.wf_write h _ _
  · split
    · exact DeviceRegs.wf_write h _ _
    · exact DeviceRegs.wf_write h _ _

/-! ### Writes -/

/-- A register outside the addresses the data goes to keeps its value. -/
theorem Bus.writeData_read (P : Params) (g : AgentId) (d : DevAddr) (data : List Byte) (u : Bus) (x : Byte)
    (h : x ∉ dataAddrs P (u.dev.read regMode1) u.dev.ptr data) :
    (Bus.writeData P g d data u).dev.read x = u.dev.read x := by
  induction data generalizing u with
  | nil => rfl
  | cons b rest ih =>
    simp only [dataAddrs, List.mem_cons, not_or] at h
    simp only [Bus.writeData]
    rw [ih _ (by simpa [Bus.store_mode1] using h.2)]
    exact Bus.store_read_ne P g d h.1 b u

/-- A successful write changes no register outside the addresses it stores to (R61). -/
theorem Bus.write_read (P : Params) (g : AgentId) (d : DevAddr) (out : List Byte) (u : Bus) (x : Byte)
    (h : x ∉ storedAddrs P (u.dev.read regMode1) out) :
    (Bus.write P g d out u).dev.read x = u.dev.read x := by
  cases out with
  | nil => rfl
  | cons a data => exact Bus.writeData_read P g d data _ x h

/-- Where the data goes to distinct addresses outside PRESCALE, each byte is where it was stored (R61). -/
theorem Bus.writeData_stored (P : Params) (g : AgentId) (d : DevAddr) (data : List Byte) (u : Bus)
    (hn : (dataAddrs P (u.dev.read regMode1) u.dev.ptr data).Nodup)
    (hp : regPrescale ∉ dataAddrs P (u.dev.read regMode1) u.dev.ptr data) (x b : Byte)
    (h : (x, b) ∈ (dataAddrs P (u.dev.read regMode1) u.dev.ptr data).zip data) :
    (Bus.writeData P g d data u).dev.read x = b := by
  induction data generalizing u with
  | nil => simp [dataAddrs] at h
  | cons c rest ih =>
    simp only [dataAddrs, List.zip_cons_cons, List.mem_cons, List.nodup_cons, not_or] at h hn hp
    simp only [Bus.writeData]
    rcases h with h | h
    · obtain ⟨rfl, rfl⟩ := Prod.mk.inj h
      rw [Bus.writeData_read _ _ _ _ _ _ (by simpa [Bus.store_mode1] using hn.1)]
      simp only [DeviceRegs.setPtr_read]
      by_cases h0 : u.dev.ptr = regMode1
      · rw [h0, Bus.store_mode1]; simp
      · rw [Bus.store_plain P g d h0 (fun e => hp.1 e.symm)]; simp
    · exact ih _ (by simpa [Bus.store_mode1] using hn.2) (by simpa [Bus.store_mode1] using hp.2)
        (by simpa [Bus.store_mode1] using h)

theorem Bus.write_stored (P : Params) (g : AgentId) (d : DevAddr) (a : Byte) (data : List Byte) (u : Bus)
    (hn : (storedAddrs P (u.dev.read regMode1) (a :: data)).Nodup)
    (hp : regPrescale ∉ storedAddrs P (u.dev.read regMode1) (a :: data)) (x b : Byte)
    (h : (x, b) ∈ (storedAddrs P (u.dev.read regMode1) (a :: data)).zip data) :
    (Bus.write P g d (a :: data) u).dev.read x = b :=
  Bus.writeData_stored P g d data ⟨u.dev.setPtr a, u.oracle, u.raised⟩ hn hp x b h

theorem Bus.writeData_wf (P : Params) (g : AgentId) (d : DevAddr) (data : List Byte) {u : Bus}
    (h : u.dev.wf = true) : (Bus.writeData P g d data u).dev.wf = true := by
  induction data generalizing u with
  | nil => exact h
  | cons b rest ih => exact ih (Bus.store_wf P g d _ b h)

theorem Bus.write_wf (P : Params) (g : AgentId) (d : DevAddr) (out : List Byte) {u : Bus}
    (h : u.dev.wf = true) : (Bus.write P g d out u).dev.wf = true := by
  cases out with
  | nil => exact h
  | cons a data => exact Bus.writeData_wf P g d data h

/-! ### Writes of one data byte -/

/-- The write of one byte into MODE1 (R61, R282). -/
theorem Bus.write_mode1 (P : Params) (g : AgentId) (d : DevAddr) (v : Byte) (r : DeviceRegs) (o : Oracle)
    (fs : List ModelFault) :
    Bus.write P g d [regMode1, v] ⟨r, o, fs⟩ =
      ⟨((r.write regMode1 v).setPtr (nextPtr P v regMode1)).setWake (wakeAfter P (r.read regMode1) v r.wake), o,
        if restartTooEarly P g v r.wake then fs ++ [.restartBeforeSettle d] else fs⟩ := by
  cases h : restartTooEarly P g v r.wake <;> simp [Bus.write, Bus.writeData, Bus.store, h]

/-- The write of one byte into a register other than MODE1 and PRESCALE. -/
theorem Bus.write_plain1 (P : Params) (g : AgentId) (d : DevAddr) {a : Byte} (h1 : a ≠ regMode1)
    (h2 : a ≠ regPrescale) (v : Byte) (r : DeviceRegs) (o : Oracle) (fs : List ModelFault) :
    Bus.write P g d [a, v] ⟨r, o, fs⟩ = ⟨(r.write a v).setPtr (nextPtr P (r.read regMode1) a), o, fs⟩ := by
  simp [Bus.write, Bus.writeData, Bus.store_plain P g d h1 h2, DeviceRegs.read_write_ne _ h1.symm]

/-- The write of one byte into PRESCALE while the oscillator sleeps. -/
theorem Bus.write_prescale (P : Params) (g : AgentId) (d : DevAddr) (v : Byte) {r : DeviceRegs} (o : Oracle)
    (fs : List ModelFault) (hs : sleepSet P (r.read regMode1) = true) :
    Bus.write P g d [regPrescale, v] ⟨r, o, fs⟩ =
      ⟨(r.write regPrescale v).setPtr (nextPtr P (r.read regMode1) regPrescale), o, fs⟩ := by
  have h1 : regPrescale ≠ regMode1 := by decide
  simp [Bus.write, Bus.writeData, Bus.store, h1, hs, DeviceRegs.read_write_ne _ h1.symm]

/-- The write of one byte into PRESCALE while the oscillator runs (R65): a fault, and a draw is stored. -/
theorem Bus.write_prescale_running (P : Params) (g : AgentId) (d : DevAddr) (v : Byte) {r : DeviceRegs}
    (o : Oracle) (fs : List ModelFault) (hs : sleepSet P (r.read regMode1) = false) :
    Bus.write P g d [regPrescale, v] ⟨r, o, fs⟩ =
      ⟨(r.write regPrescale o.drawByte.1).setPtr (nextPtr P (r.read regMode1) regPrescale), o.drawByte.2,
        fs ++ [.prescaleWhileRunning d]⟩ := by
  have h1 : regPrescale ≠ regMode1 := by decide
  simp [Bus.write, Bus.writeData, Bus.store, h1, hs, DeviceRegs.read_write_ne _ h1.symm]

/-! ### Spans outside MODE1 and PRESCALE -/

theorem plainSpan.tail {a : Byte} {n : Nat} (h : plainSpan a (n + 1)) : plainSpan (a + 1) n := fun k hk => by
  have := h (k + 1) (by omega)
  rwa [show BitVec.ofNat 8 (k + 1) = 1 + BitVec.ofNat 8 k by
    rw [BitVec.add_comm]; simp [BitVec.ofNat_add], ← BitVec.add_assoc] at this

theorem plainSpan.head {a : Byte} {n : Nat} (h : plainSpan a (n + 1)) : a ≠ regMode1 ∧ a ≠ regPrescale := by
  simpa using h 0 (by omega)

theorem plainSpan.offMode1 {a : Byte} {n : Nat} (h : plainSpan a n) : offMode1 a n := fun k hk => (h k hk).1

theorem offMode1.tail {a : Byte} {n : Nat} (h : offMode1 a (n + 1)) : offMode1 (a + 1) n := fun k hk => by
  have := h (k + 1) (by omega)
  rwa [show BitVec.ofNat 8 (k + 1) = 1 + BitVec.ofNat 8 k by
    rw [BitVec.add_comm]; simp [BitVec.ofNat_add], ← BitVec.add_assoc] at this

theorem offMode1.head {a : Byte} {n : Nat} (h : offMode1 a (n + 1)) : a ≠ regMode1 := by
  simpa using h 0 (by omega)

theorem offMode1_one {a : Byte} (h : a ≠ regMode1) : offMode1 a 1 := fun k hk => by
  obtain rfl : k = 0 := by omega
  simpa using h

theorem ptrAfter_succ (adv : Bool) (a : Byte) (n : Nat) :
    ptrAfter adv a (n + 1) = ptrAfter adv (if adv then a + 1 else a) n := by
  unfold ptrAfter readAddr
  cases adv
  · rfl
  · simp only [if_true]
    rw [BitVec.add_assoc, show (1 : Byte) + BitVec.ofNat 8 n = BitVec.ofNat 8 (n + 1) by
      rw [BitVec.add_comm]; simp [BitVec.ofNat_add]]

@[simp] theorem storedAt_nil (adv : Bool) (r : DeviceRegs) (a x : Byte) : storedAt adv r a [] x = r.read x := by
  simp [storedAt]

theorem storedAt_setPtr (adv : Bool) (r : DeviceRegs) (p a : Byte) (data : List Byte) (x : Byte) :
    storedAt adv (r.setPtr p) a data x = storedAt adv r a data x := rfl

theorem storedAt_cons (adv : Bool) (r : DeviceRegs) (a b : Byte) (rest : List Byte) (x : Byte)
    (hl : rest.length < 256) :
    storedAt adv r a (b :: rest) x = storedAt adv (r.write a b) (if adv then a + 1 else a) rest x := by
  unfold storedAt
  cases adv
  · by_cases hx : x = a
    · subst hx; cases rest <;> simp [List.getLast?_cons]
    · simp [hx]
  · simp only [if_true, List.length_cons]
    by_cases hx : x = a
    · subst hx
      have h0 : (x - x).toNat = 0 := by simp
      have h1 : ¬ (x - (x + 1)).toNat < rest.length := by
        have : (x - (x + 1)).toNat = 255 := by bv_omega
        omega
      rw [h0, if_neg h1]; simp
    · have h1 : (x - a).toNat = (x - (a + 1)).toNat + 1 := by bv_omega
      rw [h1]
      simp only [Nat.add_lt_add_iff_right, List.getD_cons_succ, DeviceRegs.read_write_ne _ hx]

/-- A write of a span outside MODE1 and PRESCALE stores it plainly (R61). -/
theorem Bus.writeData_span (P : Params) (g : AgentId) (d : DevAddr) (data : List Byte) (r : DeviceRegs)
    (o : Oracle) (fs : List ModelFault) (h : plainSpan r.ptr data.length) (hl : data.length ≤ 256) :
    ∃ q, Bus.writeData P g d data ⟨r, o, fs⟩ = ⟨q, o, fs⟩ ∧ q.wake = r.wake ∧
      q.ptr = ptrAfter (advances P (r.read regMode1)) r.ptr data.length ∧
      ∀ x, q.read x = storedAt (advances P (r.read regMode1)) r r.ptr data x := by
  induction data generalizing r with
  | nil => exact ⟨r, rfl, rfl, by simp [ptrAfter, readAddr], by simp⟩
  | cons b rest ih =>
    obtain ⟨h1, h2⟩ := h.head
    have hm : (r.write r.ptr b).read regMode1 = r.read regMode1 := DeviceRegs.read_write_ne _ h1.symm _
    simp only [List.length_cons] at hl
    have hr : plainSpan (nextPtr P (r.read regMode1) r.ptr) rest.length := by
      unfold nextPtr
      split
      · exact h.tail
      · exact fun k hk => h k (by simp only [List.length_cons]; omega)
    obtain ⟨q, e, ew, ep, ex⟩ := ih ((r.write r.ptr b).setPtr (nextPtr P (r.read regMode1) r.ptr)) hr (by omega)
    refine ⟨q, ?_, ew, ?_, fun x => ?_⟩
    · simp only [Bus.writeData, Bus.store_plain P g d h1 h2, hm]; exact e
    · simpa [hm, ptrAfter_succ, nextPtr] using ep
    · rw [ex, storedAt_cons _ _ _ _ _ _ (by omega)]
      simp [hm, storedAt_setPtr, nextPtr]

theorem Bus.write_span (P : Params) (g : AgentId) (d : DevAddr) (a : Byte) (data : List Byte) (r : DeviceRegs)
    (o : Oracle) (fs : List ModelFault) (h : plainSpan a data.length) (hl : data.length ≤ 256) :
    ∃ q, Bus.write P g d (a :: data) ⟨r, o, fs⟩ = ⟨q, o, fs⟩ ∧ q.wake = r.wake ∧
      q.ptr = ptrAfter (advances P (r.read regMode1)) a data.length ∧
      ∀ x, q.read x = storedAt (advances P (r.read regMode1)) r a data x :=
  Bus.writeData_span P g d data (r.setPtr a) o fs h hl

/-- A read changes no register (R64), and a span outside MODE1 reads as it is stored (R62). -/
theorem Bus.readBytes_span (P : Params) (n : Nat) (r : DeviceRegs) (o : Oracle) (fs : List ModelFault)
    (h : offMode1 r.ptr n) :
    Bus.readBytes P n ⟨r, o, fs⟩ =
      (bytesAt (advances P (r.read regMode1)) r r.ptr n,
        ⟨r.setPtr (ptrAfter (advances P (r.read regMode1)) r.ptr n), o, fs⟩) := by
  induction n generalizing r with
  | zero => cases h : advances P (r.read regMode1) <;> simp [Bus.readBytes, bytesAt, ptrAfter, readAddr] <;> rfl
  | succ n ih =>
    have h1 := h.head
    have hr : offMode1 (r.setPtr (nextPtr P (r.read regMode1) r.ptr)).ptr n := by
      simp only [DeviceRegs.setPtr_ptr, nextPtr]
      split
      · exact h.tail
      · exact fun k hk => h k (by omega)
    simp only [Bus.readBytes, Bus.readByte, h1, if_false]
    rw [ih _ hr]
    simp only [DeviceRegs.setPtr_read, DeviceRegs.setPtr_ptr, DeviceRegs.setPtr_setPtr, ptrAfter_succ, nextPtr]
    refine Prod.ext ?_ rfl
    simp only [bytesAt, readAddr, List.range_succ_eq_map, List.map_cons, List.map_map]
    cases advances P (r.read regMode1)
    · exact congrArg (List.cons _) (List.map_congr_left fun _ _ => rfl)
    · simp only [if_true]
      congr 1
      · simp
      · refine List.map_congr_left fun k _ => ?_
        simp only [Function.comp, DeviceRegs.setPtr_read, Nat.succ_eq_add_one]
        rw [BitVec.add_assoc, show (1 : Byte) + BitVec.ofNat 8 k = BitVec.ofNat 8 (k + 1) by
          rw [BitVec.add_comm]; simp [BitVec.ofNat_add]]

/-- A read of one byte of MODE1 takes its draw (R64). -/
theorem Bus.readBytes_mode1 (P : Params) (r : DeviceRegs) (o : Oracle) (fs : List ModelFault)
    (h : r.ptr = regMode1) :
    Bus.readBytes P 1 ⟨r, o, fs⟩ =
      ([mode1ReadValue P (r.read regMode1) o.drawByte.1],
        ⟨r.setPtr (nextPtr P (r.read regMode1) regMode1), o.drawByte.2, fs⟩) := by
  simp [Bus.readBytes, Bus.readByte, h]

/-- A read changes only the pointer and raises nothing (R64). -/
theorem Bus.readBytes_dev (P : Params) (n : Nat) (u : Bus) :
    ∃ p, (u.readBytes P n).2.dev = u.dev.setPtr p ∧ (u.readBytes P n).2.raised = u.raised ∧
      (u.readBytes P n).1.length = n := by
  induction n generalizing u with
  | zero => exact ⟨u.dev.ptr, rfl, rfl, rfl⟩
  | succ n ih =>
    obtain ⟨p, h1, h2, h3⟩ := ih (u.readByte P).2
    refine ⟨p, ?_, ?_, ?_⟩
    · simp only [Bus.readBytes, h1]; unfold Bus.readByte; dsimp only; split <;> rfl
    · simp only [Bus.readBytes, h2]; unfold Bus.readByte; dsimp only; split <;> rfl
    · simp [Bus.readBytes, h3]

/-! ### Failed transfers -/

theorem Bus.scramble_read (l : List Byte) (u : Bus) (x : Byte) (h : x ∉ l) :
    (Bus.scramble l u).dev.read x = u.dev.read x := by
  induction l generalizing u with
  | nil => rfl
  | cons a rest ih =>
    simp only [List.mem_cons, not_or] at h
    simp only [Bus.scramble]
    rw [ih _ h.2]; simp [h.1]

/-- A failed transfer changes no register outside the addresses its write part stores to (R68). -/
theorem Bus.failed_read (P : Params) (out : List Byte) (u : Bus) (x : Byte)
    (h : x ∉ storedAddrs P (u.dev.read regMode1) out) : (Bus.failed P out u).dev.read x = u.dev.read x := by
  simp only [Bus.failed, DeviceRegs.setPtr_read]; exact Bus.scramble_read _ _ _ h

theorem Bus.scramble_wf (l : List Byte) {u : Bus} (h : u.dev.wf = true) :
    (Bus.scramble l u).dev.wf = true ∧ (Bus.scramble l u).raised = u.raised := by
  induction l generalizing u with
  | nil => exact ⟨h, rfl⟩
  | cons a rest ih => exact ih (u := ⟨_, _, u.raised⟩) (DeviceRegs.wf_write h _ _)

@[simp] theorem Bus.scramble_raised (l : List Byte) (u : Bus) : (Bus.scramble l u).raised = u.raised := by
  induction l generalizing u with
  | nil => rfl
  | cons a rest ih => simp only [Bus.scramble]; rw [ih]

/-- A failed transfer raises no fault (R68). -/
@[simp] theorem Bus.failed_raised (P : Params) (out : List Byte) (u : Bus) : (Bus.failed P out u).raised = u.raised := by
  simp [Bus.failed]

theorem Bus.failed_wf (P : Params) (out : List Byte) {u : Bus} (h : u.dev.wf = true) :
    (Bus.failed P out u).dev.wf = true := (Bus.scramble_wf _ h).1

/-- The device side of a transfer keeps the canonical form of the register file. -/
theorem Bus.transfer_wf (P : Params) (g : AgentId) (d : DevAddr) (p : Prim) (r : Bool) {u : Bus}
    (h : u.dev.wf = true) : (Bus.transfer P g d p r u).2.dev.wf = true := by
  unfold Bus.transfer
  split
  · obtain ⟨q, hq, -⟩ := Bus.readBytes_dev P p.inLen (u.write P g d p.out)
    rw [hq]; exact Bus.write_wf P g d p.out h
  · exact Bus.failed_wf P p.out h

end Sys2Proof.Machine
end

