-- ==== Sys2Proof/Laws/View.lean ====
section
/-! SUPPORT. The script of an operation depends only on the parameters, on which agent steps, and on that
agent's names and objects but for the transfer buffers: so an operation finds the same script at each of its
steps. -/

namespace Sys2Proof.Machine

open Sys2Proof

/-- The object without its transfer buffer. -/
def Object.bare (o : Object) : Object :=
  match o with
  | .controller c => .controller { c with buf := Vector.replicate 5 0 }
  | .channel ch => .channel ch
  | .servo sv => .servo sv

/-- The states agree on everything a script is made from. -/
structure SameView (s t : State) : Prop where
  turn : t.turn = s.turn
  params : t.params = s.params
  names : t.me.names = s.me.names
  objs : t.me.objs.map Object.bare = s.me.objs.map Object.bare

theorem SameView.refl (s : State) : SameView s s := ⟨rfl, rfl, rfl, rfl⟩

theorem SameView.symm {s t : State} (h : SameView s t) : SameView t s :=
  ⟨h.turn.symm, h.params.symm, h.names.symm, h.objs.symm⟩

theorem SameView.trans {s t u : State} (h : SameView s t) (k : SameView t u) : SameView s u :=
  ⟨k.turn.trans h.turn, k.params.trans h.params, k.names.trans h.names, k.objs.trans h.objs⟩

theorem SameView.resolve {s t : State} (h : SameView s t) (r : ObjRef) : t.resolve r = s.resolve r := by
  simp [State.resolve, h.turn, h.names]

theorem SameView.object {s t : State} (h : SameView s t) (i : ObjId) :
    (t.object i).map Object.bare = (s.object i).map Object.bare := by
  have := congrArg (fun l : List Object => l[i]?) h.objs
  simpa [State.object, List.getElem?_map] using this

theorem Object.bare_controller {o : Object} {c : Controller} (h : o.bare = (Object.controller c).bare) :
    ∃ b, o = .controller { c with buf := b } := by
  cases o with
  | controller c' =>
    obtain ⟨a1, a2, a3, a4, a5⟩ := c'
    obtain ⟨b1, b2, b3, b4, b5⟩ := c
    simp only [Object.bare, Object.controller.injEq, Controller.mk.injEq] at h
    obtain ⟨rfl, rfl, rfl, rfl, -⟩ := h
    exact ⟨a5, rfl⟩
  | channel => simp [Object.bare] at h
  | servo => simp [Object.bare] at h

theorem Object.bare_channel {o : Object} {c : Channel} (h : o.bare = (Object.channel c).bare) : o = .channel c := by
  cases o <;> simp_all [Object.bare]

theorem Object.bare_servo {o : Object} {c : Servo} (h : o.bare = (Object.servo c).bare) : o = .servo c := by
  cases o <;> simp_all [Object.bare]

theorem SameView.object_none {s t : State} (h : SameView s t) {i : ObjId} (hi : s.object i = none) :
    t.object i = none := by simpa [hi] using h.object i

theorem SameView.object_controller {s t : State} (h : SameView s t) {i : ObjId} {c : Controller}
    (hi : s.object i = some (.controller c)) : ∃ b, t.object i = some (.controller { c with buf := b }) := by
  have := h.object i
  rw [hi] at this
  cases ho : t.object i with
  | none => simp [ho] at this
  | some o =>
    simp only [ho, Option.map_some, Option.some.injEq] at this
    obtain ⟨b, hb⟩ := Object.bare_controller this
    exact ⟨b, by rw [hb]⟩

theorem SameView.object_channel {s t : State} (h : SameView s t) {i : ObjId} {c : Channel}
    (hi : s.object i = some (.channel c)) : t.object i = some (.channel c) := by
  have := h.object i
  rw [hi] at this
  cases ho : t.object i with
  | none => simp [ho] at this
  | some o =>
    simp only [ho, Option.map_some, Option.some.injEq] at this
    rw [Object.bare_channel this]

theorem SameView.object_servo {s t : State} (h : SameView s t) {i : ObjId} {c : Servo}
    (hi : s.object i = some (.servo c)) : t.object i = some (.servo c) := by
  have := h.object i
  rw [hi] at this
  cases ho : t.object i with
  | none => simp [ho] at this
  | some o =>
    simp only [ho, Option.map_some, Option.some.injEq] at this
    rw [Object.bare_servo this]

/-! ### The operand forms -/

section congr

variable {s t : State} (h : SameView s t)
include h

theorem SameView.withLive {k k' : Controller → Script} (i : ObjId)
    (hk : ∀ c b, k' { c with buf := b } = k c) : withLive t i k' = withLive s i k := by
  unfold Machine.withLive
  cases hs : s.object i with
  | none => rw [h.object_none hs]
  | some o =>
    cases o with
    | controller c =>
      obtain ⟨b, hb⟩ := h.object_controller hs
      rw [hb, h.turn]; exact ite_congr rfl (fun _ => hk c b) fun _ => rfl
    | channel c => rw [h.object_channel hs]
    | servo c => rw [h.object_servo hs]

theorem SameView.withCtrl {k k' : ObjId → Controller → Script} (r : ObjRef)
    (hk : ∀ i c b, k' i { c with buf := b } = k i c) : withCtrl t r k' = withCtrl s r k := by
  unfold Machine.withCtrl
  rw [h.resolve]
  split
  · exact h.withLive _ (hk _)
  · rfl

theorem SameView.withHandle {k k' : Channel → Controller → Script} (i : ObjId)
    (hk : ∀ ch c b, k' ch { c with buf := b } = k ch c) : withHandle t i k' = withHandle s i k := by
  unfold Machine.withHandle
  cases hs : s.object i with
  | none => rw [h.object_none hs]
  | some o =>
    cases o with
    | controller c => obtain ⟨b, hb⟩ := h.object_controller hs; rw [hb]
    | channel c => rw [h.object_channel hs]; exact h.withLive _ (hk c)
    | servo c => rw [h.object_servo hs]

theorem SameView.withChan {k k' : ObjId → Channel → Controller → Script} (r : ObjRef)
    (hk : ∀ i ch c b, k' i ch { c with buf := b } = k i ch c) : withChan t r k' = withChan s r k := by
  unfold Machine.withChan
  rw [h.resolve]
  split
  · exact h.withHandle _ (hk _)
  · rfl

theorem SameView.withServo {k k' : ObjId → Servo → Channel → Controller → Script} (r : ObjRef)
    (hk : ∀ i sv ch c b, k' i sv ch { c with buf := b } = k i sv ch c) : withServo t r k' = withServo s r k := by
  unfold Machine.withServo
  rw [h.resolve]
  split
  · rename_i i _
    cases hs : s.object i with
    | none => rw [h.object_none hs]
    | some o =>
      cases o with
      | controller c => obtain ⟨b, hb⟩ := h.object_controller hs; rw [hb]
      | channel c => rw [h.object_channel hs]
      | servo sv => rw [h.object_servo hs]; exact h.withHandle _ (hk i sv)
  · rfl

theorem SameView.withNum {k k' : Num → Script} (x : Num) (hk : ∀ y, k' y = k y) :
    withNum t x k' = withNum s x k := by
  unfold Machine.withNum
  rw [h.params]
  split
  · exact hk _
  · rfl

/-- The script of an operation is the same in states of the same view. -/
theorem SameView.scriptOf (i : Instr) : scriptOf i t = scriptOf i s := by
  cases i
  case ctrlInit dst addr ref probe =>
    simp only [Machine.scriptOf, ctrlInitScript]
    rw [h.withNum ref fun y => rfl]
  case servoInit dst ch range min max =>
    simp only [Machine.scriptOf, servoInitScript, h.params]
    exact h.withChan _ fun i ch c b => h.withNum _ fun y => h.withNum _ fun z => h.withNum _ fun w => rfl
  case servoSetPulseRange sv min max =>
    simp only [Machine.scriptOf, servoSetPulseRangeScript, h.params]
    exact h.withServo _ fun i v ch c b => h.withNum _ fun y => h.withNum _ fun z => rfl
  case freqSet c freq =>
    simp only [Machine.scriptOf, freqSetScript, h.params]
    exact h.withCtrl _ fun i c b => h.withNum _ fun y => rfl
  case servoFractionSet sv v =>
    simp only [Machine.scriptOf, servoFractionSetScript, h.params]
    refine h.withServo _ fun i w ch c b => ?_
    cases v
    · rfl
    · exact h.withNum _ fun y => rfl
  case servoAngleSet sv v =>
    simp only [Machine.scriptOf, servoAngleSetScript, h.params]
    refine h.withServo _ fun i w ch c b => ?_
    cases v
    · rfl
    · exact h.withNum _ fun y => rfl
  case servoFractionGet dst sv =>
    simp only [Machine.scriptOf, servoFractionGetScript, getFraction, h.params, h.turn]
    exact h.withServo _ fun _ _ _ _ _ => rfl
  case servoAngleGet dst sv =>
    simp only [Machine.scriptOf, servoAngleGetScript, getFraction, h.params, h.turn]
    exact h.withServo _ fun _ _ _ _ _ => rfl
  case chFreqGet => simp only [Machine.scriptOf, chFreqGetScript, h.params]; exact h.withChan _ fun _ _ _ _ => rfl
  case chFreqSet => exact h.withChan _ fun _ _ _ _ => rfl
  case chDutyGet => simp only [Machine.scriptOf, chDutyGetScript, h.params]; exact h.withChan _ fun _ _ _ _ => rfl
  case chDutySet => exact h.withChan _ fun _ _ _ _ => rfl
  case freqGet => simp only [Machine.scriptOf, freqGetScript, h.params]; exact h.withCtrl _ fun _ _ _ => rfl
  all_goals exact h.withCtrl _ fun _ _ _ => rfl

end congr

/-- `exec` runs one step of the operation's script. -/
theorem exec_eq_runScript (i : Instr) (s : State) : exec i s = runScript (scriptOf i s) s := by
  cases i <;> rfl

end Sys2Proof.Machine
end

