-- ==== Sys2Proof/Laws/Exec.lean ====
section
/-! SUPPORT. Running operations: one lock hold with one primitive as three steps of `exec`, its start from
between two operations, and how runs and what they leave compose. -/

namespace Sys2Proof.Machine

open Sys2Proof

/-! ### Runs and what they leave -/

theorem Runs.trans {i : Instr} {m n : Nat} {s t u : State} (h : Runs i m s t) (k : Runs i n t u) :
    Runs i (m + n) s u := by
  induction m generalizing s with
  | zero => cases h; simpa using k
  | succ m ih =>
    obtain ⟨v, h1, h2⟩ := h
    rw [Nat.succ_add]; exact ⟨v, h1, ih h2⟩

theorem Runs.one {i : Instr} {s t : State} (h : exec i s = .next t) : Runs i 1 s t := ⟨t, h, rfl⟩

theorem Leaves.refl (s : State) : Leaves s s s.lock [] [] s.device s.me :=
  ⟨rfl, rfl, fun _ => rfl, by simp, rfl, by simp, rfl, rfl, fun _ _ => rfl⟩

theorem Leaves.trans {s t u : State} {l1 l2 f1 f2 e1 e2 d1 d2 m1 m2}
    (h : Leaves s t l1 f1 e1 d1 m1) (k : Leaves t u l2 f2 e2 d2 m2) :
    Leaves s u l2 (f1 ++ f2) (e1 ++ e2) d2 m2 where
  params := k.params.trans h.params
  lock := k.lock
  devices := k.devices
  faults f := by rw [k.faults, h.faults]; simp [or_assoc]
  refused := k.refused.trans h.refused
  history := by rw [k.history, h.history, List.append_assoc]
  turn := k.turn.trans h.turn
  me := k.me
  others g hg := (k.others g (h.turn ▸ hg)).trans (h.others g hg)

/-- A change of the stepping agent alone. -/
theorem Leaves.updMe {s t : State} {l fs evs dev me} (h : Leaves s t l fs evs dev me)
    (f : AgentState → AgentState) : Leaves s (t.updMe f) l fs evs dev (f me) where
  params := h.params
  lock := h.lock
  devices d := h.devices d
  faults := h.faults
  refused := h.refused
  history := h.history
  turn := h.turn
  me := by rw [State.updMe_me, h.me]
  others g hg := by rw [State.updMe_agent_ne _ _ (h.turn ▸ hg)]; exact h.others g hg

theorem Leaves.unlock {s t : State} {l fs evs dev me} (h : Leaves s t l fs evs dev me) :
    Leaves s t.unlock .free fs (evs ++ [.release s.turn]) dev { me with holding := false } where
  params := h.params
  lock := rfl
  devices d := h.devices d
  faults := h.faults
  refused := h.refused
  history := by rw [State.unlock_history, h.history, h.turn, List.append_assoc]
  turn := h.turn
  me := by rw [State.unlock_me, h.me]
  others g hg := by rw [State.unlock_agent_ne _ (h.turn ▸ hg)]; exact h.others g hg

theorem Leaves.addFaults {s t : State} {l fs evs dev me} (h : Leaves s t l fs evs dev me) (gs : List ModelFault) :
    Leaves s (t.addFaults gs) l (fs ++ gs) evs dev me where
  params := by simpa using h.params
  lock := by simpa using h.lock
  devices d := by simpa using h.devices d
  faults f := by rw [State.mem_addFaults, h.faults]; simp [or_assoc]
  refused := by simpa using h.refused
  history := by simpa using h.history
  turn := by simpa using h.turn
  me := by simpa using h.me
  others g hg := by simpa using h.others g hg

/-! ### The transfer buffer -/

@[simp] theorem stageObjs_none (objs : List Object) (bs : List Byte) : stageObjs objs none bs = objs := rfl

theorem stageObjs_some {objs : List Object} {c : ObjId} {ctl : Controller}
    (h : objs[c]? = some (.controller ctl)) (bs : List Byte) :
    stageObjs objs (some c) bs = objs.set c (.controller { ctl with buf := fillBuf ctl.buf bs }) := by
  simp [stageObjs, h]

theorem stageObjs_bare (objs : List Object) (via : Option ObjId) (bs : List Byte) :
    (stageObjs objs via bs).map Object.bare = objs.map Object.bare := by
  unfold stageObjs
  split
  · rfl
  · split
    · rename_i h
      rw [List.map_set]
      apply List.ext_getElem?
      intro n
      rw [List.getElem?_set]
      split
      · rename_i e; subst e
        obtain ⟨hl, he⟩ := List.getElem?_eq_some_iff.mp h
        simp [hl, he, Object.bare]
      · rfl
    · rfl

theorem State.stage_cases (s : State) (via : Option ObjId) (bs : List Byte) :
    s.stage via bs = s ∨ ∃ f, s.stage via bs = s.updMe f := by
  unfold State.stage
  split
  · exact .inl rfl
  · split
    · exact .inr ⟨_, rfl⟩
    · exact .inl rfl

theorem State.stage_me (s : State) (via : Option ObjId) (bs : List Byte) :
    (s.stage via bs).me = { s.me with objs := stageObjs s.me.objs via bs } := by
  unfold State.stage stageObjs
  split
  · rfl
  · rename_i c
    simp only [State.object]
    cases h : s.me.objs[c]? with
    | none => rfl
    | some o =>
      cases o with
      | controller ctl => simp
      | channel ch => rfl
      | servo sv => rfl

theorem Leaves.stage {s t : State} {l fs evs dev me} (h : Leaves s t l fs evs dev me) (via : Option ObjId)
    (bs : List Byte) : Leaves s (t.stage via bs) l fs evs dev { me with objs := stageObjs me.objs via bs } := by
  have hm := t.stage_me via bs
  rw [h.me] at hm
  rcases t.stage_cases via bs with e | ⟨f, e⟩
  · rw [e] at hm ⊢
    rw [← hm, h.me]; exact h
  · rw [e] at hm ⊢
    rw [← hm, State.updMe_me, h.me]; exact h.updMe f

@[simp] theorem State.stage_oracle (s : State) (via : Option ObjId) (bs : List Byte) :
    (s.stage via bs).oracle = s.oracle := by
  rcases s.stage_cases via bs with e | ⟨f, e⟩ <;> rw [e]; rfl

@[simp] theorem State.stage_dev (s : State) (via : Option ObjId) (bs : List Byte) :
    (s.stage via bs).dev = s.dev := by
  rcases s.stage_cases via bs with e | ⟨f, e⟩ <;> rw [e]; rfl

@[simp] theorem State.updMe_oracle' (s : State) (f : AgentState → AgentState) : (s.updMe f).oracle = s.oracle := rfl

/-- What is left of a state has the view of that state where names and objects are the same but for the
buffers. -/
theorem Leaves.sameView {s t : State} {l fs evs dev me} (h : Leaves s t l fs evs dev me)
    (hn : me.names = s.me.names) (ho : me.objs.map Object.bare = s.me.objs.map Object.bare) : SameView s t :=
  ⟨h.turn, h.params, by rw [h.me, hn], by rw [h.me, ho]⟩

/-! ### A primitive to a present device -/

section transfer

variable {s : State} {d : DevAddr} {p : Prim} {r : DeviceRegs}

/-- The device side of the next primitive to device registers `r`. -/
def State.nextTransfer (s : State) (d : DevAddr) (p : Prim) (r : DeviceRegs) : List Byte × Bus :=
  Bus.transfer s.params s.turn d p s.oracle.drawResult.1
    { dev := r, oracle := s.oracle.drawResult.2, raised := s.unlockedFault }

theorem State.transfer_present (h : s.device d = some r) :
    s.transfer d p =
      { ok := s.oracle.drawResult.1
        inp := (s.nextTransfer d p r).1
        event := .tx s.turn d p.kind p.out (s.nextTransfer d p r).1 s.oracle.drawResult.1
        raised := (s.nextTransfer d p r).2.raised
        state := ((s.setOracle (s.nextTransfer d p r).2.oracle).setDevice d (s.nextTransfer d p r).2.dev).record
          (.tx s.turn d p.kind p.out (s.nextTransfer d p r).1 s.oracle.drawResult.1) } := by
  simp only [State.transfer, h]; rfl

theorem State.transfer_absent (h : s.device d = none) :
    s.transfer d p =
      { ok := false
        inp := (s.oracle.drawBytes p.inLen).1
        event := .tx s.turn d p.kind p.out (s.oracle.drawBytes p.inLen).1 false
        raised := s.unlockedFault
        state := (s.setOracle (s.oracle.drawBytes p.inLen).2).record
          (.tx s.turn d p.kind p.out (s.oracle.drawBytes p.inLen).1 false) } := by
  simp only [State.transfer, h]

theorem Leaves.transfer_present {u : State} (h : u.device d = some r) :
    Leaves u (u.transfer d p).state u.lock []
      [.tx u.turn d p.kind p.out (u.nextTransfer d p r).1 u.oracle.drawResult.1]
      (devWith u d (u.nextTransfer d p r).2.dev) u.me := by
  rw [State.transfer_present h]
  exact ⟨rfl, rfl, fun e => by simp [devWith, State.setDevice_device], by simp, rfl, rfl, rfl, rfl, fun _ _ => rfl⟩

theorem Leaves.transfer_absent {u : State} (h : u.device d = none) :
    Leaves u (u.transfer d p).state u.lock []
      [.tx u.turn d p.kind p.out (u.oracle.drawBytes p.inLen).1 false] u.device u.me := by
  rw [State.transfer_absent h]
  exact ⟨rfl, rfl, fun e => rfl, by simp, rfl, rfl, rfl, rfl, fun _ _ => rfl⟩

end transfer

/-! ### One lock hold -/

section hold

variable {i : Instr} {u : State} {rs : List (List Byte)} {d : DevAddr} {via : Option ObjId} {p : Prim}
  {k : List Byte → Script} {r : DeviceRegs}

/-- The agent after a successful attempt to take the lock for a transaction. -/
def State.locked (u : State) (rs : List (List Byte)) : State := u.takeLock.setPhase (.body rs)

theorem Leaves.locked (u : State) (rs : List (List Byte)) :
    Leaves u (u.locked rs) (.held u.turn) [] [.acquire u.turn] u.device
      { u.me with holding := true, phase := .body rs } := by
  refine ⟨rfl, rfl, fun _ => rfl, ?_, rfl, rfl, rfl, ?_, fun g hg => ?_⟩
  · intro f; simp [State.locked]
  · simp [State.locked]
  · simp only [State.locked, State.setPhase_eq]
    rw [State.updMe_agent_ne _ _ (by simpa using hg), State.takeLock_agent_ne _ hg]

@[simp] theorem State.locked_oracle (u : State) (rs : List (List Byte)) : (u.locked rs).oracle = u.oracle := rfl

/-- The attempt that takes a free lock for a transaction. -/
theorem exec_attempt_transact (hp : u.me.phase = .acquire rs)
    (hs : (scriptOf i u).resume rs = some (.transact d via p k)) (hl : u.lock = .free) :
    exec i u = .next (u.locked rs) := by
  rw [exec_eq_runScript, runScript, hp]
  simp [hs, Script.locks, State.attempt, State.lockFree, hl, State.locked]

theorem exec_attempt_probe {kp : Script} (hp : u.me.phase = .acquire rs)
    (hs : (scriptOf i u).resume rs = some (.probe d kp)) (hl : u.lock = .free) :
    exec i u = .next (u.locked rs) := by
  rw [exec_eq_runScript, runScript, hp]
  simp [hs, Script.locks, State.attempt, State.lockFree, hl, State.locked]

theorem exec_body (hp : u.me.phase = .body rs) (hs : (scriptOf i u).resume rs = some (.transact d via p k)) :
    exec i u = .next (u.bodyStep d via p rs) := by
  rw [exec_eq_runScript, runScript, hp]; simp [hs]

/-- A step that issues a primitive is that primitive, its bytes put into the transfer buffer. -/
theorem Issues.exec (h : Issues i u d via p) :
    ∃ next, Sys2Proof.Machine.exec i u = .next
      (((u.transfer d p).state.stage via (p.out ++ (u.transfer d p).inp)).afterPrim (u.transfer d p).raised next) := by
  cases h with
  | transact rs _ _ k hp hs => exact ⟨_, exec_body hp hs⟩
  | probeWrite rs k hp hs => exact ⟨_, by rw [exec_eq_runScript, runScript, hp]; simp only [hs]; rfl⟩
  | probeRead rs k hp hs => exact ⟨_, by rw [exec_eq_runScript, runScript, hp]; simp only [hs]; rfl⟩

theorem exec_release {how : BodyEnd} (hp : u.me.phase = .release rs how)
    (hs : (scriptOf i u).resume rs = some (.transact d via p k)) :
    exec i u = .next (u.releaseStep d k rs how) := by
  rw [exec_eq_runScript, runScript, hp]; simp [hs]

theorem exec_release_probe {how : BodyEnd} {kp : Script} (hp : u.me.phase = .release rs how)
    (hs : (scriptOf i u).resume rs = some (.probe d kp)) :
    exec i u = .next (u.releaseStep d (fun _ => kp) rs how) := by
  rw [exec_eq_runScript, runScript, hp]; simp [hs]

theorem exec_wait {ms : Rat} {kd : Script} (hp : u.me.phase = .wait rs)
    (hs : (scriptOf i u).resume rs = some (.delay ms kd)) :
    exec i u = .next ((u.delay ms).enter kd (rs ++ [[]])) := by
  rw [exec_eq_runScript, runScript, hp]; simp [hs]

/-- What the primitive of a hold does when it is taken: the transfer as it would run from the state before the
acquire. -/
theorem Leaves.locked_transfer :
    (u.locked rs).nextTransfer d p r =
      Bus.transfer u.params u.turn d p u.oracle.drawResult.1
        { dev := r, oracle := u.oracle.drawResult.2, raised := [] } := by
  simp only [State.nextTransfer]
  have : (u.locked rs).unlockedFault = [] := by
    simp [State.unlockedFault, State.lockMine, State.locked]
  rw [this]; rfl

/-- The device side of the next primitive inside a lock hold of the stepping agent. -/
def State.heldTransfer (u : State) (d : DevAddr) (p : Prim) (r : DeviceRegs) : List Byte × Bus :=
  Bus.transfer u.params u.turn d p u.oracle.drawResult.1
    { dev := r, oracle := u.oracle.drawResult.2, raised := [] }

/-- A primitive that raises no fault, from the attempt to the end of its body. -/
theorem runs_to_release (hp : u.me.phase = .acquire rs)
    (hs : (scriptOf i u).resume rs = some (.transact d via p k)) (hl : u.lock = .free)
    (hd : u.device d = some r) (hr : (u.heldTransfer d p r).2.raised = []) :
    ∃ w, Runs i 2 u w ∧
      Leaves u w (.held u.turn) []
        [.acquire u.turn, .tx u.turn d p.kind p.out (u.heldTransfer d p r).1 u.oracle.drawResult.1]
        (devWith u d (u.heldTransfer d p r).2.dev)
        { u.me with
          holding := true
          objs := stageObjs u.me.objs via (p.out ++ (u.heldTransfer d p r).1)
          phase := .release rs (if u.oracle.drawResult.1 then .ok (u.heldTransfer d p r).1
            else .failed (.tx u.turn d p.kind p.out (u.heldTransfer d p r).1 u.oracle.drawResult.1)) } ∧
      w.oracle = (u.heldTransfer d p r).2.oracle ∧
      (scriptOf i w).resume rs = some (.transact d via p k) := by
  have h1 := exec_attempt_transact hp hs hl
  have v1 : SameView u (u.locked rs) := (Leaves.locked u rs).sameView rfl rfl
  have hd1 : (u.locked rs).device d = some r := hd
  have hs1 : (scriptOf i (u.locked rs)).resume rs = some (.transact d via p k) := by rw [v1.scriptOf]; exact hs
  have h2 := exec_body (i := i) (u := u.locked rs) (rs := rs) (by simp [State.locked]) hs1
  have tr : (u.locked rs).nextTransfer d p r = u.heldTransfer d p r := Leaves.locked_transfer
  have e : (u.locked rs).bodyStep d via p rs =
      ((((u.locked rs).transfer d p).state.stage via (p.out ++ (u.heldTransfer d p r).1)).setPhase
        (.release rs (if u.oracle.drawResult.1 then .ok (u.heldTransfer d p r).1
          else .failed (.tx u.turn d p.kind p.out (u.heldTransfer d p r).1 u.oracle.drawResult.1)))) := by
    simp only [State.bodyStep, State.transfer_present hd1, tr, State.afterPrim, hr]; rfl
  rw [e] at h2
  have lv := (((Leaves.locked u rs).trans (Leaves.transfer_present (p := p) hd1)).stage via
    (p.out ++ (u.heldTransfer d p r).1)).updMe fun a =>
      { a with phase := .release rs (if u.oracle.drawResult.1 then .ok (u.heldTransfer d p r).1
        else .failed (.tx u.turn d p.kind p.out (u.heldTransfer d p r).1 u.oracle.drawResult.1)) }
  refine ⟨_, ⟨_, h1, _, h2, rfl⟩, ?_, ?_, ?_⟩
  · rw [tr] at lv
    refine ⟨lv.params, lv.lock, fun e => ?_, lv.faults, lv.refused, lv.history, lv.turn, ?_, lv.others⟩
    · rw [State.setPhase_eq, lv.devices]; rfl
    · rw [State.setPhase_eq, lv.me]; simp [(Leaves.locked u rs).me]
  · simp [State.transfer_present hd1, tr]
  · have v2 : SameView u _ := lv.sameView (by simp [(Leaves.locked u rs).me])
      (by simp [(Leaves.locked u rs).me, stageObjs_bare])
    rw [State.setPhase_eq, v2.scriptOf]; exact hs

/-- One lock hold with one primitive that succeeds and raises no fault (R126): three steps, after which the
operation goes on with the bytes read, the lock free again. -/
theorem runs_transact (hp : u.me.phase = .acquire rs)
    (hs : (scriptOf i u).resume rs = some (.transact d via p k)) (hl : u.lock = .free)
    (hd : u.device d = some r) (ho : u.oracle.drawResult.1 = true)
    (hr : (u.heldTransfer d p r).2.raised = []) :
    ∃ w, Runs i 3 u (w.enter (k (u.heldTransfer d p r).1) (rs ++ [(u.heldTransfer d p r).1])) ∧
      Leaves u w .free [] (heldTx u.turn d p.kind p.out (u.heldTransfer d p r).1 true)
        (devWith u d (u.heldTransfer d p r).2.dev)
        { u.me with
          holding := false
          objs := stageObjs u.me.objs via (p.out ++ (u.heldTransfer d p r).1)
          phase := .release rs (.ok (u.heldTransfer d p r).1) } ∧
      w.oracle = (u.heldTransfer d p r).2.oracle := by
  obtain ⟨w, h1, lv, ow, sw⟩ := runs_to_release hp hs hl hd hr
  simp only [ho, if_true] at lv
  have hph : w.me.phase = .release rs (.ok (u.heldTransfer d p r).1) := by rw [lv.me]
  have h3 := exec_release hph sw
  have hm : w.lockMine = true := by simp [State.lockMine, lv.lock, lv.turn]
  simp only [State.releaseStep, hm, if_true] at h3
  exact ⟨w.unlock, h1.trans (Runs.one h3), lv.unlock, ow⟩

/-- One lock hold whose primitive fails (R126): three steps, after which the operation has ended with
BusTransportError and the lock is free. -/
theorem runs_transact_fails (hp : u.me.phase = .acquire rs)
    (hs : (scriptOf i u).resume rs = some (.transact d via p k)) (hl : u.lock = .free)
    (hd : u.device d = some r) (ho : u.oracle.drawResult.1 = false) :
    ∃ t, Runs i 3 u t ∧
      Leaves u t .free [] (heldTx u.turn d p.kind p.out (u.heldTransfer d p r).1 false)
        (devWith u d (u.heldTransfer d p r).2.dev)
        { u.me with
          holding := false
          objs := stageObjs u.me.objs via (p.out ++ (u.heldTransfer d p r).1)
          status := .errored (.busTransport d (.tx u.turn d p.kind p.out (u.heldTransfer d p r).1 false))
          phase := .idle } := by
  have hr : (u.heldTransfer d p r).2.raised = [] := by
    simp [State.heldTransfer, ho, Bus.transfer]
  obtain ⟨w, h1, lv, -, sw⟩ := runs_to_release hp hs hl hd hr
  simp only [ho, Bool.false_eq_true, if_false] at lv
  have h3 := exec_release (by rw [lv.me]) sw
  have hm : w.lockMine = true := by simp [State.lockMine, lv.lock, lv.turn]
  simp only [State.releaseStep, hm, if_true, State.raiseError] at h3
  rw [State.guardRelease_of_not_mine (by simp)] at h3
  exact ⟨_, h1.trans (Runs.one h3), lv.unlock.updMe _⟩

end hold

/-! ### From between two operations -/

theorem Leaves.beginAcquire {s t : State} {l fs evs dev me} (h : Leaves s t l fs evs dev me)
    (rs : List (List Byte)) :
    Leaves s (t.beginAcquire rs) l fs evs dev { me with attempts := 0, phase := .acquire rs } :=
  (h.updMe fun a => { a with attempts := 0 }).updMe fun a => { a with phase := .acquire rs }

/-- The agent comes to a transaction: its buffer is built, and it waits for the lock. -/
theorem Leaves.enter_transact {s t : State} {l fs evs dev me} (h : Leaves s t l fs evs dev me) (d : DevAddr)
    (via : Option ObjId) (p : Prim) (k : List Byte → Script) (rs : List (List Byte)) :
    Leaves s (t.enter (.transact d via p k) rs) l fs evs dev
      { me with objs := stageObjs me.objs via (builtBuf p), attempts := 0, phase := .acquire rs } :=
  (h.stage via (builtBuf p)).beginAcquire rs

theorem Leaves.enter_probe {s t : State} {l fs evs dev me} (h : Leaves s t l fs evs dev me) (d : DevAddr)
    (k : Script) (rs : List (List Byte)) :
    Leaves s (t.enter (.probe d k) rs) l fs evs dev { me with attempts := 0, phase := .acquire rs } :=
  h.beginAcquire rs

theorem Leaves.enter_acquire {s t : State} {l fs evs dev me} (h : Leaves s t l fs evs dev me) (d : DevAddr)
    (rs : List (List Byte)) :
    Leaves s (t.enter (.acquire d) rs) l fs evs dev { me with attempts := 0, phase := .acquire rs } :=
  h.beginAcquire rs

/-- Coming to a script that acquires the lock: the count starts, the buffer is built (R122, R141, R150). -/
theorem Leaves.enter_locks {s t : State} {l fs evs dev me} (h : Leaves s t l fs evs dev me) {sc : Script}
    {d : DevAddr} (hd : sc.locks = some d) (rs : List (List Byte)) :
    Leaves s (t.enter sc rs) l fs evs dev
      { me with attempts := 0, phase := .acquire rs, objs := sc.builtObjs me.objs } := by
  cases sc <;> simp only [Script.locks, reduceCtorEq] at hd
  · exact h.enter_acquire _ rs
  · exact h.enter_transact _ _ _ _ rs
  · exact h.enter_probe _ _ rs

/-- An attempt that finds the lock free takes it, whatever script the agent waits at (R120, R122). -/
theorem Leaves.attempt_free {s u : State} {fs evs dev me} (h : Leaves s u .free fs evs dev me) {sc : Script}
    {d : DevAddr} (hd : sc.locks = some d) (rs : List (List Byte)) :
    Leaves s (u.attempt sc rs) (.held s.turn) fs (evs ++ [.acquire s.turn]) dev
      (if sc.isHold = true then { me with holding := true, phase := .body rs }
        else ({ me with holding := true } : AgentState).advanced) := by
  have l : Leaves s u.takeLock (.held s.turn) fs (evs ++ [.acquire s.turn]) dev { me with holding := true } :=
    ⟨h.params, by rw [State.takeLock_lock, h.turn], h.devices, h.faults, h.refused,
      by rw [State.takeLock_history, h.history, h.turn, List.append_assoc], h.turn,
      by rw [State.takeLock_me, h.me],
      fun g hg => (State.takeLock_agent_ne u (h.turn ▸ hg)).trans (h.others g hg)⟩
  simp only [State.attempt, hd, State.lockFree, h.lock, decide_true, if_true]
  cases sc <;> simp only [Script.locks, reduceCtorEq] at hd <;> simp only [Script.isHold, if_true]
  · exact l.updMe AgentState.advanced
  · exact l.updMe fun a => { a with phase := .body rs }
  · exact l.updMe fun a => { a with phase := .body rs }

theorem Leaves.enter_delay {s t : State} {l fs evs dev me} (h : Leaves s t l fs evs dev me) (ms : Rat)
    (k : Script) (rs : List (List Byte)) :
    Leaves s (t.enter (.delay ms k) rs) l fs evs dev { me with phase := .wait rs } :=
  h.updMe fun a => { a with phase := .wait rs }

@[simp] theorem State.enter_transact_oracle (s : State) (d : DevAddr) (via : Option ObjId) (p : Prim)
    (k : List Byte → Script) (rs : List (List Byte)) : (s.enter (.transact d via p k) rs).oracle = s.oracle :=
  s.stage_oracle via (builtBuf p)

/-- An operation whose script begins with an acquire does in its first step what it would do from the first
attempt to take the lock. -/
theorem exec_start {i : Instr} {s : State} {sc : Script} (hi : s.me.phase = .idle) (hs : scriptOf i s = sc)
    (hl : sc.locks.isSome = true) : exec i s = exec i (s.enter sc []) := by
  have key : ∀ u : State, SameView s u → u.me.phase = .acquire [] →
      exec i u = .next (u.attempt sc []) := fun u hv hp => by
    rw [exec_eq_runScript, runScript, hp, hv.scriptOf, hs]
    simp [Script.resume, hl]
  have start : exec i s = .next ((s.enter sc []).attempt sc []) := by
    rw [exec_eq_runScript, runScript, hi, hs]
  rw [start]
  symm
  cases sc with
  | transact d via p k =>
    have lv := (Leaves.refl s).enter_transact d via p k []
    exact key _ (lv.sameView rfl (stageObjs_bare ..)) (by rw [lv.me])
  | probe d k =>
    have lv := (Leaves.refl s).enter_probe d k []
    exact key _ (lv.sameView rfl rfl) (by rw [lv.me])
  | acquire d =>
    have lv := (Leaves.refl s).enter_acquire d []
    exact key _ (lv.sameView rfl rfl) (by rw [lv.me])
  | _ => simp [Script.locks] at hl

/-- An operation whose script ends before any acquire is one step. -/
theorem exec_now {i : Instr} {s : State} {sc : Script} (hi : s.me.phase = .idle) (hs : scriptOf i s = sc)
    (hl : sc.locks = none) : exec i s = .next (s.enter sc []) := by
  rw [exec_eq_runScript, runScript, hi, hs]
  simp [State.attempt, hl]

theorem Runs.of_exec_eq {i : Instr} {n : Nat} {s u t : State} (h : exec i s = exec i u) (k : Runs i (n + 1) u t) :
    Runs i (n + 1) s t := by
  obtain ⟨v, h1, h2⟩ := k
  exact ⟨v, h.trans h1, h2⟩

/-! ### Operations of one transaction -/

theorem stageObjs_idem (objs : List Object) (via : Option ObjId) (bs cs : List Byte) (h : bs.length = cs.length) :
    stageObjs (stageObjs objs via bs) via cs = stageObjs objs via cs := by
  cases via with
  | none => rfl
  | some c =>
    cases hc : objs[c]? with
    | none => simp [stageObjs, hc]
    | some o =>
      cases o with
      | controller ctl =>
        obtain ⟨hl, -⟩ := List.getElem?_eq_some_iff.mp hc
        rw [stageObjs_some hc, stageObjs_some (List.getElem?_set_self hl), stageObjs_some hc, List.set_set]
        congr 3
        apply Vector.ext
        intro j hj
        simp only [fillBuf, Vector.getElem_ofFn, Fin.getElem_fin]
        by_cases hb : j < cs.length
        · simp [List.getD, hb]
        · have : ¬ j < bs.length := by omega
          simp [List.getD, hb, this]
      | channel ch => simp [stageObjs, hc]
      | servo sv => simp [stageObjs, hc]

section single

variable {i : Instr} {s : State} {d : DevAddr} {via : Option ObjId} {p : Prim} {k : List Byte → Script}
  {r : DeviceRegs}

/-- An operation of one transaction, undisturbed, whose primitive succeeds and raises no fault: three steps,
after which it goes on with the bytes read. -/
theorem runs_single (hready : Ready s) (hs : scriptOf i s = .transact d via p k) (hd : s.device d = some r)
    (ho : s.oracle.drawResult.1 = true) (hr : (s.heldTransfer d p r).2.raised = [])
    (hlen : (s.heldTransfer d p r).1.length = p.inLen) :
    ∃ w, Runs i 3 s (w.enter (k (s.heldTransfer d p r).1) [(s.heldTransfer d p r).1]) ∧
      Leaves s w .free [] (heldTx s.turn d p.kind p.out (s.heldTransfer d p r).1 true)
        (devWith s d (s.heldTransfer d p r).2.dev)
        { s.me with
          holding := false
          attempts := 0
          objs := stageObjs s.me.objs via (p.out ++ (s.heldTransfer d p r).1)
          phase := .release [] (.ok (s.heldTransfer d p r).1) } ∧
      w.oracle = (s.heldTransfer d p r).2.oracle := by
  have lv := (Leaves.refl s).enter_transact d via p k []
  have hv : SameView s (s.enter (.transact d via p k) []) := lv.sameView rfl (stageObjs_bare ..)
  have he := exec_start hready.idle hs rfl
  have ht : (s.enter (.transact d via p k) []).heldTransfer d p r = s.heldTransfer d p r := by
    simp [State.heldTransfer, lv.params, lv.turn]
  obtain ⟨w, h1, lw, ow⟩ := runs_transact (i := i) (u := s.enter (.transact d via p k) []) (rs := []) (d := d)
    (via := via) (p := p) (k := k) (r := r) (by rw [lv.me]) (by rw [hv.scriptOf, hs]; rfl)
    (by rw [lv.lock]; exact hready.free) (by rw [lv.devices]; exact hd)
    (by simpa using ho) (by rw [ht]; exact hr)
  rw [ht] at h1 lw ow
  refine ⟨w, h1.of_exec_eq he, ?_, ow⟩
  have l2 := lv.trans lw
  refine ⟨l2.params, l2.lock, fun e => ?_, by simpa using l2.faults, l2.refused, ?_, l2.turn, ?_, l2.others⟩
  · rw [l2.devices]; simp only [devWith, lv.devices]
  · simpa [lv.turn] using l2.history
  · rw [l2.me, lv.me]
    simp only [AgentState.mk.injEq, true_and]
    rw [stageObjs_idem _ _ _ _ (by simp [builtBuf, hlen])]
    simp

end single

/-! ### The ends of an operation -/

theorem Leaves.enter_done_none {s t : State} {l fs evs dev me} (h : Leaves s t l fs evs dev me)
    (rs : List (List Byte)) : Leaves s (t.enter (.done .none) rs) l fs evs dev me.advanced :=
  h.updMe fun a => { a with pc := a.pc + 1, phase := .idle }

theorem Leaves.enter_done_result {s t : State} {l fs evs dev me} (h : Leaves s t l fs evs dev me)
    (dst : Option Name) (v : Value) (rs : List (List Byte)) :
    Leaves s (t.enter (.done (.result dst v)) rs) l fs evs dev (me.advanced.bound dst v) :=
  (h.updMe fun a => { a with results := bindName a.results dst v }).updMe
    fun a => { a with pc := a.pc + 1, phase := .idle }

theorem Leaves.guardRelease {s t : State} {l fs evs dev me} (h : Leaves s t l fs evs dev me)
    (hl : l ≠ .held s.turn) : Leaves s t.guardRelease l fs evs dev me := by
  rw [State.guardRelease_of_not_mine (by rw [h.lock, h.turn]; exact hl)]; exact h

theorem Leaves.enter_raise {s t : State} {l fs evs dev me} (h : Leaves s t l fs evs dev me)
    (hl : l ≠ .held s.turn) (e : ErrorCode) (rs : List (List Byte)) :
    Leaves s (t.enter (.raise e) rs) l fs evs dev (me.halted (.errored e)) :=
  (h.guardRelease hl).updMe fun a => { a with status := .errored e, phase := .idle }

theorem Leaves.enter_fault {s t : State} {l fs evs dev me} (h : Leaves s t l fs evs dev me)
    (hl : l ≠ .held s.turn) (f : ModelFault) (rs : List (List Byte)) :
    Leaves s (t.enter (.fault f) rs) l (fs ++ [f]) evs dev (me.halted .faulted) :=
  ((h.addFaults [f]).guardRelease hl).updMe fun a => { a with status := .faulted, phase := .idle }

theorem Leaves.enter_faultDone {s t : State} {l fs evs dev me} (h : Leaves s t l fs evs dev me)
    (hl : l ≠ .held s.turn) (f : ModelFault) (rs : List (List Byte)) :
    Leaves s (t.enter (.faultDone f) rs) l (fs ++ [f]) evs dev (me.advanced.halted .faulted) :=
  (((h.updMe AgentState.advanced).addFaults [f]).guardRelease hl).updMe
    fun a => { a with status := .faulted, phase := .idle }

/-- A refusal where the agent does not hold the lock (R248). -/
theorem State.refuseOp_of_not_mine {s : State} (h : s.lock ≠ .held s.turn) :
    s.refuseOp = s.setRefused.updMe fun a => a.halted .refused := by
  unfold State.refuseOp
  rw [State.guardRelease_of_not_mine (s := s.setRefused) h]; rfl

/-! ### Operands -/

theorem withLive_live {s : State} {i : ObjId} {ctl : Controller} (h : s.object i = some (.controller ctl))
    (hl : ctl.live = true) (k : Controller → Script) : withLive s i k = k ctl := by simp [withLive, h, hl]

theorem OwnsCtrl.withCtrl {s : State} {c : ObjRef} {ci : ObjId} {ctl : Controller} (h : OwnsCtrl s c ci ctl)
    (k : ObjId → Controller → Script) : withCtrl s c k = k ci ctl := by
  simp [Machine.withCtrl, h.named, withLive_live h.object h.live]

theorem OwnsChan.withChan {s : State} {c : ObjRef} {hi : ObjId} {h : Channel} {ctl : Controller}
    (o : OwnsChan s c hi h ctl) (k : ObjId → Channel → Controller → Script) : withChan s c k = k hi h ctl := by
  simp [Machine.withChan, o.named, withHandle, o.object, withLive_live o.controller o.live]

theorem OwnsServo.withServo {s : State} {c : ObjRef} {si : ObjId} {sv : Servo} {h : Channel} {ctl : Controller}
    (o : OwnsServo s c si sv h ctl) (k : ObjId → Servo → Channel → Controller → Script) :
    withServo s c k = k si sv h ctl := by
  simp [Machine.withServo, o.named, o.object, withHandle, o.channel, withLive_live o.controller o.live]

theorem withNum_operand {s : State} {x y : Num} (h : Num.operand s.params.arith x = some y) (k : Num → Script) :
    withNum s x k = k y := by simp [withNum, h]

/-- An object keeps its name in a state of the same view. -/
theorem SameView.ownsCtrl {s t : State} (h : SameView s t) {c : ObjRef} {ci : ObjId} {ctl : Controller}
    (o : OwnsCtrl s c ci ctl) : ∃ b, OwnsCtrl t c ci { ctl with buf := b } := by
  obtain ⟨b, hb⟩ := h.object_controller o.object
  exact ⟨b, (h.resolve c).trans o.named, hb, o.live⟩

/-! ### The device side of the shared transactions -/

section shapes

variable {s : State} {d : DevAddr} {r : DeviceRegs}

/-- The transfer of a successful primitive. -/
theorem State.heldTransfer_ok (ho : s.oracle.drawResult.1 = true) (p : Prim) :
    s.heldTransfer d p r =
      (Bus.write s.params s.turn d p.out ⟨r, s.oracle.drawResult.2, []⟩).readBytes s.params p.inLen := by
  simp [State.heldTransfer, Bus.transfer, ho]

/-- A get of a span outside MODE1. -/
theorem State.heldTransfer_get (ho : s.oracle.drawResult.1 = true) {a : Byte} {n : Nat} (h : offMode1 a n) :
    s.heldTransfer d (Prim.writeRead [a] n) r =
      (bytesAt (r.adv s.params) r a n, ⟨r.setPtr (ptrAfter (r.adv s.params) a n), s.oracle.drawResult.2, []⟩) := by
  rw [State.heldTransfer_ok ho]
  exact Bus.readBytes_span s.params n (r.setPtr a) _ _ h

/-- A get of MODE1. -/
theorem State.heldTransfer_mode1 (ho : s.oracle.drawResult.1 = true) :
    s.heldTransfer d (Prim.writeRead [regMode1] 1) r =
      ([mode1ReadValue s.params (r.read regMode1) s.oracle.drawResult.2.drawByte.1],
        ⟨r.setPtr (nextPtr s.params (r.read regMode1) regMode1), s.oracle.drawResult.2.drawByte.2, []⟩) := by
  rw [State.heldTransfer_ok ho]
  exact Bus.readBytes_mode1 s.params (r.setPtr regMode1) _ _ rfl

/-- A set of a span outside MODE1 and PRESCALE. -/
theorem State.heldTransfer_set (ho : s.oracle.drawResult.1 = true) {a : Byte} {data : List Byte}
    (h : plainSpan a data.length) (hl : data.length ≤ 256) :
    ∃ q, s.heldTransfer d (Prim.write (a :: data)) r = ([], ⟨q, s.oracle.drawResult.2, []⟩) ∧
      q.wake = r.wake ∧ q.ptr = ptrAfter (r.adv s.params) a data.length ∧
      ∀ x, q.read x = storedAt (r.adv s.params) r a data x := by
  rw [State.heldTransfer_ok ho]
  obtain ⟨q, e, h2⟩ := Bus.write_span s.params s.turn d a data r s.oracle.drawResult.2 [] h hl
  exact ⟨q, by simp only [Prim.write]; rw [e]; rfl, h2⟩

/-- A set of MODE1 that raises no fault. -/
theorem State.heldTransfer_set_mode1 (ho : s.oracle.drawResult.1 = true) {v : Byte}
    (h : restartTooEarly s.params s.turn v r.wake = false) :
    s.heldTransfer d (Prim.write [regMode1, v]) r =
      ([], ⟨((r.write regMode1 v).setPtr (nextPtr s.params v regMode1)).setWake
        (wakeAfter s.params (r.read regMode1) v r.wake), s.oracle.drawResult.2, []⟩) := by
  rw [State.heldTransfer_ok ho]
  simp only [Prim.write]
  rw [Bus.write_mode1, h]; rfl

/-- A set of MODE1 to 0 raises no fault. -/
theorem restartTooEarly_zero (P : Params) (g : AgentId) (w : Option (List AgentId)) :
    restartTooEarly P g 0x00 w = false := by simp [restartTooEarly, restartSet]

/-- A set of PRESCALE in sleep. -/
theorem State.heldTransfer_set_prescale (ho : s.oracle.drawResult.1 = true) {v : Byte}
    (h : sleepSet s.params (r.read regMode1) = true) :
    s.heldTransfer d (Prim.write [regPrescale, v]) r =
      ([], ⟨(r.write regPrescale v).setPtr (nextPtr s.params (r.read regMode1) regPrescale),
        s.oracle.drawResult.2, []⟩) := by
  rw [State.heldTransfer_ok ho]
  simp only [Prim.write]
  rw [Bus.write_prescale _ _ _ _ _ _ h]; rfl

/-- A set of MODE2. -/
theorem State.heldTransfer_set_mode2 (ho : s.oracle.drawResult.1 = true) {v : Byte} :
    s.heldTransfer d (Prim.write [regMode2, v]) r =
      ([], ⟨(r.write regMode2 v).setPtr (nextPtr s.params (r.read regMode1) regMode2),
        s.oracle.drawResult.2, []⟩) := by
  rw [State.heldTransfer_ok ho]
  simp only [Prim.write]
  rw [Bus.write_plain1 _ _ _ (by decide) (by decide)]; rfl

theorem plainSpan_one {a : Byte} (h1 : a ≠ regMode1) (h2 : a ≠ regPrescale) : plainSpan a 1 := fun k hk => by
  obtain rfl : k = 0 := by omega
  simpa using ⟨h1, h2⟩

theorem plainSpan_led (n : Fin 16) : plainSpan (ledAddr n) 4 := by
  revert n
  unfold plainSpan
  decide

end shapes

end Sys2Proof.Machine
end

