-- ==== Sys2Proof/Laws/Step.lean ====
section
/-! SUPPORT. What a step can do, said once: the cases of a step inside an operation, the part of the state it can
touch, what it does to the lock, and that it keeps the memory canonical. -/

namespace Sys2Proof.Machine

open Sys2Proof

/-! ### The cases of a step -/

/-- The steps inside an operation (R66, R122, R124, R126, R283). -/
inductive ExecCase (i : Instr) (s t : State) : Prop where
  | start (hp : s.me.phase = .idle) (ht : t = (s.enter (scriptOf i s) []).attempt (scriptOf i s) [])
  | attempt (rs : List (List Byte)) (n : Script) (hp : s.me.phase = .acquire rs)
      (hn : (scriptOf i s).resume rs = some n) (hl : n.locks.isSome = true) (ht : t = s.attempt n rs)
  | body (rs : List (List Byte)) (d : DevAddr) (via : Option ObjId) (p : Prim) (k : List Byte → Script)
      (hp : s.me.phase = .body rs) (hn : (scriptOf i s).resume rs = some (.transact d via p k))
      (ht : t = s.bodyStep d via p rs)
  | probeWrite (rs : List (List Byte)) (d : DevAddr) (k : Script) (hp : s.me.phase = .body rs)
      (hn : (scriptOf i s).resume rs = some (.probe d k)) (ht : t = s.probeWriteStep d rs)
  | probeRead (rs : List (List Byte)) (d : DevAddr) (k : Script) (hp : s.me.phase = .probeRead rs)
      (hn : (scriptOf i s).resume rs = some (.probe d k)) (ht : t = s.probeReadStep d rs)
  | release (rs : List (List Byte)) (how : BodyEnd) (d : DevAddr) (via : Option ObjId) (p : Prim)
      (k : List Byte → Script) (hp : s.me.phase = .release rs how)
      (hn : (scriptOf i s).resume rs = some (.transact d via p k)) (ht : t = s.releaseStep d k rs how)
  | releaseProbe (rs : List (List Byte)) (how : BodyEnd) (d : DevAddr) (k : Script)
      (hp : s.me.phase = .release rs how) (hn : (scriptOf i s).resume rs = some (.probe d k))
      (ht : t = s.releaseStep d (fun _ => k) rs how)
  | wait (rs : List (List Byte)) (ms : Rat) (k : Script) (hp : s.me.phase = .wait rs)
      (hn : (scriptOf i s).resume rs = some (.delay ms k)) (ht : t = (s.delay ms).enter k (rs ++ [[]]))

theorem exec_cases {i : Instr} {s t : State} (h : exec i s = .next t) : ExecCase i s t := by
  rw [exec_eq_runScript, runScript] at h
  split at h
  · rename_i hp; injection h with h; exact .start hp h.symm
  · rename_i rs hp
    split at h
    · rename_i n hn
      split at h
      · rename_i hl; injection h with h; exact .attempt rs n hp hn hl h.symm
      · simp at h
    · simp at h
  · rename_i rs hp
    split at h
    · rename_i hn; injection h with h; exact .body rs _ _ _ _ hp hn h.symm
    · rename_i hn; injection h with h; exact .probeWrite rs _ _ hp hn h.symm
    · simp at h
  · rename_i rs hp
    split at h
    · rename_i hn; injection h with h; exact .probeRead rs _ _ hp hn h.symm
    · simp at h
  · rename_i rs how hp
    split at h
    · rename_i hn; injection h with h; exact .release rs how _ _ _ _ hp hn h.symm
    · rename_i hn; injection h with h; exact .releaseProbe rs how _ _ hp hn h.symm
    · simp at h
  · rename_i rs hp
    split at h
    · rename_i hn; injection h with h; exact .wait rs _ _ hp hn h.symm
    · simp at h

/-! ### What an agent does to itself -/

/-- The place of an agent: everything of it but its objects, names, results and counted attempts. -/
def AgentState.place (a : AgentState) : List Slot × Nat × Status × Bool × Phase :=
  (a.prog, a.pc, a.status, a.holding, a.phase)

/-- The effect of an operation that is done touches only the agent's objects, names and results, and the free
choices. -/
theorem State.applyEffect_leaves (s : State) (eff : Effect) :
    ∃ me, Leaves s (s.applyEffect eff) s.lock [] [] s.device me ∧ me.place = s.me.place := by
  have refl := Leaves.refl s
  cases eff with
  | none => exact ⟨_, refl, rfl⟩
  | result dst v => exact ⟨_, refl.updMe fun a => { a with results := bindName a.results dst v }, rfl⟩
  | newController dst addr ref =>
    have : Leaves s (s.setOracle (s.oracle.drawBytes 5).2) s.lock [] [] s.device s.me :=
      ⟨rfl, rfl, fun _ => rfl, by simp, rfl, by simp, rfl, rfl, fun _ _ => rfl⟩
    exact ⟨_, this.updMe fun a => { a with
      objs := a.objs ++ [.controller
        { devAddr := addr, refClk := ref, live := true, chan := Vector.replicate 16 none,
          buf := fillBuf (Vector.replicate 5 0) (s.oracle.drawBytes 5).1 }]
      names := bindName a.names dst a.objs.length }, rfl⟩
  | lookup dst c n =>
    simp only [State.applyEffect]
    split
    · rename_i ctl _
      split
      · rename_i ch _
        exact ⟨_, refl.updMe fun a => { a with names := bindName a.names dst ch }, rfl⟩
      · exact ⟨_, (refl.updMe fun a => { a with objs := a.objs.set c (.controller
            { ctl with chan := ctl.chan.set n (some s.me.objs.length) }) }).updMe fun a => { a with
          objs := a.objs ++ [.channel { controller := c, index := n }]
          names := bindName a.names dst a.objs.length }, rfl⟩
    · exact ⟨_, refl, rfl⟩
  | deinit c =>
    simp only [State.applyEffect]
    split
    · rename_i ctl _
      exact ⟨_, refl.updMe fun a => { a with objs := a.objs.set c (.controller { ctl with live := false }) }, rfl⟩
    · exact ⟨_, refl, rfl⟩
  | newServo dst sv =>
    exact ⟨_, refl.updMe fun a => { a with
      objs := a.objs ++ [.servo sv], names := bindName a.names dst a.objs.length }, rfl⟩
  | calibrate j p0 p1 md dr =>
    simp only [State.applyEffect]
    split
    · rename_i sv _
      exact ⟨_, refl.updMe fun a => { a with objs := a.objs.set j (.servo
        { sv with minPulseUs := p0, maxPulseUs := p1, minDuty := md, dutyRange := dr }) }, rfl⟩
    · exact ⟨_, refl, rfl⟩

/-! ### What a step does to the machine -/

/-- What a step of the stepping agent can change (R10, R29, R30, R70, R78). -/
structure OwnFrame (s t : State) : Prop where
  params : t.params = s.params
  turn : t.turn = s.turn
  others : ∀ g, g ≠ s.turn → t.agent g = s.agent g
  prog : t.me.prog = s.me.prog
  pc : t.me.pc = s.me.pc ∨ t.me.pc = s.me.pc + 1
  history : ∃ evs, t.history = s.history ++ evs
  faults : ∀ f, f ∈ s.faults → f ∈ t.faults
  refused : s.refused = true → t.refused = true
  devices : ∀ d, (t.device d).isSome = (s.device d).isSome

/-- What a step of the stepping agent does to the lock (R120, R121, R130): it leaves it, takes a free one, frees
it, or stops without holding it. -/
inductive LockCase (s t : State) : Prop where
  | keep (lock : t.lock = s.lock) (holding : t.me.holding = s.me.holding) (status : t.me.status = s.me.status)
      (phase : t.me.phase.inHold = true → s.me.phase.inHold = true)
  | take (free : s.lock = .free) (lock : t.lock = .held s.turn) (holding : t.me.holding = true)
      (status : t.me.status = s.me.status)
  | drop (lock : t.lock = .free) (holding : t.me.holding = false) (phase : t.me.phase.inHold = false)
      (mine : s.lock = .held s.turn ∨ ModelFault.unbalancedRelease s.turn ∈ t.faults)
  | stop (notMine : s.lock ≠ .held s.turn) (lock : t.lock = s.lock) (holding : t.me.holding = s.me.holding)
      (phase : t.me.phase.inHold = false)

/-- The events of a step record no acquire of a lock that is held (R123). -/
def NoHeldAcquire (s t : State) : Prop :=
  s.lock ≠ .free → ∃ evs, t.history = s.history ++ evs ∧ ∀ g, Event.acquire g ∉ evs

/-- All three. -/
structure StepShape (s t : State) : Prop where
  own : OwnFrame s t
  lock : LockCase s t
  events : NoHeldAcquire s t

theorem OwnFrame.of_leaves {s t : State} {l fs evs dev me} (h : Leaves s t l fs evs dev me)
    (hp : me.prog = s.me.prog) (hc : me.pc = s.me.pc ∨ me.pc = s.me.pc + 1)
    (hd : ∀ d, (dev d).isSome = (s.device d).isSome) : OwnFrame s t where
  params := h.params
  turn := h.turn
  others := h.others
  prog := by rw [h.me, hp]
  pc := by rw [h.me]; exact hc
  history := ⟨_, h.history⟩
  faults f hf := (h.faults f).mpr (.inl hf)
  refused hr := by rw [h.refused, hr]
  devices d := by rw [h.devices, hd]

theorem NoHeldAcquire.of_leaves {s t : State} {l fs evs dev me} (h : Leaves s t l fs evs dev me)
    (hev : ∀ g, Event.acquire g ∉ evs) : NoHeldAcquire s t := fun _ => ⟨evs, h.history, hev⟩

theorem place_eq {a b : AgentState} (h : a.place = b.place) :
    a.prog = b.prog ∧ a.pc = b.pc ∧ a.status = b.status ∧ a.holding = b.holding ∧ a.phase = b.phase := by
  simpa [AgentState.place] using h

/-- An agent that stops: the scope guard has released a lock it held (R130). -/
theorem StepShape.of_stop {s t : State} {l fs evs dev me} (h : Leaves s t l fs evs dev me) (st : Status)
    (hl : l = s.lock) (hp : me.prog = s.me.prog) (hc : me.pc = s.me.pc ∨ me.pc = s.me.pc + 1)
    (hh : me.holding = s.me.holding) (hd : ∀ d, (dev d).isSome = (s.device d).isSome)
    (hev : ∀ g, Event.acquire g ∉ evs) : StepShape s (t.guardRelease.stopWith st) := by
  by_cases hm : s.lock = .held s.turn
  · have lv := (h.unlock).updMe fun a => { a with status := st, phase := .idle }
    have e : t.guardRelease = t.unlock := State.guardRelease_of_mine (by rw [h.lock, h.turn, hl, hm])
    rw [e]
    refine ⟨OwnFrame.of_leaves lv hp hc hd, .drop lv.lock ?_ ?_ (.inl hm), NoHeldAcquire.of_leaves lv ?_⟩
    · rw [State.stopWith_eq, lv.me]
    · rw [State.stopWith_eq, lv.me]; rfl
    · simpa using hev
  · have lv := (h.guardRelease (by rw [hl]; exact hm)).updMe fun a => { a with status := st, phase := .idle }
    refine ⟨OwnFrame.of_leaves lv hp hc hd, .stop hm (by rw [← hl]; exact lv.lock) ?_ ?_, NoHeldAcquire.of_leaves lv hev⟩
    · rw [State.stopWith_eq, lv.me]; exact hh
    · rw [State.stopWith_eq, lv.me]; rfl

theorem StepShape.of_refusal {s t : State} (h : StepShape s.setRefused t) (hr : t.refused = true) : StepShape s t := by
  obtain ⟨o, l, e⟩ := h
  refine ⟨⟨o.params, o.turn, o.others, o.prog, o.pc, o.history, o.faults, fun _ => hr, o.devices⟩, ?_, e⟩
  cases l with
  | keep a b c d => exact .keep a b c d
  | take a b c d => exact .take a b c d
  | drop a b c d => exact .drop a b c d
  | stop a b c d => exact .stop a b c d

theorem State.refuseOp_shape (s : State) : StepShape s s.refuseOp := by
  refine StepShape.of_refusal (StepShape.of_stop (Leaves.refl s.setRefused) .refused rfl rfl (.inl rfl) rfl
    (fun _ => rfl) (by simp)) ?_
  simp [State.refuseOp]

theorem State.endProgram_shape (s : State) : StepShape s s.endProgram :=
  StepShape.of_stop (Leaves.refl s) .ended rfl rfl (.inl rfl) rfl (fun _ => rfl) (by simp)

/-- A step that comes to a script that does not begin with an acquire, from a state that a step of the agent has
led to with the lock as `s` has it. -/
theorem StepShape.of_enter {s t : State} {fs evs dev me} (h : Leaves s t s.lock fs evs dev me)
    (hp : me.prog = s.me.prog) (hc : me.pc = s.me.pc) (hh : me.holding = s.me.holding)
    (hst : me.status = s.me.status)
    (hd : ∀ d, (dev d).isSome = (s.device d).isSome) (hev : ∀ g, Event.acquire g ∉ evs)
    (sc : Script) (rs : List (List Byte)) : StepShape s (t.enter sc rs) := by
  have keep : ∀ {u : State} {me' : AgentState}, Leaves s u s.lock fs evs dev me' → me'.prog = s.me.prog →
      (me'.pc = s.me.pc ∨ me'.pc = s.me.pc + 1) → me'.holding = s.me.holding → me'.status = s.me.status →
      me'.phase.inHold = false → StepShape s u := fun lv a b c e f =>
    ⟨OwnFrame.of_leaves lv a b hd, .keep lv.lock (by rw [lv.me, c]) (by rw [lv.me, e])
      (by rw [lv.me, f]; simp), NoHeldAcquire.of_leaves lv hev⟩
  cases sc with
  | done eff =>
    obtain ⟨m, le, pe⟩ := t.applyEffect_leaves eff
    obtain ⟨p1, p2, p3, p4, p5⟩ := place_eq pe
    have lv : Leaves s (t.applyEffect eff) s.lock fs evs dev m := by
      have := h.trans le
      refine ⟨this.params, by rw [this.lock, h.lock], fun d => by rw [this.devices, h.devices],
        by simpa using this.faults, this.refused, by simpa using this.history, this.turn, this.me, this.others⟩
    refine keep (lv.updMe fun a => { a with pc := a.pc + 1, phase := .idle }) ?_ ?_ ?_ ?_ rfl
    · exact p1.trans (by rw [h.me, hp])
    · exact .inr (by show m.pc + 1 = _; rw [p2, h.me, hc])
    · exact p4.trans (by rw [h.me, hh])
    · exact p3.trans (by rw [h.me, hst])
  | raise e => exact StepShape.of_stop h _ rfl hp (.inl hc) hh hd hev
  | fault f => exact StepShape.of_stop (h.addFaults [f]) _ rfl hp (.inl hc) hh hd hev
  | faultDone f =>
    exact StepShape.of_stop ((h.updMe AgentState.advanced).addFaults [f]) _ rfl hp
      (.inr (congrArg (· + 1) hc)) hh hd hev
  | refuse =>
    have hr : Leaves s.setRefused t.setRefused s.lock fs evs dev me :=
      ⟨h.params, h.lock, h.devices, h.faults, rfl, h.history, h.turn, h.me, h.others⟩
    refine StepShape.of_refusal (StepShape.of_stop hr .refused rfl hp (.inl hc) hh hd hev) ?_
    simp [State.enter, State.refuseOp]
  | tryLock dst =>
    simp only [State.enter, State.tryLockOp, State.lockFree]
    by_cases hf : t.lock = .free
    · have hsf : s.lock = .free := by rw [← h.lock]; exact hf
      simp only [hf, decide_true, if_true]
      refine ⟨⟨h.params, h.turn, fun g hg => ?_, ?_, ?_, ⟨evs ++ [.acquire t.turn], ?_⟩, fun f hf => ?_, fun hr => ?_, fun d => ?_⟩,
        .take hsf ?_ ?_ ?_, fun hn => absurd hsf hn⟩
      · have hg' : g ≠ t.turn := h.turn ▸ hg
        simp [State.updMe_agent, hg', h.others g hg]
      · simp [h.me, hp]
      · simp [h.me, hc]
      · simp [h.history]
      · exact (h.faults f).mpr (.inl hf)
      · exact h.refused.trans hr
      · exact (congrArg Option.isSome (h.devices d)).trans (hd d)
      · simp [h.turn]
      · simp
      · simp [h.me, hst]
    · simp only [hf, decide_false, Bool.false_eq_true, if_false]
      exact keep ((h.updMe fun a => { a with results := bindName a.results dst (.bool false) }).updMe
        fun a => { a with pc := a.pc + 1, phase := .idle }) hp (.inr (by simp [hc])) hh hst rfl
  | unlock =>
    simp only [State.enter, State.unlockOp]
    by_cases hm : s.lock = .held s.turn
    · have hm' : t.lockMine = true := by simp [State.lockMine, h.lock, h.turn, hm]
      simp only [hm', if_true]
      have lv := h.unlock.updMe fun a => { a with pc := a.pc + 1, phase := .idle }
      exact ⟨OwnFrame.of_leaves lv hp (.inr (by simp [hc])) hd,
        .drop lv.lock (by rw [State.finish_eq, lv.me]) (by rw [State.finish_eq, lv.me]; rfl) (.inl hm),
        NoHeldAcquire.of_leaves lv (by simpa using hev)⟩
    · have hm' : t.lockMine = false := by simp [State.lockMine, h.lock, h.turn, hm]
      simp only [hm', Bool.false_eq_true, if_false]
      have lv := (((h.unlock.updMe fun a => { a with pc := a.pc + 1, phase := .idle }).addFaults
        [.unbalancedRelease t.turn]).guardRelease (by simp)).updMe
          fun a => { a with status := .faulted, phase := .idle }
      refine ⟨OwnFrame.of_leaves lv hp (.inr (by simp [hc])) hd,
        .drop lv.lock ?_ ?_ (.inr ((lv.faults _).mpr (.inr ?_))), NoHeldAcquire.of_leaves lv (by simpa using hev)⟩
      · exact congrArg AgentState.holding lv.me
      · exact congrArg (fun a => a.phase.inHold) lv.me
      · simp [h.turn]
  | acquire d => exact keep (h.enter_acquire d rs) hp (.inl hc) hh hst rfl
  | transact d via p k => exact keep (h.enter_transact d via p k rs) hp (.inl hc) hh hst rfl
  | probe d k => exact keep (h.enter_probe d k rs) hp (.inl hc) hh hst rfl
  | delay ms k => exact keep (h.enter_delay ms k rs) hp (.inl hc) hh hst rfl

/-- An attempt to take the lock. -/
theorem StepShape.of_attempt {s t : State} {me} (h : Leaves s t s.lock [] [] s.device me)
    (hp : me.prog = s.me.prog) (hc : me.pc = s.me.pc) (hh : me.holding = s.me.holding)
    (hst : me.status = s.me.status) (hph : me.phase.inHold = false) (sc : Script)
    (rs : List (List Byte)) (hl : sc.locks.isSome = true) : StepShape s (t.attempt sc rs) := by
  obtain ⟨d, hd⟩ := Option.isSome_iff_exists.mp hl
  simp only [State.attempt, hd]
  by_cases hf : t.lock = .free
  · have hsf : s.lock = .free := by rw [← h.lock]; exact hf
    have ht : ∀ u : State, (∃ f : AgentState → AgentState, u = t.takeLock.updMe f ∧
        (∀ a, (f a).prog = a.prog ∧ ((f a).pc = a.pc ∨ (f a).pc = a.pc + 1) ∧ (f a).holding = a.holding ∧
          (f a).status = a.status)) → StepShape s u := by
      rintro u ⟨f, rfl, hfa⟩
      obtain ⟨f1, f2, f3, f4⟩ := hfa t.takeLock.me
      refine ⟨⟨h.params, h.turn, fun g hg => ?_, ?_, ?_, ⟨[.acquire t.turn], ?_⟩, fun f hf => ?_, fun hr => ?_,
        fun d => ?_⟩, .take hsf ?_ ?_ ?_, fun hn => absurd hsf hn⟩
      · have hg' : g ≠ t.turn := h.turn ▸ hg
        simp [State.updMe_agent, hg', h.others g hg]
      · rw [State.updMe_me, f1]; simp [h.me, hp]
      · rw [State.updMe_me]; simpa [h.me, hc] using f2
      · simpa using h.history
      · exact (h.faults f).mpr (.inl hf)
      · exact h.refused.trans hr
      · exact congrArg Option.isSome (h.devices d)
      · simp [h.turn]
      · rw [State.updMe_me, f3]; simp
      · rw [State.updMe_me, f4]; simp [h.me, hst]
    simp only [State.lockFree, hf, decide_true, if_true]
    split
    · exact ht _ ⟨_, rfl, fun a => ⟨rfl, .inr rfl, rfl, rfl⟩⟩
    · exact ht _ ⟨_, rfl, fun a => ⟨rfl, .inl rfl, rfl, rfl⟩⟩
  · simp only [State.lockFree, hf, decide_false, Bool.false_eq_true, if_false, State.failedAttempt]
    have lv := h.updMe fun a => { a with attempts := t.me.attempts + 1 }
    split
    · exact StepShape.of_stop lv _ rfl hp (.inl hc) hh (fun _ => rfl) (by simp)
    · exact ⟨OwnFrame.of_leaves lv hp (.inl hc) fun _ => rfl,
        .keep lv.lock (by rw [State.setAttempts_eq, lv.me]; exact hh) (by rw [State.setAttempts_eq, lv.me]; exact hst)
          (by rw [State.setAttempts_eq, lv.me]; simp [hph]), NoHeldAcquire.of_leaves lv (by simp)⟩

/-- A primitive: the event of the transfer, the device's registers, the faults it raises. -/
theorem State.transfer_leaves (s : State) (d : DevAddr) (p : Prim) :
    ∃ ev dev, Leaves s (s.transfer d p).state s.lock [] [ev] dev s.me ∧ (∀ g, ev ≠ .acquire g) ∧
      ∀ e, (dev e).isSome = (s.device e).isSome := by
  cases h : s.device d with
  | none => exact ⟨_, _, Leaves.transfer_absent h, by simp, fun _ => rfl⟩
  | some r =>
    refine ⟨_, _, Leaves.transfer_present h, by simp, fun e => ?_⟩
    unfold devWith
    split
    · rename_i he; rw [he, h]; rfl
    · rfl

/-- The step of a primitive. -/
theorem StepShape.of_prim {s t : State} {ev dev me} (h : Leaves s t s.lock [] [ev] dev me)
    (hev : ∀ g, ev ≠ .acquire g) (hd : ∀ e, (dev e).isSome = (s.device e).isSome)
    (hp : me.prog = s.me.prog) (hc : me.pc = s.me.pc) (hh : me.holding = s.me.holding)
    (hst : me.status = s.me.status) (hph : s.me.phase.inHold = true) (raised : List ModelFault) (next : Phase) :
    StepShape s (t.afterPrim raised next) := by
  have hev' : ∀ g, Event.acquire g ∉ [ev] := fun g => by simpa using (hev g).symm
  unfold State.afterPrim
  split
  · have lv := h.updMe fun a => { a with phase := next }
    exact ⟨OwnFrame.of_leaves lv hp (.inl hc) hd, .keep lv.lock (by rw [State.setPhase_eq, lv.me]; exact hh)
      (by rw [State.setPhase_eq, lv.me]; exact hst) (fun _ => hph), NoHeldAcquire.of_leaves lv hev'⟩
  · exact StepShape.of_stop (h.addFaults raised) _ rfl hp (.inl hc) hh hd hev'

/-! ### The scripts of operations -/

/-- The model faults that an operation finds in its objects (R168, R213). -/
def ModelFault.ofObject (f : ModelFault) : Bool :=
  match f with
  | .zeroDutyRange _ _ => true
  | .useAfterDeinit _ _ => true
  | _ => false

/-- A script of local checks, lock holds and delays: it takes and frees no lock of its own, and the effect it ends
with meets `Q`. -/
inductive Script.Later (Q : Effect → Prop) : Script → Prop where
  | done (eff : Effect) (h : Q eff) : Later Q (.done eff)
  | raise (e : ErrorCode) : Later Q (.raise e)
  | fault (f : ModelFault) (h : f.ofObject = true) : Later Q (.fault f)
  | faultDone (f : ModelFault) (h : f.ofObject = true) : Later Q (.faultDone f)
  | refuse : Later Q .refuse
  | transact (d : DevAddr) (via : Option ObjId) (p : Prim) (k : List Byte → Script) (h : ∀ bs, Later Q (k bs)) :
      Later Q (.transact d via p k)
  | probe (d : DevAddr) (k : Script) (h : Later Q k) : Later Q (.probe d k)
  | delay (ms : Rat) (k : Script) (h : Later Q k) : Later Q (.delay ms k)

/-- The effects an operation can end with: a calibration only of its own operand, by `SERVO_SET_PULSE_RANGE`
(R211, R212). -/
def mayEnd (i : Instr) (s : State) (eff : Effect) : Prop :=
  match eff with
  | .calibrate j _ _ _ _ => ∃ r min max, i = .servoSetPulseRange r min max ∧ s.resolve r = some j
  | _ => True

section later

variable {Q : Effect → Prop}

/-- A script of an operation: a lock operation of one step, or lock holds and delays. -/
inductive Script.Proper (Q : Effect → Prop) : Script → Prop where
  | later (sc : Script) (h : sc.Later Q) : Proper Q sc
  | tryLock (dst : Option Name) : Proper Q (.tryLock dst)
  | unlock : Proper Q .unlock
  | acquire (d : DevAddr) : Proper Q (.acquire d)

theorem Script.Later.withLive {s : State} {i : ObjId} {k : Controller → Script} (h : ∀ c, (k c).Later Q) :
    (withLive s i k).Later Q := by
  unfold Machine.withLive
  split
  · split
    · exact h _
    · exact .fault _ rfl
  · exact .refuse

theorem Script.Later.withCtrl {s : State} {r : ObjRef} {k : ObjId → Controller → Script}
    (h : ∀ i c, (k i c).Later Q) : (withCtrl s r k).Later Q := by
  unfold Machine.withCtrl
  split
  · exact .withLive (h _)
  · exact .refuse

theorem Script.Proper.withCtrl {s : State} {r : ObjRef} {k : ObjId → Controller → Script}
    (h : ∀ i c, (k i c).Proper Q) : (withCtrl s r k).Proper Q := by
  unfold Machine.withCtrl
  split
  · unfold Machine.withLive
    split
    · split
      · exact h _ _
      · exact .later _ (.fault _ rfl)
    · exact .later _ .refuse
  · exact .later _ .refuse

theorem Script.Later.withHandle {s : State} {i : ObjId} {k : Channel → Controller → Script}
    (h : ∀ ch c, (k ch c).Later Q) : (withHandle s i k).Later Q := by
  unfold Machine.withHandle
  split
  · exact .withLive (h _)
  · exact .refuse

theorem Script.Later.withChan {s : State} {r : ObjRef} {k : ObjId → Channel → Controller → Script}
    (h : ∀ i ch c, (k i ch c).Later Q) : (withChan s r k).Later Q := by
  unfold Machine.withChan
  split
  · exact .withHandle (h _)
  · exact .refuse

theorem Script.Later.withServo {s : State} {r : ObjRef} {k : ObjId → Servo → Channel → Controller → Script}
    (h : ∀ i sv ch c, s.resolve r = some i → (k i sv ch c).Later Q) : (withServo s r k).Later Q := by
  unfold Machine.withServo
  split
  · rename_i hr
    split
    · exact .withHandle fun ch c => h _ _ ch c hr
    · exact .refuse
  · exact .refuse

theorem Script.Later.withNum {s : State} {x : Sys2Proof.Num} {k : Sys2Proof.Num → Script} (h : ∀ y, (k y).Later Q) :
    (withNum s x k).Later Q := by
  unfold Machine.withNum
  split
  · exact h _
  · exact .refuse

theorem Script.Later.require {b : Bool} {sc : Script} (h : sc.Later Q) : (require b sc).Later Q := by
  unfold Machine.require
  split
  · exact h
  · exact .refuse

theorem Script.Later.checkIndex {i n : Int} {sc : Script} (h : sc.Later Q) : (checkIndex i n sc).Later Q := by
  unfold Machine.checkIndex
  split
  · exact h
  · exact .raise _

theorem Script.Later.getFields {d : DevAddr} {via : Option ObjId} {a : Byte} {fs : List Field}
    {k : List Int → Script} (h : ∀ vs, (k vs).Later Q) : (getFields d via a fs k).Later Q :=
  .transact _ _ _ _ fun _ => h _

theorem Script.Later.setFields {d : DevAddr} {via : Option ObjId} {a : Byte} {fs : List Field} {vs : List Int}
    {k : Script} (h : k.Later Q) : (setFields d via a fs vs k).Later Q := by
  unfold Machine.setFields
  split
  · exact .transact _ _ _ _ fun _ => h
  · exact .raise _

theorem Script.Later.getByte {d : DevAddr} {a : Byte} {k : Byte → Script} (h : ∀ b, (k b).Later Q) :
    (getByte d a k).Later Q := .transact _ _ _ _ fun _ => h _

theorem Script.Later.setByte {d : DevAddr} {a v : Byte} {k : Script} (h : k.Later Q) : (setByte d a v k).Later Q :=
  .transact _ _ _ _ fun _ => h

theorem Script.Later.getFreq {P : Params} {c : Controller} {k : Sys2Proof.Num → Script} (h : ∀ f, (k f).Later Q) :
    (getFreq P c k).Later Q := by
  refine .getByte fun b => ?_
  split
  · exact .raise _
  · exact h _

theorem Script.Later.getDuty {P : Params} {ci : ObjId} {c : Controller} {n : Fin 16} {k : Int → Script}
    (h : ∀ v, (k v).Later Q) : (getDuty P ci c n k).Later Q := .getFields fun _ => h _

theorem Script.Later.setDuty {ci : ObjId} {c : Controller} {n : Fin 16} {v : Int} {k : Script} (h : k.Later Q) :
    (setDuty ci c n v k).Later Q := by
  unfold Machine.setDuty
  split
  · exact .setFields h
  · exact .raise _

theorem Script.Later.getFraction {s : State} {i : ObjId} {sv : Servo} {h : Channel} {ctl : Controller}
    {k : Option Sys2Proof.Num → Script} (hk : ∀ x, (k x).Later Q) : (getFraction s i sv h ctl k).Later Q := by
  refine .getDuty fun v => ?_
  split
  · exact hk _
  · split
    · exact .faultDone _ rfl
    · exact hk _

theorem Script.Later.setFraction {P : Params} {sv : Servo} {h : Channel} {ctl : Controller} {v : Sys2Proof.Num} (h0 : Q .none) :
    (setFraction P sv h ctl v).Later Q := by
  unfold Machine.setFraction
  split
  · exact .setDuty (.done _ h0)
  · exact .raise _

end later

/-- The four operations on the lock alone (R120, R121, R122, R125). -/
def lockOp (i : Instr) : Bool :=
  match i with
  | .busTryLock _ _ => true
  | .busUnlock _ => true
  | .lockAcquire _ => true
  | .lockRelease _ => true
  | _ => false

/-- Every other operation's script is local checks, lock holds and delays. -/
theorem scriptOf_later {i : Instr} (s : State) (h : lockOp i = false) : (scriptOf i s).Later (mayEnd i s) := by
  cases i with
  | busTryLock => cases h
  | busUnlock => cases h
  | lockAcquire => cases h
  | lockRelease => cases h
  | busProbe => exact (.withCtrl fun _ _ => .probe _ _ (.done _ trivial))
  | busWrite => exact (.withCtrl fun _ _ => .require (.transact _ _ _ _ fun _ => .done _ trivial))
  | busRead => exact (.withCtrl fun _ _ => .require (.transact _ _ _ _ fun _ => .done _ trivial))
  | busWriteRead => exact (.withCtrl fun _ _ => .require (.transact _ _ _ _ fun _ => .done _ trivial))
  | scalarGet => exact (.withCtrl fun _ _ => .require (.getFields fun _ => .done _ trivial))
  | scalarSet => exact (.withCtrl fun _ _ => .require (.setFields (.done _ trivial)))
  | tupleGet => exact (.withCtrl fun _ _ => .require (.getFields fun _ => .done _ trivial))
  | tupleSet => exact (.withCtrl fun _ _ => .require (.setFields (.done _ trivial)))
  | arrayGet => exact (.withCtrl fun _ _ => .require (.checkIndex (.getFields fun _ => .done _ trivial)))
  | arraySet => exact (.withCtrl fun _ _ => .require (.checkIndex (.setFields (.done _ trivial))))
  | ctrlInit dst addr ref probe =>
    refine (.require (.withNum fun F => .require ?_))
    split
    · exact .probe _ _ (.setByte (.done _ trivial))
    · exact .setByte (.done _ trivial)
  | ctrlReset => exact (.withCtrl fun _ _ => .setByte (.done _ trivial))
  | mode1Get => exact (.withCtrl fun _ _ => .getByte fun _ => .done _ trivial)
  | mode1Set => exact (.withCtrl fun _ _ => .setFields (.done _ trivial))
  | mode2Get => exact (.withCtrl fun _ _ => .getByte fun _ => .done _ trivial)
  | mode2Set => exact (.withCtrl fun _ _ => .setFields (.done _ trivial))
  | prescaleGet => exact (.withCtrl fun _ _ => .getByte fun _ => .done _ trivial)
  | prescaleSet => exact (.withCtrl fun _ _ => .setFields (.done _ trivial))
  | ledGet => exact (.withCtrl fun _ _ => .checkIndex (.getFields fun _ => .done _ trivial))
  | ledSet => exact (.withCtrl fun _ _ => .checkIndex (.setFields (.done _ trivial)))
  | freqGet => exact (.withCtrl fun _ _ => .getFreq fun _ => .done _ trivial)
  | freqSet c freq =>
    refine (.withCtrl fun _ _ => .withNum fun f => ?_)
    split
    · exact .getByte fun _ => .setByte (.setByte (.setByte (.delay _ _ (.setByte (.done _ trivial)))))
    · exact .raise _
  | ctrlDeinit => exact (.withCtrl fun _ _ => .setByte (.done _ trivial))
  | chLookup => exact (.withCtrl fun _ _ => .checkIndex (.done _ trivial))
  | chFreqGet => exact (.withChan fun _ _ _ => .getFreq fun _ => .done _ trivial)
  | chFreqSet => exact (.withChan fun _ _ _ => .raise _)
  | chDutyGet => exact (.withChan fun _ _ _ => .getDuty fun _ => .done _ trivial)
  | chDutySet => exact (.withChan fun _ _ _ => .setDuty (.done _ trivial))
  | servoInit =>
    exact (.withChan fun _ _ _ => .withNum fun _ => .withNum fun _ => .withNum fun _ =>
      .require (.getFreq fun _ => .done _ trivial))
  | servoSetPulseRange =>
    exact (.withServo fun _ _ _ _ hr => .withNum fun _ => .withNum fun _ => .getFreq fun _ =>
      .done _ ⟨_, _, _, rfl, hr⟩)
  | servoFractionGet => exact (.withServo fun _ _ _ _ hr => .getFraction fun _ => .done _ trivial)
  | servoFractionSet sv v =>
    refine (.withServo fun _ _ _ _ hr => ?_)
    cases v with
    | none => exact .setDuty (.done _ trivial)
    | some x => exact .withNum fun _ => .setFraction trivial
  | servoAngleGet => exact (.withServo fun _ _ _ _ hr => .getFraction fun _ => .done _ trivial)
  | servoAngleSet sv v =>
    refine (.withServo fun _ _ _ _ hr => ?_)
    cases v with
    | none => exact .setDuty (.done _ trivial)
    | some x =>
      refine .withNum fun _ => ?_
      split
      · exact .setFraction trivial
      · exact .raise _

/-- Every operation's script is a lock operation of one step, or lock holds and delays. -/
theorem scriptOf_proper (i : Instr) (s : State) : (scriptOf i s).Proper (mayEnd i s) := by
  cases h : lockOp i with
  | false => exact .later _ (scriptOf_later s h)
  | true =>
    cases i with
    | busTryLock => exact .withCtrl fun _ _ => .tryLock _
    | busUnlock => exact .withCtrl fun _ _ => .unlock
    | lockAcquire => exact .withCtrl fun _ _ => .acquire _
    | lockRelease => exact .withCtrl fun _ _ => .unlock
    | _ => cases h

theorem Script.Later.resume {Q : Effect → Prop} {sc n : Script} {rs : List (List Byte)} (h : sc.Later Q) (hr : sc.resume rs = some n) :
    n.Later Q := by
  induction rs generalizing sc with
  | nil => cases h <;> simp_all [Script.resume] <;> subst hr <;> constructor <;> assumption
  | cons r rs ih =>
    cases h with
    | transact d via p k hk => exact ih (hk r) hr
    | probe d k hk => exact ih hk hr
    | delay ms k hk => exact ih hk hr
    | _ => simp [Script.resume] at hr

/-- What an operation goes on to after a lock hold takes and frees no lock of its own. -/
theorem later_of_transact {i : Instr} {s : State} {rs : List (List Byte)} {d : DevAddr} {via : Option ObjId}
    {p : Prim} {k : List Byte → Script} (h : (scriptOf i s).resume rs = some (.transact d via p k))
    (bs : List Byte) : (k bs).Later (mayEnd i s) := by
  have : (Script.transact d via p k).Later (mayEnd i s) := by
    have hp := scriptOf_proper i s
    generalize scriptOf i s = sc at h hp
    cases hp with
    | later sc hl => exact hl.resume h
    | _ => cases rs <;> simp [Script.resume] at h
  cases this with
  | transact _ _ _ _ hk => exact hk bs

theorem later_of_probe {i : Instr} {s : State} {rs : List (List Byte)} {d : DevAddr} {k : Script}
    (h : (scriptOf i s).resume rs = some (.probe d k)) : k.Later (mayEnd i s) := by
  have : (Script.probe d k).Later (mayEnd i s) := by
    have hp := scriptOf_proper i s
    generalize scriptOf i s = sc at h hp
    cases hp with
    | later sc hl => exact hl.resume h
    | _ => cases rs <;> simp [Script.resume] at h
  cases this with
  | probe _ _ hk => exact hk

theorem later_of_delay {i : Instr} {s : State} {rs : List (List Byte)} {ms : Rat} {k : Script}
    (h : (scriptOf i s).resume rs = some (.delay ms k)) : k.Later (mayEnd i s) := by
  have : (Script.delay ms k).Later (mayEnd i s) := by
    have hp := scriptOf_proper i s
    generalize scriptOf i s = sc at h hp
    cases hp with
    | later sc hl => exact hl.resume h
    | _ => cases rs <;> simp [Script.resume] at h
  cases this with
  | delay _ _ hk => exact hk

/-- The effect an operation ends with is one it may end with. -/
theorem mayEnd_of_done {i : Instr} {s : State} {rs : List (List Byte)} {eff : Effect}
    (h : (scriptOf i s).resume rs = some (.done eff)) : mayEnd i s eff := by
  have : (Script.done eff).Later (mayEnd i s) := by
    have hp := scriptOf_proper i s
    generalize scriptOf i s = sc at h hp
    cases hp with
    | later sc hl => exact hl.resume h
    | _ => cases rs <;> simp [Script.resume] at h
  cases this with
  | done _ hk => exact hk

/-! ### The end of a lock hold -/

/-- A step that goes on, after a release, to a script that takes no lock: the lock stays free. -/
theorem StepShape.of_later {s t : State} {fs evs dev me} (h : Leaves s t .free fs evs dev me)
    (hm : s.lock = .held s.turn ∨ ModelFault.unbalancedRelease s.turn ∈ fs)
    (hp : me.prog = s.me.prog) (hc : me.pc = s.me.pc) (hh : me.holding = false)
    (hd : ∀ d, (dev d).isSome = (s.device d).isSome) (hev : ∀ g, Event.acquire g ∉ evs)
    {Q : Effect → Prop} {sc : Script} (hl : sc.Later Q) (rs : List (List Byte)) : StepShape s (t.enter sc rs) := by
  have drop : ∀ {u : State} {fs' : List ModelFault} {me' : AgentState}, Leaves s u .free (fs ++ fs') evs dev me' →
      me'.prog = s.me.prog → (me'.pc = s.me.pc ∨ me'.pc = s.me.pc + 1) → me'.holding = false →
      me'.phase.inHold = false → StepShape s u := fun lv a b c e =>
    ⟨OwnFrame.of_leaves lv a b hd, .drop lv.lock (by rw [lv.me, c]) (by rw [lv.me, e])
      (hm.imp id fun hf => (lv.faults _).mpr (.inr (List.mem_append_left _ hf))),
      NoHeldAcquire.of_leaves lv hev⟩
  have h0 : Leaves s t .free (fs ++ []) evs dev me := by simpa using h
  cases hl with
  | done eff _ =>
    obtain ⟨m, le, pe⟩ := t.applyEffect_leaves eff
    obtain ⟨p1, p2, p3, p4, p5⟩ := place_eq pe
    have lv : Leaves s (t.applyEffect eff) .free (fs ++ []) evs dev m := by
      have := h.trans le
      refine ⟨this.params, by rw [this.lock, h.lock], fun d => by rw [this.devices, h.devices],
        by simpa using this.faults, this.refused, by simpa using this.history, this.turn, this.me, this.others⟩
    refine drop (lv.updMe fun a => { a with pc := a.pc + 1, phase := .idle }) ?_ ?_ ?_ rfl
    · exact p1.trans (by rw [h.me, hp])
    · exact .inr (by show m.pc + 1 = _; rw [p2, h.me, hc])
    · exact p4.trans (by rw [h.me, hh])
  | raise e => exact drop ((h0.guardRelease (by simp)).updMe fun a => { a with status := .errored e, phase := .idle }) hp (.inl hc) hh rfl
  | fault f _ => exact drop (((h.addFaults [f]).guardRelease (by simp)).updMe fun a => { a with status := .faulted, phase := .idle }) hp (.inl hc) hh rfl
  | faultDone f _ =>
    exact drop ((((h.updMe AgentState.advanced).addFaults [f]).guardRelease (by simp)).updMe
      fun a => { a with status := .faulted, phase := .idle }) hp (.inr (congrArg (· + 1) hc)) hh rfl
  | refuse =>
    have hr : Leaves s.setRefused t.setRefused .free fs evs dev me :=
      ⟨h.params, h.lock, h.devices, h.faults, rfl, h.history, h.turn, h.me, h.others⟩
    have lv := (hr.guardRelease (by simp)).updMe fun a => { a with status := .refused, phase := .idle }
    refine StepShape.of_refusal (s := s) ⟨OwnFrame.of_leaves lv hp (.inl hc) hd,
      .drop lv.lock ?_ ?_ (hm.imp id fun hf => (lv.faults _).mpr (.inr hf)), NoHeldAcquire.of_leaves lv hev⟩ ?_
    · exact (congrArg AgentState.holding lv.me).trans hh
    · exact congrArg (fun a => a.phase.inHold) lv.me
    · exact lv.refused
  | transact d via p k hk => exact drop (h0.enter_transact d via p k rs) hp (.inl hc) hh rfl
  | probe d k hk => exact drop (h0.enter_probe d k rs) hp (.inl hc) hh rfl
  | delay ms k hk => exact drop (h0.enter_delay ms k rs) hp (.inl hc) hh rfl

/-- The release that ends a lock hold. -/
theorem State.releaseStep_shape (s : State) (d : DevAddr) {Q : Effect → Prop} {k : List Byte → Script}
    (hk : ∀ bs, (k bs).Later Q)
    (rs : List (List Byte)) (how : BodyEnd) : StepShape s (s.releaseStep d k rs how) := by
  unfold State.releaseStep
  have lu := (Leaves.refl s).unlock
  by_cases hm : s.lock = .held s.turn
  · have hm' : s.lockMine = true := by simp [State.lockMine, hm]
    have ends : ∀ {sc : Script}, sc.Later Q → StepShape s (s.unlock.enter sc (rs ++ [[]])) := fun hl =>
      StepShape.of_later lu (.inl hm) rfl rfl rfl (fun _ => rfl) (by simp) hl _
    simp only [hm', if_true]
    cases how with
    | ok bs => exact StepShape.of_later lu (.inl hm) rfl rfl rfl (fun _ => rfl) (by simp) (hk bs) _
    | failed ev => exact ends (.raise _)
    | notFound => exact ends (.raise _)
  · have hm' : s.lockMine = false := by simp [State.lockMine, hm]
    simp only [hm', Bool.false_eq_true, if_false]
    have lv := ((lu.addFaults [.unbalancedRelease s.turn]).guardRelease (by simp)).updMe
      fun a => { a with status := .faulted, phase := .idle }
    exact ⟨OwnFrame.of_leaves lv rfl (.inl rfl) fun _ => rfl,
      .drop lv.lock (congrArg AgentState.holding lv.me) (congrArg (fun a => a.phase.inHold) lv.me)
        (.inr ((lv.faults _).mpr (.inr (by simp)))), NoHeldAcquire.of_leaves lv (by simp)⟩

/-! ### The delay -/

theorem Table.get_map {β : Type} (f : β → β) (t : List (Nat × Option β)) (a : Nat) :
    Table.get (fun _ => none) (t.map fun e => (e.1, e.2.map f)) a = (Table.get (fun _ => none) t a).map f := by
  induction t with
  | nil => rfl
  | cons e t ih =>
    simp only [List.map_cons, Table.get, ih]
    split <;> rfl

theorem State.delay_device (s : State) (ms : Rat) (d : DevAddr) :
    (s.delay ms).device d =
      if Config.oscSettleMs ≤ ms then (s.device d).map (DeviceRegs.discharge s.turn) else s.device d := by
  unfold State.delay
  split
  · exact Table.get_map _ _ _
  · rfl

theorem Leaves.delay (s : State) (ms : Rat) :
    Leaves s (s.delay ms) s.lock [] [.delay s.turn ms] (fun d =>
      if Config.oscSettleMs ≤ ms then (s.device d).map (DeviceRegs.discharge s.turn) else s.device d) s.me := by
  refine ⟨?_, ?_, s.delay_device ms, ?_, ?_, ?_, ?_, ?_, ?_⟩ <;> unfold State.delay <;> split <;>
    first | rfl | exact fun _ _ => rfl | simp

theorem State.delay_oracle (s : State) (ms : Rat) : (s.delay ms).oracle = s.oracle := by
  unfold State.delay; split <;> rfl

/-! ### A step -/

/-- What a step inside an operation does. -/
theorem exec_shape {i : Instr} {s t : State} (h : exec i s = .next t) : StepShape s t := by
  cases exec_cases h with
  | start hp ht =>
    subst ht
    cases hl : (scriptOf i s).locks with
    | none =>
      have : (s.enter (scriptOf i s) []).attempt (scriptOf i s) [] = s.enter (scriptOf i s) [] := by
        simp [State.attempt, hl]
      rw [this]
      exact StepShape.of_enter (Leaves.refl s) rfl rfl rfl rfl (fun _ => rfl) (by simp) _ _
    | some d =>
      have hs : (scriptOf i s).locks.isSome = true := by simp [hl]
      cases hsc : scriptOf i s with
      | transact d via p k =>
        exact StepShape.of_attempt ((Leaves.refl s).enter_transact d via p k []) rfl rfl rfl rfl rfl _ _ rfl
      | probe d k => exact StepShape.of_attempt ((Leaves.refl s).enter_probe d k []) rfl rfl rfl rfl rfl _ _ rfl
      | acquire d => exact StepShape.of_attempt ((Leaves.refl s).enter_acquire d []) rfl rfl rfl rfl rfl _ _ rfl
      | _ => rw [hsc] at hl; simp [Script.locks] at hl
  | attempt rs n hp hn hl ht =>
    subst ht
    exact StepShape.of_attempt (Leaves.refl s) rfl rfl rfl rfl (by rw [hp]; rfl) n rs hl
  | body rs d via p k hp hn ht =>
    subst ht
    obtain ⟨ev, dev, lv, hev, hd⟩ := s.transfer_leaves d p
    exact StepShape.of_prim (lv.stage via _) hev hd rfl rfl rfl rfl (by rw [hp]; rfl) _ _
  | probeWrite rs d k hp hn ht =>
    subst ht
    obtain ⟨ev, dev, lv, hev, hd⟩ := s.transfer_leaves d (Prim.write [])
    exact StepShape.of_prim lv hev hd rfl rfl rfl rfl (by rw [hp]; rfl) _ _
  | probeRead rs d k hp hn ht =>
    subst ht
    obtain ⟨ev, dev, lv, hev, hd⟩ := s.transfer_leaves d (Prim.read 1)
    exact StepShape.of_prim lv hev hd rfl rfl rfl rfl (by rw [hp]; rfl) _ _
  | release rs how d via p k hp hn ht => subst ht; exact s.releaseStep_shape d (later_of_transact hn) rs how
  | releaseProbe rs how d k hp hn ht => subst ht; exact s.releaseStep_shape d (fun _ => later_of_probe hn) rs how
  | wait rs ms k hp hn ht =>
    subst ht
    refine StepShape.of_enter (Leaves.delay s ms) rfl rfl rfl rfl (fun d => ?_) (by simp) _ _
    split <;> simp

/-- What a step of the machine does, before the turn passes. -/
theorem step_shape {s t : State} (h : step s = .next t) :
    ∃ u, t = u.passTurn ∧ (u = s ∨ (s.me.status = .running ∧ StepShape s u)) := by
  unfold step at h
  split at h
  · rename_i hr
    split at h
    · rename_i i hi
      cases he : exec i s with
      | next u =>
        rw [he] at h
        injection h with h
        exact ⟨u, h.symm, .inr ⟨hr, exec_shape he⟩⟩
      | fault f => rw [he] at h; simp [andPassTurn] at h
      | refused r => rw [he] at h; simp [andPassTurn] at h
    · injection h with h; exact ⟨_, h.symm, .inr ⟨hr, s.refuseOp_shape⟩⟩
    · injection h with h; exact ⟨_, h.symm, .inr ⟨hr, s.endProgram_shape⟩⟩
  all_goals injection h with h; exact ⟨s, h.symm, .inl rfl⟩

end Sys2Proof.Machine
end

