-- ==== Sys2Proof/Laws/Write.lean ====
section
/-! SUPPORT. What a write that raises no fault stores, what a read of several bytes returns, and the
transactions of the operations in those terms. -/

namespace Sys2Proof.Machine

open Sys2Proof

/-! ### Writes -/

/-- The faults a store adds stand after the ones there were. -/
theorem Bus.store_raised (P : Params) (g : AgentId) (d : DevAddr) (a b : Byte) (u : Bus) :
    ∃ fs, (u.store P g d a b).raised = u.raised ++ fs := by
  unfold Bus.store
  split
  · dsimp only
    split
    · exact ⟨_, rfl⟩
    · exact ⟨[], by simp⟩
  · split
    · exact ⟨_, rfl⟩
    · exact ⟨[], by simp⟩

theorem Bus.writeData_raised (P : Params) (g : AgentId) (d : DevAddr) (data : List Byte) (u : Bus) :
    ∃ fs, (Bus.writeData P g d data u).raised = u.raised ++ fs := by
  induction data generalizing u with
  | nil => exact ⟨[], by simp [Bus.writeData]⟩
  | cons b rest ih =>
    obtain ⟨f1, h1⟩ := Bus.store_raised P g d u.dev.ptr b u
    obtain ⟨f2, h2⟩ := ih { u.store P g d u.dev.ptr b with
      dev := (u.store P g d u.dev.ptr b).dev.setPtr
        (nextPtr P ((u.store P g d u.dev.ptr b).dev.read regMode1) u.dev.ptr) }
    exact ⟨f1 ++ f2, by simp only [Bus.writeData]; rw [h2, h1, List.append_assoc]⟩

/-- The faults there were before a store, or before the data bytes of a write, change nothing of what it does, and
stand before the ones it adds. -/
theorem Bus.store_prior (P : Params) (g : AgentId) (d : DevAddr) (a b : Byte) (r : DeviceRegs) (o : Oracle)
    (fs : List ModelFault) :
    Bus.store P g d a b ⟨r, o, fs⟩ =
      { Bus.store P g d a b ⟨r, o, []⟩ with raised := fs ++ (Bus.store P g d a b ⟨r, o, []⟩).raised } := by
  unfold Bus.store
  split
  · dsimp only
    split <;> simp
  · split <;> simp

theorem Bus.writeData_prior (P : Params) (g : AgentId) (d : DevAddr) (data : List Byte) (r : DeviceRegs) (o : Oracle)
    (fs : List ModelFault) :
    Bus.writeData P g d data ⟨r, o, fs⟩ =
      { Bus.writeData P g d data ⟨r, o, []⟩ with raised := fs ++ (Bus.writeData P g d data ⟨r, o, []⟩).raised } := by
  induction data generalizing r o fs with
  | nil => simp [Bus.writeData]
  | cons b rest ih =>
    simp only [Bus.writeData]
    rw [Bus.store_prior, ih, ih _ _ (Bus.store P g d r.ptr b ⟨r, o, []⟩).raised]
    simp [List.append_assoc]

theorem Bus.write_prior (P : Params) (g : AgentId) (d : DevAddr) (out : List Byte) (r : DeviceRegs) (o : Oracle)
    (fs : List ModelFault) :
    Bus.write P g d out ⟨r, o, fs⟩ =
      { Bus.write P g d out ⟨r, o, []⟩ with raised := fs ++ writeFaults P g d out r o } := by
  cases out with
  | nil => simp [Bus.write, writeFaults]
  | cons a data => exact Bus.writeData_prior P g d data (r.setPtr a) o fs

/-- A write of `b :: rest` at address `a` is the store of `b` at `a`, then the write of `rest` at the next address on
the device after that store (R61). -/
theorem writeFaults_cons (P : Params) (g : AgentId) (d : DevAddr) (a b : Byte) (rest : List Byte) (r : DeviceRegs)
    (o : Oracle) {fs : List ModelFault} {stored : DeviceRegs} {o' : Oracle}
    (h : Bus.store P g d a b ⟨r.setPtr a, o, []⟩ = ⟨stored.setPtr a, o', fs⟩) :
    writeFaults P g d (a :: b :: rest) r o =
      fs ++ writeFaults P g d (ptrAfter (stored.adv P) a 1 :: rest) stored o' ∧
    afterWrite P g d (a :: b :: rest) r o =
      afterWrite P g d (ptrAfter (stored.adv P) a 1 :: rest) stored o' := by
  have e : Bus.write P g d (a :: b :: rest) ⟨r, o, []⟩ =
      Bus.writeData P g d rest ⟨stored.setPtr (ptrAfter (stored.adv P) a 1), o', fs⟩ := by
    show Bus.writeData P g d (b :: rest) ⟨r.setPtr a, o, []⟩ = _
    simp only [Bus.writeData, DeviceRegs.setPtr_ptr, h, DeviceRegs.setPtr_setPtr, DeviceRegs.setPtr_read]
    rfl
  rw [Bus.writeData_prior] at e
  exact ⟨(congrArg Bus.raised e).trans rfl, (congrArg Bus.dev e).trans rfl⟩

/-- A store that raises no fault stores its byte. -/
theorem Bus.store_quiet (P : Params) (g : AgentId) (d : DevAddr) (a b : Byte) (u : Bus)
    (h : (u.store P g d a b).raised = []) (x : Byte) :
    (u.store P g d a b).dev.read x = if x = a then b else u.dev.read x := by
  by_cases hx : x = a
  · subst hx
    rw [if_pos rfl]
    revert h
    unfold Bus.store
    split
    · rename_i hx
      subst hx
      intro _
      simp
    · split
      · simp
      · intro _
        simp
  · rw [if_neg hx]
    exact Bus.store_read_ne P g d hx b u

theorem lookup_concat (l : List (Byte × Byte)) (a b x : Byte) :
    (l ++ [(a, b)]).lookup x = (l.lookup x).or (if x = a then some b else none) := by
  induction l with
  | nil =>
    by_cases h : x = a
    · subst h
      simp
    · simp [List.lookup, h]
  | cons e l ih =>
    obtain ⟨k, v⟩ := e
    simp only [List.cons_append, List.lookup_cons]
    split
    · rfl
    · exact ih

theorem getD_or_if (o : Option Byte) {p : Prop} [Decidable p] (b c : Byte) :
    o.getD (if p then b else c) = (o.or (if p then some b else none)).getD c := by
  cases o with
  | some v => rfl
  | none =>
    simp only [Option.none_or, Option.getD_none]
    split <;> rfl

/-- Where no fault is raised, a register holds the last data byte stored there, or what it held (R61). -/
theorem Bus.writeData_written (P : Params) (g : AgentId) (d : DevAddr) (data : List Byte) (u : Bus)
    (h : (Bus.writeData P g d data u).raised = []) (x : Byte) :
    (Bus.writeData P g d data u).dev.read x =
      (((dataAddrs P (u.dev.read regMode1) u.dev.ptr data).zip data).reverse.lookup x).getD (u.dev.read x) := by
  induction data generalizing u with
  | nil => rfl
  | cons b rest ih =>
    simp only [Bus.writeData] at h ⊢
    obtain ⟨fs, hf⟩ := Bus.writeData_raised P g d rest { u.store P g d u.dev.ptr b with
      dev := (u.store P g d u.dev.ptr b).dev.setPtr
        (nextPtr P ((u.store P g d u.dev.ptr b).dev.read regMode1) u.dev.ptr) }
    have hq : (u.store P g d u.dev.ptr b).raised = [] := by
      rw [h] at hf
      exact (List.append_eq_nil_iff.mp hf.symm).1
    rw [ih _ h]
    simp only [DeviceRegs.setPtr_read, DeviceRegs.setPtr_ptr, Bus.store_mode1, dataAddrs, List.zip_cons_cons,
      List.reverse_cons, lookup_concat]
    rw [Bus.store_quiet P g d _ _ _ hq, getD_or_if]

/-- The registers after a quiet write (R61). -/
theorem afterWrite_read {P : Params} {g : AgentId} {d : DevAddr} {out : List Byte} {r : DeviceRegs} {o : Oracle}
    (h : QuietWrite P g d out r o) (x : Byte) : (afterWrite P g d out r o).read x = writtenReg P r out x := by
  cases out with
  | nil => rfl
  | cons a data => exact Bus.writeData_written P g d data ⟨r.setPtr a, o, []⟩ h x

/-- A write changes no register that it does not store to (R61). -/
theorem afterWrite_read_ne (P : Params) (g : AgentId) (d : DevAddr) (out : List Byte) (r : DeviceRegs) (o : Oracle)
    (x : Byte) (h : x ∉ storedAddrs P (r.read regMode1) out) :
    (afterWrite P g d out r o).read x = r.read x :=
  Bus.write_read P g d out ⟨r, o, []⟩ x h

theorem dataAddrs_length (P : Params) (m a : Byte) (data : List Byte) :
    (dataAddrs P m a data).length = data.length := by
  induction data generalizing m a with
  | nil => rfl
  | cons b rest ih => simp [dataAddrs, ih]

theorem readAddr_next (adv : Bool) (a : Byte) (k : Nat) :
    readAddr adv (if adv then a + 1 else a) k = readAddr adv a (k + 1) :=
  (ptrAfter_succ adv a k).symm

/-- Where the pointer's advance does not change on the way, the data goes to consecutive registers, or all to
the first (R62, R286). -/
theorem dataAddrs_eq (P : Params) (m a : Byte) (data : List Byte)
    (h : P.aiModel = .always ∨ regMode1 ∉ dataAddrs P m a data) :
    dataAddrs P m a data = (List.range data.length).map (readAddr (advances P m) a) := by
  induction data generalizing m a with
  | nil => rfl
  | cons b rest ih =>
    have hm : advances P (if a = regMode1 then b else m) = advances P m := by
      rcases h with h | h
      · simp [advances, h]
      · rw [if_neg]
        intro e
        subst e
        simp [dataAddrs] at h
    have h' : P.aiModel = .always ∨ regMode1 ∉
        dataAddrs P (if a = regMode1 then b else m) (nextPtr P (if a = regMode1 then b else m) a) rest := by
      refine h.imp id fun hn hx => hn ?_
      simp only [dataAddrs, List.mem_cons]
      exact .inr hx
    simp only [dataAddrs, List.length_cons, List.range_succ_eq_map, List.map_cons, List.map_map]
    rw [ih _ _ h', hm]
    refine congrArg₂ List.cons (by simp [readAddr]) (List.map_congr_left fun k _ => ?_)
    simp only [Function.comp, Nat.succ_eq_add_one, nextPtr, hm]
    exact readAddr_next _ _ _

theorem Bus.writeData_ptr (P : Params) (g : AgentId) (d : DevAddr) (data : List Byte) (u : Bus)
    (h : P.aiModel = .always ∨ regMode1 ∉ dataAddrs P (u.dev.read regMode1) u.dev.ptr data) :
    (Bus.writeData P g d data u).dev.ptr = ptrAfter (advances P (u.dev.read regMode1)) u.dev.ptr data.length := by
  induction data generalizing u with
  | nil => simp [Bus.writeData, ptrAfter, readAddr]
  | cons b rest ih =>
    have hm : advances P (if u.dev.ptr = regMode1 then b else u.dev.read regMode1) = advances P (u.dev.read regMode1) := by
      rcases h with h | h
      · simp [advances, h]
      · rw [if_neg]
        intro e
        simp [dataAddrs, e] at h
    simp only [Bus.writeData]
    rw [ih]
    · simp only [DeviceRegs.setPtr_read, DeviceRegs.setPtr_ptr, Bus.store_mode1, hm, nextPtr, List.length_cons,
        ptrAfter_succ]
    · refine h.imp id fun hn hx => hn ?_
      simp only [dataAddrs, List.mem_cons]
      exact .inr (by simpa [Bus.store_mode1] using hx)

/-! ### Reads -/

theorem readsAs_setPtr (P : Params) (r : DeviceRegs) (p a b : Byte) :
    readsAs P (r.setPtr p) a b ↔ readsAs P r a b := by
  simp [readsAs]

/-- A read of `n` bytes returns what the registers from the pointer on may read as, and moves the pointer on (R62,
R64). -/
theorem Bus.readBytes_reads (P : Params) (n : Nat) (u : Bus) :
    ReadsFrom P u.dev u.dev.ptr (u.readBytes P n).1 ∧
      (u.readBytes P n).2.dev = u.dev.setPtr (ptrAfter (u.dev.adv P) u.dev.ptr n) := by
  induction n generalizing u with
  | zero =>
    refine ⟨fun k h => absurd h (by simp [Bus.readBytes]), ?_⟩
    simp only [Bus.readBytes, ptrAfter, readAddr]
    cases u.dev.adv P <;> simp <;> rfl
  | succ n ih =>
    have hd : (u.readByte P).2.dev = u.dev.setPtr (nextPtr P (u.dev.read regMode1) u.dev.ptr) := by
      unfold Bus.readByte
      dsimp only
      split <;> rfl
    have hb : readsAs P u.dev u.dev.ptr (u.readByte P).1 := by
      unfold Bus.readByte readsAs
      dsimp only
      split
      · exact ⟨_, rfl⟩
      · rfl
    obtain ⟨h1, h2⟩ := ih (u.readByte P).2
    have ha : (u.readByte P).2.dev.adv P = u.dev.adv P := by rw [hd]; rfl
    refine ⟨fun k hk => ?_, ?_⟩
    · simp only [Bus.readBytes, List.length_cons] at hk ⊢
      cases k with
      | zero => simpa [readAddr] using hb
      | succ k =>
        have := h1 k (by omega)
        rw [ha] at this
        simp only [hd, readsAs_setPtr, DeviceRegs.setPtr_ptr, nextPtr] at this
        simp only [List.getElem_cons_succ]
        rwa [← readAddr_next]
    · simp only [Bus.readBytes, h2, ha]
      rw [hd]
      simp only [DeviceRegs.setPtr_setPtr, DeviceRegs.setPtr_ptr, nextPtr, ptrAfter_succ]
      rfl

/-! ### Operations of one transaction -/

section single

variable {i : Instr} {s : State} {d : DevAddr} {via : Option ObjId} {k : List Byte → Script} {r : DeviceRegs}

/-- An operation of one write that raises no fault, undisturbed. -/
theorem runs_write {out : List Byte} (hready : Ready s) (hs : scriptOf i s = .transact d via (Prim.write out) k)
    (hd : s.device d = some r) (ho : s.oracle.drawResult.1 = true)
    (hq : QuietWrite s.params s.turn d out r s.oracle.drawResult.2) :
    ∃ w, Runs i 3 s (w.enter (k []) [[]]) ∧
      Leaves s w .free [] (heldTx s.turn d .w out [] true)
        (devWith s d (afterWrite s.params s.turn d out r s.oracle.drawResult.2))
        { s.me with
          holding := false
          attempts := 0
          objs := stageObjs s.me.objs via out
          phase := .release [] (.ok []) } ∧
      w.oracle = (Bus.write s.params s.turn d out ⟨r, s.oracle.drawResult.2, []⟩).oracle := by
  have e : s.heldTransfer d (Prim.write out) r =
      ([], Bus.write s.params s.turn d out ⟨r, s.oracle.drawResult.2, []⟩) := State.heldTransfer_ok ho _
  obtain ⟨w, h1, h2, h3⟩ := runs_single hready hs hd ho (by rw [e]; exact hq) (by rw [e]; rfl)
  rw [e] at h1 h2 h3
  refine ⟨w, h1, ?_, h3⟩
  simp only [Prim.write, List.append_nil] at h2
  exact h2

/-- An operation of one read, the written part before it raising no fault, undisturbed. -/
theorem runs_read {kind : TxKind} {out : List Byte} {n : Nat} (hready : Ready s)
    (hs : scriptOf i s = .transact d via { kind := kind, out := out, inLen := n } k)
    (hd : s.device d = some r) (ho : s.oracle.drawResult.1 = true)
    (hq : QuietWrite s.params s.turn d out r s.oracle.drawResult.2) :
    ∃ w bs, Runs i 3 s (w.enter (k bs) [bs]) ∧ bs.length = n ∧
      ReadsFrom s.params (afterWrite s.params s.turn d out r s.oracle.drawResult.2)
        (afterWrite s.params s.turn d out r s.oracle.drawResult.2).ptr bs ∧
      Leaves s w .free [] (heldTx s.turn d kind out bs true)
        (devWith s d ((afterWrite s.params s.turn d out r s.oracle.drawResult.2).setPtr
          (ptrAfter ((afterWrite s.params s.turn d out r s.oracle.drawResult.2).adv s.params)
            (afterWrite s.params s.turn d out r s.oracle.drawResult.2).ptr n)))
        { s.me with
          holding := false
          attempts := 0
          objs := stageObjs s.me.objs via (out ++ bs)
          phase := .release [] (.ok bs) } := by
  have e := State.heldTransfer_ok (d := d) (r := r) ho { kind := kind, out := out, inLen := n }
  obtain ⟨h1, h2⟩ := Bus.readBytes_reads s.params n
    (Bus.write s.params s.turn d out ⟨r, s.oracle.drawResult.2, []⟩)
  obtain ⟨-, -, hr, hl⟩ := Bus.readBytes_dev s.params n
    (Bus.write s.params s.turn d out ⟨r, s.oracle.drawResult.2, []⟩)
  obtain ⟨w, k1, k2, k3⟩ := runs_single hready hs hd ho (by rw [e]; exact hr.trans hq) (by rw [e]; exact hl)
  rw [e] at k1 k2
  refine ⟨w, _, k1, hl, h1, ?_⟩
  rw [h2] at k2
  exact k2

end single

/-- The model faults that the data bytes of a write can raise (R65, R282). -/
theorem Bus.writeData_raised_kind (P : Params) (g : AgentId) (d : DevAddr) (data : List Byte) (u : Bus) :
    ∀ f ∈ (Bus.writeData P g d data u).raised, f ∈ u.raised ∨ f = .prescaleWhileRunning d ∨ f = .restartBeforeSettle d := by
  induction data generalizing u with
  | nil => exact fun f hf => .inl hf
  | cons b rest ih =>
    intro f hf
    rcases ih _ f hf with h | h
    · change f ∈ (u.store P g d u.dev.ptr b).raised at h
      unfold Bus.store at h
      split at h
      · dsimp only at h; split at h
        · simp at h; tauto
        · exact .inl h
      · split at h
        · simp at h; tauto
        · exact .inl h
    · exact .inr h

/-- The model faults that a write can raise (R65, R282). -/
theorem Bus.write_raised_kind (P : Params) (g : AgentId) (d : DevAddr) (out : List Byte) (u : Bus) :
    ∀ f ∈ (Bus.write P g d out u).raised, f ∈ u.raised ∨ f = .prescaleWhileRunning d ∨ f = .restartBeforeSettle d := by
  cases out with
  | nil => exact fun f hf => .inl hf
  | cons a data => exact Bus.writeData_raised_kind P g d data _

end Sys2Proof.Machine
end

