-- ==== Sys2Proof/Laws/Memory.lean ====
section
/-! SUPPORT. Memory: which steps touch the register files of the devices, and that every operation on them keeps the
canonical form. -/

namespace Sys2Proof.Machine

open Sys2Proof

/-! ### The canonical form -/

theorem Memory.wf_iff {s : State} :
    Memory.wf s = true ↔ Table.wf (fun _ => none) s.dev = true ∧
      ∀ e ∈ s.dev, e.1 < 128 ∧ ∀ r, e.2 = some r → r.wf = true := by
  simp only [Memory.wf, Bool.and_eq_true, List.all_eq_true, decide_eq_true_eq]
  refine and_congr_right fun _ => forall₂_congr fun e _ => and_congr_right fun _ => ?_
  cases e.2 <;> simp

theorem Memory.wf_congr {s t : State} (h : t.dev = s.dev) : Memory.wf t = Memory.wf s := by
  simp only [Memory.wf, h]

/-- What a listed key reads as. -/
theorem Table.mem_of_get {β : Type} {t : List (Nat × Option β)} {a : Nat} {b : β}
    (h : Table.get (fun _ => none) t a = some b) : (a, some b) ∈ t := by
  induction t with
  | nil => simp [Table.get] at h
  | cons e t ih =>
    obtain ⟨k, v⟩ := e
    simp only [Table.get] at h
    split at h
    · rename_i hk; subst hk; subst h; simp
    · exact List.mem_cons_of_mem _ (ih h)

/-- The registers of a device of a canonical memory are canonical. -/
theorem Memory.wf_device {s : State} (h : Memory.wf s = true) {d : DevAddr} {r : DeviceRegs}
    (hd : s.device d = some r) : r.wf = true :=
  ((Memory.wf_iff.mp h).2 _ (Table.mem_of_get hd)).2 r rfl

theorem Memory.wf_setDevice {s : State} (h : Memory.wf s = true) (d : DevAddr) {r : DeviceRegs}
    (hr : r.wf = true) : Memory.wf (s.setDevice d r) = true := by
  obtain ⟨h1, h2⟩ := Memory.wf_iff.mp h
  refine Memory.wf_iff.mpr ⟨Table.wf_set (b := some r) h1 d.toNat, fun e he => ?_⟩
  rcases Table.mem_set (dflt := fun _ => none) (t := s.dev) (a := d.toNat) (b := some r) he with rfl | he
  · exact ⟨d.isLt, fun q hq => by injection hq with hq; exact hq ▸ hr⟩
  · exact h2 e he

theorem Table.wf_map_some {β : Type} [DecidableEq β] (f : β → β) {t : List (Nat × Option β)}
    (h : Table.wf (fun _ => none) t = true) : Table.wf (fun _ => none) (t.map fun e => (e.1, e.2.map f)) = true := by
  induction t with
  | nil => rfl
  | cons e t ih =>
    obtain ⟨k, v⟩ := e
    obtain ⟨h1, h2, h3⟩ := Table.wf_cons.mp h
    refine Table.wf_cons.mpr ⟨?_, by simpa using h2, ih h3⟩
    simp only [Table.above, List.all_map] at h1 ⊢; exact h1

theorem Memory.wf_delay {s : State} (h : Memory.wf s = true) (ms : Rat) : Memory.wf (s.delay ms) = true := by
  unfold State.delay
  split
  · obtain ⟨h1, h2⟩ := Memory.wf_iff.mp h
    refine Memory.wf_iff.mpr ⟨Table.wf_map_some _ h1, fun e he => ?_⟩
    obtain ⟨e', he', rfl⟩ := List.mem_map.mp he
    obtain ⟨g1, g2⟩ := h2 e' he'
    refine ⟨g1, fun r hr => ?_⟩
    obtain ⟨q, hq, rfl⟩ := Option.map_eq_some_iff.mp hr
    exact g2 q hq
  · exact h

theorem Memory.wf_transfer {s : State} (h : Memory.wf s = true) (d : DevAddr) (p : Prim) :
    Memory.wf (s.transfer d p).state = true := by
  cases hd : s.device d with
  | none => rw [State.transfer_absent hd]; exact h
  | some r =>
    rw [State.transfer_present hd]
    exact Memory.wf_setDevice (s := s.setOracle _) h d
      (Bus.transfer_wf _ _ _ _ _ (u := ⟨r, _, _⟩) (Memory.wf_device h hd))

/-- Memory at launch is canonical: nothing of any register file is listed. -/
theorem Memory.wf_reset : Memory.wf State.reset = true := by
  have key : ∀ l : List Nat, l.Pairwise (· < ·) → (∀ d ∈ l, d < 128) →
      Table.wf (fun _ => none) (l.filterMap fun d =>
        if Config.devicePresent d then some (d, some (DeviceRegs.launch d)) else none) = true := by
    intro l
    induction l with
    | nil => intro _ _; rfl
    | cons a l ih =>
      intro h1 h2
      obtain ⟨g1, g2⟩ := List.pairwise_cons.mp h1
      have g3 := ih g2 fun d hd => h2 d (List.mem_cons_of_mem _ hd)
      by_cases ha : Config.devicePresent a
      · simp only [List.filterMap_cons, ha, if_true]
        refine Table.wf_cons.mpr ⟨?_, by simp, g3⟩
        simp only [Table.above, List.all_eq_true, decide_eq_true_eq, List.mem_filterMap]
        rintro e ⟨x, hx, he⟩
        split at he
        · injection he with he; subst he; exact g1 x hx
        · cases he
      · simpa only [List.filterMap_cons, ha, Bool.false_eq_true, if_false] using g3
  refine Memory.wf_iff.mpr ⟨key _ List.pairwise_lt_range (by simp), fun e he => ?_⟩
  obtain ⟨d, hd, h⟩ := List.mem_filterMap.mp he
  split at h
  · injection h with h; subst h
    exact ⟨by simpa using hd, fun r hr => by injection hr with hr; subst hr; rfl⟩
  · cases h

/-! ### Which steps touch memory -/

@[simp] theorem State.applyEffect_dev (s : State) (eff : Effect) : (s.applyEffect eff).dev = s.dev := by
  cases eff <;> simp only [State.applyEffect] <;> repeat' (first | rfl | split)

@[simp] theorem State.faultStop_dev (s : State) (fs : List ModelFault) : (s.faultStop fs).dev = s.dev :=
  (State.guardRelease_dev _).trans (s.addFaults_dev fs)

@[simp] theorem State.raiseError_dev (s : State) (e : ErrorCode) : (s.raiseError e).dev = s.dev :=
  State.guardRelease_dev s

@[simp] theorem State.refuseOp_dev (s : State) : s.refuseOp.dev = s.dev := State.guardRelease_dev s.setRefused

@[simp] theorem State.endProgram_dev (s : State) : s.endProgram.dev = s.dev := State.guardRelease_dev s

@[simp] theorem State.enter_dev (s : State) (sc : Script) (rs : List (List Byte)) : (s.enter sc rs).dev = s.dev := by
  cases sc with
  | done eff => exact s.applyEffect_dev eff
  | raise e => exact s.raiseError_dev e
  | fault f => exact s.faultStop_dev [f]
  | faultDone f => exact s.finish.faultStop_dev [f]
  | refuse => exact s.refuseOp_dev
  | tryLock dst => simp only [State.enter, State.tryLockOp]; split <;> rfl
  | unlock =>
    simp only [State.enter, State.unlockOp]; split
    · rfl
    · exact State.faultStop_dev _ _
  | acquire d => rfl
  | transact d via p k => exact s.stage_dev via (builtBuf p)
  | probe d k => rfl
  | delay ms k => rfl

@[simp] theorem State.attempt_dev (s : State) (sc : Script) (rs : List (List Byte)) :
    (s.attempt sc rs).dev = s.dev := by
  unfold State.attempt
  split
  · rfl
  · split
    · split <;> rfl
    · simp only [State.failedAttempt]
      split
      · exact State.raiseError_dev _ _
      · rfl

@[simp] theorem State.afterPrim_dev (s : State) (fs : List ModelFault) (p : Phase) :
    (s.afterPrim fs p).dev = s.dev := by
  unfold State.afterPrim
  split
  · rfl
  · exact s.faultStop_dev fs

@[simp] theorem State.releaseStep_dev (s : State) (d : DevAddr) (k : List Byte → Script) (rs : List (List Byte))
    (how : BodyEnd) : (s.releaseStep d k rs how).dev = s.dev := by
  unfold State.releaseStep
  split
  · split
    · exact State.enter_dev _ _ _
    · exact State.raiseError_dev _ _
    · exact State.raiseError_dev _ _
  · exact State.faultStop_dev _ _

/-- What a step inside an operation does to memory: nothing, one primitive of its script, or its delay. -/
inductive MemCase (i : Instr) (s t : State) : Prop where
  | same (h : t.dev = s.dev)
  | transact (rs : List (List Byte)) (d : DevAddr) (via : Option ObjId) (p : Prim) (k : List Byte → Script)
      (hn : (scriptOf i s).resume rs = some (.transact d via p k)) (h : t.dev = (s.transfer d p).state.dev)
  | probe (rs : List (List Byte)) (d : DevAddr) (k : Script) (p : Prim)
      (hn : (scriptOf i s).resume rs = some (.probe d k)) (hp : p = Prim.write [] ∨ p = Prim.read 1)
      (h : t.dev = (s.transfer d p).state.dev)
  | delay (rs : List (List Byte)) (ms : Rat) (k : Script)
      (hn : (scriptOf i s).resume rs = some (.delay ms k)) (h : t.dev = (s.delay ms).dev)

theorem exec_memory {i : Instr} {s t : State} (h : exec i s = .next t) : MemCase i s t := by
  cases exec_cases h with
  | start hp ht => subst ht; exact .same (by simp)
  | attempt rs n hp hn hl ht => subst ht; exact .same (by simp)
  | body rs d via p k hp hn ht => subst ht; exact .transact rs d via p k hn (by simp [State.bodyStep])
  | probeWrite rs d k hp hn ht => subst ht; exact .probe rs d k _ hn (.inl rfl) (by simp [State.probeWriteStep])
  | probeRead rs d k hp hn ht => subst ht; exact .probe rs d k _ hn (.inr rfl) (by simp [State.probeReadStep])
  | release rs how d via p k hp hn ht => subst ht; exact .same (by simp)
  | releaseProbe rs how d k hp hn ht => subst ht; exact .same (by simp)
  | wait rs ms k hp hn ht => subst ht; exact .delay rs ms k hn (by simp)

theorem MemCase.wf {i : Instr} {s t : State} (h : MemCase i s t) (hw : Memory.wf s = true) : Memory.wf t = true := by
  cases h with
  | same h => rw [Memory.wf_congr h]; exact hw
  | transact rs d via p k hn h => rw [Memory.wf_congr h]; exact Memory.wf_transfer hw d p
  | probe rs d k p hn hp h => rw [Memory.wf_congr h]; exact Memory.wf_transfer hw d p
  | delay rs ms k hn h => rw [Memory.wf_congr h]; exact Memory.wf_delay hw ms

/-- A transfer changes no register but those that its write part stores to, on its own device (R61, R68). -/
theorem State.transfer_read (s : State) (d' : DevAddr) (p : Prim) {d : DevAddr} {r : DeviceRegs}
    (hd : s.device d = some r) :
    ∃ q, (s.transfer d' p).state.device d = some q ∧
      ∀ x, (d ≠ d' ∨ x ∉ storedAddrs s.params (r.read regMode1) p.out) → q.read x = r.read x := by
  cases h : s.device d' with
  | none => exact ⟨r, by rw [State.transfer_absent h]; exact hd, fun _ _ => rfl⟩
  | some r' =>
    have lv := Leaves.transfer_present (p := p) h
    by_cases e : d = d'
    · subst e
      rw [hd] at h; injection h with h; subst h
      refine ⟨(s.nextTransfer d p r).2.dev, by rw [lv.devices]; simp [devWith], fun x hx => ?_⟩
      have hx' : x ∉ storedAddrs s.params (r.read regMode1) p.out := hx.resolve_left (absurd rfl)
      unfold State.nextTransfer Bus.transfer
      split
      · obtain ⟨q, hq, -⟩ := Bus.readBytes_dev s.params p.inLen
          (Bus.write s.params s.turn d p.out ⟨r, s.oracle.drawResult.2, s.unlockedFault⟩)
        rw [hq, DeviceRegs.setPtr_read]; exact Bus.write_read _ _ _ _ _ _ hx'
      · exact Bus.failed_read _ _ _ _ hx'
    · exact ⟨r, by rw [lv.devices]; simp [devWith, e, hd], fun _ _ => rfl⟩
/-- The data bytes of a write to an element go to registers of that element, whatever the pointer does (R198). -/
theorem storedAddrs_led (P : Params) (m : Byte) (n : Fin 16) (b0 b1 b2 b3 : Byte) {x : Byte}
    (h : x ∈ storedAddrs P m [ledAddr n, b0, b1, b2, b3]) : x ∈ elementAddrs n := by
  have key : ∀ n : Fin 16, ledAddr n ≠ regMode1 ∧ ledAddr n + 1 ≠ regMode1 ∧
      ledAddr n + 1 + 1 ≠ regMode1 ∧ ledAddr n + 1 + 1 = ledAddr n + 2 ∧ ledAddr n + 2 + 1 = ledAddr n + 3 := by
    decide
  obtain ⟨h0, h1, h2, e2, e3⟩ := key n
  cases ha : advances P m
  · simp only [storedAddrs, dataAddrs, nextPtr, ha, h0, if_false, Bool.false_eq_true, List.mem_cons,
      List.not_mem_nil, or_false, or_self] at h
    simp [elementAddrs, h]
  · simp only [storedAddrs, dataAddrs, nextPtr, ha, h0, h1, h2, if_false, if_true] at h
    simpa only [elementAddrs, e2, e3] using h

end Sys2Proof.Machine
end

