-- ==== Sys2Proof/Laws/Operand.lean ====
section
/-! SUPPORT. Operands that an operation cannot use: unknown names, deinitialised controllers, numbers that are not
positive; and the refusal of an operation (R99, R102, R168, R248). -/

namespace Sys2Proof.Machine

open Sys2Proof

theorem resolve_none {s : State} {ref : ObjRef} (h : ref.agent ≠ s.turn ∨ s.me.names.lookup ref.name = none) : s.resolve ref = none := by
  unfold State.resolve
  split
  · rename_i e; exact h.resolve_left (absurd e)
  · rfl

theorem exec_refuses {i : Instr} {s : State} (hs : scriptOf i s = .refuse) (hp : s.me.phase = .idle) (hl : s.lock ≠ .held s.turn) :
  exec i s = .next (s.setRefused.updMe fun a => a.halted .refused) := by
  rw [exec_now hp hs rfl]
  simp only [State.enter]
  rw [State.refuseOp_of_not_mine hl]

theorem withLive_dead {s : State} {i : ObjId} {ctl : Controller} (h : s.object i = some (.controller ctl))
    (hl : ctl.live = false) (k : Controller → Script) : withLive s i k = .fault (.useAfterDeinit s.turn i) := by simp [withLive, h, hl]

theorem withCtrl_dead {s : State} {r : ObjRef} {i : ObjId} {ctl : Controller} (hr : s.resolve r = some i) (h : s.object i = some (.controller ctl))
    (hl : ctl.live = false) (k : ObjId → Controller → Script) : withCtrl s r k = .fault (.useAfterDeinit s.turn i) := by
  simp [withCtrl, hr, withLive_dead h hl]

theorem withChan_dead {s : State} {r : ObjRef} {oi ci : ObjId} {h : Channel} {ctl : Controller} (hr : s.resolve r = some oi) (ho : s.object oi = some (.channel h)) (hc : h.controller = ci) (hk : s.object ci = some (.controller ctl))
    (hl : ctl.live = false) (k : ObjId → Channel → Controller → Script) : withChan s r k = .fault (.useAfterDeinit s.turn ci) := by
  subst hc; simp [withChan, hr, withHandle, ho, withLive_dead hk hl]

theorem withServo_dead {s : State} {r : ObjRef} {oi ci : ObjId} {sv : Servo} {h : Channel} {ctl : Controller} (hr : s.resolve r = some oi) (hv : s.object oi = some (.servo sv)) (ho : s.object sv.channel = some (.channel h)) (hc : h.controller = ci) (hk : s.object ci = some (.controller ctl))
    (hl : ctl.live = false) (k : ObjId → Servo → Channel → Controller → Script) : withServo s r k = .fault (.useAfterDeinit s.turn ci) := by
  subst hc; simp [withServo, hr, hv, withHandle, ho, withLive_dead hk hl]

theorem withCtrl_none {s : State} {r : ObjRef} (h : s.resolve r = none) (k) : withCtrl s r k = .refuse := by simp [withCtrl, h]
theorem withChan_none {s : State} {r : ObjRef} (h : s.resolve r = none) (k) : withChan s r k = .refuse := by simp [withChan, h]
theorem withServo_none {s : State} {r : ObjRef} (h : s.resolve r = none) (k) : withServo s r k = .refuse := by simp [withServo, h]

theorem script_none {i : Instr} {s : State} {ref : ObjRef} (h : operandRef i = some ref) (hr : s.resolve ref = none) : scriptOf i s = .refuse := by
  cases i <;> simp only [operandRef, Option.some.injEq, reduceCtorEq] at h <;> subst h <;> first | exact withCtrl_none hr _ | exact withChan_none hr _ | exact withServo_none hr _

theorem script_dead {i : Instr} {s : State} {ref : ObjRef} {oi ci : ObjId} {ctl : Controller} (h : operandRef i = some ref) (hr : s.resolve ref = some oi) (hst : standsOn s (operandKind i) oi ci)
   (hk : s.object ci = some (.controller ctl)) (hl : ctl.live = false) : scriptOf i s = .fault (.useAfterDeinit s.turn ci) := by
  cases i <;> simp only [operandRef, Option.some.injEq, reduceCtorEq] at h <;> subst h <;> simp only [operandKind, standsOn] at hst <;> first
   | (subst hst; exact withCtrl_dead hr hk hl _)
   | (obtain ⟨h, h1, h2⟩ := hst; exact withChan_dead hr h1 h2 hk hl _)
   | (obtain ⟨sv, h, h1, h2, h3⟩ := hst; exact withServo_dead hr h1 h2 h3 hk hl _)

/-! ### Numbers -/

theorem roundRat_nonneg (tie) {q : Rat} (h : 0 ≤ q) : 0 ≤ roundRat tie q := by
  have : 0 ≤ (q + 1 / 2).floor := by rw [Rat.le_floor_iff]; simp; linarith
  unfold roundRat
  cases tie
  · exact this
  · dsimp only; split <;> omega

theorem pow2_pos (e : Int) : 0 < pow2 e := by
  unfold pow2; split <;> positivity

theorem binary64Magnitude_nonneg {q : Rat} (h : 0 ≤ q) : 0 ≤ binary64Magnitude q := by
  unfold binary64Magnitude
  dsimp only
  have := roundRat_nonneg .halfEven (div_nonneg h (pow2_pos (max (floorLog2 q) (-1022) - 52)).le)
  exact mul_nonneg (by exact_mod_cast this) (pow2_pos _).le

theorem roundBinary64_pos {q : Rat} (h : ¬ 0 < q) : (roundBinary64 false q).pos = false := by
  unfold roundBinary64
  split
  · simp [signedZero, Sys2Proof.Num.pos]
  · have hq : q < 0 := lt_of_le_of_ne (not_lt.mp h) ‹_›
    have := binary64Magnitude_nonneg (abs_nonneg q)
    dsimp only; split
    · simp [hq, signedZero, Sys2Proof.Num.pos]
    · split
      · simp [hq, Sys2Proof.Num.pos]
      · simp [hq, Sys2Proof.Num.pos, this]

theorem operand_pos {ar x y} (h : Sys2Proof.Num.operand ar x = some y) (hx : x.pos = false) : y.pos = false := by
  cases ar <;> cases x <;> simp [Sys2Proof.Num.operand] at h <;> subst h
  · exact hx
  · exact roundBinary64_pos (by simpa [Sys2Proof.Num.pos] using hx)
  all_goals exact hx

end Sys2Proof.Machine
end

