-- ==== Sys2Proof/Laws/Abort.lean ====
section
/-! SUPPORT. The ways an agent stops before any bus traffic: what an error, a fault, a refusal and the end of a
program leave (R130, R244, R247, R248). -/

namespace Sys2Proof.Machine

open Sys2Proof

/-- What an agent leaves that stops with the scope guard's release, from a state that differs from `s` in the faults
and the refusal mark at most. -/
theorem Aborts.of_stop {s t : State} {fs : List ModelFault} {b : Bool} {evs dev me} (st : Status)
    (h : Leaves { s with refused := s.refused || b } t s.lock fs evs dev me) (he : evs = []) (hm : me = s.me)
    (hd : t.dev = s.dev) : Aborts s (t.guardRelease.stopWith st) st fs b := by
  subst he hm
  by_cases hl : s.lock = .held s.turn
  · rw [State.guardRelease_of_mine (by rw [h.lock, h.turn, hl])]
    have l := h.unlock.updMe fun a => { a with status := st, phase := .idle }
    refine ⟨l.params, by rw [if_pos hl]; exact l.lock, hd, l.faults, l.refused, ?_, l.turn, ?_, l.others⟩
    · rw [if_pos hl]; exact l.history
    · rw [if_pos hl]; exact l.me
  · have l := (h.guardRelease hl).updMe fun a => { a with status := st, phase := .idle }
    refine ⟨l.params, by rw [if_neg hl]; exact l.lock, (State.guardRelease_dev t).trans hd, l.faults, l.refused, ?_,
      l.turn, ?_, l.others⟩
    · rw [if_neg hl]; exact l.history
    · rw [if_neg hl]; exact l.me

theorem Leaves.refl_refused (s : State) : Leaves { s with refused := s.refused || false } s s.lock [] [] s.device s.me :=
  ⟨rfl, rfl, fun _ => rfl, by simp, by simp, by simp, rfl, rfl, fun _ _ => rfl⟩

theorem State.raiseError_aborts (s : State) (e : ErrorCode) : Aborts s (s.raiseError e) (.errored e) [] false :=
  .of_stop _ (.refl_refused s) rfl rfl rfl

theorem State.endProgram_aborts (s : State) : Aborts s s.endProgram .ended [] false :=
  .of_stop _ (.refl_refused s) rfl rfl rfl

theorem State.faultStop_aborts (s : State) (fs : List ModelFault) : Aborts s (s.faultStop fs) .faulted fs false :=
  .of_stop _ ((Leaves.refl_refused s).addFaults fs) rfl rfl (s.addFaults_dev fs)

theorem State.refuseOp_aborts (s : State) : Aborts s s.refuseOp .refused [] true :=
  .of_stop _ (⟨rfl, rfl, fun _ => rfl, by simp [State.setRefused], by simp [State.setRefused], by simp [State.setRefused],
    rfl, rfl, fun _ _ => rfl⟩ : Leaves { s with refused := s.refused || true } s.setRefused s.lock [] [] s.device s.me)
    rfl rfl rfl

/-! ### Operations that stop at once -/

theorem exec_raises {i : Instr} {s : State} {e : ErrorCode} (hp : s.me.phase = .idle) (hs : scriptOf i s = .raise e) :
    ∃ t, exec i s = .next t ∧ Aborts s t (.errored e) [] false :=
  ⟨_, exec_now hp hs rfl, s.raiseError_aborts e⟩

theorem exec_faultsAtOnce {i : Instr} {s : State} {f : ModelFault} (hp : s.me.phase = .idle)
    (hs : scriptOf i s = .fault f) : ∃ t, exec i s = .next t ∧ Aborts s t .faulted [f] false :=
  ⟨_, exec_now hp hs rfl, s.faultStop_aborts [f]⟩

theorem exec_refusesAtOnce {i : Instr} {s : State} (hp : s.me.phase = .idle) (hs : scriptOf i s = .refuse) :
    ∃ t, exec i s = .next t ∧ Aborts s t .refused [] true :=
  ⟨_, exec_now hp hs rfl, s.refuseOp_aborts⟩

/-- An operand of another kind than the operation's is refused (R99, R248). -/
theorem script_wrongKind {i : Instr} {s : State} {ref : ObjRef} {oi : ObjId} {o : Object}
    (h : operandRef i = some ref) (hr : s.resolve ref = some oi) (ho : s.object oi = some o)
    (hk : o.kind ≠ operandKind i) : scriptOf i s = .refuse := by
  have ctrl : o.kind ≠ .controller → ∀ k, withCtrl s ref k = .refuse := fun hk k => by
    cases o <;> simp [withCtrl, withLive, hr, ho, Object.kind] at hk ⊢
  have chan : o.kind ≠ .channel → ∀ k, withChan s ref k = .refuse := fun hk k => by
    cases o <;> simp [withChan, withHandle, hr, ho, Object.kind] at hk ⊢
  have servo : o.kind ≠ .servo → ∀ k, withServo s ref k = .refuse := fun hk k => by
    cases o <;> simp [withServo, hr, ho, Object.kind] at hk ⊢
  cases i <;> simp only [operandRef, Option.some.injEq, reduceCtorEq] at h <;> subst h <;>
    first | exact ctrl hk _ | exact chan hk _ | exact servo hk _

end Sys2Proof.Machine
end

