-- ==== Sys2Proof/Laws/Layout.lean ====
section
/-! SUPPORT. Words and bytes, and the payloads of layouts: encoding and decoding undo each other (R93, R148,
R149). -/

namespace Sys2Proof.Machine

open Sys2Proof

/-- A word from its high and low bytes (R63). -/
theorem append_toNat (h l : Byte) : (h ++ l : Half).toNat = 256 * h.toNat + l.toNat := by
  have hl := l.isLt
  rw [BitVec.toNat_append, ← Nat.shiftLeft_add_eq_or_of_lt hl, Nat.shiftLeft_eq]; omega

theorem lowByte_toNat (w : Half) : (lowByte w).toNat = w.toNat % 256 := by
  simp [lowByte, BitVec.extractLsb'_toNat]

theorem highByte_toNat (w : Half) : (highByte w).toNat = w.toNat / 256 := by
  have := w.isLt
  simp only [highByte, BitVec.extractLsb'_toNat, Nat.shiftRight_eq_div_pow]
  omega

theorem highByte_append_lowByte (w : Half) : (highByte w ++ lowByte w : Half) = w := by
  apply BitVec.eq_of_toNat_eq
  rw [append_toNat, lowByte_toNat, highByte_toNat]; omega

@[simp] theorem lowByte_append (h l : Byte) : lowByte (h ++ l) = l := by
  apply BitVec.eq_of_toNat_eq
  have := l.isLt
  rw [lowByte_toNat, append_toNat]; omega

@[simp] theorem highByte_append (h l : Byte) : highByte (h ++ l) = h := by
  apply BitVec.eq_of_toNat_eq
  have := l.isLt
  have := h.isLt
  rw [highByte_toNat, append_toNat]; omega

/-- The byte of an integer in the range of a byte. -/
theorem ofInt_toNat {v : Int} (h0 : 0 ≤ v) (h : v ≤ 0xFF) : ((BitVec.ofInt 8 v).toNat : Int) = v := by
  rw [BitVec.toNat_ofInt]; omega

theorem ofInt_mod (v : Int) : ((BitVec.ofInt 8 v).toNat : Int) = v % 256 := by
  rw [BitVec.toNat_ofInt]; omega

theorem fieldBytes_length (f : Field) (v : Int) : (fieldBytes f v).length = fieldSize f := by cases f <;> rfl

theorem fieldHolds_bounds {f : Field} {v : Int} (h : fieldHolds f v = true) :
    0 ≤ v ∧ v ≤ match f with | .u8 => 0xFF | .u16 => 0xFFFF := by
  cases f <;> simpa [fieldHolds] using h

/-- A value in its field's range decodes from its bytes. -/
theorem fieldValue_fieldBytes {f : Field} {v : Int} (h : fieldHolds f v = true) : fieldValue f (fieldBytes f v) = v := by
  obtain ⟨h0, h1⟩ := fieldHolds_bounds h
  cases f with
  | u8 =>
    simp only [fieldValue, fieldBytes, List.getD_cons_zero, ofInt_mod] at *
    omega
  | u16 =>
    simp only [fieldValue, fieldBytes, List.getD_cons_zero, List.getD_cons_succ, ofInt_mod] at *
    omega

theorem encodeFields_cons (f : Field) (fs : List Field) (v : Int) (vs : List Int) :
    encodeFields (f :: fs) (v :: vs) =
      if fieldHolds f v then (encodeFields fs vs).map (fieldBytes f v ++ ·) else .error v := by
  simp only [encodeFields]
  split
  · cases encodeFields fs vs <;> rfl
  · rfl

/-- Encoded values decode back, from a payload of the layout's size. -/
theorem decodeFields_encodeFields (fs : List Field) (vs : List Int) (bs : List Byte) (hl : vs.length = fs.length)
    (h : encodeFields fs vs = .ok bs) : bs.length = elementSize fs ∧ decodeFields fs bs = vs := by
  induction fs generalizing vs bs with
  | nil =>
    cases vs with
    | nil => simp [encodeFields] at h; subst h; exact ⟨rfl, rfl⟩
    | cons => simp at hl
  | cons f fs ih =>
    cases vs with
    | nil => simp at hl
    | cons v vs =>
      rw [encodeFields_cons] at h
      split at h
      · rename_i hv
        cases he : encodeFields fs vs with
        | error e => simp [he, Except.map] at h
        | ok cs =>
          simp only [he, Except.map, Except.ok.injEq] at h
          subst h
          obtain ⟨h1, h2⟩ := ih vs cs (by simpa using hl) he
          have hb := fieldBytes_length f v
          refine ⟨by simp [elementSize, hb, h1], ?_⟩
          simp only [decodeFields]
          rw [← hb, List.take_left, List.drop_left, fieldValue_fieldBytes hv, h2]
      · simp at h

/-- A payload of the layout's size is the encoding of what it decodes to. -/
theorem encodeFields_decodeFields (fs : List Field) (bs : List Byte) (h : bs.length = elementSize fs) :
    encodeFields fs (decodeFields fs bs) = .ok bs := by
  induction fs generalizing bs with
  | nil => simp [elementSize] at h; subst h; rfl
  | cons f fs ih =>
    have hs : elementSize (f :: fs) = fieldSize f + elementSize fs := by simp [elementSize]
    rw [hs] at h
    have hd := ih (bs.drop (fieldSize f)) (by rw [List.length_drop]; omega)
    simp only [decodeFields]
    rw [encodeFields_cons, hd]
    cases f with
    | u8 =>
      match bs, h with
      | b :: rest, h =>
        have hb : (b.toNat : Int) ≤ 255 := by have := b.isLt; omega
        have hz : (0 : Int) ≤ b.toNat := by omega
        simp [fieldSize, fieldValue, fieldHolds, hb, fieldBytes, Except.map]
      | [], h => simp [fieldSize] at h; omega
    | u16 =>
      match bs, h with
      | b :: c :: rest, h =>
        have hb := b.isLt
        have hc := c.isLt
        have hh : fieldHolds .u16 ((b.toNat : Int) + 256 * (c.toNat : Int)) = true := by
          simp [fieldHolds]; omega
        have e1 : BitVec.ofInt 8 ((b.toNat : Int) + 256 * (c.toNat : Int)) = b := by
          apply BitVec.eq_of_toNat_eq
          have := ofInt_mod ((b.toNat : Int) + 256 * (c.toNat : Int)); omega
        have e2 : BitVec.ofInt 8 (((b.toNat : Int) + 256 * (c.toNat : Int)) / 256) = c := by
          apply BitVec.eq_of_toNat_eq
          have := ofInt_mod (((b.toNat : Int) + 256 * (c.toNat : Int)) / 256); omega
        simp only [fieldSize, fieldValue, List.take, List.getD_cons_zero, List.getD_cons_succ, hh, if_true,
          fieldBytes, e1, e2, Except.map, List.drop]
        rfl
      | [b], h => simp [fieldSize] at h; omega
      | [], h => simp [fieldSize] at h; omega

/-- A list of values of the layout's arity encodes exactly where each is in its field's range. -/
theorem encodeFields_ok_iff (fs : List Field) (vs : List Int) (hl : vs.length = fs.length) :
    (∃ bs, encodeFields fs vs = .ok bs) ↔ ∀ e ∈ fs.zip vs, fieldHolds e.1 e.2 = true := by
  induction fs generalizing vs with
  | nil => cases vs <;> simp [encodeFields]
  | cons f fs ih =>
    cases vs with
    | nil => simp at hl
    | cons v vs =>
      have := ih vs (by simpa using hl)
      rw [encodeFields_cons]
      simp only [List.zip_cons_cons, List.mem_cons, forall_eq_or_imp]
      rw [← this]
      split
      · rename_i hv
        cases encodeFields fs vs <;> simp [Except.map, hv]
      · rename_i hv; simp [hv]

end Sys2Proof.Machine
end

