-- ==== Sys2Proof/Laws/Hold.lean ====
section
/-! SUPPORT. Lock holds beyond the plain one: probes, failed transfers, absent devices; and the reset write and the
ends of an operation that make or change an object. -/

namespace Sys2Proof.Machine

open Sys2Proof

theorem Oracle.drawResult_cons {o : Oracle} {b rest} (h : o.results = b :: rest) :
    o.drawResult = (b, { o with results := rest }) := by
  unfold Oracle.drawResult; rw [h]

/-- The lock hold of a probe whose zero-length write succeeds (R124). -/
theorem runs_probe_ok {i : Instr} {u : State} {rs d kp r} (hp : u.me.phase = .acquire rs)
    (hs : (scriptOf i u).resume rs = some (.probe d kp)) (hl : u.lock = .free)
    (hd : u.device d = some r) (ho : u.oracle.drawResult.1 = true) :
    ∃ w, Runs i 3 u (w.enter kp (rs ++ [[]])) ∧
      Leaves u w .free [] (heldTx u.turn d .w [] [] true) u.device
        { u.me with holding := false, phase := .release rs (.ok []) } ∧ w.oracle = u.oracle.drawResult.2 := by
  have h1 := exec_attempt_probe hp hs hl
  have l1 := Leaves.locked u rs
  have v1 : SameView u (u.locked rs) := l1.sameView rfl rfl
  have hs1 : (scriptOf i (u.locked rs)).resume rs = some (.probe d kp) := by rw [v1.scriptOf]; exact hs
  have hd1 : (u.locked rs).device d = some r := hd
  have tr : (u.locked rs).nextTransfer d (Prim.write []) r = ([], ⟨r, u.oracle.drawResult.2, []⟩) := by
    rw [Leaves.locked_transfer, ho]; rfl
  have h2 : exec i (u.locked rs) = .next ((u.locked rs).probeWriteStep d rs) := by
    rw [exec_eq_runScript, runScript, show (u.locked rs).me.phase = .body rs by rw [l1.me]]; simp [hs1]
  have e : (u.locked rs).probeWriteStep d rs = ((u.locked rs).transfer d (Prim.write [])).state.setPhase (.release rs (.ok [])) := by
    simp only [State.probeWriteStep, State.transfer_present hd1, tr, State.afterPrim]; simp [ho]
  rw [e] at h2
  have l2 := (l1.trans (Leaves.transfer_present (p := Prim.write []) hd1)).updMe fun a => { a with phase := .release rs (.ok []) }
  rw [tr] at l2
  have v2 : SameView u _ := l2.sameView (by simp [l1.me]) (by simp [l1.me])
  have hs2 := hs
  rw [← v2.scriptOf (i := i)] at hs2
  have h3 := exec_release_probe (by rw [l2.me]) hs2
  have hm : State.lockMine (((u.locked rs).transfer d (Prim.write [])).state.updMe fun a => { a with phase := .release rs (.ok []) }) = true := by
    unfold State.lockMine; rw [l2.lock, l2.turn, l1.lock]; simp
  simp only [State.releaseStep, hm, if_true] at h3
  refine ⟨_, ⟨_, h1, _, h2, _, h3, rfl⟩, ?_, ?_⟩
  · have l3 := l2.unlock
    refine ⟨l3.params, l3.lock, fun e => ?_, by simpa using l3.faults, l3.refused, ?_, l3.turn, ?_, l3.others⟩
    · rw [l3.devices]; simp only [devWith]; split
      · rename_i h; rw [h, hd]
      · rfl
    · rw [l3.history]; simp [heldTx, ho, Prim.write, l1.turn]
    · rw [l3.me]; simp [l1.me]
  · show (((u.locked rs).transfer d (Prim.write [])).state).oracle = _
    rw [State.transfer_present hd1, tr]; rfl

/-- The lock hold of a probe of a present device, up to its one-byte read, where its zero-length write fails
(R124). -/
theorem runs_probe_fail {i : Instr} {u : State} {rs d kp r b rest} (hp : u.me.phase = .acquire rs)
    (hs : (scriptOf i u).resume rs = some (.probe d kp)) (hl : u.lock = .free)
    (hd : u.device d = some r) (ho : u.oracle.results = false :: b :: rest) :
    ∃ w p, Runs i 2 u w ∧
      Leaves u w (.held u.turn) [] [.acquire u.turn, .tx u.turn d .w [] [] false] (devWith u d (r.setPtr p))
        { u.me with holding := true, phase := .probeRead rs } ∧ w.oracle.results = b :: rest ∧ (scriptOf i w).resume rs = some (.probe d kp) := by
  have ho' := Oracle.drawResult_cons ho
  have h1 := exec_attempt_probe hp hs hl
  have l1 := Leaves.locked u rs
  have v1 : SameView u (u.locked rs) := l1.sameView rfl rfl
  have hs1 : (scriptOf i (u.locked rs)).resume rs = some (.probe d kp) := by rw [v1.scriptOf]; exact hs
  have hd1 : (u.locked rs).device d = some r := hd
  have tr : ∃ p o, (u.locked rs).nextTransfer d (Prim.write []) r = ([], ⟨r.setPtr p, o, []⟩) ∧ o.results = b :: rest := by
    rw [Leaves.locked_transfer, ho']
    simp only [Bus.transfer, Bool.false_eq_true, if_false, Prim.write, Bus.failed, storedAddrs, Bus.scramble, Oracle.drawBytes]
    refine ⟨_, _, rfl, ?_⟩
    unfold Oracle.drawByte; split <;> rfl
  obtain ⟨p, o, tr, hor⟩ := tr
  have h2 : exec i (u.locked rs) = .next ((u.locked rs).probeWriteStep d rs) := by
    rw [exec_eq_runScript, runScript, show (u.locked rs).me.phase = .body rs by rw [l1.me]]; simp [hs1]
  have e : (u.locked rs).probeWriteStep d rs = ((u.locked rs).transfer d (Prim.write [])).state.setPhase (.probeRead rs) := by
    simp only [State.probeWriteStep, State.transfer_present hd1, tr, State.afterPrim]; simp [ho']
  rw [e] at h2
  have l2 := (l1.trans (Leaves.transfer_present (p := Prim.write []) hd1)).updMe fun a => { a with phase := .probeRead rs }
  rw [tr] at l2
  have v2 : SameView u _ := l2.sameView (by simp [l1.me]) (by simp [l1.me])
  refine ⟨_, p, ⟨_, h1, _, h2, rfl⟩, ⟨l2.params, l2.lock.trans l1.lock, fun e => ?_, by simpa using l2.faults, l2.refused, ?_, l2.turn, ?_, l2.others⟩, ?_, ?_⟩
  · rw [State.setPhase_eq, l2.devices]; rfl
  · rw [State.setPhase_eq, l2.history]; simp [ho', Prim.write, l1.turn]
  · rw [State.setPhase_eq, l2.me]; simp [l1.me]
  · show (((u.locked rs).transfer d (Prim.write [])).state).oracle.results = _
    rw [State.transfer_present hd1, tr]; exact hor
  · rw [State.setPhase_eq, v2.scriptOf]; exact hs

theorem advances_zero (P : Params) : advances P 0x00 = decide (P.aiModel = .always) := by
  unfold advances; cases P.aiModel <;> simp [aiSet]
theorem nextPtr_zero (P : Params) : nextPtr P 0x00 regMode1 = if P.aiModel = .always then 0x01 else 0x00 := by
  unfold nextPtr; rw [advances_zero]; simp [regMode1]
theorem wakeAfter_zero (P : Params) (old : Byte) (w) : wakeAfter P old 0x00 w = if old &&& P.sleepMask ≠ 0 then some [] else w := by
  simp [wakeAfter, restartSet, sleepSet]

theorem afterReset (P : Params) (g d r o) : QuietWrite P g d [0x00, 0x00] r o ∧ afterWrite P g d [0x00, 0x00] r o =
   (((r.write 0x00 0x00).setPtr (if P.aiModel = .always then 0x01 else 0x00)).setWake
            (if r.read 0x00 &&& P.sleepMask ≠ 0 then some [] else r.wake)) := by
  have := Bus.write_mode1 P g d 0x00 r o []
  rw [nextPtr_zero, wakeAfter_zero, restartTooEarly_zero] at this
  exact ⟨congrArg Bus.raised this, congrArg Bus.dev this⟩

theorem Leaves.enter_new {s t : State} {l fs evs dev me} (h : Leaves s t l fs evs dev me) (dst d F rs) :
    ∃ buf, Leaves s (t.enter (.done (.newController dst d F)) rs) l fs evs dev
      (me.advanced.withNew dst (.controller { devAddr := d, refClk := F, live := true, chan := Vector.replicate 16 none, buf := buf })) := by
  refine ⟨fillBuf (Vector.replicate 5 0) (t.oracle.drawBytes 5).1, ?_⟩
  have h' : Leaves s (t.setOracle (t.oracle.drawBytes 5).2) l fs evs dev me := ⟨h.params, h.lock, h.devices, h.faults, h.refused, h.history, h.turn, h.me, h.others⟩
  exact (h'.updMe fun a => { a with objs := a.objs ++ [.controller { devAddr := d, refClk := F, live := true, chan := Vector.replicate 16 none, buf := fillBuf (Vector.replicate 5 0) (t.oracle.drawBytes 5).1 }], names := bindName a.names dst a.objs.length }).updMe fun a => { a with pc := a.pc + 1, phase := .idle }

theorem Leaves.enter_deinit {s t : State} {l fs evs dev me} (h : Leaves s t l fs evs dev me) {ci : ObjId} {ctl} (ho : me.objs[ci]? = some (.controller ctl)) (rs) :
    Leaves s (t.enter (.done (.deinit ci)) rs) l fs evs dev (me.advanced.withObj ci (.controller { ctl with live := false })) := by
  have : t.object ci = some (.controller ctl) := by simp only [State.object, h.me, ho]
  simp only [State.enter, State.applyEffect, this]
  exact (h.updMe fun a => { a with objs := a.objs.set ci (.controller { ctl with live := false }) }).updMe fun a => { a with pc := a.pc + 1, phase := .idle }

theorem readsAs_mode1 {P r b} (h : readsAs P r 0x00 b) : ∃ draw : Byte, b = (r.read 0x00 &&& ~~~ P.mode1VolatileMask) ||| (draw &&& P.mode1VolatileMask) := by
  simpa [readsAs, regMode1] using h

/-- What a write stores does not depend on the faults raised before it. -/
theorem Bus.writeData_dev (P : Params) (g : AgentId) (d : DevAddr) (data : List Byte) (r : DeviceRegs) (o : Oracle) (f1 f2 : List ModelFault) :
   (Bus.writeData P g d data ⟨r, o, f1⟩).dev = (Bus.writeData P g d data ⟨r, o, f2⟩).dev := by
  induction data generalizing r o f1 f2 with
  | nil => rfl
  | cons b data ih =>
    have key : ∀ f, ∃ f', Bus.store P g d r.ptr b ⟨r, o, f⟩ = ⟨(Bus.store P g d r.ptr b ⟨r, o, []⟩).dev, (Bus.store P g d r.ptr b ⟨r, o, []⟩).oracle, f'⟩ := by
      intro f
      unfold Bus.store
      dsimp only
      split
      · exact ⟨_, rfl⟩
      · split
        · exact ⟨_, rfl⟩
        · exact ⟨_, rfl⟩
    obtain ⟨g1, e1⟩ := key f1
    obtain ⟨g2, e2⟩ := key f2
    simp only [Bus.writeData]
    rw [e1, e2]
    exact ih _ _ _ _

/-- One lock hold whose device is absent (R66, R126). -/
theorem runs_transact_absent {i : Instr} {u : State} {rs d via p k} (hp : u.me.phase = .acquire rs)
    (hs : (scriptOf i u).resume rs = some (.transact d via p k)) (hl : u.lock = .free)
    (hd : u.device d = none) :
    ∃ t, Runs i 3 u t ∧
      Leaves u t .free [] (heldTx u.turn d p.kind p.out (u.oracle.drawBytes p.inLen).1 false) u.device
        { u.me with
          holding := false
          objs := stageObjs u.me.objs via (p.out ++ (u.oracle.drawBytes p.inLen).1)
          status := .errored (.busTransport d (.tx u.turn d p.kind p.out (u.oracle.drawBytes p.inLen).1 false))
          phase := .idle } := by
  have h1 := exec_attempt_transact hp hs hl
  have v1 : SameView u (u.locked rs) := (Leaves.locked u rs).sameView rfl rfl
  have hd1 : (u.locked rs).device d = none := hd
  have hs1 : (scriptOf i (u.locked rs)).resume rs = some (.transact d via p k) := by rw [v1.scriptOf]; exact hs
  have h2 := exec_body (i := i) (u := u.locked rs) (rs := rs) (by simp [State.locked]) hs1
  have hf : (u.locked rs).unlockedFault = [] := by simp [State.unlockedFault, State.lockMine, State.locked]
  have e : (u.locked rs).bodyStep d via p rs =
      ((((u.locked rs).transfer d p).state.stage via (p.out ++ (u.oracle.drawBytes p.inLen).1)).setPhase
        (.release rs (.failed (.tx u.turn d p.kind p.out (u.oracle.drawBytes p.inLen).1 false)))) := by
    simp only [State.bodyStep, State.transfer_absent hd1, State.afterPrim, hf]; rfl
  rw [e] at h2
  have lv := (((Leaves.locked u rs).trans (Leaves.transfer_absent (p := p) hd1)).stage via
    (p.out ++ (u.oracle.drawBytes p.inLen).1)).updMe fun a =>
      { a with phase := .release rs (.failed (.tx u.turn d p.kind p.out (u.oracle.drawBytes p.inLen).1 false)) }
  have v2 : SameView u _ := lv.sameView (by simp [(Leaves.locked u rs).me])
      (by simp [(Leaves.locked u rs).me, stageObjs_bare])
  have hs2 := hs
  rw [← v2.scriptOf (i := i)] at hs2
  have h3 := exec_release (by rw [lv.me]) hs2
  have hm : State.lockMine ((((u.locked rs).transfer d p).state.stage via
    (p.out ++ (u.oracle.drawBytes p.inLen).1)).updMe fun a =>
      { a with phase := .release rs (.failed (.tx u.turn d p.kind p.out (u.oracle.drawBytes p.inLen).1 false)) }) = true := by
    unfold State.lockMine; rw [lv.lock, lv.turn]; simp [State.locked]
  simp only [State.releaseStep, hm, if_true, State.raiseError] at h3
  rw [State.guardRelease_of_not_mine (by simp)] at h3
  have l3 := lv.unlock.updMe fun a => { a with status := .errored (.busTransport d (.tx u.turn d p.kind p.out (u.oracle.drawBytes p.inLen).1 false)), phase := .idle }
  refine ⟨_, ⟨_, h1, _, h2, _, h3, rfl⟩, ?_⟩
  refine ⟨l3.params, l3.lock, fun e => l3.devices e, l3.faults, l3.refused, l3.history, l3.turn, l3.me.trans ?_, l3.others⟩
  simp [(Leaves.locked u rs).me]

theorem Oracle.drawBytes_length (o : Oracle) (n : Nat) : (o.drawBytes n).1.length = n := by
  induction n generalizing o with
  | zero => rfl
  | succ n ih => simp [Oracle.drawBytes, ih]

/-- The settle tracking after the draws of a failed write (R282). -/
theorem Bus.scramble_wake (l : List Byte) (u : Bus) :
    (regMode1 ∉ l → (Bus.scramble l u).dev.wake = u.dev.wake) ∧
    (regMode1 ∈ l → (Bus.scramble l u).dev.wake = none) := by
  induction l generalizing u with
  | nil => simp [Bus.scramble]
  | cons a l ih =>
    obtain ⟨i1, i2⟩ := ih { u with
        dev := (u.dev.write a u.oracle.drawByte.1).setWake (if a = regMode1 then none else u.dev.wake)
        oracle := u.oracle.drawByte.2 }
    refine ⟨fun h => ?_, fun h => ?_⟩
    · rw [Bus.scramble, i1 (fun m => h (List.mem_cons_of_mem _ m))]
      have : a ≠ regMode1 := fun e => h (by simp [e])
      simp [this]
    · rw [Bus.scramble]
      by_cases hm : regMode1 ∈ l
      · exact i2 hm
      · rw [i1 hm]
        have : a = regMode1 := by simpa [hm, eq_comm] using h
        simp [this]

theorem Oracle.Reliable.two {o : Oracle} (h : o.Reliable 2) : o.drawResult.1 = true ∧ o.drawResult.2.drawResult.1 = true := by
  obtain ⟨h1, h2⟩ := h
  unfold Oracle.drawResult
  match hr : o.results with
  | [] => simp [hr] at h2; simp [hr, h2]
  | [a] => simp [hr] at h1 h2; simp [hr, h1, h2]
  | a :: b :: l => simp [hr] at h1 ⊢; exact h1

/-- An operation of one transaction, undisturbed, whose primitive raises a fault (R247): two steps, the second
of which stops the agent and releases its lock. -/
theorem runs_single_faults {i : Instr} {s : State} {d via p k r} (hready : Ready s) (hs : scriptOf i s = .transact d via p k) (hd : s.device d = some r)
    (hr : (s.heldTransfer d p r).2.raised ≠ [])
    (hlen : (s.heldTransfer d p r).1.length = p.inLen) :
    ∃ t, Runs i 2 s t ∧
      Leaves s t .free (s.heldTransfer d p r).2.raised [.acquire s.turn, .tx s.turn d p.kind p.out (s.heldTransfer d p r).1 s.oracle.drawResult.1, .release s.turn]
        (devWith s d (s.heldTransfer d p r).2.dev)
        { s.me with
          holding := false
          attempts := 0
          objs := stageObjs s.me.objs via (p.out ++ (s.heldTransfer d p r).1)
          status := .faulted
          phase := .idle } := by
  have lv := (Leaves.refl s).enter_transact d via p k []
  have hv : SameView s (s.enter (.transact d via p k) []) := lv.sameView rfl (stageObjs_bare ..)
  have he := exec_start hready.idle hs rfl
  have hor : (s.enter (.transact d via p k) []).oracle = s.oracle := by simp
  generalize s.enter (.transact d via p k) [] = u at *
  have hsu : (scriptOf i u).resume [] = some (.transact d via p k) := by rw [hv.scriptOf, hs]; rfl
  have h1 := exec_attempt_transact (by rw [lv.me]) hsu (by rw [lv.lock]; exact hready.free)
  have l1 := Leaves.locked u []
  have v1 : SameView u (u.locked []) := l1.sameView rfl rfl
  have hd1 : (u.locked []).device d = some r := (lv.devices d).trans hd
  have hs1 : (scriptOf i (u.locked [])).resume [] = some (.transact d via p k) := by rw [v1.scriptOf]; exact hsu
  have h2 := exec_body (i := i) (u := u.locked []) (rs := []) (by simp [State.locked]) hs1
  have tr : (u.locked []).nextTransfer d p r = s.heldTransfer d p r := by
    rw [Leaves.locked_transfer, hor, lv.params, lv.turn]; rfl
  have e : (u.locked []).bodyStep d via p [] =
      (((u.locked []).transfer d p).state.stage via (p.out ++ (s.heldTransfer d p r).1)).faultStop (s.heldTransfer d p r).2.raised := by
    simp only [State.bodyStep, State.transfer_present hd1, tr, State.afterPrim]
    rw [if_neg (by simpa using hr)]
  rw [e] at h2
  have l2 := ((((lv.trans l1).trans (Leaves.transfer_present (p := p) hd1)).stage via (p.out ++ (s.heldTransfer d p r).1)).addFaults (s.heldTransfer d p r).2.raised)
  rw [tr] at l2
  have hm : State.lockMine ((((u.locked []).transfer d p).state.stage via (p.out ++ (s.heldTransfer d p r).1)).addFaults (s.heldTransfer d p r).2.raised) = true := by
    unfold State.lockMine; rw [l2.lock, l2.turn]; simp [State.locked, lv.turn]
  have l3 := l2.unlock.updMe fun a => { a with status := .faulted, phase := .idle }
  simp only [State.faultStop, State.guardRelease, hm, if_true] at h2
  refine ⟨_, Runs.of_exec_eq he ⟨_, h1, _, h2, rfl⟩, l3.params, l3.lock, fun e => (l3.devices e).trans ?_, fun f => (l3.faults f).trans (by simp), l3.refused, ?_, l3.turn, l3.me.trans ?_, l3.others⟩
  · simp only [devWith]; split
    · rfl
    · exact (l1.devices e).trans (lv.devices e)
  · refine l3.history.trans ?_; simp [lv.turn, hor, State.locked]
  · rw [l1.me, lv.me]
    simp only [AgentState.mk.injEq, true_and, and_true]
    exact stageObjs_idem _ _ _ _ (by simp [builtBuf, hlen])

theorem elementAddr_led (n : Fin 16) : elementAddr 0x06 ledLayout n.val = ledAddr n := by
  revert n; decide
theorem checkIndex_fin (n : Fin 16) (sc : Script) : checkIndex n.val 16 sc = sc := by
  have := n.isLt
  simp [checkIndex, indexOk]

theorem decodeLed (b0 b1 b2 b3 : Byte) : decodeFields ledLayout [b0, b1, b2, b3] = [(b0.toNat : Int) + 256 * b1.toNat, (b2.toNat : Int) + 256 * b3.toNat] := by
  simp [decodeFields, ledLayout, fieldValue, fieldSize]

theorem encodeLed {on off : Int} (h0 : 0 ≤ on) (h1 : on ≤ 0xFFFF) (h2 : 0 ≤ off) (h3 : off ≤ 0xFFFF) :
   encodeFields ledLayout [on, off] = .ok [BitVec.ofInt 8 on, BitVec.ofInt 8 (on / 256), BitVec.ofInt 8 off, BitVec.ofInt 8 (off / 256)] := by
  simp [encodeFields, ledLayout, fieldHolds, h0, h1, h2, h3, fieldBytes]

/-- An element read, undisturbed (R173, R193). -/
theorem runs_getLed {i : Instr} {s : State} {d ci n k r} {ctl : Controller} (hready : Ready s) (hd : s.device d = some r) (ho : s.oracle.drawResult.1 = true)
   (hs : scriptOf i s = .transact d (some ci) (Prim.writeRead [ledAddr n] 4) k) (hc : s.me.objs[ci]? = some (.controller ctl)) :
   let a : Byte := BitVec.ofNat 8 (0x06 + 4 * n.val)
   let b := fun k => r.read (readAddr (r.adv s.params) a k)
   ∃ w, Runs i 3 s (w.enter (k [b 0, b 1, b 2, b 3]) [[b 0, b 1, b 2, b 3]]) ∧
      Leaves s w .free [] (heldTx s.turn d .wr [a] [b 0, b 1, b 2, b 3] true)
        (devWith s d (r.setPtr (ptrAfter (r.adv s.params) a 4)))
        { s.me.withBuf ci ctl [a, b 0, b 1, b 2, b 3] with
          holding := false
          attempts := 0
          phase := .release [] (.ok [b 0, b 1, b 2, b 3]) } ∧ w.oracle = s.oracle.drawResult.2 := by
  intro a b
  have hh := State.heldTransfer_get (d := d) (r := r) ho (plainSpan_led n).offMode1
  obtain ⟨w, k1, k2, k3⟩ := runs_single hready hs hd ho (by rw [hh]) (by rw [hh]; simp [bytesAt, Prim.writeRead])
  rw [hh] at k1 k2 k3
  refine ⟨w, k1, ⟨k2.params, k2.lock, k2.devices, k2.faults, k2.refused, k2.history, k2.turn, k2.me.trans ?_, k2.others⟩, k3⟩
  rw [stageObjs_some hc]; rfl

/-- An element write, undisturbed (R174, R194). -/
theorem runs_setLed {i : Instr} {s : State} {d ci n k r b0 b1 b2 b3} {ctl : Controller} (hready : Ready s) (hd : s.device d = some r) (ho : s.oracle.drawResult.1 = true)
   (hs : scriptOf i s = .transact d (some ci) (Prim.write (ledAddr n :: [b0, b1, b2, b3])) k) (hc : s.me.objs[ci]? = some (.controller ctl)) :
   let a : Byte := BitVec.ofNat 8 (0x06 + 4 * n.val)
   ∃ w q, Runs i 3 s (w.enter (k []) [[]]) ∧
      Leaves s w .free [] (heldTx s.turn d .w [a, b0, b1, b2, b3] [] true)
        (devWith s d q)
        { s.me.withBuf ci ctl [a, b0, b1, b2, b3] with
          holding := false
          attempts := 0
          phase := .release [] (.ok []) } ∧ w.oracle = s.oracle.drawResult.2 ∧ 
      q.wake = r.wake ∧ q.ptr = ptrAfter (r.adv s.params) a 4 ∧
          ∀ x, q.read x = storedAt (r.adv s.params) r a [b0, b1, b2, b3] x := by
  intro a
  obtain ⟨q, hh, hq⟩ := State.heldTransfer_set (d := d) (r := r) ho (a := ledAddr n) (data := [b0, b1, b2, b3]) (plainSpan_led n) (by simp)
  obtain ⟨w, k1, k2, k3⟩ := runs_single hready hs hd ho (by rw [hh]) (by rw [hh]; rfl)
  rw [hh] at k1 k2 k3
  refine ⟨w, q, k1, ⟨k2.params, k2.lock, k2.devices, k2.faults, k2.refused, k2.history, k2.turn, k2.me.trans ?_, k2.others⟩, k3, hq⟩
  rw [stageObjs_some hc]; rfl

theorem Leaves.congr_me {s t l fs evs dev me me'} (h : Leaves s t l fs evs dev me) (e : me = me') : Leaves s t l fs evs dev me' := e ▸ h

/-- A lock hold whose device is absent (R66, R126). -/
theorem runs_absent {i : Instr} {u : State} {rs d via p k} (hp : u.me.phase = .acquire rs)
    (hs : (scriptOf i u).resume rs = some (.transact d via p k)) (hl : u.lock = .free)
    (hd : u.device d = none) :
    ∃ t, Runs i 3 u t ∧
      Leaves u t .free [] (heldTx u.turn d p.kind p.out (u.oracle.drawBytes p.inLen).1 false) u.device
        { u.me with
          holding := false
          objs := stageObjs u.me.objs via (p.out ++ (u.oracle.drawBytes p.inLen).1)
          status := .errored (.busTransport d (.tx u.turn d p.kind p.out (u.oracle.drawBytes p.inLen).1 false))
          phase := .idle } := by
  have h1 := exec_attempt_transact hp hs hl
  have v1 : SameView u (u.locked rs) := (Leaves.locked u rs).sameView rfl rfl
  have hd1 : (u.locked rs).device d = none := hd
  have hs1 : (scriptOf i (u.locked rs)).resume rs = some (.transact d via p k) := by rw [v1.scriptOf]; exact hs
  have h2 := exec_body (i := i) (u := u.locked rs) (rs := rs) (by simp [State.locked]) hs1
  have hf : (u.locked rs).unlockedFault = [] := by simp [State.unlockedFault, State.lockMine, State.locked]
  have e : (u.locked rs).bodyStep d via p rs =
      ((((u.locked rs).transfer d p).state.stage via (p.out ++ (u.oracle.drawBytes p.inLen).1)).setPhase
        (.release rs (.failed (.tx u.turn d p.kind p.out (u.oracle.drawBytes p.inLen).1 false)))) := by
    simp only [State.bodyStep, State.transfer_absent hd1, State.afterPrim, hf]; rfl
  rw [e] at h2
  have lv := (((Leaves.locked u rs).trans (Leaves.transfer_absent (p := p) hd1)).stage via
    (p.out ++ (u.oracle.drawBytes p.inLen).1)).updMe fun a =>
      { a with phase := .release rs (.failed (.tx u.turn d p.kind p.out (u.oracle.drawBytes p.inLen).1 false)) }
  have v2 : SameView u _ := lv.sameView (by simp [(Leaves.locked u rs).me])
      (by simp [(Leaves.locked u rs).me, stageObjs_bare])
  have hs2 := hs
  rw [← v2.scriptOf (i := i)] at hs2
  have h3 := exec_release (by rw [lv.me]) hs2
  have hm : State.lockMine ((((u.locked rs).transfer d p).state.stage via
    (p.out ++ (u.oracle.drawBytes p.inLen).1)).updMe fun a =>
      { a with phase := .release rs (.failed (.tx u.turn d p.kind p.out (u.oracle.drawBytes p.inLen).1 false)) }) = true := by
    unfold State.lockMine; rw [lv.lock, lv.turn]; simp [State.locked]
  simp only [State.releaseStep, hm, if_true, State.raiseError] at h3
  rw [State.guardRelease_of_not_mine (by simp)] at h3
  have l3 := lv.unlock.updMe fun a => { a with status := .errored (.busTransport d (.tx u.turn d p.kind p.out (u.oracle.drawBytes p.inLen).1 false)), phase := .idle }
  refine ⟨_, ⟨_, h1, _, h2, _, h3, rfl⟩, ?_⟩
  refine ⟨l3.params, l3.lock, fun e => l3.devices e, l3.faults, l3.refused, l3.history, l3.turn, l3.me.trans ?_, l3.others⟩
  simp [(Leaves.locked u rs).me]

end Sys2Proof.Machine
end

