-- ==== Sys2Proof/Laws/Duty.lean ====
section
/-! SUPPORT. The transactions of the controller, the channels and the servos: the PRESCALE read, the duty write and
what it reads back as, the calibration sequence's device states, and which objects an element access keeps. -/

namespace Sys2Proof.Machine

open Sys2Proof

theorem Leaves.congr {s t l fs evs dev me fs' evs' dev' me'} (h : Leaves s t l fs evs dev me) (e1 : fs = fs') (e2 : evs = evs') (e3 : ∀ d, dev d = dev' d) (e : me = me') : Leaves s t l fs' evs' dev' me' := by
  obtain rfl : dev = dev' := funext e3
  subst e1 e2 e; exact h

/-- A read of PRESCALE, undisturbed (R162). -/
theorem runs_prescale {i : Instr} {s : State} {d k r} (hready : Ready s) (hd : s.device d = some r) (ho : s.oracle.drawResult.1 = true)
   (hs : scriptOf i s = getByte d regPrescale k)  :
   ∃ w, Runs i 3 s (w.enter (k (r.read 0xFE)) [[r.read 0xFE]]) ∧
      Leaves s w .free [] (heldTx s.turn d .wr [0xFE] [r.read 0xFE] true)
        (devWith s d (r.setPtr (ptrAfter (r.adv s.params) 0xFE 1)))
        { s.me with
          holding := false
          attempts := 0
          phase := .release [] (.ok [r.read 0xFE]) } := by
  have hh := State.heldTransfer_get (d := d) (r := r) ho (offMode1_one (a := regPrescale) (by decide))
  have e : bytesAt (r.adv s.params) r regPrescale 1 = [r.read 0xFE] := by simp [bytesAt, readAddr, regPrescale]
  rw [e] at hh
  obtain ⟨w, k1, k2, k3⟩ := runs_single hready hs hd ho (by rw [hh]) (by rw [hh]; rfl)
  rw [hh] at k1 k2 k3
  exact ⟨w, k1, k2⟩

/-- The prescale of a frequency under exact arithmetic (R164). -/
theorem prescaleFor_exact (P : Params) (ref freq : Rat) (hx : P.arith = .exact) :
    prescaleFor P (.rat ref) (.rat freq) =
      if freq = 0 then .error (.calibration (.frequency (.rat freq)))
      else
        let p := roundRat P.roundTie (ref / 4096 / freq)
        if 3 ≤ p ∧ p ≤ 255 then .ok (BitVec.ofInt 8 p) else .error (.calibration (.prescale p)) := by
  have hz : Num.isZero (.rat freq) = decide (freq = 0) := by simp [Num.isZero, Num.finiteValue]
  unfold prescaleFor
  rw [hz, hx]
  by_cases h0 : freq = 0
  · simp [h0]
  · simp only [h0, decide_false, Bool.false_eq_true, if_false, Num.div, exactOp, Num.ofInt, Num.ofRat, Num.round, Num.finiteValue, Int.cast_ofNat]
    generalize roundRat P.roundTie (ref / 4096 / freq) = p
    split
    · rw [if_neg (by omega)]
    · split
      · rw [if_neg (by omega)]
      · rw [if_pos (by omega)]

theorem encodeDuty {v : Int} (h0 : 0 ≤ v) (h1 : v ≤ 0xFFFF) : encodeFields ledLayout [(dutyEncode v).1, (dutyEncode v).2] =
   .ok (if v = 0xFFFF then [0x00, 0x10, 0x00, 0x00]
        else [0x00, 0x00, BitVec.ofInt 8 ((v + 1) / 16), BitVec.ofInt 8 ((v + 1) / 16 / 256)]) := by
  by_cases h : v = 0xFFFF
  · subst h; rfl
  · rw [encodeLed (by simp [dutyEncode, h]) (by simp [dutyEncode, h]) (by simp [dutyEncode, h]; omega) (by simp [dutyEncode, h]; omega)]
    simp [dutyEncode, h]

theorem setDuty_eq {ci ctl n} {v : Int} {k} (h0 : 0 ≤ v) (h1 : v ≤ 0xFFFF) : ∃ b0 b1 b2 b3,
   setDuty ci ctl n v k = .transact ctl.devAddr (some ci) (Prim.write (ledAddr n :: [b0, b1, b2, b3])) (fun _ => k) ∧
   [b0, b1, b2, b3] = (if v = 0xFFFF then [0x00, 0x10, 0x00, 0x00]
        else [0x00, 0x00, BitVec.ofInt 8 ((v + 1) / 16), BitVec.ofInt 8 ((v + 1) / 16 / 256)] : List Byte) := by
  unfold setDuty setFields
  rw [encodeDuty h0 h1, if_pos (by simp [fieldHolds, h0, h1])]
  by_cases h : v = 0xFFFF
  · simp only [h, if_true]; exact ⟨_, _, _, _, rfl, rfl⟩
  · simp only [h, if_false]; exact ⟨_, _, _, _, rfl, rfl⟩

theorem runs_duty {i : Instr} {s : State} {d n k r ci} {ctl : Controller} {v : Int} (hready : Ready s) (hd : s.device ctl.devAddr = some r) (ho : s.oracle.drawResult.1 = true)
   (h0 : 0 ≤ v) (h1 : v ≤ 0xFFFF)
   (hs : scriptOf i s = setDuty ci ctl n v k) (hc : s.me.objs[ci]? = some (.controller ctl)) (hde : ctl.devAddr = d) :
   let a : Byte := BitVec.ofNat 8 (0x06 + 4 * n.val)
   let payload : List Byte := if v = 0xFFFF then [0x00, 0x10, 0x00, 0x00]
        else [0x00, 0x00, BitVec.ofInt 8 ((v + 1) / 16), BitVec.ofInt 8 ((v + 1) / 16 / 256)]
   ∃ w q, Runs i 3 s (w.enter k [[]]) ∧
      Leaves s w .free [] (heldTx s.turn d .w (a :: payload) [] true)
        (devWith s d q)
        { s.me.withBuf ci ctl (a :: payload) with
          holding := false
          attempts := 0
          phase := .release [] (.ok []) } ∧ w.oracle = s.oracle.drawResult.2 ∧ 
      q.wake = r.wake ∧ q.ptr = ptrAfter (r.adv s.params) a 4 ∧
          ∀ x, q.read x = storedAt (r.adv s.params) r a payload x := by
  intro a payload
  subst hde
  obtain ⟨b0, b1, b2, b3, e1, e2⟩ := setDuty_eq (ci := ci) (ctl := ctl) (n := n) (k := k) h0 h1
  have := runs_setLed hready hd ho (hs.trans e1) hc
  dsimp only at this
  rw [show payload = [b0, b1, b2, b3] from e2.symm]
  exact this

theorem readAddr_true (a : Byte) (k : Nat) : readAddr true a k = a + BitVec.ofNat 8 k := rfl

theorem decode_after {r q : DeviceRegs} {a : Byte} {v : Int} {m} (h0 : 0 ≤ v) (h1 : v ≤ 0xFFFF)
   (hq : ∀ x, q.read x = storedAt true r a (if v = 0xFFFF then [0x00, 0x10, 0x00, 0x00]
        else [0x00, 0x00, BitVec.ofInt 8 ((v + 1) / 16), BitVec.ofInt 8 ((v + 1) / 16 / 256)]) x) :
   let b := fun k => q.read (readAddr true a k)
   dutyDecode m ((b 0).toNat + 256 * (b 1).toNat) ((b 2).toNat + 256 * (b 3).toNat) = rt v := by
  intro b
  have hb : ∀ k < 4, b k = (if v = 0xFFFF then [0x00, 0x10, 0x00, 0x00]
        else [0x00, 0x00, BitVec.ofInt 8 ((v + 1) / 16), BitVec.ofInt 8 ((v + 1) / 16 / 256)] : List Byte).getD k 0 := by
    intro k hk
    have e : (a + BitVec.ofNat 8 k - a).toNat = k := by
      have : a + BitVec.ofNat 8 k - a = BitVec.ofNat 8 k := by bv_omega
      rw [this]; simp; omega
    simp only [b, hq, readAddr_true, storedAt, if_true, e]
    rw [if_pos]
    split <;> simp <;> omega
  rw [hb 0 (by omega), hb 1 (by omega), hb 2 (by omega), hb 3 (by omega)]
  by_cases hv : v = 0xFFFF
  · subst hv; cases m <;> decide
  · simp only [hv, if_false, List.getD, rt]
    simp only [List.length_cons, List.length_nil, List.getElem?_cons_zero, List.getElem?_cons_succ, Option.getD_some, ofInt_mod]
    have : ((v + 1) / 16) % 256 + 256 * ((v + 1) / 16 / 256 % 256) = (v + 1) / 16 := by omega
    rw [this]
    cases m <;> simp [dutyDecode, fullOn] <;> omega

theorem OwnsChan_of {s t : State} {ch hi h} {ctl ctl' : Controller} (o : OwnsChan s ch hi h ctl) (hn : t.me.names = s.me.names) (ht : t.turn = s.turn)
   (h1 : t.me.objs = s.me.objs.set h.controller (.controller ctl')) (hl : ctl'.live = true) : OwnsChan t ch hi h ctl' := by
  have hne : hi ≠ h.controller := by
    intro e
    have := o.object; rw [e, o.controller] at this; simp at this
  have hlt : h.controller < s.me.objs.length := (List.getElem?_eq_some_iff.mp o.controller).1
  refine ⟨?_, ?_, ?_, hl⟩
  · simpa [State.resolve, hn, ht] using o.named
  · simp only [State.object, h1]; rw [List.getElem?_set_ne (Ne.symm hne)]; exact o.object
  · simp only [State.object, h1]; rw [List.getElem?_set_self hlt]

theorem Leaves.enter_newServo {s t : State} {l fs evs dev me} (h : Leaves s t l fs evs dev me) (dst sv rs) :
    Leaves s (t.enter (.done (.newServo dst sv)) rs) l fs evs dev (me.advanced.withNew dst (.servo sv)) :=
  (h.updMe fun a => { a with objs := a.objs ++ [.servo sv], names := bindName a.names dst a.objs.length }).updMe fun a => { a with pc := a.pc + 1, phase := .idle }

theorem Leaves.enter_calibrate {s t : State} {l fs evs dev me} (h : Leaves s t l fs evs dev me) {i : ObjId} {sv} (ho : me.objs[i]? = some (.servo sv)) (p0 p1 md dr rs) :
    Leaves s (t.enter (.done (.calibrate i p0 p1 md dr)) rs) l fs evs dev (me.advanced.withObj i (.servo { sv with minPulseUs := p0, maxPulseUs := p1, minDuty := md, dutyRange := dr })) := by
  have : t.object i = some (.servo sv) := by simp only [State.object, h.me, ho]
  simp only [State.enter, State.applyEffect, this]
  exact (h.updMe fun a => { a with objs := a.objs.set i (.servo { sv with minPulseUs := p0, maxPulseUs := p1, minDuty := md, dutyRange := dr }) }).updMe fun a => { a with pc := a.pc + 1, phase := .idle }

/-- A fraction read, undisturbed (R213). -/
theorem runs_getFraction {i : Instr} {s : State} {si : ObjId} {sv : Servo} {h : Channel} {ctl : Controller} {r : DeviceRegs} {k : Option Num → Script}
    (hready : Ready s) (hd : s.device ctl.devAddr = some r) (ho : s.oracle.drawResult.1 = true)
    (hs : scriptOf i s = getFraction s si sv h ctl k) (hc : s.me.objs[h.controller]? = some (.controller ctl)) {dc : Int} :
    let a : Byte := BitVec.ofNat 8 (0x06 + 4 * h.index.val)
    let b := fun k => r.read (readAddr (r.adv s.params) a k)
    dutyDecode s.params.fullOnMatch ((b 0).toNat + 256 * (b 1).toNat) ((b 2).toNat + 256 * (b 3).toNat) = dc →
    ∃ w rs, Runs i 3 s (w.enter (if dc = 0 then k none else if sv.dutyRange = 0 then .faultDone (.zeroDutyRange s.turn si)
        else k (some (fractionOf s.params.arith dc sv.minDuty sv.dutyRange))) rs) ∧
      Leaves s w .free [] (heldTx s.turn ctl.devAddr .wr [a] [b 0, b 1, b 2, b 3] true)
        (devWith s ctl.devAddr (r.setPtr (ptrAfter (r.adv s.params) a 4)))
        { s.me.withBuf h.controller ctl [a, b 0, b 1, b 2, b 3] with
          holding := false
          attempts := 0
          phase := .release [] (.ok [b 0, b 1, b 2, b 3]) } := by
  intro a b hdc
  obtain ⟨w, k1, k2, -⟩ := runs_getLed (i := i) (n := h.index) hready hd ho hs hc
  rw [decodeLed] at k1
  subst hdc
  exact ⟨w, _, k1, k2⟩

theorem inRange_nonFinite (y : Num) (h : y = .nan ∨ ∃ n, y = .inf n) (hi : Num) : inRange y hi = false := by
  rcases h with rfl | ⟨n, rfl⟩ <;> rfl

/-- An element access keeps a servo, its channel and its controller but for the transfer buffer. -/
theorem OwnsServo_of {s t : State} {ch si sv h} {ctl ctl' : Controller} (o : OwnsServo s ch si sv h ctl) (hn : t.me.names = s.me.names) (ht : t.turn = s.turn)
   (h1 : t.me.objs = s.me.objs.set h.controller (.controller ctl')) (hl : ctl'.live = true) : OwnsServo t ch si sv h ctl' := by
  have hne : si ≠ h.controller := by
    intro e
    have := o.object; rw [e, o.controller] at this; simp at this
  have hne2 : sv.channel ≠ h.controller := by
    intro e
    have := o.channel; rw [e, o.controller] at this; simp at this
  have hlt : h.controller < s.me.objs.length := (List.getElem?_eq_some_iff.mp o.controller).1
  refine ⟨?_, ?_, ?_, ?_, hl⟩
  · simpa [State.resolve, hn, ht] using o.named
  · simp only [State.object, h1]; rw [List.getElem?_set_ne (Ne.symm hne)]; exact o.object
  · simp only [State.object, h1]; rw [List.getElem?_set_ne (Ne.symm hne2)]; exact o.channel
  · simp only [State.object, h1]; rw [List.getElem?_set_self hlt]

/-- A duty write leaves the pointer advancing. -/
theorem duty_adv {r q : DeviceRegs} {P : Params} {n : Fin 16} {v : Int} (ha : r.adv P = true) (k6 : ∀ x, q.read x = storedAt true r (ledAddr n) (if v = 0xFFFF then [0x00, 0x10, 0x00, 0x00]
        else [0x00, 0x00, BitVec.ofInt 8 ((v + 1) / 16), BitVec.ofInt 8 ((v + 1) / 16 / 256)]) x) : q.adv P = true := by
  unfold DeviceRegs.adv at ha ⊢
  rw [k6 regMode1]
  have : storedAt true r (ledAddr n) (if v = 0xFFFF then [0x00, 0x10, 0x00, 0x00]
      else [0x00, 0x00, BitVec.ofInt 8 ((v + 1) / 16), BitVec.ofInt 8 ((v + 1) / 16 / 256)]) regMode1 = r.read regMode1 := by
    have key : ∀ n : Fin 16, ¬ (regMode1 - ledAddr n).toNat < 4 := by decide
    simp only [storedAt, if_true]
    rw [if_neg]
    have := key n
    split <;> simpa using this
  exact (congrArg _ this).trans ha

/-- A rounding moves by at most one half (R8). -/
theorem round_near (tie : RoundTie) (x : Rat) : -(1/2) ≤ (roundRat tie x : Rat) - x ∧ (roundRat tie x : Rat) - x ≤ 1/2 := by
  have h1 : ((x + 1/2).floor : Rat) ≤ x + 1/2 := Int.floor_le (x + 1/2)
  have h2 : x + 1/2 < ((x + 1/2).floor : Rat) + 1 := Int.lt_floor_add_one (x + 1/2)
  cases tie with
  | halfUp => simp only [roundRat]; constructor <;> linarith
  | halfEven =>
    simp only [roundRat]
    split
    · rename_i h
      push_cast
      constructor <;> linarith [h.1]
    · constructor <;> linarith

end Sys2Proof.Machine
end

