-- ==== Sys2Proof/Laws/Chain.lean ====
section
/-! SUPPORT. Operations of several transactions: where one stands before its next transaction, and the six steps of
the calibration sequence (R163). -/

namespace Sys2Proof.Machine

open Sys2Proof

/-- The next transport results are `l`, however many bytes are drawn between them. -/
def Answers : List Bool → Oracle → Prop
  | [], _ => True
  | b :: l, o => ∀ o' : Oracle, o'.results = o.results → o.drawn ≤ o'.drawn → o'.drawResult.1 = b ∧ Answers l o'.drawResult.2

theorem Answers.head {b l o} (h : Answers (b :: l) o) : o.drawResult.1 = b := (h o rfl le_rfl).1
theorem Answers.tail {b l o} (h : Answers (b :: l) o) : Answers l o.drawResult.2 := (h o rfl le_rfl).2
theorem Answers.mono {l o o'} (h : Answers l o) (h1 : o'.results = o.results) (h2 : o.drawn ≤ o'.drawn) : Answers l o' := by
  cases l with
  | nil => trivial
  | cons b l => exact fun o2 e1 e2 => h o2 (e1.trans h1) (h2.trans e2)
theorem Answers.drawByte {l o} (h : Answers l o) : Answers l o.drawByte.2 := by
  refine h.mono ?_ ?_
  · unfold Oracle.drawByte; split <;> rfl
  · unfold Oracle.drawByte; split <;> simp

theorem Answers.of_take {l o} (h : o.results.take l.length = l) : Answers l o := by
  induction l generalizing o with
  | nil => trivial
  | cons b l ih =>
    intro o' h1 h2
    rw [← h1] at h
    match hr : o'.results with
    | [] => rw [hr] at h; simp at h
    | c :: rest =>
      rw [hr] at h; simp at h
      rw [Oracle.drawResult_cons hr]
      exact ⟨h.1, ih h.2⟩

theorem Answers.of_reliable {n o} (h : Oracle.Reliable n o) : Answers (List.replicate n true) o := by
  induction n generalizing o with
  | zero => trivial
  | succ n ih =>
    obtain ⟨g1, g2⟩ := h
    intro o' h1 h2
    match hr : o'.results with
    | [] =>
      rw [← h1, hr] at g2
      have := g2 (by simp)
      unfold Oracle.drawResult; rw [hr]
      refine ⟨this _ h2, ih ⟨by simp [hr], fun _ k hk => this k (by simp at hk; omega)⟩⟩
    | c :: rest =>
      rw [← h1, hr] at g1 g2
      rw [Oracle.drawResult_cons hr]
      refine ⟨g1 c (by simp), ih ⟨fun r hr' => g1 r (by simp [hr']), fun hl k hk => g2 (by simpa using hl) k (h2.trans hk)⟩⟩

/-- `u` is where `s` has got to inside its operation, about to take the lock for the next transaction. -/
structure At (i : Instr) (s u : State) (rs : List (List Byte)) (evs : List Event) (dev : DevAddr → Option DeviceRegs) (l : List Bool) : Prop where
  leaves : ∃ hb, Leaves s u .free [] evs dev { s.me with holding := hb, attempts := 0, phase := .acquire rs }
  answers : Answers l u.oracle

theorem At.script {i s u rs evs dev l} (h : At i s u rs evs dev l) : scriptOf i u = scriptOf i s := by
  obtain ⟨hb, lv⟩ := h.leaves
  exact (lv.sameView (by simp) (by simp)).scriptOf i

/-- Registers of one device replaced. -/
def devUpd (dev : DevAddr → Option DeviceRegs) (d : DevAddr) (q : DeviceRegs) : DevAddr → Option DeviceRegs := fun e => if e = d then some q else dev e

/-- A transaction that succeeds. -/
theorem At.transact {i s u rs evs dev l d p k r bs q o'} (h : At i s u rs evs dev (true :: l)) (hs : (scriptOf i s).resume rs = some (.transact d none p k))
    (hd : dev d = some r) (ht : Bus.transfer s.params s.turn d p true ⟨r, u.oracle.drawResult.2, []⟩ = (bs, ⟨q, o', []⟩)) (ho : Answers l u.oracle.drawResult.2 → Answers l o') :
    ∃ w, Runs i 3 u (w.enter (k bs) (rs ++ [bs])) ∧ Leaves s w .free [] (evs ++ heldTx s.turn d p.kind p.out bs true) (devUpd dev d q) { s.me with holding := false, attempts := 0, phase := .release rs (.ok bs) } ∧ Answers l w.oracle := by
  obtain ⟨hb, lv⟩ := h.leaves
  have hh : u.heldTransfer d p r = (bs, ⟨q, o', []⟩) := by
    unfold State.heldTransfer; rw [h.answers.head, lv.params, lv.turn]; exact ht
  obtain ⟨w, k1, k2, k3⟩ := runs_transact (i := i) (u := u) (rs := rs) (by rw [lv.me]) (by rw [h.script]; exact hs) lv.lock ((lv.devices d).trans hd) h.answers.head (by rw [hh])
  rw [hh] at k1 k2 k3
  have l2 := lv.trans k2
  refine ⟨w, k1, l2.congr rfl (by rw [lv.turn]) (fun e => ?_) ?_, ?_⟩
  · simp only [devWith, devUpd]; split
    · rfl
    · exact lv.devices e
  · rw [lv.me]; simp
  · rw [k3]; exact ho h.answers.tail

/-- A transaction that fails (R66, R126). -/
theorem At.fails {i s u rs evs dev l d p k r} (h : At i s u rs evs dev (false :: l)) (hs : (scriptOf i s).resume rs = some (.transact d none p k))
    (hd : dev d = some r) :
    ∃ t q inp, Runs i 3 u t ∧ t.lock = .free ∧ t.me.status = .errored (.busTransport d (.tx s.turn d p.kind p.out inp false)) ∧
      t.me.pc = s.me.pc ∧ (∀ f, f ∈ t.faults ↔ f ∈ s.faults) ∧
      t.history = s.history ++ (evs ++ heldTx s.turn d p.kind p.out inp false) ∧
      t.device d = some q ∧ ∀ x, x ∉ storedAddrs s.params (r.read regMode1) p.out → q.read x = r.read x := by
  obtain ⟨hb, lv⟩ := h.leaves
  obtain ⟨t, k1, k2⟩ := runs_transact_fails (i := i) (u := u) (rs := rs) (by rw [lv.me]) (by rw [h.script]; exact hs) lv.lock ((lv.devices d).trans hd) h.answers.head
  have l2 := lv.trans k2
  refine ⟨t, _, (u.heldTransfer d p r).1, k1, l2.lock, by rw [l2.me, lv.turn], by rw [l2.me, lv.me], ?_, ?_, (l2.devices d).trans (by simp [devWith]; rfl), ?_⟩
  · intro f; simpa using l2.faults f
  · rw [l2.history, lv.turn]
  · intro x hx
    simp only [State.heldTransfer, h.answers.head, Bus.transfer]
    simpa [lv.params] using Bus.failed_read u.params p.out ⟨r, u.oracle.drawResult.2, []⟩ x (by rw [lv.params]; exact hx)

/-- What the agent comes to after a transaction, or after a delay. -/
theorem At.next {i s w rs evs dev l d p k how} (h : Leaves s w .free [] evs dev { s.me with holding := false, attempts := 0, phase := how }) (ha : Answers l w.oracle) : At i s (w.enter (.transact d none p k) rs) rs evs dev l :=
  ⟨⟨_, h.enter_transact d none p k rs⟩, by simpa using ha⟩

theorem Bus.transfer_get_mode1 (P : Params) (g d r o) : Bus.transfer P g d (Prim.writeRead [regMode1] 1) true ⟨r, o, []⟩ =
   ([mode1ReadValue P (r.read regMode1) o.drawByte.1], ⟨r.setPtr (nextPtr P (r.read regMode1) regMode1), o.drawByte.2, []⟩) := by
  simpa [Bus.transfer, Prim.writeRead, Bus.write, Bus.writeData] using Bus.readBytes_mode1 P (r.setPtr regMode1) o [] rfl

theorem Bus.transfer_set_mode1 (P : Params) (g d r o) {v : Byte} (h : restartTooEarly P g v r.wake = false) : Bus.transfer P g d (Prim.write [regMode1, v]) true ⟨r, o, []⟩ =
   ([], ⟨((r.write regMode1 v).setPtr (nextPtr P v regMode1)).setWake (wakeAfter P (r.read regMode1) v r.wake), o, []⟩) := by
  simp only [Bus.transfer, if_true, Prim.write]
  rw [Bus.write_mode1, h]; rfl

theorem Bus.transfer_set_prescale (P : Params) (g d r o) {v : Byte} (h : sleepSet P (r.read regMode1) = true) : Bus.transfer P g d (Prim.write [regPrescale, v]) true ⟨r, o, []⟩ =
   ([], ⟨(r.write regPrescale v).setPtr (nextPtr P (r.read regMode1) regPrescale), o, []⟩) := by
  simp only [Bus.transfer, if_true, Prim.write]
  rw [Bus.write_prescale _ _ _ _ _ _ h]; rfl

theorem sleepSet_sleepEntry {P : Params} (h : P.sleepMask ≠ 0) (old : Byte) : sleepSet P (sleepEntry P old) = true := by
  have : ∀ a m : Byte, m ≠ 0 → ((a ||| m) &&& m != 0) = true := by
    intro a m hm; have : (a ||| m) &&& m = m := by ext i; simp; intro h; exact .inr h
    rw [this]; simpa using hm
  exact this _ _ h

theorem restartSet_restartAi {P : Params} (h : P.restartMask ≠ 0) (old : Byte) : restartSet P (restartAi P old) = true := by
  have : ∀ a m n : Byte, m ≠ 0 → ((a ||| m ||| n) &&& m != 0) = true := by
    intro a m n hm; have : (a ||| m ||| n) &&& m = m := by ext i; simp; intro h; exact .inl (.inr h)
    rw [this]; simpa using hm
  exact this _ _ _ h

theorem mem_insertAgent (g h : AgentId) (S : List AgentId) : h ∈ insertAgent g S ↔ h = g ∨ h ∈ S := by
  induction S with
  | nil => simp [insertAgent]
  | cons a S ih =>
    simp only [insertAgent]; split
    · simp
    · split
      · rename_i e; subst e; simp
      · simp [ih]; tauto

theorem restartTooEarly_of_waited {P : Params} {g v w} (h : ∀ S, w = some S → g ∈ S) : restartTooEarly P g v w = false := by
  unfold restartTooEarly
  cases w with
  | none => simp
  | some S => simp [h S rfl]

theorem SleepsQuietly.sleepEntry {P g r} (h : SleepsQuietly P g r) (old : Byte) : restartTooEarly P g (sleepEntry P old) r.wake = false := by
  rcases h with h | h
  · have : restartSet P (Machine.sleepEntry P old) = false := by
      have key : ∀ a c m r : Byte, (m ||| ~~~c) &&& r = 0 → ((a &&& ~~~c) ||| m) &&& r = 0 := by
        intro a c m r h
        have : (((a &&& ~~~c) ||| m) &&& r) = ((a ||| m) &&& ((m ||| ~~~c) &&& r)) := by
          ext i hi; simp only [BitVec.getElem_and, BitVec.getElem_or, BitVec.getElem_not]
          have key : ∀ x y z w : Bool, ((x && !y || z) && w) = ((x || z) && ((z || !y) && w)) := by decide
          exact key _ _ _ _
        rw [this, h]; simp
      simp [restartSet, Machine.sleepEntry, key _ _ _ _ h]
    simp [restartTooEarly, this]
  · exact restartTooEarly_of_waited h

theorem wakeAfter_sleep {P old b w} (h : sleepSet P b = true) : wakeAfter P old b w = none := by simp [wakeAfter, h]
theorem wakeAfter_restart {P old b w} (h : restartSet P b = true) : wakeAfter P old b w = none := by simp [wakeAfter, h]


theorem At.congr {i s u rs evs dev dev' l} (h : At i s u rs evs dev l) (e : ∀ d, dev d = dev' d) : At i s u rs evs dev' l := by
  obtain rfl : dev = dev' := funext e; exact h

theorem devUpd_twice {dev : DevAddr → Option DeviceRegs} {d q q' q''} (h : q' = q'') : ∀ e, devUpd (devUpd dev d q) d q' e = devUpd dev d q'' e := by
  subst h; intro e; simp only [devUpd]; split <;> rfl

section chain
variable {s : State} {i : Instr} {d : DevAddr} {r : DeviceRegs} {p : Byte}

theorem cal_start (hr : Ready s) (hs : scriptOf i s = calibrationSequence s.params d p) {l} (ha : Answers l s.oracle) :
    ∃ u, exec i s = exec i u ∧ At i s u [] [] s.device l :=
  ⟨_, exec_start hr.idle hs rfl, ⟨⟨s.me.holding, by
    have := (Leaves.refl s).enter_transact d none (Prim.writeRead [regMode1] 1) (fun bs => (fun old =>
    setByte d regMode1 (sleepEntry s.params old) <|
    setByte d regPrescale p <|
    setByte d regMode1 old <|
    .delay Config.oscSettleMs <|
    setByte d regMode1 (restartAi s.params old) <|
    .done .none) (bs.getD 0 0)) []
    rw [hr.free] at this
    exact this⟩, by simpa [calibrationSequence, getByte] using ha⟩⟩

/-- Registers after steps (1) to (4) of the sequence. -/
def cal1 (P : Params) (r : DeviceRegs) : DeviceRegs := r.setPtr (nextPtr P (r.read regMode1) regMode1)
def cal2 (P : Params) (r : DeviceRegs) (old : Byte) : DeviceRegs :=
  (((cal1 P r).write regMode1 (sleepEntry P old)).setPtr (nextPtr P (sleepEntry P old) regMode1)).setWake none
def cal3 (P : Params) (r : DeviceRegs) (old p : Byte) : DeviceRegs :=
  ((cal2 P r old).write regPrescale p).setPtr (nextPtr P (sleepEntry P old) regPrescale)
def cal4 (P : Params) (r : DeviceRegs) (old p : Byte) : DeviceRegs :=
  (((cal3 P r old p).write regMode1 old).setPtr (nextPtr P old regMode1)).setWake (wakeAfter P (sleepEntry P old) old none)

theorem cal_step1 (hs : scriptOf i s = calibrationSequence s.params d p) {u l} (hu : At i s u [] [] s.device (true :: l)) (hd : s.device d = some r) :
   ∃ w old, Runs i 3 u w ∧ readsAs s.params r 0x00 old ∧ At i s w [[old]] (heldTx s.turn d .wr [0x00] [old] true) (devUpd s.device d (cal1 s.params r)) l := by
  obtain ⟨w, h1, h2, h3⟩ := hu.transact (by rw [hs]; rfl) hd (Bus.transfer_get_mode1 ..) Answers.drawByte
  refine ⟨_, mode1ReadValue s.params (r.read regMode1) u.oracle.drawResult.2.drawByte.1, h1, ?_, At.next h2 h3⟩
  simp only [readsAs, regMode1, mode1ReadValue]; exact ⟨_, rfl⟩

theorem cal_step2 (hs : scriptOf i s = calibrationSequence s.params d p) (hq : SleepsQuietly s.params s.turn r) (hm : s.params.sleepMask ≠ 0) {u l old evs} (hu : At i s u [[old]] evs (devUpd s.device d (cal1 s.params r)) (true :: l)) :
   ∃ w, Runs i 3 u w ∧ At i s w [[old], []] (evs ++ heldTx s.turn d .w [0x00, sleepEntry s.params old] [] true) (devUpd s.device d (cal2 s.params r old)) l := by
  obtain ⟨w, h1, h2, h3⟩ := hu.transact (d := d) (by rw [hs]; rfl) (by simp [devUpd]; rfl) (Bus.transfer_set_mode1 _ _ _ _ _ (by exact hq.sleepEntry old)) id
  exact ⟨_, h1, (At.next h2 h3).congr (devUpd_twice (by rw [wakeAfter_sleep (sleepSet_sleepEntry hm _)]; rfl))⟩

theorem cal_step3 (hs : scriptOf i s = calibrationSequence s.params d p) (hm : s.params.sleepMask ≠ 0) {u l old evs} (hu : At i s u [[old], []] evs (devUpd s.device d (cal2 s.params r old)) (true :: l)) :
   ∃ w, Runs i 3 u w ∧ At i s w [[old], [], []] (evs ++ heldTx s.turn d .w [0xFE, p] [] true) (devUpd s.device d (cal3 s.params r old p)) l := by
  have e : (cal2 s.params r old).read regMode1 = sleepEntry s.params old := by simp [cal2]
  obtain ⟨w, h1, h2, h3⟩ := hu.transact (d := d) (by rw [hs]; rfl) (by simp [devUpd]; rfl) (Bus.transfer_set_prescale _ _ _ _ _ (by rw [e]; exact sleepSet_sleepEntry hm old)) id
  exact ⟨_, h1, (At.next h2 h3).congr (devUpd_twice (by rw [e]; rfl))⟩

theorem cal_step4 (hs : scriptOf i s = calibrationSequence s.params d p) {u l old evs} (hu : At i s u [[old], [], []] evs (devUpd s.device d (cal3 s.params r old p)) (true :: l)) :
   ∃ w, Runs i 4 u w ∧ At i s w [[old], [], [], [], []] (evs ++ heldTx s.turn d .w [0x00, old] [] true ++ [.delay s.turn 5]) (fun e => if e = d then some ((cal4 s.params r old p).discharge s.turn) else (s.device e).map (DeviceRegs.discharge s.turn)) l := by
  have e : (cal3 s.params r old p).read regMode1 = sleepEntry s.params old := by simp [cal3, cal2, regMode1, regPrescale]
  have e2 : (cal3 s.params r old p).wake = none := by simp [cal3, cal2]
  obtain ⟨w, h1, h2, h3⟩ := hu.transact (d := d) (by rw [hs]; rfl) (by simp [devUpd]; rfl) (Bus.transfer_set_mode1 _ _ _ _ _ (by rw [e2]; simp [restartTooEarly])) id
  rw [e, e2] at h2
  have l3 := h2.enter_delay Config.oscSettleMs (setByte d regMode1 (restartAi s.params old) (.done .none)) [[old], [], [], []]
  have hv : SameView s _ := l3.sameView rfl rfl
  have hw := exec_wait (i := i) (rs := [[old], [], [], []]) (ms := Config.oscSettleMs) (kd := setByte d regMode1 (restartAi s.params old) (.done .none)) (by rw [l3.me]) (by rw [hv.scriptOf, hs]; rfl)
  have l4 := l3.trans (Leaves.delay _ Config.oscSettleMs)
  rw [l3.me, l3.lock, l3.turn] at l4
  refine ⟨_, h1.trans (Runs.one hw), ?_⟩
  have := At.next (i := i) (rs := [[old], [], [], [], []]) (l := l) (d := d) (p := Prim.write [regMode1, restartAi s.params old]) (k := fun _ => .done .none) l4 (by rw [State.delay_oracle]; exact h3)
  refine At.congr this fun e => ?_
  rw [if_pos le_rfl, l3.devices]
  simp only [devUpd]
  split <;> rfl

theorem cal_step5 (hs : scriptOf i s = calibrationSequence s.params d p) (hm : s.params.restartMask ≠ 0) {u l old evs dev q} (hu : At i s u [[old], [], [], [], []] evs dev (true :: l)) (hd : dev d = some q) (hq : ∀ S, q.wake = some S → s.turn ∈ S) :
   ∃ w, Runs i 3 u w ∧ Leaves s w .free [] (evs ++ heldTx s.turn d .w [0x00, restartAi s.params old] [] true) (devUpd dev d (((q.write regMode1 (restartAi s.params old)).setPtr (nextPtr s.params (restartAi s.params old) regMode1)).setWake none)) s.me.done := by
  obtain ⟨w, h1, h2, h3⟩ := hu.transact (d := d) (by rw [hs]; rfl) hd (Bus.transfer_set_mode1 _ _ _ _ _ (restartTooEarly_of_waited hq)) id
  have l3 := h2.enter_done_none ([[old], [], [], [], []] ++ [[]])
  rw [wakeAfter_restart (restartSet_restartAi hm _)] at l3
  exact ⟨_, h1, l3⟩

end chain

theorem OwnsCtrl.freqSet {s : State} {c ci ctl freq F p} (o : OwnsCtrl s c ci ctl) (hF : Sys2Proof.Num.operand s.params.arith freq = some F) (hp : prescaleFor s.params ctl.refClk F = .ok p) :
   scriptOf (.freqSet c freq) s = calibrationSequence s.params ctl.devAddr p := by
  simp only [scriptOf, freqSetScript]; rw [o.withCtrl, withNum_operand hF, hp]

theorem cal4_wake (P r old p) : (cal4 P r old p).wake = none ∨ (cal4 P r old p).wake = some [] := by
  simp only [cal4, DeviceRegs.setWake_wake, wakeAfter]; split
  · simp
  · split <;> simp

theorem discharge_waits (g : AgentId) (q : DeviceRegs) : ∀ S, (q.discharge g).wake = some S → g ∈ S := by
  intro S h
  simp only [DeviceRegs.discharge, DeviceRegs.setWake_wake, Option.map_eq_some_iff] at h
  obtain ⟨T, -, rfl⟩ := h
  simp [mem_insertAgent]

/-- The primitive of a write inside a lock hold of the stepping agent, whatever other agents did before it: it acts on
the device as it finds it (R75, R126, R247). -/
theorem exec_body_write {i : Instr} {s : State} {rs d out k r q o' raised} (hp : s.me.phase = .body rs)
    (hs : (scriptOf i s).resume rs = some (.transact d none (Prim.write out) k)) (hl : s.lock = .held s.turn)
    (hd : s.device d = some r) (ho : s.oracle.drawResult.1 = true)
    (hb : Bus.write s.params s.turn d out ⟨r, s.oracle.drawResult.2, []⟩ = ⟨q, o', raised⟩) :
    (raised = [] → ∃ t, exec i s = .next t ∧ Leaves s t s.lock [] [.tx s.turn d .w out [] true] (devWith s d q)
      { s.me with phase := .release rs (.ok []) }) ∧
    (raised ≠ [] → ∃ t, exec i s = .next t ∧
      Leaves s t .free raised [.tx s.turn d .w out [] true, .release s.turn] (devWith s d q)
        (({ s.me with holding := false } : AgentState).halted .faulted)) := by
  have h := exec_body hp hs
  have hm : s.lockMine = true := by simp [State.lockMine, hl]
  have tr : s.nextTransfer d (Prim.write out) r = ([], ⟨q, o', raised⟩) := by
    simp [State.nextTransfer, ho, Bus.transfer, Prim.write, State.unlockedFault, hm, hb, Bus.readBytes]
  have lv := Leaves.transfer_present (p := Prim.write out) hd
  rw [tr, ho] at lv
  refine ⟨fun hr => ⟨_, h, ?_⟩, fun hr => ⟨_, h, ?_⟩⟩
  · have e : s.bodyStep d none (Prim.write out) rs = (s.transfer d (Prim.write out)).state.setPhase (.release rs (.ok [])) := by
      simp only [State.bodyStep, State.transfer_present hd, tr, State.afterPrim, hr, ho]; rfl
    rw [e]
    exact lv.updMe fun a => { a with phase := .release rs (.ok []) }
  · have e : s.bodyStep d none (Prim.write out) rs = (s.transfer d (Prim.write out)).state.faultStop raised := by
      simp only [State.bodyStep, State.transfer_present hd, tr, State.afterPrim]
      rw [if_neg (by simpa using hr)]; rfl
    rw [e]
    have l2 := lv.addFaults raised
    unfold State.faultStop
    rw [State.guardRelease_of_mine (by rw [l2.lock, l2.turn]; exact hl)]
    exact l2.unlock.updMe fun a => { a with status := .faulted, phase := .idle }

end Sys2Proof.Machine
end

