-- ==== Sys2Proof/Laws/Faults.lean ====
section
/-! SUPPORT. Which model faults a step can add to the sticky set, and when (R247). -/

namespace Sys2Proof.Machine

open Sys2Proof

/-- The model faults that a store raises (R65, R282). -/
def ModelFault.ofDevice (f : ModelFault) : Bool :=
  match f with
  | .prescaleWhileRunning _ => true
  | .restartBeforeSettle _ => true
  | _ => false

theorem Bus.store_faults (P : Params) (g : AgentId) (d : DevAddr) (a b : Byte) (u : Bus) {f : ModelFault}
    (h : f ∈ (u.store P g d a b).raised) : f ∈ u.raised ∨ f.ofDevice = true := by
  unfold Bus.store at h
  split at h
  · dsimp only at h
    split at h
    · rcases List.mem_append.mp h with h | h
      · exact .inl h
      · rw [List.mem_singleton.mp h]; exact .inr rfl
    · exact .inl h
  · split at h
    · rcases List.mem_append.mp h with h | h
      · exact .inl h
      · rw [List.mem_singleton.mp h]; exact .inr rfl
    · exact .inl h

theorem Bus.writeData_faults (P : Params) (g : AgentId) (d : DevAddr) (data : List Byte) (u : Bus) {f : ModelFault}
    (h : f ∈ (Bus.writeData P g d data u).raised) : f ∈ u.raised ∨ f.ofDevice = true := by
  induction data generalizing u with
  | nil => exact .inl h
  | cons b rest ih =>
    rcases ih _ h with h | h
    · exact Bus.store_faults P g d u.dev.ptr b u h
    · exact .inr h

/-- A transfer raises what was raised before it, or a fault of a store. -/
theorem Bus.transfer_faults (P : Params) (g : AgentId) (d : DevAddr) (p : Prim) (r : Bool) (u : Bus)
    {f : ModelFault} (h : f ∈ (Bus.transfer P g d p r u).2.raised) : f ∈ u.raised ∨ f.ofDevice = true := by
  unfold Bus.transfer at h
  split at h
  · obtain ⟨q, -, hq, -⟩ := Bus.readBytes_dev P p.inLen (u.write P g d p.out)
    rw [hq] at h
    cases hp : p.out with
    | nil => rw [hp] at h; exact .inl h
    | cons a data => rw [hp] at h; exact Bus.writeData_faults P g d data ⟨u.dev.setPtr a, u.oracle, u.raised⟩ h
  · simp only [Bus.failed_raised] at h; exact .inl h

theorem State.transfer_raised (s : State) (d : DevAddr) (p : Prim) {f : ModelFault} (h : f ∈ (s.transfer d p).raised) :
    (f = .unlockedBusAccess s.turn ∧ s.lock ≠ .held s.turn) ∨ f.ofDevice = true := by
  have key : f ∈ s.unlockedFault → f = .unlockedBusAccess s.turn ∧ s.lock ≠ .held s.turn := by
    intro hf
    unfold State.unlockedFault at hf
    split at hf
    · simp at hf
    · rename_i hm; exact ⟨by simpa using hf, by simpa [State.lockMine] using hm⟩
  cases hd : s.device d with
  | none => rw [State.transfer_absent hd] at h; exact .inl (key h)
  | some r =>
    rw [State.transfer_present hd] at h
    exact (Bus.transfer_faults _ _ _ _ _ _ h).imp key id

/-! ### The parts of a step -/

theorem State.faultStop_faults (s : State) (fs : List ModelFault) (f : ModelFault) :
    f ∈ (s.faultStop fs).faults ↔ f ∈ s.faults ∨ f ∈ fs := by
  rw [← State.mem_addFaults]
  exact Iff.of_eq (congrArg (f ∈ ·) (State.guardRelease_faults _))

theorem State.raiseError_faults (s : State) (e : ErrorCode) : (s.raiseError e).faults = s.faults :=
  State.guardRelease_faults s

theorem State.refuseOp_faults (s : State) : s.refuseOp.faults = s.faults := State.guardRelease_faults s.setRefused

theorem State.endProgram_faults (s : State) : s.endProgram.faults = s.faults := State.guardRelease_faults s

theorem State.applyEffect_faults (s : State) (eff : Effect) : (s.applyEffect eff).faults = s.faults := by
  cases eff <;> simp only [State.applyEffect] <;> repeat' (first | rfl | split)

theorem State.stage_faults (s : State) (via : Option ObjId) (bs : List Byte) : (s.stage via bs).faults = s.faults := by
  rcases s.stage_cases via bs with e | ⟨f, e⟩ <;> rw [e]; rfl

theorem State.delay_faults (s : State) (ms : Rat) : (s.delay ms).faults = s.faults := by
  unfold State.delay; split <;> rfl

/-- The script is the fault `f`. -/
def Script.isFault (sc : Script) (f : ModelFault) : Prop := sc = .fault f ∨ sc = .faultDone f

/-- What coming to a script adds. -/
theorem State.enter_faults (s : State) (sc : Script) (rs : List (List Byte)) {f : ModelFault}
    (h : f ∈ (s.enter sc rs).faults) :
    f ∈ s.faults ∨ sc.isFault f ∨ (sc = .unlock ∧ f = .unbalancedRelease s.turn ∧ s.lock ≠ .held s.turn) := by
  cases sc with
  | done eff => exact .inl ((s.applyEffect_faults eff) ▸ h)
  | raise e => exact .inl ((s.raiseError_faults e) ▸ h)
  | fault f' =>
    rcases (s.faultStop_faults [f'] f).mp h with h | h
    · exact .inl h
    · rw [List.mem_singleton.mp h]; exact .inr (.inl (.inl rfl))
  | faultDone f' =>
    rcases (State.faultStop_faults _ [f'] f).mp h with h | h
    · exact .inl h
    · rw [List.mem_singleton.mp h]; exact .inr (.inl (.inr rfl))
  | refuse => exact .inl (s.refuseOp_faults ▸ h)
  | tryLock dst => simp only [State.enter, State.tryLockOp] at h; split at h <;> exact .inl h
  | unlock =>
    simp only [State.enter, State.unlockOp] at h
    split at h
    · exact .inl h
    · rename_i hm
      rcases (State.faultStop_faults _ _ f).mp h with h | h
      · exact .inl h
      · exact .inr (.inr ⟨rfl, List.mem_singleton.mp h, by simpa [State.lockMine] using hm⟩)
  | acquire d => exact .inl h
  | transact d via p k => exact .inl ((s.stage_faults via (builtBuf p)) ▸ h)
  | probe d k => exact .inl h
  | delay ms k => exact .inl h

theorem State.attempt_faults (s : State) (sc : Script) (rs : List (List Byte)) :
    (s.attempt sc rs).faults = s.faults := by
  unfold State.attempt
  split
  · rfl
  · split
    · split <;> rfl
    · simp only [State.failedAttempt]
      split
      · exact State.raiseError_faults _ _
      · rfl

theorem State.afterPrim_faults (s : State) (fs : List ModelFault) (p : Phase) {f : ModelFault}
    (h : f ∈ (s.afterPrim fs p).faults) : f ∈ s.faults ∨ f ∈ fs := by
  unfold State.afterPrim at h
  split at h
  · exact .inl h
  · exact (s.faultStop_faults fs f).mp h

theorem Script.Later.fault_ofObject {Q : Effect → Prop} {sc : Script} {f : ModelFault} (h : sc.Later Q)
    (hf : sc.isFault f) : f.ofObject = true := by
  rcases hf with rfl | rfl <;> cases h <;> assumption

theorem State.releaseStep_faults (s : State) (d : DevAddr) {Q : Effect → Prop} {k : List Byte → Script}
    (hk : ∀ bs, (k bs).Later Q) (rs : List (List Byte)) (how : BodyEnd) {f : ModelFault} (h : f ∈ (s.releaseStep d k rs how).faults) :
    f ∈ s.faults ∨ f.ofObject = true ∨ (f = .unbalancedRelease s.turn ∧ s.lock ≠ .held s.turn) := by
  unfold State.releaseStep at h
  split at h
  · split at h
    · rename_i bs
      rcases State.enter_faults _ _ _ h with h | h | ⟨h, -⟩
      · exact .inl h
      · exact .inr (.inl ((hk bs).fault_ofObject h))
      · have := hk bs; rw [h] at this; cases this
    · rw [State.raiseError_faults] at h; exact .inl h
    · rw [State.raiseError_faults] at h; exact .inl h
  · rename_i hm
    rcases (State.faultStop_faults _ _ f).mp h with h | h
    · exact .inl h
    · exact .inr (.inr ⟨List.mem_singleton.mp h, by simpa [State.lockMine] using hm⟩)

/-! ### A step -/

/-- Where a fault of the state after a step comes from. -/
inductive FaultCase (i : Instr) (s : State) (f : ModelFault) : Prop where
  | old (h : f ∈ s.faults)
  | object (h : f.ofObject = true)
  | device (h : f.ofDevice = true)
  | unlocked (h : f = .unlockedBusAccess s.turn) (hp : s.me.phase.inHold = true) (hl : s.lock ≠ .held s.turn)
  | unbalanced (h : f = .unbalancedRelease s.turn) (hp : s.me.phase.inHold = true) (hl : s.lock ≠ .held s.turn)
  | unlock (h : f = .unbalancedRelease s.turn) (hs : scriptOf i s = .unlock) (hl : s.lock ≠ .held s.turn)

theorem exec_faults {i : Instr} {s t : State} (he : exec i s = .next t) {f : ModelFault} (h : f ∈ t.faults) :
    FaultCase i s f := by
  have entered : ∀ {sc : Script}, sc.Proper (mayEnd i s) → f ∈ s.faults ∨ sc.isFault f ∨ (sc = .unlock ∧ scriptOf i s = .unlock ∧
      f = .unbalancedRelease s.turn ∧ s.lock ≠ .held s.turn) → FaultCase i s f := by
    rintro sc hsc (h | h | ⟨-, h1, h2, h3⟩)
    · exact .old h
    · cases hsc with
      | later _ hl => exact .object (hl.fault_ofObject h)
      | _ => simp [Script.isFault] at h
    · exact .unlock h2 h1 h3
  have prim : ∀ {d : DevAddr} {p : Prim}, s.me.phase.inHold = true → f ∈ s.faults ∨ f ∈ (s.transfer d p).raised →
      FaultCase i s f := by
    rintro d p hp (h | h)
    · exact .old h
    · rcases s.transfer_raised d p h with ⟨h1, h2⟩ | h
      · exact .unlocked h1 hp h2
      · exact .device h
  have rel : s.me.phase.inHold = true → f ∈ s.faults ∨ f.ofObject = true ∨
      (f = .unbalancedRelease s.turn ∧ s.lock ≠ .held s.turn) → FaultCase i s f := by
    rintro hp (h | h | ⟨h1, h2⟩)
    · exact .old h
    · exact .object h
    · exact .unbalanced h1 hp h2
  have tf : ∀ (d : DevAddr) (p : Prim), (s.transfer d p).state.faults = s.faults := by
    intro d p
    cases hd : s.device d with
    | none => rw [State.transfer_absent hd]; rfl
    | some r => rw [State.transfer_present hd]; rfl
  cases exec_cases he with
  | start hp ht =>
    subst ht
    rw [State.attempt_faults] at h
    refine entered (scriptOf_proper i s) ?_
    rcases State.enter_faults _ _ _ h with h | h | ⟨h1, h2⟩
    · exact .inl h
    · exact .inr (.inl h)
    · exact .inr (.inr ⟨h1, h1, h2⟩)
  | attempt rs n hp hn hl ht => subst ht; rw [State.attempt_faults] at h; exact .old h
  | body rs d via p k hp hn ht =>
    subst ht
    have := State.afterPrim_faults _ _ _ h
    rw [State.stage_faults, tf] at this
    exact prim (by rw [hp]; rfl) this
  | probeWrite rs d k hp hn ht =>
    subst ht
    have := State.afterPrim_faults _ _ _ h
    rw [tf] at this
    exact prim (by rw [hp]; rfl) this
  | probeRead rs d k hp hn ht =>
    subst ht
    have := State.afterPrim_faults _ _ _ h
    rw [tf] at this
    exact prim (by rw [hp]; rfl) this
  | release rs how d via p k hp hn ht =>
    subst ht
    exact rel (by rw [hp]; rfl) (State.releaseStep_faults _ d (later_of_transact hn) rs how h)
  | releaseProbe rs how d k hp hn ht =>
    subst ht
    exact rel (by rw [hp]; rfl) (State.releaseStep_faults _ d (fun _ => later_of_probe hn) rs how h)
  | wait rs ms k hp hn ht =>
    subst ht
    have hk := later_of_delay hn
    rcases State.enter_faults _ _ _ h with h | h | ⟨h1, -⟩
    · rw [State.delay_faults] at h; exact .old h
    · exact .object (hk.fault_ofObject h)
    · rw [h1] at hk; cases hk

end Sys2Proof.Machine
end

