-- ==== Sys2Proof/Laws/Probe.lean ====
section
/-! SUPPORT. The lock hold of a probe whose zero-length write fails: its one-byte read, and what follows (R124). -/

namespace Sys2Proof.Machine

open Sys2Proof

/-- The events of a probe that falls back to its read. -/
def fallback (g : AgentId) (d : DevAddr) (b : Byte) (ok : Bool) : List Event :=
  [.acquire g, .tx g d .w [] [] false, .tx g d .r [] [b] ok, .release g]

/-- The write fails and the read succeeds: the byte is discarded, and the pointer has moved. -/
theorem runs_probe_read {i : Instr} {u : State} {rs d kp r rest} (hp : u.me.phase = .acquire rs)
    (hs : (scriptOf i u).resume rs = some (.probe d kp)) (hl : u.lock = .free)
    (hd : u.device d = some r) (ho : u.oracle.results = false :: true :: rest) :
    ∃ w p b, Runs i 4 u (w.enter kp (rs ++ [[]])) ∧ readsAs u.params r p b ∧
      Leaves u w .free [] (fallback u.turn d b true) (devWith u d (r.setPtr (ptrAfter (r.adv u.params) p 1)))
        { u.me with holding := false, phase := .release rs (.ok []) } ∧ w.oracle.results = rest := by
  obtain ⟨w, p, k1, k2, k3, k4⟩ := runs_probe_fail hp hs hl hd ho
  have ho' := Oracle.drawResult_cons k3
  have hd2 : w.device d = some (r.setPtr p) := by rw [k2.devices]; simp [devWith]
  have h3 : exec i w = .next (w.probeReadStep d rs) := by
    rw [exec_eq_runScript, runScript, show w.me.phase = .probeRead rs by rw [k2.me]]; simp [k4]
  obtain ⟨n1, n2⟩ := Bus.readBytes_reads u.params 1 ⟨r.setPtr p, w.oracle.drawResult.2, []⟩
  have hm : w.lockMine = true := by unfold State.lockMine; rw [k2.lock, k2.turn]; simp
  have hor : ∀ (P : Params) (n : Nat) (x : Bus), (Bus.readBytes P n x).2.oracle.results = x.oracle.results := by
    intro P n
    induction n with
    | zero => intro x; rfl
    | succ n ih =>
      intro x
      rw [Bus.readBytes, ih]
      unfold Bus.readByte; dsimp only; split
      · show (x.oracle.drawByte.2).results = _; unfold Oracle.drawByte; split <;> rfl
      · rfl
  have hor1 := hor u.params 1 ⟨r.setPtr p, w.oracle.drawResult.2, []⟩
  obtain ⟨b, tr, trb⟩ : ∃ b, w.nextTransfer d (Prim.read 1) (r.setPtr p)
      = ([b], (Bus.readBytes u.params 1 ⟨r.setPtr p, w.oracle.drawResult.2, []⟩).2) ∧
      (Bus.readBytes u.params 1 ⟨r.setPtr p, w.oracle.drawResult.2, []⟩).1 = [b] := by
    rw [show u.params = w.params from k2.params.symm]
    simp only [State.nextTransfer, ho', Bus.transfer, if_true, Prim.read, Bus.write, State.unlockedFault, hm]
    exact ⟨_, rfl, rfl⟩
  have hraise : (Bus.readBytes u.params 1 ⟨r.setPtr p, w.oracle.drawResult.2, []⟩).2.raised = [] :=
    (Bus.readBytes_dev _ _ _).choose_spec.2.1
  have e : w.probeReadStep d rs = (w.transfer d (Prim.read 1)).state.setPhase (.release rs (.ok [])) := by
    simp only [State.probeReadStep, State.transfer_present hd2, tr, State.afterPrim, hraise,
      show w.oracle.drawResult.1 = true by rw [ho']]; simp
  rw [e] at h3
  have l3 := (k2.trans (Leaves.transfer_present (p := Prim.read 1) hd2)).updMe fun a => { a with phase := .release rs (.ok []) }
  rw [tr, n2] at l3
  have v3 : SameView u _ := l3.sameView (by simp [k2.me]) (by simp [k2.me])
  have hs3 := hs
  rw [← v3.scriptOf (i := i)] at hs3
  have h4 := exec_release_probe (rs := rs) (by rw [l3.me]) hs3
  have hm3 : State.lockMine ((w.transfer d (Prim.read 1)).state.updMe fun a => { a with phase := .release rs (.ok []) }) = true := by
    unfold State.lockMine; rw [l3.lock, l3.turn, k2.lock]; simp
  simp only [State.releaseStep, hm3, if_true] at h4
  refine ⟨_, p, b, k1.trans ((Runs.one h3).trans (Runs.one h4)), ?_, ?_, ?_⟩
  · have := n1 0 (by simp [trb])
    simpa [trb, readAddr, readsAs_setPtr] using this
  · have l4 := l3.unlock
    refine ⟨l4.params, l4.lock, fun e => (l4.devices e).trans ?_, by simpa using l4.faults, l4.refused, ?_, l4.turn, ?_, l4.others⟩
    · simp only [devWith]; split
      · rfl
      · rename_i h'; rw [k2.devices]; simp [devWith, h']
    · refine l4.history.trans ?_; simp [fallback, Prim.read, k2.turn, ho']
    · refine l4.me.trans ?_; simp [k2.me]
  · show ((w.transfer d (Prim.read 1)).state).oracle.results = _
    rw [State.transfer_present hd2, tr]
    exact hor1.trans (by rw [ho'])

/-- Both attempts fail, the device present. -/
theorem runs_probe_notFound {i : Instr} {u : State} {rs d kp r rest} (hp : u.me.phase = .acquire rs)
    (hs : (scriptOf i u).resume rs = some (.probe d kp)) (hl : u.lock = .free)
    (hd : u.device d = some r) (ho : u.oracle.results = false :: false :: rest) :
    ∃ t q b, Runs i 4 u t ∧
      Leaves u t .free [] (fallback u.turn d b false) (devWith u d (r.setPtr q))
        { u.me with holding := false, status := .errored (.deviceNotFound d), phase := .idle } := by
  obtain ⟨w, p, k1, k2, k3, k4⟩ := runs_probe_fail hp hs hl hd ho
  have ho' := Oracle.drawResult_cons k3
  have hd2 : w.device d = some (r.setPtr p) := by rw [k2.devices]; simp [devWith]
  have h3 : exec i w = .next (w.probeReadStep d rs) := by
    rw [exec_eq_runScript, runScript, show w.me.phase = .probeRead rs by rw [k2.me]]; simp [k4]
  have hm : w.lockMine = true := by unfold State.lockMine; rw [k2.lock, k2.turn]; simp
  obtain ⟨b, q, o, tr⟩ : ∃ b q o, w.nextTransfer d (Prim.read 1) (r.setPtr p) = ([b], ⟨r.setPtr q, o, []⟩) := by
    simp only [State.nextTransfer, ho', Bus.transfer, Bool.false_eq_true, if_false, Prim.read, State.unlockedFault, hm,
      if_true, Bus.failed, storedAddrs, Bus.scramble, Oracle.drawBytes]
    exact ⟨_, _, _, rfl⟩
  have e : w.probeReadStep d rs = (w.transfer d (Prim.read 1)).state.setPhase (.release rs .notFound) := by
    simp only [State.probeReadStep, State.transfer_present hd2, tr, State.afterPrim, ho']; simp
  rw [e] at h3
  have l3 := (k2.trans (Leaves.transfer_present (p := Prim.read 1) hd2)).updMe fun a => { a with phase := .release rs .notFound }
  rw [tr] at l3
  have v3 : SameView u _ := l3.sameView (by simp [k2.me]) (by simp [k2.me])
  have hs3 := hs
  rw [← v3.scriptOf (i := i)] at hs3
  have h4 := exec_release_probe (rs := rs) (by rw [l3.me]) hs3
  have hm3 : State.lockMine ((w.transfer d (Prim.read 1)).state.updMe fun a => { a with phase := .release rs .notFound }) = true := by
    unfold State.lockMine; rw [l3.lock, l3.turn, k2.lock]; simp
  simp only [State.releaseStep, hm3, if_true, State.raiseError] at h4
  rw [State.guardRelease_of_not_mine (by simp)] at h4
  refine ⟨_, q, b, k1.trans ((Runs.one h3).trans (Runs.one h4)), ?_⟩
  have l4 := l3.unlock.updMe fun a => { a with status := .errored (.deviceNotFound d), phase := .idle }
  refine ⟨l4.params, l4.lock, fun e => (l4.devices e).trans ?_, by simpa using l4.faults, l4.refused, ?_, l4.turn, ?_, l4.others⟩
  · simp only [devWith]; split
    · rfl
    · rename_i h'; rw [k2.devices]; simp [devWith, h']
  · refine l4.history.trans ?_; simp [fallback, Prim.read, k2.turn, ho']
  · refine l4.me.trans ?_; simp [k2.me]

/-- Both attempts fail, no device present (R66). -/
theorem runs_probe_absent {i : Instr} {u : State} {rs d kp} (hp : u.me.phase = .acquire rs)
    (hs : (scriptOf i u).resume rs = some (.probe d kp)) (hl : u.lock = .free) (hd : u.device d = none) :
    ∃ t b, Runs i 4 u t ∧
      Leaves u t .free [] (fallback u.turn d b false) u.device
        { u.me with holding := false, status := .errored (.deviceNotFound d), phase := .idle } := by
  have h1 := exec_attempt_probe hp hs hl
  have l1 := Leaves.locked u rs
  have v1 : SameView u (u.locked rs) := l1.sameView rfl rfl
  have hsv : ∀ {w}, SameView u w → (scriptOf i w).resume rs = some (.probe d kp) := fun v => by rw [v.scriptOf]; exact hs
  have hd1 : (u.locked rs).device d = none := hd
  have h2 : exec i (u.locked rs) = .next ((u.locked rs).probeWriteStep d rs) := by
    rw [exec_eq_runScript, runScript, show (u.locked rs).me.phase = .body rs by rw [l1.me]]; simp [hsv v1]
  have hm1 : (u.locked rs).lockMine = true := by unfold State.lockMine; rw [l1.lock, l1.turn]; simp
  have e : (u.locked rs).probeWriteStep d rs = ((u.locked rs).transfer d (Prim.write [])).state.setPhase (.probeRead rs) := by
    simp only [State.probeWriteStep, State.transfer_absent hd1, State.afterPrim, State.unlockedFault, hm1]; simp
  rw [e] at h2
  have l2 := (l1.trans (Leaves.transfer_absent (p := Prim.write []) hd1)).updMe fun a => { a with phase := .probeRead rs }
  rw [State.setPhase_eq] at h2
  generalize ((u.locked rs).transfer d (Prim.write [])).state.updMe (fun a => { a with phase := .probeRead rs }) = w at *
  have v2 : SameView u w := l2.sameView (by simp [l1.me]) (by simp [l1.me])
  have hd2 : w.device d = none := by rw [l2.devices, hd1]
  have h3 : exec i w = .next (w.probeReadStep d rs) := by
    rw [exec_eq_runScript, runScript, show w.me.phase = .probeRead rs by rw [l2.me]]; simp [hsv v2]
  have hm2 : w.lockMine = true := by unfold State.lockMine; rw [l2.lock, l2.turn, l1.lock]; simp
  have e : w.probeReadStep d rs = (w.transfer d (Prim.read 1)).state.setPhase (.release rs .notFound) := by
    simp only [State.probeReadStep, State.transfer_absent hd2, State.afterPrim, State.unlockedFault, hm2]; simp
  rw [e] at h3
  have l3 := (l2.trans (Leaves.transfer_absent (p := Prim.read 1) hd2)).updMe fun a => { a with phase := .release rs .notFound }
  rw [State.setPhase_eq] at h3
  generalize (w.transfer d (Prim.read 1)).state.updMe (fun a => { a with phase := .release rs .notFound }) = x at *
  have v3 : SameView u x := l3.sameView (by simp [l2.me, l1.me]) (by simp [l2.me, l1.me])
  have h4 := exec_release_probe (rs := rs) (by rw [l3.me]) (hsv v3)
  have hm3 : x.lockMine = true := by unfold State.lockMine; rw [l3.lock, l3.turn, l2.lock, l1.lock]; simp
  simp only [State.releaseStep, hm3, if_true, State.raiseError] at h4
  rw [State.guardRelease_of_not_mine (by simp)] at h4
  refine ⟨_, (w.oracle.drawByte).1, ⟨_, h1, _, h2, _, h3, _, h4, rfl⟩, ?_⟩
  have l4 := l3.unlock.updMe fun a => { a with status := .errored (.deviceNotFound d), phase := .idle }
  refine ⟨l4.params, l4.lock, fun e => (l4.devices e).trans ?_, by simpa using l4.faults, l4.refused, ?_, l4.turn, ?_, l4.others⟩
  · rw [l2.devices, l1.devices]
  · refine l4.history.trans ?_; simp [fallback, Prim.read, Prim.write, l2.turn, l1.turn, Oracle.drawBytes]
  · refine l4.me.trans ?_; simp [l2.me, l1.me]

end Sys2Proof.Machine
end

