-- ==== Sys2Proof/Laws/Init.lean ====
section
/-! SUPPORT. `CTRL_INIT` with a probe: its script and its second lock hold, the reset write (R160). -/

namespace Sys2Proof.Machine

open Sys2Proof

/-- What `CTRL_INIT` with a probe does, its operands checked (R160). -/
theorem ctrlInit_probe_script {s : State} {dst addr ref F} (h0 : 0 ≤ addr) (h1 : addr ≤ 0x7F) (hF : Sys2Proof.Num.operand s.params.arith ref = some F) (hp : F.pos = true) :
    scriptOf (.ctrlInit dst addr ref true) s = .probe (BitVec.ofInt 7 addr) (setByte (BitVec.ofInt 7 addr) regMode1 0x00 (.done (.newController dst (BitVec.ofInt 7 addr) F))) := by
  simp [scriptOf, ctrlInitScript, require, h0, h1, withNum_operand hF, hp]

/-- The second hold of `CTRL_INIT`, its reset write failing, from a state that left the probe (R126, R160). -/
theorem runs_reset_fails {i : Instr} {s w : State} {d k r evs ph} (hs : scriptOf i s = .probe d (setByte d regMode1 0x00 k))
    (l : Leaves s w .free [] evs (devWith s d r) { s.me with attempts := 0, holding := false, phase := ph }) (ho : w.oracle.drawResult.1 = false) :
    ∃ t q, Runs i 3 (w.enter (setByte d regMode1 0x00 k) [[]]) t ∧ Leaves s t .free [] (evs ++ heldTx s.turn d .w [0x00, 0x00] [] false) (devWith s d q)
          (s.me.stopped (.errored (.busTransport d (.tx s.turn d .w [0x00, 0x00] [] false)))) ∧
        q.wake = none ∧ ∀ x, x ≠ 0x00 → q.read x = r.read x := by
  have l2 := l.enter_transact d none (Prim.write [regMode1, 0x00]) (fun _ => k) [[]]
  have ow : (w.enter (.transact d none (Prim.write [regMode1, 0x00]) (fun _ => k)) [[]]).oracle = w.oracle := by simp
  change ∃ t q, Runs i 3 (w.enter (.transact d none (Prim.write [regMode1, 0x00]) (fun _ => k)) [[]]) t ∧ _
  generalize w.enter (.transact d none (Prim.write [regMode1, 0x00]) (fun _ => k)) [[]] = x at *
  have v2 : SameView s x := l2.sameView (by simp) (by simp)
  have hs2 : (scriptOf i x).resume [[]] = some (.transact d none (Prim.write [regMode1, 0x00]) fun _ => k) := by rw [v2.scriptOf, hs]; rfl
  have ho2 : x.oracle.drawResult.1 = false := by rw [ow]; exact ho
  obtain ⟨t, k1, k2⟩ := runs_transact_fails (i := i) (u := x) (rs := [[]]) (d := d) (via := none) (r := r)
    (p := Prim.write [regMode1, 0x00]) (k := fun _ => k) (by rw [l2.me]) hs2 l2.lock ((l2.devices d).trans (if_pos rfl)) ho2
  have e : x.heldTransfer d (Prim.write [regMode1, 0x00]) r = ([], Bus.failed x.params [regMode1, 0x00] ⟨r, x.oracle.drawResult.2, []⟩) := by
    rw [State.heldTransfer, ho2]; rfl
  rw [e] at k2
  have l3 := l2.trans k2
  refine ⟨t, (Bus.failed x.params [regMode1, 0x00] ⟨r, x.oracle.drawResult.2, []⟩).dev, k1, l3.congr rfl ?_ (fun y => ?_) ?_, ?_, fun y hy => ?_⟩
  · rw [l2.turn]; rfl
  · simp only [devWith, l2.devices]; split <;> rfl
  · rw [l2.me, l2.turn]; rfl
  · exact (Bus.scramble_wake _ _).2 (by simp [storedAddrs, dataAddrs])
  · exact Bus.failed_read _ [regMode1, 0x00] ⟨r, _, []⟩ y (by simpa [storedAddrs, dataAddrs, regMode1] using hy)

/-- The second hold of `CTRL_INIT`, its reset write succeeding (R160). -/
theorem runs_reset_ok {i : Instr} {s w : State} {d r dst F evs ph} (hs : scriptOf i s = .probe d (setByte d regMode1 0x00 (.done (.newController dst d F))))
    (l : Leaves s w .free [] evs (devWith s d r) { s.me with attempts := 0, holding := false, phase := ph }) (ho : w.oracle.drawResult.1 = true) :
    ∃ t buf, Runs i 3 (w.enter (setByte d regMode1 0x00 (.done (.newController dst d F))) [[]]) t ∧ Leaves s t .free [] (evs ++ heldTx s.turn d .w [0x00, 0x00] [] true)
      (devWith s d (((r.write 0x00 0x00).setPtr (if s.params.aiModel = .always then 0x01 else 0x00)).setWake
            (if r.read 0x00 &&& s.params.sleepMask ≠ 0 then some [] else r.wake)))
        (s.me.done.withNew dst (.controller
          { devAddr := d, refClk := F, live := true, chan := Vector.replicate 16 none, buf := buf })) := by
  have l2 := l.enter_transact d none (Prim.write [regMode1, 0x00]) (fun _ => .done (.newController dst d F)) [[]]
  have ow : (w.enter (.transact d none (Prim.write [regMode1, 0x00]) (fun _ => .done (.newController dst d F))) [[]]).oracle = w.oracle := by simp
  change ∃ t q, Runs i 3 (w.enter (.transact d none (Prim.write [regMode1, 0x00]) (fun _ => .done (.newController dst d F))) [[]]) t ∧ _
  generalize w.enter (.transact d none (Prim.write [regMode1, 0x00]) (fun _ => .done (.newController dst d F))) [[]] = x at *
  have v2 : SameView s x := l2.sameView (by simp) (by simp)
  have hs2 : (scriptOf i x).resume [[]] = some (.transact d none (Prim.write [regMode1, 0x00]) fun _ => .done (.newController dst d F)) := by rw [v2.scriptOf, hs]; rfl
  have ho2 : x.oracle.drawResult.1 = true := by rw [ow]; exact ho
  have hq := State.heldTransfer_set_mode1 (s := x) (d := d) (r := r) (v := 0x00) ho2 (restartTooEarly_zero ..)
  obtain ⟨y, n1, n2, n3⟩ := runs_transact (i := i) (u := x) (rs := [[]]) (d := d) (via := none)
    (p := Prim.write [regMode1, 0x00]) (k := fun _ => .done (.newController dst d F)) (r := r)
    (by rw [l2.me]) hs2 l2.lock ((l2.devices d).trans (if_pos rfl)) ho2 (by rw [hq])
  rw [hq] at n1 n2
  obtain ⟨buf, l4⟩ := Leaves.enter_new (l2.trans n2) dst d F ([[]] ++ [[]])
  refine ⟨_, buf, n1, l4.congr rfl ?_ (fun e => ?_) ?_⟩
  · rw [l2.turn]; rfl
  · simp only [devWith, nextPtr_zero, wakeAfter_zero, l2.params, l2.devices]
    split <;> rfl
  · rw [l2.me]; rfl

end Sys2Proof.Machine
end

