-- ==== Sys2Proof/Laws/Place.lean ====
section
/-! SUPPORT. Where a step leaves the stepping agent: at another place of the same operation, at the operation's end
with its effect, or stopped; and that an agent at a place that its operation has always takes its step. -/

namespace Sys2Proof.Machine

open Sys2Proof

/-! ### The script after one more reply -/

theorem Script.resume_append {sc n : Script} {rs : List (List Byte)} (h : sc.resume rs = some n)
    (qs : List (List Byte)) : sc.resume (rs ++ qs) = n.resume qs := by
  induction rs generalizing sc with
  | nil =>
    have : sc = n := by cases sc <;> simpa [Script.resume] using h
    rw [this]; rfl
  | cons r rs ih => cases sc <;> simp only [Script.resume, List.cons_append] at h ⊢ <;> first | exact ih h | cases h

theorem Script.resume_nil (sc : Script) : sc.resume [] = some sc := by cases sc <;> rfl

theorem Script.resume_transact {sc : Script} {rs : List (List Byte)} {d : DevAddr} {via : Option ObjId} {p : Prim}
    {k : List Byte → Script} (h : sc.resume rs = some (.transact d via p k)) (bs : List Byte) :
    sc.resume (rs ++ [bs]) = some (k bs) := by
  rw [Script.resume_append h]; exact Script.resume_nil _

theorem Script.resume_probe {sc : Script} {rs : List (List Byte)} {d : DevAddr} {k : Script}
    (h : sc.resume rs = some (.probe d k)) (bs : List Byte) : sc.resume (rs ++ [bs]) = some k := by
  rw [Script.resume_append h]; exact Script.resume_nil _

theorem Script.resume_delay {sc : Script} {rs : List (List Byte)} {ms : Rat} {k : Script}
    (h : sc.resume rs = some (.delay ms k)) (bs : List Byte) : sc.resume (rs ++ [bs]) = some k := by
  rw [Script.resume_append h]; exact Script.resume_nil _

/-! ### Where a step leaves the agent -/

/-- A state that shows the same script and has the same program counter. -/
structure SamePlace (s t : State) : Prop where
  view : SameView s t
  pc : t.me.pc = s.me.pc

theorem SamePlace.refl (s : State) : SamePlace s s := ⟨.refl s, rfl⟩

theorem Leaves.samePlace {s t : State} {l fs evs dev me} (h : Leaves s t l fs evs dev me)
    (hn : me.names = s.me.names) (ho : me.objs.map Object.bare = s.me.objs.map Object.bare)
    (hp : me.pc = s.me.pc) : SamePlace s t := ⟨h.sameView hn ho, by rw [h.me, hp]⟩

/-- A change of the agent that keeps its names, its objects but for the buffers, and its program counter. -/
theorem SamePlace.updMe {s t : State} (h : SamePlace s t) {f : AgentState → AgentState}
    (hf : ∀ a, (f a).names = a.names ∧ (f a).objs = a.objs ∧ (f a).pc = a.pc) : SamePlace s (t.updMe f) := by
  obtain ⟨f1, f2, f3⟩ := hf t.me
  refine ⟨⟨h.view.turn, h.view.params, ?_, ?_⟩, ?_⟩
  · rw [State.updMe_me, f1, h.view.names]
  · rw [State.updMe_me, f2, h.view.objs]
  · rw [State.updMe_me, f3, h.pc]

theorem SamePlace.stage {s t : State} (h : SamePlace s t) (via : Option ObjId) (bs : List Byte) :
    SamePlace s (t.stage via bs) := by
  have lv := (Leaves.refl t).stage via bs
  have := lv.samePlace rfl (stageObjs_bare ..) rfl
  exact ⟨h.view.trans this.view, this.pc.trans h.pc⟩

theorem SamePlace.addFaults {s t : State} (h : SamePlace s t) (fs : List ModelFault) : SamePlace s (t.addFaults fs) :=
  ⟨⟨by simpa using h.view.turn, by simpa using h.view.params, by simpa using h.view.names,
    by simpa using h.view.objs⟩, by simpa using h.pc⟩

theorem SamePlace.unlock {s t : State} (h : SamePlace s t) : SamePlace s t.unlock :=
  ⟨⟨h.view.turn, h.view.params, by simpa using h.view.names, by simpa using h.view.objs⟩, by simpa using h.pc⟩

theorem SamePlace.takeLock {s t : State} (h : SamePlace s t) : SamePlace s t.takeLock :=
  ⟨⟨h.view.turn, h.view.params, by simpa using h.view.names, by simpa using h.view.objs⟩, by simpa using h.pc⟩

theorem SamePlace.guardRelease {s t : State} (h : SamePlace s t) : SamePlace s t.guardRelease := by
  unfold State.guardRelease
  split
  · exact h.unlock
  · exact h

theorem SamePlace.setRefused {s t : State} (h : SamePlace s t) : SamePlace s t.setRefused := ⟨⟨h.view.1, h.view.2, h.view.3, h.view.4⟩, h.pc⟩

theorem SamePlace.stopWith {s t : State} (h : SamePlace s t) (st : Status) : SamePlace s (t.stopWith st) :=
  h.updMe fun _ => ⟨rfl, rfl, rfl⟩

theorem SamePlace.setPhase {s t : State} (h : SamePlace s t) (p : Phase) : SamePlace s (t.setPhase p) :=
  h.updMe fun _ => ⟨rfl, rfl, rfl⟩

theorem SamePlace.setAttempts {s t : State} (h : SamePlace s t) (n : Nat) : SamePlace s (t.setAttempts n) :=
  h.updMe fun _ => ⟨rfl, rfl, rfl⟩

theorem SamePlace.beginAcquire {s t : State} (h : SamePlace s t) (rs : List (List Byte)) :
    SamePlace s (t.beginAcquire rs) := (h.setAttempts 0).setPhase _

theorem SamePlace.transfer {s t : State} (h : SamePlace s t) (d : DevAddr) (p : Prim) :
    SamePlace s (t.transfer d p).state := by
  obtain ⟨ev, dev, lv, -, -⟩ := t.transfer_leaves d p
  have := lv.samePlace rfl rfl rfl
  exact ⟨h.view.trans this.view, this.pc.trans h.pc⟩

theorem SamePlace.delay {s t : State} (h : SamePlace s t) (ms : Rat) : SamePlace s (t.delay ms) := by
  have := (Leaves.delay t ms).samePlace rfl rfl rfl
  exact ⟨h.view.trans this.view, this.pc.trans h.pc⟩

/-- Where a step of operation `i` leaves its agent. -/
inductive PlaceCase (i : Instr) (s t : State) : Prop where
  /-- at a place of the same operation -/
  | inside (h : SamePlace s t) (hf : t.me.phase.fits (scriptOf i s) = true)
  /-- at the end of the operation, its effect done -/
  | ended (rs : List (List Byte)) (eff : Effect) (u : State) (hn : (scriptOf i s).resume rs = some (.done eff))
      (hu : SamePlace s u) (ht : t = (u.applyEffect eff).finish)
  /-- at the end of an operation that changes no name, and of the objects at most a buffer: a lock operation, or one
  that faults with its rule completed -/
  | lock (hn : t.me.names = s.me.names) (ho : t.me.objs.map Object.bare = s.me.objs.map Object.bare)
    (hp : t.me.phase = .idle)
  /-- stopped -/
  | stopped (h : SamePlace s t) (hp : t.me.phase = .idle)

theorem PlaceCase.of_stop {i : Instr} {s t : State} (h : SamePlace s t) (st : Status) :
    PlaceCase i s (t.guardRelease.stopWith st) :=
  .stopped (h.guardRelease.stopWith st) (by rw [State.stopWith_eq, State.updMe_me])

theorem PlaceCase.of_enter {i : Instr} {s t : State} {rs : List (List Byte)} {sc : Script} (h : SamePlace s t)
    (hn : (scriptOf i s).resume rs = some sc) : PlaceCase i s (t.enter sc rs) := by
  cases sc with
  | done eff => exact .ended rs eff t hn h rfl
  | raise e => exact .of_stop h _
  | fault f => exact .of_stop (h.addFaults [f]) _
  | faultDone f =>
    have hs := (((SamePlace.refl t.finish).addFaults [f]).guardRelease).stopWith .faulted
    exact .lock (by rw [State.enter, State.faultStop, hs.view.names]; simp [h.view.names])
      (by rw [State.enter, State.faultStop, hs.view.objs]; simp [h.view.objs])
      (by simp [State.enter, State.faultStop, State.stopWith_eq])
  | refuse => exact .of_stop h.setRefused _
  | tryLock dst =>
    simp only [State.enter, State.tryLockOp]
    split
    · exact .lock (by simp [h.view.names]) (by simp [h.view.objs]) (by simp)
    · exact .lock (by simp [h.view.names]) (by simp [h.view.objs]) (by simp)
  | unlock =>
    simp only [State.enter, State.unlockOp]
    split
    · exact .lock (by simp [h.view.names]) (by simp [h.view.objs]) (by simp)
    · have lv := (((Leaves.refl t).unlock.updMe fun a => { a with pc := a.pc + 1, phase := .idle }).addFaults
        [.unbalancedRelease t.turn]).guardRelease (by simp)
      have e : (t.unlock.finish.faultStop [.unbalancedRelease t.turn]).me = _ :=
        (lv.updMe fun a => { a with status := .faulted, phase := .idle }).me
      exact .lock (by rw [e]; exact h.view.names) (by rw [e]; exact h.view.objs) (by rw [e])
  | acquire d =>
    exact .inside (h.beginAcquire rs)
      (by simp [State.enter, State.beginAcquire, Phase.fits, hn, Script.locks])
  | transact d via p k =>
    exact .inside ((h.stage via _).beginAcquire rs)
      (by simp [State.enter, State.beginAcquire, Phase.fits, hn, Script.locks])
  | probe d k =>
    exact .inside (h.beginAcquire rs)
      (by simp [State.enter, State.beginAcquire, Phase.fits, hn, Script.locks])
  | delay ms k => exact .inside (h.setPhase _) (by simp [State.enter, Phase.fits, hn])

theorem PlaceCase.of_attempt {i : Instr} {s t : State} {rs : List (List Byte)} {n : Script} (h : SamePlace s t)
    (hp : t.me.phase = .acquire rs) (hn : (scriptOf i s).resume rs = some n) (hl : n.locks.isSome = true) :
    PlaceCase i s (t.attempt n rs) := by
  obtain ⟨d, hd⟩ := Option.isSome_iff_exists.mp hl
  simp only [State.attempt, hd]
  split
  · cases n with
    | acquire d => exact .lock (by simp [h.view.names]) (by simp [h.view.objs]) (by simp)
    | transact d via p k => exact .inside (h.takeLock.setPhase _) (by simp [Phase.fits, hn, Script.isHold])
    | probe d k => exact .inside (h.takeLock.setPhase _) (by simp [Phase.fits, hn, Script.isHold])
    | _ => simp [Script.locks] at hl
  · simp only [State.failedAttempt]
    split
    · exact .of_stop (h.setAttempts _) _
    · refine .inside (h.setAttempts _) ?_
      simp [hp, Phase.fits, hn, hl]

theorem PlaceCase.of_prim {i : Instr} {s t : State} (h : SamePlace s t) (raised : List ModelFault) {next : Phase}
    (hf : next.fits (scriptOf i s) = true) : PlaceCase i s (t.afterPrim raised next) := by
  unfold State.afterPrim
  split
  · exact .inside (h.setPhase _) (by simpa using hf)
  · exact .of_stop (h.addFaults raised) _

theorem PlaceCase.of_release {i : Instr} {s t : State} (h : SamePlace s t) (d : DevAddr) {k : List Byte → Script}
    {rs : List (List Byte)} (how : BodyEnd) (hk : ∀ bs, (scriptOf i s).resume (rs ++ [bs]) = some (k bs)) :
    PlaceCase i s (t.releaseStep d k rs how) := by
  unfold State.releaseStep
  split
  · split
    · exact .of_enter h.unlock (hk _)
    · exact .of_stop h.unlock _
    · exact .of_stop h.unlock _
  · exact .of_stop (h.unlock.addFaults _) _

theorem exec_place {i : Instr} {s t : State} (he : exec i s = .next t) : PlaceCase i s t := by
  have start := Script.resume_nil (scriptOf i s)
  cases exec_cases he with
  | start hp ht =>
    subst ht
    cases hl : (scriptOf i s).locks with
    | none =>
      have e : (s.enter (scriptOf i s) []).attempt (scriptOf i s) [] = s.enter (scriptOf i s) [] := by
        simp [State.attempt, hl]
      rw [e]; exact .of_enter (.refl s) start
    | some d =>
      have hl' : (scriptOf i s).locks.isSome = true := by simp [hl]
      have key : SamePlace s (s.enter (scriptOf i s) []) ∧
          (s.enter (scriptOf i s) []).me.phase = .acquire [] := by
        cases hs : scriptOf i s with
        | acquire d => exact ⟨(SamePlace.refl s).beginAcquire [], by simp [State.enter, State.beginAcquire]⟩
        | transact d via p k =>
          exact ⟨((SamePlace.refl s).stage via _).beginAcquire [], by simp [State.enter, State.beginAcquire]⟩
        | probe d k => exact ⟨(SamePlace.refl s).beginAcquire [], by simp [State.enter, State.beginAcquire]⟩
        | _ => rw [hs] at hl'; simp [Script.locks] at hl'
      exact .of_attempt key.1 key.2 start hl'
  | attempt rs n hp hn hl ht => subst ht; exact .of_attempt (.refl s) hp hn hl
  | body rs d via p k hp hn ht =>
    subst ht
    exact .of_prim (((SamePlace.refl s).transfer d p).stage via _) _ (by simp [Phase.fits, hn, Script.isHold])
  | probeWrite rs d k hp hn ht =>
    subst ht
    refine .of_prim ((SamePlace.refl s).transfer d _) _ ?_
    split <;> simp [Phase.fits, hn, Script.isHold]
  | probeRead rs d k hp hn ht =>
    subst ht
    exact .of_prim ((SamePlace.refl s).transfer d _) _ (by simp [Phase.fits, hn, Script.isHold])
  | release rs how d via p k hp hn ht => subst ht; exact .of_release (.refl s) d how (Script.resume_transact hn)
  | releaseProbe rs how d k hp hn ht => subst ht; exact .of_release (.refl s) d how (Script.resume_probe hn)
  | wait rs ms k hp hn ht =>
    subst ht; exact .of_enter ((SamePlace.refl s).delay ms) (Script.resume_delay hn _)

/-- An agent at a place that its operation has takes its step. -/
theorem exec_of_fits {i : Instr} {s : State} (h : s.me.phase.fits (scriptOf i s) = true) :
    ∃ t, exec i s = .next t := by
  rw [exec_eq_runScript]
  generalize scriptOf i s = sc at h
  unfold runScript
  cases hp : s.me.phase with
  | idle => exact ⟨_, rfl⟩
  | acquire rs =>
    rw [hp] at h; simp only [Phase.fits] at h
    cases hr : sc.resume rs with
    | none => rw [hr] at h; cases h
    | some n => rw [hr] at h; simp [hr, show n.locks.isSome = true from h]
  | body rs =>
    rw [hp] at h; simp only [Phase.fits] at h
    cases hr : sc.resume rs with
    | none => rw [hr] at h; cases h
    | some n => rw [hr] at h; cases n <;> first | (simp [hr]; done) | cases h
  | probeRead rs =>
    rw [hp] at h; simp only [Phase.fits] at h
    cases hr : sc.resume rs with
    | none => rw [hr] at h; cases h
    | some n => rw [hr] at h; cases n <;> first | (simp [hr]; done) | cases h
  | release rs how =>
    rw [hp] at h; simp only [Phase.fits] at h
    cases hr : sc.resume rs with
    | none => rw [hr] at h; cases h
    | some n => rw [hr] at h; cases n <;> first | (simp [hr]; done) | cases h
  | wait rs =>
    rw [hp] at h; simp only [Phase.fits] at h
    cases hr : sc.resume rs with
    | none => rw [hr] at h; cases h
    | some n => rw [hr] at h; cases n <;> first | (simp [hr]; done) | cases h

end Sys2Proof.Machine
end

