-- ==== Sys2Proof/Laws/Text.lean ====
section
/-! SUPPORT. Text of operation lines: numbers, words and operands are read as they are written (R99, R103). -/

namespace Sys2Proof

open Sys2Proof.Machine

/-! ### Decimal numbers -/

/-- A decimal digit. -/
def isDec (c : Char) : Prop := ∃ m < 10, c = digitChar m

theorem digitValue_digitChar {m : Nat} (h : m < 10) : digitValue 10 (digitChar m) = some m := by
  have key : ∀ m : Fin 10, digitValue 10 (digitChar m.val) = some m.val := by decide
  exact key ⟨m, h⟩

theorem isDec_wordChar {c : Char} (h : isDec c) : wordChar c = true ∧ c ≠ '/' ∧ c ≠ '-' ∧ c ≠ 'x' ∧ c ≠ 'a' := by
  obtain ⟨m, hm, rfl⟩ := h
  have key : ∀ m : Fin 10, wordChar (digitChar m.val) = true ∧ digitChar m.val ≠ '/' ∧ digitChar m.val ≠ '-' ∧
      digitChar m.val ≠ 'x' ∧ digitChar m.val ≠ 'a' := by decide
  exact key ⟨m, hm⟩

theorem writeDigits_spec (fuel n : Nat) (acc : List Char) (h : n < fuel) :
    ∃ ds, writeDigits fuel n acc = ds ++ acc ∧ ds ≠ [] ∧ (∀ c ∈ ds, isDec c) ∧
      ∀ rest, readDigits 10 0 (ds ++ rest) = readDigits 10 n rest := by
  induction fuel generalizing n acc with
  | zero => omega
  | succ fuel ih =>
    unfold writeDigits
    split
    · rename_i hn
      refine ⟨[digitChar n], rfl, by simp, by simpa using ⟨n, hn, rfl⟩, fun rest => ?_⟩
      simp [readDigits, digitValue_digitChar hn]
    · rename_i hn
      obtain ⟨ds, e, h1, h2, h3⟩ := ih (n / 10) (digitChar (n % 10) :: acc) (by omega)
      have hm : n % 10 < 10 := Nat.mod_lt _ (by omega)
      refine ⟨ds ++ [digitChar (n % 10)], by rw [e]; simp, by simp, fun c hc => ?_, fun rest => ?_⟩
      · rcases List.mem_append.mp hc with hc | hc
        · exact h2 c hc
        · rw [List.mem_singleton.mp hc]; exact ⟨_, hm, rfl⟩
      · rw [List.append_assoc, h3]
        simp only [List.singleton_append, readDigits, digitValue_digitChar hm]
        congr 1; omega

theorem writeNat_spec (n : Nat) :
    writeNat n ≠ [] ∧ (∀ c ∈ writeNat n, isDec c) ∧ readBase 10 (writeNat n) = some n := by
  obtain ⟨ds, e, h1, h2, h3⟩ := writeDigits_spec (n + 1) n [] (by omega)
  have e' : writeNat n = ds := by rw [writeNat, e, List.append_nil]
  rw [e']
  refine ⟨h1, h2, ?_⟩
  cases ds with
  | nil => exact absurd rfl h1
  | cons c cs => have := h3 []; rw [List.append_nil] at this; exact this

theorem readNat_writeNat (n : Nat) : readNat (writeNat n) = some n := by
  obtain ⟨h1, h2, h3⟩ := writeNat_spec n
  generalize writeNat n = ds at *
  match ds with
  | [] => exact absurd rfl h1
  | [a] => exact h3
  | a :: b :: rest =>
    have hb : b ≠ 'x' := (isDec_wordChar (h2 b (by simp))).2.2.2.1
    simp only [readNat, hb, and_false, if_false]; exact h3

theorem readInt_of_dec {ds : List Char} (h1 : ds ≠ []) (h2 : ∀ c ∈ ds, isDec c) :
    readInt ds = (readNat ds).map fun n => (n : Int) := by
  cases ds with
  | nil => exact absurd rfl h1
  | cons a rest =>
    have ha : a ≠ '-' := (isDec_wordChar (h2 a (by simp))).2.2.1
    simp [readInt, ha]

theorem readInt_writeInt (n : Int) : readInt (writeInt n) = some n := by
  cases n with
  | ofNat k =>
    obtain ⟨h1, h2, -⟩ := writeNat_spec k
    simp only [writeInt]
    rw [readInt_of_dec h1 h2, readNat_writeNat]; rfl
  | negSucc k =>
    simp only [writeInt, readInt, if_true, readNat_writeNat, Option.map_some]
    congr 1

theorem writeInt_word (n : Int) : writeInt n ≠ [] ∧ ∀ c ∈ writeInt n, wordChar c = true ∧ c ≠ '/' ∧ c ≠ 'a' := by
  cases n with
  | ofNat k =>
    obtain ⟨h1, h2, -⟩ := writeNat_spec k
    exact ⟨h1, fun c hc => ⟨(isDec_wordChar (h2 c hc)).1, (isDec_wordChar (h2 c hc)).2.1,
      (isDec_wordChar (h2 c hc)).2.2.2.2⟩⟩
  | negSucc k =>
    obtain ⟨h1, h2, -⟩ := writeNat_spec (k + 1)
    refine ⟨by simp [writeInt], fun c hc => ?_⟩
    rcases List.mem_cons.mp hc with rfl | hc
    · decide
    · exact ⟨(isDec_wordChar (h2 c hc)).1, (isDec_wordChar (h2 c hc)).2.1, (isDec_wordChar (h2 c hc)).2.2.2.2⟩

/-! ### Rationals -/

theorem splitAtChar_append {c : Char} {xs ys : List Char} (h : c ∉ xs) :
    splitAtChar c (xs ++ c :: ys) = some (xs, ys) := by
  induction xs with
  | nil => simp [splitAtChar]
  | cons x xs ih =>
    have hx : x ≠ c := fun e => h (by simp [e])
    simp [splitAtChar, hx, ih fun m => h (List.mem_cons_of_mem _ m)]

theorem readURat_write (a b : Nat) (hb : b ≠ 0) :
    readURat (writeNat a ++ '/' :: writeNat b) = some ((a : Rat) / (b : Rat)) := by
  obtain ⟨-, h2, h3⟩ := writeNat_spec a
  have hs : '/' ∉ writeNat a := fun h => (isDec_wordChar (h2 _ h)).2.1 rfl
  simp [readURat, splitAtChar_append hs, h3, (writeNat_spec b).2.2, hb]

theorem readRat_writeRat (q : Rat) : readRat (writeRat q) = some q := by
  have hd : q.den ≠ 0 := q.den_nz
  have key := q.num_div_den
  unfold writeRat
  cases hn : q.num with
  | ofNat k =>
    obtain ⟨h1, h2, -⟩ := writeNat_spec k
    simp only [writeInt]
    have hu := readURat_write k q.den hd
    rw [hn] at key
    have e : (k : Rat) / (q.den : Rat) = q := by simpa using key
    rw [e] at hu
    cases hk : writeNat k with
    | nil => exact absurd hk h1
    | cons a rest =>
      have ha : a ≠ '-' := (isDec_wordChar (h2 a (by simp [hk]))).2.2.1
      rw [hk] at hu
      simpa [readRat, ha] using hu
  | negSucc k =>
    simp only [writeInt, List.cons_append, readRat, if_true, readURat_write (k + 1) q.den hd, Option.map_some]
    rw [hn] at key
    generalize q.den = d at key
    congr 1
    rw [← key, Int.cast_negSucc]
    push_cast
    ring

theorem writeRat_word (q : Rat) : writeRat q ≠ [] ∧ (∀ c ∈ writeRat q, wordChar c = true) ∧
    writeRat q ≠ ['a', 'b', 's', 'e', 'n', 't'] := by
  obtain ⟨h1, h2⟩ := writeInt_word q.num
  refine ⟨by simp [writeRat], fun c hc => ?_, fun he => ?_⟩
  · rcases List.mem_append.mp hc with hc | hc
    · exact (h2 c hc).1
    · rcases List.mem_cons.mp hc with rfl | hc
      · decide
      · exact (isDec_wordChar ((writeNat_spec q.den).2.1 c hc)).1
  · unfold writeRat at he
    cases hn : writeInt q.num with
    | nil => exact h1 hn
    | cons a rest =>
      rw [hn] at he
      have : a = 'a' := by simp at he; exact he.1
      exact (h2 a (by simp [hn])).2.2 this

/-! ### Lexing -/

theorem lexLine_word (cs acc rest : List Char) (h : ∀ c ∈ cs, wordChar c = true) :
    lexLine acc (cs ++ rest) = lexLine (cs.reverse ++ acc) rest := by
  induction cs generalizing acc with
  | nil => rfl
  | cons c cs ih =>
    rw [List.cons_append, lexLine, if_pos (h c (by simp)), ih _ fun x hx => h x (List.mem_cons_of_mem _ hx)]
    simp

/-- A token list that its text gives back: words of word characters, each colon before an equals sign. -/
def goodToks : List Tok → Prop
  | [] => True
  | .word cs :: ts => cs ≠ [] ∧ (∀ c ∈ cs, wordChar c = true) ∧ goodToks ts
  | .colon :: ts => ts.head? = some .eq ∧ goodToks ts
  | _ :: ts => goodToks ts

theorem lexLine_space (cs : List Char) (acc : List Char) {ts : List Tok} (h : lexLine [] cs = .ok ts) :
    lexLine acc (' ' :: cs) = .ok (flushWord acc ts) := by
  rw [lexLine]
  simp [h, show wordChar ' ' = false by decide, show spaceChar ' ' = true by decide]

theorem lexLine_symbol {c : Char} {t : Tok} (cs : List Char) {ts : List Tok} (h : lexLine [] cs = .ok ts)
    (h1 : wordChar c = false) (h2 : c ≠ ';') (h3 : c = ':' → cs.head? = some '=') (h4 : spaceChar c = false)
    (h5 : symbolTok c = some t) : lexLine [] (c :: cs) = .ok (t :: ts) := by
  rw [lexLine]
  have : ¬ (c = ':' ∧ cs.head? ≠ some '=') := fun ⟨a, b⟩ => b (h3 a)
  simp [h, h1, h2, this, h4, h5, flushWord]

theorem lexLine_toksChars {ts : List Tok} (h : goodToks ts) : lexLine [] (toksChars ts) = .ok ts := by
  induction ts with
  | nil => rfl
  | cons t ts ih =>
    have sym : ∀ {c : Char} {t : Tok}, goodToks ts → wordChar c = false → c ≠ ';' → c ≠ ':' → spaceChar c = false →
        symbolTok c = some t → lexLine [] (c :: ' ' :: toksChars ts) = .ok (t :: ts) := fun hg a b d e f =>
      lexLine_symbol _ (lexLine_space _ [] (ih hg)) a b (fun hc => absurd hc d) e f
    cases t with
    | word cs =>
      obtain ⟨h1, h2, h3⟩ := h
      have hs := lexLine_space (toksChars ts) cs.reverse (ih h3)
      simp only [toksChars, Tok.chars, reduceCtorEq, if_false]
      rw [lexLine_word cs [] _ h2, List.append_nil, hs]
      simp [flushWord, h1]
    | colon =>
      obtain ⟨h1, h2⟩ := h
      simp only [toksChars, Tok.chars, if_true]
      refine lexLine_symbol _ (ih h2) (by decide) (by decide) (fun _ => ?_) (by decide) (by decide)
      cases ts with
      | nil => cases h1
      | cons t ts => injection h1 with h1; subst h1; rfl
    | comma => exact sym h (by decide) (by decide) (by decide) (by decide) (by decide)
    | eq => exact sym h (by decide) (by decide) (by decide) (by decide) (by decide)
    | lpar => exact sym h (by decide) (by decide) (by decide) (by decide) (by decide)
    | rpar => exact sym h (by decide) (by decide) (by decide) (by decide) (by decide)
    | lbrk => exact sym h (by decide) (by decide) (by decide) (by decide) (by decide)
    | rbrk => exact sym h (by decide) (by decide) (by decide) (by decide) (by decide)

/-! ### Operands -/

theorem readGroup_toks {close : Tok} (hc : close ≠ .comma) {ws : List (List Char)} (h : ws ≠ []) (rest : List Tok) :
    readGroup close (groupToks close ws ++ rest) = some (ws, rest) := by
  induction ws with
  | nil => exact absurd rfl h
  | cons w ws ih =>
    cases ws with
    | nil => cases close <;> first | exact absurd rfl hc | simp [groupToks, readGroup]
    | cons v ws =>
      have := ih (by simp)
      simp only [groupToks, List.cons_append, readGroup] at this ⊢
      rw [this]

/-- An operand that its tokens give back: a tuple has an element, and every word is one. -/
def goodArg (a : Arg) : Prop :=
  match a with
  | .word w => w ≠ [] ∧ ∀ c ∈ w, wordChar c = true
  | .kw k v => (k ≠ [] ∧ ∀ c ∈ k, wordChar c = true) ∧ v ≠ [] ∧ ∀ c ∈ v, wordChar c = true
  | .bytes ws => ∀ w ∈ ws, w ≠ [] ∧ ∀ c ∈ w, wordChar c = true
  | .tuple ws => ws ≠ [] ∧ ∀ w ∈ ws, w ≠ [] ∧ ∀ c ∈ w, wordChar c = true

theorem readArg_toks {a : Arg} (h : goodArg a) {rest : List Tok} (hr : rest = [] ∨ ∃ ts, rest = .comma :: ts) :
    readArg (a.toks ++ rest) = some (a, rest) := by
  cases a with
  | word w => rcases hr with rfl | ⟨ts, rfl⟩ <;> rfl
  | kw k v => rfl
  | bytes ws =>
    cases ws with
    | nil => rfl
    | cons w ws =>
      have := readGroup_toks (close := .rbrk) (by decide) (List.cons_ne_nil w ws) rest
      cases ws <;> simp only [Arg.toks, groupToks, List.cons_append, List.nil_append] at this ⊢ <;>
        simp only [readArg, this]
  | tuple ws =>
    have := readGroup_toks (close := .rpar) (by decide) h.1 rest
    simp only [Arg.toks, List.cons_append, readArg, this]

theorem readArgs_toks {as : List Arg} (h0 : as ≠ []) (h : ∀ a ∈ as, goodArg a) {fuel : Nat}
    (hf : as.length ≤ fuel) : readArgs fuel (argsToks as) = .ok as := by
  induction as generalizing fuel with
  | nil => exact absurd rfl h0
  | cons a as ih =>
    obtain ⟨f, rfl⟩ : ∃ f, fuel = f + 1 := ⟨fuel - 1, by simp at hf; omega⟩
    cases as with
    | nil =>
      have := readArg_toks (h a (by simp)) (rest := []) (.inl rfl)
      rw [List.append_nil] at this
      simp only [argsToks, readArgs, this]
    | cons b as =>
      have h1 := readArg_toks (h a (by simp)) (rest := .comma :: argsToks (b :: as)) (.inr ⟨_, rfl⟩)
      have h2 := ih (fuel := f) (by simp) (fun x hx => h x (List.mem_cons_of_mem _ hx)) (by simpa using hf)
      simp only [argsToks, readArgs, h1, h2]

theorem argsToks_length (as : List Arg) : as.length ≤ (argsToks as).length := by
  have one : ∀ a : Arg, 1 ≤ a.toks.length := by intro a; cases a <;> simp [Arg.toks]
  induction as with
  | nil => simp
  | cons a as ih =>
    cases as with
    | nil => simpa [argsToks] using one a
    | cons b as => simp only [argsToks, List.length_append, List.length_cons] at ih ⊢; have := one a; omega

theorem goodToks_append {ts us : List Tok} (ht : goodToks ts) (hu : goodToks us) : goodToks (ts ++ us) := by
  induction ts with
  | nil => exact hu
  | cons t ts ih =>
    cases t with
    | word cs => exact ⟨ht.1, ht.2.1, ih ht.2.2⟩
    | colon =>
      obtain ⟨h1, h2⟩ := ht
      refine ⟨?_, ih h2⟩
      cases ts with
      | nil => cases h1
      | cons t ts => exact h1
    | comma => exact ih ht
    | eq => exact ih ht
    | lpar => exact ih ht
    | rpar => exact ih ht
    | lbrk => exact ih ht
    | rbrk => exact ih ht

theorem goodToks_group {close : Tok} (hc : goodToks [close]) {ws : List (List Char)}
    (h : ∀ w ∈ ws, w ≠ [] ∧ ∀ c ∈ w, wordChar c = true) : goodToks (groupToks close ws) := by
  induction ws with
  | nil => exact hc
  | cons w ws ih =>
    have hw := h w (by simp)
    cases ws with
    | nil => exact ⟨hw.1, hw.2, hc⟩
    | cons v ws => exact ⟨hw.1, hw.2, ih fun x hx => h x (List.mem_cons_of_mem _ hx)⟩

theorem goodToks_arg {a : Arg} (h : goodArg a) : goodToks a.toks := by
  cases a with
  | word w => exact ⟨h.1, h.2, trivial⟩
  | kw k v => exact ⟨h.1.1, h.1.2, h.2.1, h.2.2, trivial⟩
  | bytes ws => exact goodToks_group (ws := ws) (close := .rbrk) trivial h
  | tuple ws => exact goodToks_group (ws := ws) (close := .rpar) trivial h.2

theorem goodToks_args {as : List Arg} (h : ∀ a ∈ as, goodArg a) : goodToks (argsToks as) := by
  induction as with
  | nil => trivial
  | cons a as ih =>
    have ha := goodToks_arg (h a (by simp))
    cases as with
    | nil => exact ha
    | cons b as => exact goodToks_append ha (ih fun x hx => h x (List.mem_cons_of_mem _ hx))

/-! ### Names and mnemonics -/

theorem nameStart_wordChar {c : Char} (h : nameStart c = true) : wordChar c = true := by
  simp only [nameStart, wordChar, Char.isAlphanum, Bool.or_eq_true] at h ⊢
  tauto

theorem nameChar_wordChar {c : Char} (h : nameChar c = true) : wordChar c = true := by
  simp only [nameChar, wordChar, Bool.or_eq_true] at h ⊢
  tauto

theorem nameOk_word {n : Name} (h : nameOk n = true) : n ≠ [] ∧ ∀ c ∈ n, wordChar c = true := by
  cases n with
  | nil => cases h
  | cons c cs =>
    simp only [nameOk, Bool.and_eq_true, List.all_eq_true] at h
    refine ⟨by simp, fun x hx => ?_⟩
    rcases List.mem_cons.mp hx with rfl | hx
    · exact nameStart_wordChar h.1
    · exact nameChar_wordChar (h.2 x hx)

theorem readMnemonic_text (m : Mnemonic) : readMnemonic m.text.toList = some m := by cases m <;> rfl

theorem mnemonic_word (m : Mnemonic) : m.text.toList ≠ [] ∧ ∀ c ∈ m.text.toList, wordChar c = true := by
  have h : m.text.toList ≠ [] ∧ m.text.toList.all wordChar = true := by cases m <;> exact ⟨by decide, by rfl⟩
  exact ⟨h.1, by simpa using h.2⟩

/-! ### Whole lines -/

theorem wordChar_lt {c : Char} (h : wordChar c = true) : c.toNat < 256 := by
  have key : ∀ d : Char, c.val ≤ d.val → d.toNat < 256 → c.toNat < 256 := fun d h1 h2 => lt_of_le_of_lt (UInt32.le_iff_toNat_le.mp h1) h2
  simp only [wordChar, Char.isAlphanum, Char.isAlpha, Char.isUpper, Char.isLower, Char.isDigit, Bool.or_eq_true, Bool.and_eq_true, decide_eq_true_eq, beq_iff_eq] at h
  rcases h with ((((((h | h) | h)) | rfl) | rfl) | rfl) | rfl
  · exact key 'Z' h.2 (by decide)
  · exact key 'z' h.2 (by decide)
  · exact key '9' h.2 (by decide)
  all_goals decide

theorem byteChar_ofChar {c : Char} (h : c.toNat < 256) : byteChar (BitVec.ofNat 8 c.toNat) = c := by
  simp [byteChar, Nat.mod_eq_of_lt h]

theorem toksChars_lt {ts : List Tok} (h : goodToks ts) : ∀ c ∈ toksChars ts, c.toNat < 256 := by
  induction ts with
  | nil => simp [toksChars]
  | cons t ts ih =>
    intro c hc
    have hg : goodToks ts := by cases t <;> first | exact h | exact h.2 | exact h.2.2
    simp only [toksChars, List.mem_append] at hc
    rcases hc with hc | hc
    · cases t with
      | word cs => exact wordChar_lt (h.2.1 c hc)
      | _ => rw [List.mem_singleton.mp hc]; decide
    · split at hc
      · exact ih hg c hc
      · rcases List.mem_cons.mp hc with rfl | hc
        · decide
        · exact ih hg c hc

theorem decode_encode_of {g : AgentId} {i : Instr} (h : goodToks i.toks) (hr : readTokens g i.toks = .ok i) : decode g (encode i) = .ok i := by
  have e : (encode i).map byteChar = encodeLine i := by
    unfold encode
    rw [List.map_map]
    conv_rhs => rw [← List.map_id (encodeLine i)]
    exact List.map_congr_left fun c hc => byteChar_ofChar (toksChars_lt h c hc)
  unfold decode decodeLine
  rw [e, show lexLine [] (encodeLine i) = .ok i.toks from lexLine_toksChars h]
  exact hr

theorem goodArg_int (n : Int) : goodArg (intArg n) := ⟨(writeInt_word n).1, fun c hc => ((writeInt_word n).2 c hc).1⟩
theorem goodArg_ref {g r} (h : refOk g r = true) : goodArg (refArg r) := by
  simp only [refOk, Bool.and_eq_true] at h; exact nameOk_word h.2
theorem numWord {x} (h : numOk x = true) : writeNum x ≠ [] ∧ ∀ c ∈ writeNum x, wordChar c = true := by
  cases x with
  | rat q => exact ⟨(writeRat_word q).1, (writeRat_word q).2.1⟩
  | _ => cases h
theorem goodArg_num {x} (h : numOk x = true) : goodArg (numArg x) := numWord h
theorem wordOk {w : List Char} (h : w.isEmpty = false) (h2 : w.all wordChar = true) : w ≠ [] ∧ ∀ c ∈ w, wordChar c = true := by
  refine ⟨by simpa using h, by simpa using h2⟩
theorem goodArg_opt {x} (h : optNumOk x = true) : goodArg (.word (writeOptNum x)) := by
  cases x with
  | none => exact wordOk rfl rfl
  | some x => exact numWord h
theorem goodArg_field (f : Field) : goodArg (.word (writeField f)) := by cases f <;> exact wordOk rfl rfl
theorem goodArg_layout {fs} (h : layoutOk fs = true) : goodArg (layoutArg fs) := by
  refine ⟨?_, fun w hw => ?_⟩
  · intro e; simp at e; subst e; cases h
  · obtain ⟨f, -, rfl⟩ := List.mem_map.mp hw; exact goodArg_field f
theorem goodArg_ints {vs : List Int} (h : vs ≠ []) : goodArg (intsArg vs) := by
  refine ⟨by simpa using h, fun w hw => ?_⟩
  obtain ⟨f, -, rfl⟩ := List.mem_map.mp hw; exact goodArg_int f
theorem goodArg_bytes (bs : List Byte) : goodArg (bytesArg bs) := by
  intro w hw
  obtain ⟨b, -, rfl⟩ := List.mem_map.mp hw
  exact ⟨(writeNat_spec b.toNat).1, fun c hc => (isDec_wordChar ((writeNat_spec b.toNat).2.1 c hc)).1⟩
theorem goodArg_kw {k v} (hk : k ≠ [] ∧ k.all wordChar = true) (hv : v ≠ [] ∧ ∀ c ∈ v, wordChar c = true) : goodArg (.kw k v) := ⟨⟨hk.1, by simpa using hk.2⟩, hv⟩

theorem parts_good {g : AgentId} {i : Instr} (h : i.writable g = true) : (∀ n, i.parts.1 = some n → nameOk n = true) ∧ i.parts.2.2 ≠ [] ∧ ∀ a ∈ i.parts.2.2, goodArg a := by
  cases i <;> simp only [Instr.writable, Bool.and_eq_true, Bool.not_eq_true', List.isEmpty_eq_false_iff] at h <;> refine ⟨?_, List.cons_ne_nil _ _, ?_⟩
  all_goals first
   | (intro n hn; cases hn; done)
   | (intro n hn; simp only [Instr.parts] at hn; subst hn; first | exact h.1 | exact h.1.1 | exact h.1.1.1 | exact h.1.1.1.1; done)
   | skip
  all_goals
    simp only [Instr.parts, List.forall_mem_cons, List.mem_nil_iff, false_implies, implies_true, and_true]
    with_reducible repeat' apply And.intro
    all_goals first
      | exact goodArg_int _
      | exact goodArg_field _
      | exact goodArg_bytes _
      | (apply goodArg_ref (g := g); tauto)
      | (apply goodArg_num; tauto)
      | (apply goodArg_opt; tauto)
      | (apply goodArg_layout; tauto)
      | (apply goodArg_ints; tauto)
      | exact goodArg_ints (List.cons_ne_nil _ _)
      | exact goodArg_kw ⟨by decide, rfl⟩ ⟨(writeInt_word _).1, fun c hc => ((writeInt_word _).2 c hc).1⟩
      | (apply goodArg_kw ⟨by decide, rfl⟩; apply numWord; tauto)
      | (apply goodArg_kw ⟨by decide, rfl⟩; rename_i b; cases b <;> exact wordOk rfl rfl)

theorem asRef_ok {g r} (h : refOk g r = true) : asRef g r.name = .ok r := by
  simp only [refOk, Bool.and_eq_true, decide_eq_true_eq] at h
  obtain ⟨rfl, h2⟩ := h
  simp [asRef, h2]
theorem asInt_ok (n : Int) : asInt (writeInt n) = .ok n := by simp [asInt, readInt_writeInt]
theorem asNum_ok {x} (h : numOk x = true) : asNum (writeNum x) = .ok x := by
  cases x with
  | rat q => simp [asNum, writeNum, readRat_writeRat]
  | _ => cases h
theorem asOptNum_ok {x} (h : optNumOk x = true) : asOptNum (writeOptNum x) = .ok x := by
  cases x with
  | none => rfl
  | some x =>
    have : writeNum x ≠ ['a', 'b', 's', 'e', 'n', 't'] := by
      cases x with
      | rat q => exact (writeRat_word q).2.2
      | _ => cases h
    simp [asOptNum, writeOptNum, this, asNum_ok h]
theorem asField_ok (f : Field) : asField (writeField f) = .ok f := by cases f <;> rfl
theorem asBool_ok (b : Bool) : asBool (writeBool b) = .ok b := by cases b <;> rfl
theorem asByte_ok (b : Byte) : asByte (writeByte b) = .ok b := by
  obtain ⟨h1, h2, -⟩ := writeNat_spec b.toNat
  have hb := b.isLt
  have : readInt (writeByte b) = some (b.toNat : Int) := by
    unfold writeByte; rw [readInt_of_dec h1 h2, readNat_writeNat]; rfl
  simp only [asByte, this]
  rw [if_pos (by omega)]
  simp
theorem asAll_ok {α : Type} {f : List Char → Except Reject α} {w : α → List Char} (h : ∀ x, f (w x) = .ok x) (xs : List α) : asAll f (xs.map w) = .ok xs := by
  induction xs with
  | nil => rfl
  | cons x xs ih => simp [asAll, h, ih]
theorem asLayout_ok (fs : List Field) : asLayout (layoutArg fs) = .ok fs := asAll_ok asField_ok fs

theorem argsToks_head {a : Arg} {as : List Arg} : ∀ t ts, argsToks (a :: as) ≠ .colon :: ts ∧ (argsToks (a :: as) = t :: ts → t ≠ .colon) := by
  intro t ts
  cases as <;> cases a <;> simp [argsToks, Arg.toks] <;> rintro rfl <;> simp

theorem readBound_ok (g dst m) {as : List Arg} (h0 : as ≠ []) (h : ∀ a ∈ as, goodArg a) : readBound g dst (.word m.text.toList :: argsToks as) = readOperation g dst m as := by
  simp only [readBound, readMnemonic_text, readArgs_toks h0 h (argsToks_length as)]

theorem readTokens_ok {g : AgentId} {i : Instr} (h1 : ∀ n, i.parts.1 = some n → nameOk n = true) (h2 : i.parts.2.2 ≠ []) (h3 : ∀ a ∈ i.parts.2.2, goodArg a) :
   goodToks i.toks ∧ readTokens g i.toks = readOperation g i.parts.1 i.parts.2.1 i.parts.2.2 := by
  unfold Instr.toks
  generalize hd : i.parts.1 = dst at *
  generalize i.parts.2.1 = m at *
  generalize i.parts.2.2 = as at *
  have gb : goodToks (.word m.text.toList :: argsToks as) := ⟨(mnemonic_word m).1, (mnemonic_word m).2, goodToks_args h3⟩
  cases dst with
  | none =>
    refine ⟨gb, ?_⟩
    rw [← readBound_ok g none m h2 h3]
    cases as with
    | nil => exact absurd rfl h2
    | cons a as =>
      cases hh : argsToks (a :: as) with
      | nil => rfl
      | cons t ts =>
        have := (argsToks_head (a := a) (as := as) t ts).2 hh
        cases t <;> first | exact absurd rfl this | rfl
  | some n =>
    have hn := h1 n rfl
    refine ⟨⟨(nameOk_word hn).1, (nameOk_word hn).2, rfl, gb⟩, ?_⟩
    simp only [readTokens, asName, hn, if_true]
    exact readBound_ok g (some n) m h2 h3

end Sys2Proof
end

