-- ==== Sys2Proof/Tests/Slice0.lean ====
section
/-! SUPPORT. Small tests, with results taken from the spec's examples and vectors (95_test_vectors.md), and a
witness of the hypotheses of every statement that has some. -/

namespace Sys2Proof.Tests

open Sys2Proof Sys2Proof.Machine

/-! ### Well-formedness: every check refuses an ill-formed term (R248) -/

def ref0 : ObjRef := { agent := 0, name := ['c'] }
def ref1 : ObjRef := { agent := 0, name := ['h'] }
def ref2 : ObjRef := { agent := 0, name := ['s'] }

theorem test_wf_range_start : (Instr.busWrite ref0 [1, 2] (-1) 2).wf = false := by decide
theorem test_wf_range_order : (Instr.busWrite ref0 [1, 2] 2 1).wf = false := by decide
theorem test_wf_range_end : (Instr.busWrite ref0 [1, 2] 0 3).wf = false := by decide
theorem test_wf_range_ok : (Instr.busWrite ref0 [1, 2] 2 2).wf = true := by decide
theorem test_wf_read_count : (Instr.busRead none ref0 0).wf = false := by decide
theorem test_wf_write_read_count : (Instr.busWriteRead none ref0 [] (-1)).wf = false := by decide
/-- V-D11 -/
theorem test_wf_unnamed : (Instr.scalarGet none ref0 0x02 .u8).wf = false := by decide
/-- V-D14 -/
theorem test_wf_span_unnamed : (Instr.scalarSet ref0 0xFE .u16 0).wf = false := by decide
theorem test_wf_address_range : (Instr.scalarGet none ref0 (-1) .u8).wf = false := by decide
theorem test_wf_span_past_end : (Instr.tupleGet none ref0 0xFF [.u16]).wf = false := by decide
theorem test_wf_empty_layout : (Instr.tupleGet none ref0 0x06 []).wf = false := by decide
/-- V-D13 -/
theorem test_wf_arity : (Instr.tupleSet ref0 0x0A [.u16, .u16] [5]).wf = false := by decide
/-- V-D12 -/
theorem test_wf_array_span : (Instr.arrayGet none ref0 0x06 [.u16, .u16] 17 0).wf = false := by decide
theorem test_wf_array_count : (Instr.arrayGet none ref0 0x06 [.u16, .u16] 0 0).wf = false := by decide
theorem test_wf_array_arity : (Instr.arraySet ref0 0x06 [.u16, .u16] 16 0 [1]).wf = false := by decide
theorem test_wf_array_ok : (Instr.arraySet ref0 0x06 [.u16, .u16] 16 0 [1, 2]).wf = true := by decide
/-- V-C1 -/
theorem test_wf_bus_address : (Instr.ctrlInit none 0x80 (.rat 1) true).wf = false := by decide +kernel
theorem test_wf_bus_address_negative : (Instr.ctrlInit none (-1) (.rat 1) true).wf = false := by decide +kernel
theorem test_wf_ref_clk : (Instr.ctrlInit none 0x40 (.rat 0) true).wf = false := by decide +kernel
/-- V-S8 -/
theorem test_wf_range_positive : (Instr.servoInit none ref1 (.rat 0) (.rat 750) (.rat 2250)).wf = false := by
  decide +kernel
theorem test_writable_name : (Instr.ctrlReset { agent := 0, name := ['1'] }).writable 0 = false := by decide
theorem test_writable_agent : (Instr.ctrlReset ref0).writable 1 = false := by decide
theorem test_writable_nan : (Instr.freqSet ref0 .nan).writable 0 = false := by decide

/-! ### Decoding: words of R92's table -/

theorem test_wire_zero_write : decodeTransfer { kind := .w, out := [], inLen := 0 } = .ok .zeroWrite := by decide
theorem test_wire_byte_read : decodeTransfer { kind := .r, out := [], inLen := 1 } = .ok .byteRead := by decide
theorem test_wire_mode1_set :
    decodeTransfer { kind := .w, out := [0b00000000, 0b10100000], inLen := 0 } = .ok (.set1 .mode1 0xA0) := by decide
theorem test_wire_mode2_get :
    decodeTransfer { kind := .wr, out := [0b00000001], inLen := 1 } = .ok (.get1 .mode2) := by decide
theorem test_wire_prescale_set :
    decodeTransfer { kind := .w, out := [0b11111110, 0b01111010], inLen := 0 } = .ok (.set1 .prescale 122) := by
  decide
theorem test_wire_led_get :
    decodeTransfer { kind := .wr, out := [0b00001010], inLen := 4 } = .ok (.get4 1) := by decide
/-- V-C13: `42 00 10 00 00` is the full-on marker of channel 15. -/
theorem test_wire_led_set :
    decodeTransfer { kind := .w, out := [0x42, 0x00, 0x10, 0x00, 0x00], inLen := 0 }
      = .ok (.set4 15 0x1000 0) := by decide
/-- R94: driven, native duty 0x133 on channel 3. -/
theorem test_wire_led_driven :
    decodeTransfer { kind := .w, out := [0x12, 0x00, 0x00, 0x33, 0x01], inLen := 0 }
      = .ok (.set4 3 0 0x0133) := by decide
/-- R97 -/
theorem test_wire_misaligned :
    decodeTransfer { kind := .wr, out := [0x07], inLen := 4 } = .error (.ledMisaligned 0x07) := by decide
theorem test_wire_unnamed :
    decodeTransfer { kind := .w, out := [0x46, 0x00], inLen := 0 } = .error (.unnamedRegister 0x46) := by decide
theorem test_wire_length :
    decodeTransfer { kind := .w, out := [0x06, 0x00], inLen := 0 } = .error .wrongLength := by decide
/-- The table word of a `FE vv` row. -/
theorem test_table_word : decodeTableWord 16 0x7AFE = some (.prescaleSet tableRef 0x7A) := by decide

/-! ### Decoding: a written line for every operation -/

/-- The line of agent 0 decodes to the operation. -/
def reads (line : String) (i : Instr) : Bool := decide (decodeLine 0 line.toList = .ok i)

theorem test_line_busTryLock : reads "r := BUS_TRY_LOCK c" (.busTryLock (some ['r']) ref0) = true := by decide
theorem test_line_busUnlock : reads "BUS_UNLOCK c" (.busUnlock ref0) = true := by decide
theorem test_line_lockAcquire : reads "LOCK_ACQUIRE c" (.lockAcquire ref0) = true := by decide
theorem test_line_lockRelease : reads "LOCK_RELEASE c" (.lockRelease ref0) = true := by decide
theorem test_line_busProbe : reads "BUS_PROBE c" (.busProbe ref0) = true := by decide
theorem test_line_busWrite : reads "BUS_WRITE c, [0x01, 0x04]" (.busWrite ref0 [1, 4] 0 2) = true := by decide
theorem test_line_busWrite_range : reads "BUS_WRITE c, [1, 4, 9], 1, 3" (.busWrite ref0 [1, 4, 9] 1 3) = true := by
  decide
theorem test_line_busRead : reads "r := BUS_READ c, 1" (.busRead (some ['r']) ref0 1) = true := by decide
theorem test_line_busWriteRead :
    reads "r := BUS_WRITE_READ c, [0x00], 1" (.busWriteRead (some ['r']) ref0 [0] 1) = true := by decide
theorem test_line_scalarGet :
    reads "r := SCALAR_GET c, 0xFE, u8" (.scalarGet (some ['r']) ref0 0xFE .u8) = true := by decide
theorem test_line_scalarSet :
    reads "SCALAR_SET c, 0x00, u16, 0x1234" (.scalarSet ref0 0 .u16 0x1234) = true := by decide
theorem test_line_tupleGet :
    reads "TUPLE_GET c, 0x06, (u16,u16)" (.tupleGet none ref0 6 [.u16, .u16]) = true := by decide
theorem test_line_tupleSet :
    reads "TUPLE_SET c, 0x0A, (u16,u16), (0, 0x800)" (.tupleSet ref0 0x0A [.u16, .u16] [0, 0x800]) = true := by
  decide
theorem test_line_arrayGet :
    reads "ARRAY_GET c, 0x06, (u16,u16), 16, 15" (.arrayGet none ref0 6 [.u16, .u16] 16 15) = true := by decide
theorem test_line_arraySet :
    reads "ARRAY_SET c, 0x06, (u16,u16), 16, 3, (0, 0x133)"
      (.arraySet ref0 6 [.u16, .u16] 16 3 [0, 0x133]) = true := by decide
theorem test_line_ctrlInit :
    reads "c := CTRL_INIT addr=0x40, probe=false" (.ctrlInit (some ['c']) 0x40 (.rat 25000000) false) = true := by
  decide +kernel
theorem test_line_ctrlReset : reads "CTRL_RESET c" (.ctrlReset ref0) = true := by decide
theorem test_line_mode1Get : reads "r := MODE1_GET c" (.mode1Get (some ['r']) ref0) = true := by decide
theorem test_line_mode1Set : reads "MODE1_SET c, 0x10 ; sleep" (.mode1Set ref0 0x10) = true := by decide
theorem test_line_mode2Get : reads "MODE2_GET c" (.mode2Get none ref0) = true := by decide
theorem test_line_mode2Set : reads "MODE2_SET c, 4" (.mode2Set ref0 4) = true := by decide
theorem test_line_prescaleGet : reads "PRESCALE_GET c" (.prescaleGet none ref0) = true := by decide
theorem test_line_prescaleSet : reads "PRESCALE_SET c, 0x1E" (.prescaleSet ref0 30) = true := by decide
theorem test_line_ledGet : reads "LED_GET c, 15" (.ledGet none ref0 15) = true := by decide
theorem test_line_ledSet : reads "LED_SET c, 15, (0x1000, 0)" (.ledSet ref0 15 0x1000 0) = true := by decide
theorem test_line_freqGet : reads "r := FREQ_GET c" (.freqGet (some ['r']) ref0) = true := by decide
theorem test_line_freqSet : reads "FREQ_SET c, 78125/32" (.freqSet ref0 (.rat (78125 / 32))) = true := by
  decide +kernel
theorem test_line_ctrlDeinit : reads "CTRL_DEINIT c" (.ctrlDeinit ref0) = true := by decide
theorem test_line_chLookup : reads "h := CH_LOOKUP c, -1" (.chLookup (some ['h']) ref0 (-1)) = true := by decide
theorem test_line_chFreqGet : reads "CH_FREQ_GET h" (.chFreqGet none ref1) = true := by decide
theorem test_line_chFreqSet : reads "CH_FREQ_SET h, 50" (.chFreqSet ref1 (.rat 50)) = true := by decide +kernel
theorem test_line_chDutyGet : reads "r := CH_DUTY_GET h" (.chDutyGet (some ['r']) ref1) = true := by decide
theorem test_line_chDutySet : reads "CH_DUTY_SET h, 0x8000" (.chDutySet ref1 0x8000) = true := by decide
theorem test_line_servoInit :
    reads "s := SERVO_INIT h, range=180, min=750, max=2250"
      (.servoInit (some ['s']) ref1 (.rat 180) (.rat 750) (.rat 2250)) = true := by decide +kernel
theorem test_line_servoPulse :
    reads "SERVO_SET_PULSE_RANGE s, 750, 2250" (.servoSetPulseRange ref2 (.rat 750) (.rat 2250)) = true := by
  decide +kernel
theorem test_line_servoFractionGet : reads "SERVO_FRACTION_GET s" (.servoFractionGet none ref2) = true := by decide
theorem test_line_servoFractionSet :
    reads "SERVO_FRACTION_SET s, 0.5" (.servoFractionSet ref2 (some (.rat (1 / 2)))) = true := by decide +kernel
theorem test_line_servoAngleGet : reads "r := SERVO_ANGLE_GET s" (.servoAngleGet (some ['r']) ref2) = true := by
  decide
theorem test_line_servoAngleSet :
    reads "SERVO_ANGLE_SET s, -1/1000" (.servoAngleSet ref2 (some (.rat (-1 / 1000)))) = true := by decide +kernel

/-! ### Rejected lines (R99, R103, R248) -/

/-- The line of agent 0 is no operation, for the reason. -/
def rejects (line : String) (e : Reject) : Bool := decide (decodeLine 0 line.toList = .error e)

theorem test_reject_mnemonic : rejects "LED_CLEAR c" .unknownMnemonic = true := by decide
theorem test_reject_count : rejects "CTRL_RESET c, 1" .operandCount = true := by decide
theorem test_reject_integer : rejects "CH_DUTY_SET h, 0.5" .notAnInteger = true := by decide
theorem test_reject_rational : rejects "FREQ_SET c, 1/0" .notARational = true := by decide
/-- Log entry 41: a hexadecimal word alone is a rational, the other forms have decimal digits. -/
theorem test_rational_forms :
    readRat "-0x32".toList = some (-50) ∧ readRat "0x1/2".toList = none ∧ readRat ".5".toList = none ∧
    readRat "5.".toList = none ∧ readRat "1/-2".toList = none := by decide +kernel
/-- Log entry 40 -/
theorem test_name_forms :
    nameOk ['_', '1'] = true ∧ nameOk "absent".toList = true ∧ nameOk ['1', 'c'] = false ∧ nameOk ['a', '-'] = false := by
  decide
theorem test_reject_byte : rejects "BUS_WRITE c, [256]" .notAByte = true := by decide
theorem test_reject_field : rejects "SCALAR_GET c, 0, s16" .notAField = true := by decide
theorem test_reject_name : rejects "CTRL_RESET 1c" .notAName = true := by decide
theorem test_reject_keyword : rejects "c := CTRL_INIT addr=0x40" .badKeyword = true := by decide
theorem test_reject_binding : rejects "r := CTRL_RESET c" .noResult = true := by decide
theorem test_reject_character : rejects "CTRL_RESET c!" .badCharacter = true := by decide
theorem test_reject_form : rejects "CTRL_RESET c," .badForm = true := by decide
theorem test_reject_colon : rejects "r : = MODE1_GET c" .badCharacter = true := by decide

/-! ### One step on a small state -/

/-- The controller of the tests, at bus address 0x40. -/
def ctl0 : Controller :=
  { devAddr := 0x40
    refClk := .rat 25000000
    live := true
    chan := Vector.replicate 16 none
    buf := Vector.replicate 5 0 }

/-- The servo of W3: 180 degrees, 750 to 2250 microseconds, at prescale 122. -/
def servo0 : Servo :=
  { channel := 1
    actuationRange := .rat 180
    minPulseUs := .rat 750
    maxPulseUs := .rat 2250
    minDuty := 2458
    dutyRange := 4919 }

/-- A device whose registers hold these bytes, every other one 0x00. -/
def regs0 (cells : List Host.Cell) : DeviceRegs := { init := .given [], cells := cells, ptr := 0, wake := none }

/-- Agent 0 with a controller `c`, its channel handle `h` of index 3 and the servo `s` on it. -/
def agent0 (phase : Phase) : AgentState :=
  { prog := []
    pc := 0
    status := .running
    holding := phase.inHold
    attempts := 0
    phase := phase
    objs := [.controller ctl0, .channel { controller := 0, index := 3 }, .servo servo0]
    names := [(['c'], 0), (['h'], 1), (['s'], 2)]
    results := [] }

/-- Agent 0 at a place inside its operation, its device at 0x40, the next transport results `ok` but for `res`. -/
def at0 (phase : Phase) (r : DeviceRegs) (res : List Bool) : State :=
  { params := Params.default
    lock := if phase.inHold then .held 0 else .free
    dev := [(0x40, some r)]
    faults := []
    refused := false
    history := []
    agents := [(0, agent0 phase)]
    turn := 0
    oracle := { results := res ++ List.replicate 8 true, bytes := [0x5A, 0x5B, 0x5C, 0x5D, 0x5E, 0x5F], turns := [], drawn := 0 } }

/-- Between operations. -/
def idle0 (r : DeviceRegs) : State := at0 .idle r []

/-- Inside the lock hold, before the primitive. -/
def body0 (r : DeviceRegs) : State := at0 (.body []) r []

/-- After the primitive, which read these bytes. -/
def got0 (bs : List Byte) : State := at0 (.release [] (.ok bs)) (regs0 []) []

/-- What an outcome's next state shows. -/
def after {a : Type} (o : Host.Outcome State Fault Refusal) (f : State -> a) : Option a :=
  match o with
  | .next s => some (f s)
  | .fault _ => none
  | .refused _ => none

/-- The byte of a register of the device at 0x40. -/
def reg (a : Byte) (s : State) : Option Byte := (s.device 0x40).map fun r => r.read a

/-- The result bound to `r`. -/
def res (s : State) : Option Value := s.me.results.lookup ['r']

def status (s : State) : Status := s.me.status

/-- The event the step recorded. -/
def ev (s : State) : Option Event := s.history.getLast?

/-- V-B1 -/
theorem test_tryLock_free : after (exec (.busTryLock (some ['r']) ref0) (idle0 (regs0 [])))
    (fun t => (t.lock, res t)) = some (.held 0, some (.bool true)) := by decide
/-- V-B2 -/
theorem test_tryLock_held : after (exec (.busTryLock (some ['r']) ref0) ((idle0 (regs0 [])).setLock (.held 1)))
    (fun t => (t.lock, res t, t.history)) = some (.held 1, some (.bool false), []) := by decide
/-- V-B4 -/
theorem test_unlock_free : after (exec (.busUnlock ref0) (idle0 (regs0 [])))
    (fun t => (t.faults, t.history, status t)) = some ([.unbalancedRelease 0], [.release 0], .faulted) := by decide
/-- R122 -/
theorem test_acquire : after (exec (.lockAcquire ref0) (idle0 (regs0 [])))
    (fun t => (t.lock, t.me.pc)) = some (.held 0, 1) := by decide
/-- R123: the holder's own attempt fails. -/
theorem test_acquire_own : after (exec (.lockAcquire ref0) ((idle0 (regs0 [])).setLock (.held 0)))
    (fun t => (t.me.attempts, t.me.pc)) = some (1, 0) := by decide
/-- V-B5 -/
theorem test_release_other : after (exec (.lockRelease ref0) ((idle0 (regs0 [])).setLock (.held 1)))
    (fun t => (t.lock, t.faults)) = some (.free, [.unbalancedRelease 0]) := by decide
/-- V-B8, its first attempt. -/
theorem test_probe_falls_back : after (exec (.busProbe ref0) (at0 (.body []) (regs0 []) [false]))
    (fun t => t.me.phase) = some (.probeRead []) := by decide
/-- V-B8, its second attempt: the pointer advances. -/
theorem test_probe_read : after (exec (.busProbe ref0) (at0 (.probeRead []) (regs0 []) []))
    (fun t => (t.me.phase, (t.device 0x40).map DeviceRegs.ptr)) = some (.release [] (.ok []), some 1) := by decide
/-- R127 -/
theorem test_busWrite : after (exec (.busWrite ref0 [0x01, 0x04] 0 2) (body0 (regs0 [])))
    (fun t => (reg 0x01 t, ev t)) = some (some 0x04, some (.tx 0 0x40 .w [0x01, 0x04] [] true)) := by decide
/-- V-B9: a failed write leaves a draw in MODE2. -/
theorem test_busWrite_fails : after (exec (.busWrite ref0 [0x01, 0x04] 0 2) (at0 (.body []) (regs0 []) [false]))
    (fun t => (reg 0x01 t, reg 0x00 t)) = some (some 0x5A, some 0x00) := by decide
/-- V-B14 -/
theorem test_busRead : after (exec (.busRead (some ['r']) ref0 1) (body0 ((regs0 [(0xFE, 0x7A)]).setPtr 0xFE)))
    (fun t => (t.me.phase, (t.device 0x40).map DeviceRegs.ptr)) = some (.release [] (.ok [0x7A]), some 0xFF) := by
  decide
/-- V-B10 -/
theorem test_busWriteRead : after (exec (.busWriteRead (some ['r']) ref0 [0x00] 1) (body0 (regs0 [(0, 0xA0)])))
    ev = some (some (.tx 0 0x40 .wr [0x00] [0xA0] true)) := by decide
/-- V-D5 -/
theorem test_scalarGet : after (exec (.scalarGet (some ['r']) ref0 0 .u16) (got0 [0x34, 0x12]))
    res = some (some (.int 0x1234)) := by decide
/-- V-D4 -/
theorem test_scalarSet : after (exec (.scalarSet ref0 0 .u16 0x1234) (body0 (regs0 [])))
    (fun t => (reg 0x00 t, reg 0x01 t)) = some (some 0x34, some 0x12) := by decide
/-- V-D3 -/
theorem test_scalarSet_range : after (exec (.scalarSet ref0 1 .u8 0x100) (idle0 (regs0 [])))
    (fun t => (status t, t.history)) = some (.errored (.encoding 0x100), []) := by decide
/-- R144 -/
theorem test_tupleGet : after (exec (.tupleGet (some ['r']) ref0 6 [.u16, .u16]) (got0 [0x00, 0x10, 0x00, 0x00]))
    res = some (some (.tuple [0x1000, 0])) := by decide
/-- V-D6 -/
theorem test_tupleSet : after (exec (.tupleSet ref0 0x0A [.u16, .u16] [0x0100, 0x0200]) (body0 (regs0 [])))
    (fun t => (ev t, reg 0x0D t)) = some (some (.tx 0 0x40 .w [0x0A, 0x00, 0x01, 0x00, 0x02] [] true), some 0x02) := by
  decide
/-- V-D7 -/
theorem test_arrayGet : after (exec (.arrayGet none ref0 6 [.u16, .u16] 16 15) (body0 (regs0 [(0x43, 0x10)])))
    ev = some (some (.tx 0 0x40 .wr [0x42] [0x00, 0x10, 0x00, 0x00] true)) := by decide
/-- V-D9 -/
theorem test_arraySet : after (exec (.arraySet ref0 6 [.u16, .u16] 16 16 [0, 0x10000]) (idle0 (regs0 [])))
    (fun t => (status t, t.history)) = some (.errored (.index 16), []) := by decide
/-- R160, its last step: the controller is bound. -/
theorem test_ctrlInit : after (exec (.ctrlInit (some ['d']) 0x41 (.rat 1000) false) (got0 []))
    (fun t => (t.me.names.lookup ['d'], t.me.objs[3]?)) = some (some 3, some (.controller
      { devAddr := 0x41
        refClk := .rat 1000
        live := true
        chan := Vector.replicate 16 none
        buf := #v[0x5A, 0x5B, 0x5C, 0x5D, 0x5E] })) := by decide +kernel
/-- R271: construction of a device that was asleep is a wake. -/
theorem test_ctrlInit_wakes : after (exec (.ctrlInit none 0x40 (.rat 1000) false) (body0 (regs0 [(0, 0x11)])))
    (fun t => (reg 0x00 t, t.device 0x40)) = some (some 0x00, some { init := .given [], cells := [], ptr := 1, wake := some [] }) := by
  decide +kernel
/-- R161 -/
theorem test_ctrlReset : after (exec (.ctrlReset ref0) (body0 (regs0 [(0, 0xA0)])))
    (reg 0x00) = some (some 0x00) := by decide
/-- R166 -/
theorem test_mode1Get : after (exec (.mode1Get (some ['r']) ref0) (got0 [0xA0])) res = some (some (.int 0xA0)) := by
  decide
/-- V-C12 -/
theorem test_mode1Set_early : after (exec (.mode1Set ref0 0x80) (body0 ((regs0 []).setWake (some [1]))))
    (fun t => (t.faults, status t, reg 0x00 t, t.lock))
      = some ([.restartBeforeSettle 0x40], .faulted, some 0x80, .free) := by decide
/-- R38: a wake. -/
theorem test_mode1Set_wake : after (exec (.mode1Set ref0 0x00) (body0 (regs0 [(0, 0x10)])))
    (fun t => (t.device 0x40).map DeviceRegs.wake) = some (some (some [])) := by decide
/-- R169 -/
theorem test_mode2Get : after (exec (.mode2Get none ref0) (body0 (regs0 [(1, 0x04)])))
    ev = some (some (.tx 0 0x40 .wr [0x01] [0x04] true)) := by decide
/-- R170 -/
theorem test_mode2Set : after (exec (.mode2Set ref0 4) (body0 (regs0 []))) (reg 0x01) = some (some 0x04) := by decide
/-- R171: no range check. -/
theorem test_prescaleGet : after (exec (.prescaleGet (some ['r']) ref0) (got0 [0x02])) res = some (some (.int 2)) := by
  decide
/-- V-C11 -/
theorem test_prescaleSet_asleep : after (exec (.prescaleSet ref0 0x7A) (body0 (regs0 [(0, 0x10)])))
    (fun t => (reg 0xFE t, t.faults)) = some (some 0x7A, []) := by decide
theorem test_prescaleSet_running : after (exec (.prescaleSet ref0 0x7A) (body0 (regs0 [])))
    (fun t => (reg 0xFE t, t.faults)) = some (some 0x5A, [.prescaleWhileRunning 0x40]) := by decide
/-- R173 -/
theorem test_ledGet : after (exec (.ledGet (some ['r']) ref0 0) (got0 [0x00, 0x00, 0x00, 0x08]))
    res = some (some (.tuple [0, 0x0800])) := by decide
/-- V-C13 -/
theorem test_ledSet : after (exec (.ledSet ref0 15 0x1000 0) (body0 (regs0 [(0x45, 0xFF)])))
    (fun t => (ev t, reg 0x43 t, reg 0x45 t))
      = some (some (.tx 0 0x40 .w [0x42, 0x00, 0x10, 0x00, 0x00] [] true), some 0x10, some 0x00) := by decide
/-- V-C3 -/
theorem test_freqGet : after (exec (.freqGet (some ['r']) ref0) (got0 [122]))
    res = some (some (.num (.rat (390625 / 7808)))) := by decide +kernel
/-- V-C8 -/
theorem test_freqGet_low : after (exec (.freqGet (some ['r']) ref0) (got0 [2]))
    (fun t => (status t, t.lock)) = some (.errored (.calibration (.prescale 2)), .free) := by decide +kernel
/-- V-C2, step (3). -/
theorem test_freqSet : after (exec (.freqSet ref0 (.rat 50)) (at0 (.body [[0x00], []]) (regs0 [(0, 0x10)]) []))
    (fun t => (ev t, t.faults)) = some (some (.tx 0 0x40 .w [0xFE, 0x7A] [] true), []) := by decide +kernel
/-- V-C4 -/
theorem test_freqSet_slow : after (exec (.freqSet ref0 (.rat 23)) (idle0 (regs0 [])))
    (fun t => (status t, t.history)) = some (.errored (.calibration (.prescale 265)), []) := by decide +kernel
/-- V-C14 -/
theorem test_ctrlDeinit : after (exec (.ctrlDeinit ref0) (got0 []))
    (fun t => t.me.objs[0]?) = some (some (.controller { ctl0 with live := false })) := by decide
/-- R190 -/
theorem test_chLookup : after (exec (.chLookup (some ['k']) ref0 0) (idle0 (regs0 [])))
    (fun t => (t.me.names.lookup ['k'], t.me.objs[3]?)) = some (some 3, some (.channel { controller := 0, index := 0 })) := by
  decide
/-- V-H2 -/
theorem test_chLookup_index : after (exec (.chLookup none ref0 16) (idle0 (regs0 [])))
    status = some (.errored (.index 16)) := by decide
/-- V-H4 -/
theorem test_chFreqGet : after (exec (.chFreqGet (some ['r']) ref1) (got0 [0x7A]))
    res = some (some (.num (.rat (390625 / 7808)))) := by decide +kernel
theorem test_chFreqSet : after (exec (.chFreqSet ref1 (.rat 50)) (idle0 (regs0 [])))
    (fun t => (status t, t.history)) = some (.errored (.unsupportedOperation 1), []) := by decide
/-- R193 -/
theorem test_chDutyGet : after (exec (.chDutyGet (some ['r']) ref1) (got0 [0x00, 0x00, 0x33, 0x01]))
    res = some (some (.int 4912)) := by decide
/-- V-H1 -/
theorem test_chDutySet : after (exec (.chDutySet ref1 0xFFEF) (body0 (regs0 [])))
    ev = some (some (.tx 0 0x40 .w [0x12, 0x00, 0x00, 0xFF, 0x0F] [] true)) := by decide
/-- V-H3 -/
theorem test_chDutySet_range : after (exec (.chDutySet ref1 0x10000) (idle0 (regs0 [])))
    status = some (.errored (.range (.int 0x10000))) := by decide
/-- W3 -/
theorem test_servoInit : after (exec (.servoInit (some ['t']) ref1 (.rat 180) (.rat 750) (.rat 2250)) (got0 [122]))
    (fun t => t.me.objs[3]?) = some (some (.servo servo0)) := by decide +kernel
/-- V-S9 -/
theorem test_servoPulse : after (exec (.servoSetPulseRange ref2 (.rat 750) (.rat 2250)) (got0 [61]))
    (fun t => t.me.objs[2]?) = some (some (.servo { servo0 with minDuty := 4917, dutyRange := 9837 })) := by
  decide +kernel
/-- R213 -/
theorem test_servoFractionGet : after (exec (.servoFractionGet (some ['r']) ref2) (got0 [0x00, 0x00, 0x33, 0x01]))
    res = some (some (.num (.rat (2454 / 4919)))) := by decide +kernel
/-- V-S4: a duty of 0 reads as absent. -/
theorem test_servoFractionGet_absent : after (exec (.servoFractionGet (some ['r']) ref2) (got0 [0, 0, 0, 0]))
    res = some (some .absent) := by decide +kernel
/-- R213, R247: a zero duty range faults, and the rule's `pc <- pc + 1` is done. -/
theorem test_servoFractionGet_zeroRange :
    after (exec (.servoFractionGet (some ['r']) ref2) ((got0 [0x00, 0x00, 0x33, 0x01]).setObject 2
      (.servo { servo0 with dutyRange := 0 }))) (fun s => (s.me.status, s.me.pc, s.me.results.length, s.lock))
      = some (.faulted, 1, 0, .free) := by decide +kernel
/-- R214 -/
theorem test_servoFractionSet : after (exec (.servoFractionSet ref2 (some (.rat (1 / 2)))) (body0 (regs0 [])))
    ev = some (some (.tx 0 0x40 .w [0x12, 0x00, 0x00, 0x33, 0x01] [] true)) := by decide +kernel
/-- V-S6 -/
theorem test_servoFractionSet_range : after (exec (.servoFractionSet ref2 (some (.rat (11 / 10)))) (idle0 (regs0 [])))
    status = some (.errored (.range (.num (.rat (11 / 10))))) := by decide +kernel
/-- W3 -/
theorem test_servoAngleGet : after (exec (.servoAngleGet (some ['r']) ref2) (got0 [0x00, 0x00, 0x33, 0x01]))
    res = some (some (.num (.rat (441720 / 4919)))) := by decide +kernel
/-- W3 -/
theorem test_servoAngleSet : after (exec (.servoAngleSet ref2 (some (.rat 90))) (body0 (regs0 [])))
    ev = some (some (.tx 0 0x40 .w [0x12, 0x00, 0x00, 0x33, 0x01] [] true)) := by decide +kernel
/-- V-S6 -/
theorem test_servoAngleSet_range : after (exec (.servoAngleSet ref2 (some (.rat (180001 / 1000)))) (idle0 (regs0 [])))
    status = some (.errored (.range (.num (.rat (180001 / 1000))))) := by decide +kernel

/-- R219: an infinite angle fails the range check, whatever the range. -/
theorem test_range_infinite : inRange (.inf false) (.inf false) = false ∧ inRange (.rat 0) (.inf false) = true := by
  decide +kernel

/-! ### binary64 (R8, R219) -/

/-- 1/10 + 2/10 is the neighbour of 3/10 that IEEE 754 gives: 0.1 = 3602879701896397 / 2^55. -/
theorem test_binary64_tenth :
    roundBinary64 false (1 / 10) = .rat (3602879701896397 / 36028797018963968) := by decide +kernel
/-- A tie between two 53-bit values goes to the even one. -/
theorem test_binary64_tie : roundBinary64 false 9007199254740993 = .rat 9007199254740992 := by decide +kernel
/-- The largest finite value and half a unit more is infinite. -/
theorem test_binary64_overflow :
    roundBinary64 false ((2 : Rat) ^ 1024 - 2 ^ 970) = .inf false := by decide +kernel
/-- R8: the tie rules, V-C7's 122.5. -/
theorem test_tie_up : roundRat .halfUp (245 / 2) = 123 := by decide +kernel
theorem test_tie_even : roundRat .halfEven (245 / 2) = 122 := by decide +kernel

/-! ### Witnesses: a state and operands that meet the hypotheses of each statement -/

theorem wit_owns_ctrl (r : DeviceRegs) : OwnsCtrl (idle0 r) ref0 0 ctl0 := ⟨rfl, rfl, rfl⟩
theorem wit_owns_chan (r : DeviceRegs) : OwnsChan (idle0 r) ref1 1 { controller := 0, index := 3 } ctl0 :=
  ⟨rfl, rfl, rfl, rfl⟩
theorem wit_owns_servo (r : DeviceRegs) : OwnsServo (idle0 r) ref2 2 servo0 { controller := 0, index := 3 } ctl0 :=
  ⟨rfl, rfl, rfl, rfl, rfl⟩
theorem wit_ready (r : DeviceRegs) : Ready (idle0 r) := ⟨rfl, rfl⟩
theorem wit_ctrlCall (r : DeviceRegs) : CtrlCall (idle0 r) ref0 0 ctl0 r := ⟨wit_ready r, wit_owns_ctrl r, rfl, rfl⟩
theorem wit_chanCall (r : DeviceRegs) : ChanCall (idle0 r) ref1 1 { controller := 0, index := 3 } ctl0 r :=
  ⟨wit_ready r, wit_owns_chan r, rfl, rfl⟩
theorem wit_servoCall (r : DeviceRegs) : ServoCall (idle0 r) ref2 2 servo0 { controller := 0, index := 3 } ctl0 r :=
  ⟨wit_ready r, wit_owns_servo r, rfl, rfl⟩
theorem wit_not_mine (r : DeviceRegs) :
    (idle0 r).me.phase = .idle ∧ (idle0 r).lock ≠ .held (idle0 r).turn :=
  ⟨rfl, fun h => by cases (show Lock.free = Lock.held 0 from h)⟩

/-- The state with the lock held by agent `g`. -/
def heldBy (g : AgentId) (s : State) : State := s.setLock (.held g)

/-- The state after the controller has been deinitialised. -/
def dead0 : State := (idle0 (regs0 [])).setObject 0 (.controller { ctl0 with live := false })

theorem wit_WireEncodeDecode :
    decodeTransfer { kind := .wr, out := [0x42], inLen := 4 } = .ok (.get4 15) := by decide
theorem wit_WireRejectsByName :
    (∀ a ∈ [(0x02 : Byte), 0x05, 0x46, 0xFD, 0xFF],
      (0x02 ≤ a.toNat ∧ a.toNat ≤ 0x05) ∨ (0x46 ≤ a.toNat ∧ a.toNat ≤ 0xFD) ∨ a.toNat = 0xFF) ∧
    (∀ a ∈ [(0x07 : Byte), 0x09, 0x45], 0x06 ≤ a.toNat ∧ a.toNat ≤ 0x45 ∧ (a.toNat - 0x06) % 4 ≠ 0) ∧
    ([] : List Byte).length ≠ 1 ∧ [(1 : Byte), 2].length ≠ 1 ∧ [(1 : Byte), 2, 3].length ≠ 4 ∧ 0 ≠ 1 ∧ 5 ≠ 4 := by
  decide
theorem wit_LineDecodeEncode :
    (Instr.tupleSet ref0 (-1) [.u8] [300]).writable 0 = true ∧ (Instr.freqSet ref0 (.rat (-5 / 3))).writable 0 = true ∧
    (Instr.servoAngleSet ref2 none).writable 0 = true ∧ (Instr.busWrite ref0 [] 7 (-2)).writable 0 = true := by
  decide
theorem wit_IllFormedOperandsAreRefused :
    (Instr.busRead none ref0 0).wf = false ∧ (idle0 (regs0 [])).me.phase = .idle ∧
    (heldBy 0 (idle0 (regs0 []))).me.phase = .idle ∧
    dead0.me.phase = .idle ∧ operandRef (.busRead none ref0 0) = some ref0 ∧ dead0.resolve ref0 = some 0 ∧
    standsOn dead0 (operandKind (.busRead none ref0 0)) 0 0 ∧
    dead0.object 0 = some (.controller { ctl0 with live := false }) :=
  ⟨rfl, rfl, rfl, rfl, rfl, rfl, rfl, rfl⟩

/-- Agent 0 with a program. -/
def withProg (s : State) (p : List Slot) : State := s.updMe fun a => { a with prog := p }

theorem wit_StepRunsTheOperationAtPc :
    (withProg (idle0 (regs0 [])) [.op (.lockAcquire ref0)]).me.status = .running ∧
    (withProg (idle0 (regs0 [])) [.op (.lockAcquire ref0)]).me.prog[0]? = some (.op (.lockAcquire ref0)) ∧
    ∃ t, exec (.lockAcquire ref0) (withProg (idle0 (regs0 [])) [.op (.lockAcquire ref0)]) = .next t := by
  exact ⟨by decide, by decide, _, rfl⟩

/-- A program text of an operation, a comment line and a line that is no operation. -/
def text0 : List Byte := ("CTRL_RESET c\n ; a comment\nNO_SUCH c".toList.map fun c => BitVec.ofNat 8 c.toNat)

theorem wit_ProgramIsTheLinesOfItsText :
    ((splitLines (text0.map byteChar)).filter fun l => !blankLine l)[0]? = some "CTRL_RESET c".toList ∧
    ((splitLines (text0.map byteChar)).filter fun l => !blankLine l)[1]? = some "NO_SUCH c".toList ∧
    ((splitLines (text0.map byteChar)).filter fun l => !blankLine l) ≠ [] ∧
    ((splitLines (([] : List Byte).map byteChar)).filter fun l => !blankLine l) = [] ∧
    decodeLine 0 "CTRL_RESET c".toList = .ok (.ctrlReset ref0) ∧
    decodeLine 0 "NO_SUCH c".toList = .error .unknownMnemonic := by decide
theorem wit_AgentsStop :
    ((idle0 (regs0 [])).stopWith .ended).me.status.stopped = true ∧
    (idle0 (regs0 [])).me.status = .running ∧ (idle0 (regs0 [])).me.prog.length ≤ (idle0 (regs0 [])).me.pc ∧
    (idle0 (regs0 [])).lock ≠ .held 0 ∧ ((idle0 (regs0 [])).setLock (.held 0)).me.status = .running ∧
    ((idle0 (regs0 [])).setLock (.held 0)).lock = .held ((idle0 (regs0 [])).setLock (.held 0)).turn ∧
    (withProg (idle0 (regs0 [])) [.illFormed .badForm]).me.prog[0]? = some (.illFormed .badForm) := by decide

theorem wit_owns_held (g : AgentId) (r : DeviceRegs) : OwnsCtrl (heldBy g (idle0 r)) ref0 0 ctl0 := ⟨rfl, rfl, rfl⟩
theorem wit_TryLockTakesAFreeLock :
    (idle0 (regs0 [])).me.phase = .idle ∧ (idle0 (regs0 [])).lock = .free ∧
    (heldBy 1 (idle0 (regs0 []))).me.phase = .idle ∧ (heldBy 1 (idle0 (regs0 []))).lock ≠ .free ∧
    (heldBy 0 (idle0 (regs0 []))).lock ≠ .free := by decide
theorem wit_UnlockFreesTheLock :
    (heldBy 0 (idle0 (regs0 []))).me.phase = .idle ∧ (heldBy 0 (idle0 (regs0 []))).lock = .held 0 ∧
    (heldBy 1 (idle0 (regs0 []))).lock ≠ .held 0 ∧ (idle0 (regs0 [])).lock ≠ .held 0 := by decide
/-- Agent 0 waiting for a free lock after three failed attempts, what its earlier transactions read given. -/
def waited (rs : List (List Byte)) : State := (at0 (.acquire rs) (regs0 []) []).setAttempts 3

theorem wit_LockAcquireTakesAFreeLock :
    OwnsCtrl (idle0 (regs0 [])) ref0 0 ctl0 ∧ Ready (idle0 (regs0 [])) ∧ OwnsCtrl (waited []) ref0 0 ctl0 ∧
    (waited []).lock = .free ∧ (waited []).me.phase = .acquire [] ∧ (waited []).me.attempts = 3 :=
  ⟨wit_owns_ctrl _, wit_ready _, ⟨rfl, rfl, rfl⟩, rfl, rfl, rfl⟩
/-- The same of the acquire of MODE2_SET, waiting and at its first attempt, of the probe's and of FREQ_SET's second. -/
theorem wit_LockAcquireTakesAFreeLock_inside :
    (∃ sc, (scriptOf (.mode2Set ref0 4) (waited [])).resume [] = some sc ∧ sc.locks = some 0x40 ∧ sc.isHold = true) ∧
    (∃ sc, (scriptOf (.mode2Set ref0 4) (idle0 (regs0 []))).resume [] = some sc ∧ sc.locks = some 0x40) ∧
    (∃ sc, (scriptOf (.busProbe ref0) (waited [])).resume [] = some sc ∧ sc.locks = some 0x40) ∧
    ((scriptOf (.freqSet ref0 (.rat 50)) (waited [[0x00]])).resume [[0x00]]).bind Script.locks = some 0x40 ∧
    (waited [[0x00]]).me.phase = .acquire [[0x00]] ∧ (waited [[0x00]]).lock = .free :=
  ⟨⟨_, rfl, rfl, rfl⟩, ⟨_, rfl, rfl⟩, ⟨_, rfl, rfl⟩, by decide +kernel, rfl, rfl⟩

/-- Agent 0 waiting for the lock that agent `g` holds, with an acquire timeout. -/
def waiting (g : AgentId) (tmo : Option Nat) : State :=
  { at0 (.acquire []) (regs0 []) [] with
    lock := .held g
    params := { Params.default with acquireTimeout := tmo } }

theorem wit_owns_waiting (g : AgentId) (tmo : Option Nat) : OwnsCtrl (waiting g tmo) ref0 0 ctl0 := ⟨rfl, rfl, rfl⟩
theorem wit_FailedAttemptsAreCounted :
    (waiting 1 none).me.phase = .acquire [] ∧ (waiting 1 none).lock ≠ .free ∧
    (waiting 1 none).params.acquireTimeout = none ∧ (waiting 1 (some 2)).params.acquireTimeout = some 2 ∧
    (waiting 1 (some 2)).me.attempts + 1 < 2 ∧ 1 ≤ (waiting 1 (some 1)).me.attempts + 1 ∧
    (waiting 1 (some 1)).lock ≠ .held 0 ∧ (waiting 0 (some 1)).lock = .held 0 := by decide
/-- The same of the acquire of MODE2_SET, waiting and at its first attempt, and of the second acquire of FREQ_SET. -/
theorem wit_FailedAttemptsAreCounted_inside :
    (∃ sc, (scriptOf (.mode2Set ref0 4) (waiting 1 none)).resume [] = some sc ∧ sc.locks = some 0x40) ∧
    (∃ sc, (scriptOf (.mode2Set ref0 4) (heldBy 1 (idle0 (regs0 [])))).resume [] = some sc ∧ sc.locks = some 0x40) ∧
    (heldBy 1 (idle0 (regs0 []))).me.phase = .idle ∧ (heldBy 1 (idle0 (regs0 []))).lock ≠ .free ∧
    ((scriptOf (.freqSet ref0 (.rat 50)) (heldBy 1 (at0 (.acquire [[0x00]]) (regs0 []) []))).resume [[0x00]]).bind
      Script.locks = some 0x40 ∧
    (heldBy 1 (at0 (.acquire [[0x00]]) (regs0 []) [])).me.phase = .acquire [[0x00]] :=
  ⟨⟨_, rfl, rfl⟩, ⟨_, rfl, rfl⟩, rfl, by decide, by decide +kernel, rfl⟩
theorem wit_NoStepTakesAHeldLock :
    (heldBy 1 (idle0 (regs0 []))).lock ≠ .free ∧
    ∃ t, exec (.busTryLock none ref0) (heldBy 1 (idle0 (regs0 []))) = .next t := ⟨by decide, _, rfl⟩
theorem wit_ProbeOfAPresentDevice :
    OwnsCtrl (at0 .idle (regs0 []) [false, true]) ref0 0 ctl0 ∧ Ready (at0 .idle (regs0 []) [false, true]) ∧
    (at0 .idle (regs0 []) [false, true]).device ctl0.devAddr = some (regs0 []) ∧
    (at0 .idle (regs0 []) []).oracle.drawResult.1 = true ∧
    (at0 .idle (regs0 []) [false, true]).oracle.results = false :: true :: List.replicate 8 true ∧
    (at0 .idle (regs0 []) [false, false]).oracle.results = false :: false :: List.replicate 8 true :=
  ⟨⟨rfl, rfl, rfl⟩, ⟨rfl, rfl⟩, rfl, rfl, rfl, rfl⟩

/-- The state with no device on the bus. -/
def noDevice : State := { idle0 (regs0 []) with dev := [] }

theorem wit_AbsentDevicesFail :
    OwnsCtrl noDevice ref0 0 ctl0 ∧ Ready noDevice ∧ noDevice.device ctl0.devAddr = none ∧
    ((0 : Int) ≤ 0x7F ∧ (0x7F : Int) ≤ 0x7F ∧ (Sys2Proof.Num.rat 1).pos = true ∧
      Sys2Proof.Num.operand noDevice.params.arith (.rat 1) = some (.rat 1) ∧
      noDevice.device (BitVec.ofInt 7 0x7F) = none) ∧
    ∃ d via p k, scriptOf (.mode1Get none ref0) noDevice = .transact d via p k ∧ noDevice.device d = none :=
  ⟨⟨rfl, rfl, rfl⟩, ⟨rfl, rfl⟩, rfl, ⟨by decide, by decide, by decide +kernel, rfl, rfl⟩, _, _, _, _, rfl, rfl⟩
theorem wit_RawTransfersComplete :
    CtrlCall (idle0 (regs0 [])) ref0 0 ctl0 (regs0 []) ∧
    ((0 : Int) ≤ 0 ∧ (0 : Int) ≤ 3 ∧ (3 : Int) ≤ [(0x44 : Byte), 1, 2].length) ∧ ((1 : Int) ≤ 1) ∧
    QuietWrite Params.default 0 0x40 (slice [0x44, 1, 2] 0 3) (regs0 []) (idle0 (regs0 [])).oracle.drawResult.2 ∧
    QuietWrite Params.default 0 0x40 [] (regs0 []) (idle0 (regs0 [])).oracle.drawResult.2 :=
  ⟨wit_ctrlCall _, by decide, by decide, rfl, rfl⟩
theorem wit_WritesLandWhereThePointerPoints :
    QuietWrite Params.default 0 0x40 [0x00, 0x00, 0x07] (regs0 []) (idle0 (regs0 [])).oracle ∧
    Params.default.aiModel = .always ∧
    regMode1 ∉ storedAddrs { Params.default with aiModel := .mode1Ai } 0x00 [0x06, 1, 2] := by
  exact ⟨rfl, rfl, by decide⟩
theorem wit_WhenAWriteFaults :
    regMode1 ∉ storedAddrs Params.default 0x00 [0x01, 9] ∧ regPrescale ∉ storedAddrs Params.default 0x00 [0x01, 9] ∧
    QuietWrite Params.default 1 0x40 [0x00, 0x80] ((regs0 []).setWake (some [1])) (idle0 (regs0 [])).oracle ∧
    ¬ QuietWrite Params.default 0 0x40 [0x00, 0x80] ((regs0 []).setWake (some [1])) (idle0 (regs0 [])).oracle := by
  exact ⟨by decide, by decide, rfl, by unfold QuietWrite; decide⟩
/-- Each clause of the law for a write of several bytes: a store into MODE1 that comes too early, and one that does not;
into PRESCALE with SLEEP clear, and with SLEEP set; elsewhere. -/
theorem wit_WhenAWriteFaults_stores :
    ((0x80 : Byte) &&& Params.default.restartMask ≠ 0 ∧ ((regs0 []).setWake (some [1])).wake = some [1] ∧ 0 ∉ [1]) ∧
    ¬ ((0x10 : Byte) &&& Params.default.restartMask ≠ 0) ∧
    (regs0 []).read 0x00 &&& Params.default.sleepMask = 0 ∧
    ¬ (regs0 [(0, 0x10)]).read 0x00 &&& Params.default.sleepMask = 0 ∧ (0xFD : Byte) ≠ 0x00 ∧ (0xFD : Byte) ≠ 0xFE := by
  decide
/-- R127: a write that reaches 0xFE on the way faults while SLEEP is clear, and does not where it is set; R61, R282:
after 0xFF comes MODE1; with one register written over and over (R286) the wake that the write itself makes counts. -/
theorem test_write_faults_on_the_way :
    writeFaults Params.default 0 0x40 [0xFD, 1, 2] (regs0 []) (idle0 (regs0 [])).oracle = [.prescaleWhileRunning 0x40] ∧
    writeFaults Params.default 0 0x40 [0xFD, 1, 2] (regs0 [(0, 0x10)]) (idle0 (regs0 [])).oracle = [] ∧
    writeFaults Params.default 0 0x40 [0xFF, 1, 0x80] ((regs0 []).setWake (some [1])) (idle0 (regs0 [])).oracle =
      [.restartBeforeSettle 0x40] ∧
    writeFaults { Params.default with aiModel := .mode1Ai } 0 0x40 [0x00, 0x10, 0x00, 0x80] (regs0 [])
      (idle0 (regs0 [])).oracle = [.restartBeforeSettle 0x40] := by decide
theorem wit_FailedTransfersEndTheOperation :
    (∃ d via p k, scriptOf (.ledSet ref0 0 1 2) (at0 .idle (regs0 []) [false]) = .transact d via p k ∧
      (at0 .idle (regs0 []) [false]).device d = some (regs0 [])) ∧
    Ready (at0 .idle (regs0 []) [false]) ∧ (at0 .idle (regs0 []) [false]).oracle.drawResult.1 = false :=
  ⟨⟨_, _, _, _, rfl, rfl⟩, ⟨rfl, rfl⟩, rfl⟩
theorem wit_LostLocksFault :
    Issues (.mode2Set ref0 4) (heldBy 1 (body0 (regs0 []))) 0x40 none (Prim.write [0x01, 4]) ∧
    (heldBy 1 (body0 (regs0 []))).device 0x40 = some (regs0 []) ∧ (heldBy 1 (body0 (regs0 []))).lock ≠ .held 0 ∧
    Issues (.mode2Set ref0 4) { heldBy 1 (body0 (regs0 [])) with dev := [] } 0x40 none (Prim.write [0x01, 4]) ∧
    { heldBy 1 (body0 (regs0 [])) with dev := [] }.device 0x40 = none ∧
    (heldBy 1 (at0 (.body []) (regs0 []) [false])).oracle.drawResult.1 = false ∧
    (∃ sc, (scriptOf (.mode2Set ref0 4) (heldBy 1 (got0 []))).resume [] = some sc ∧ sc.isHold = true) ∧
    (heldBy 1 (got0 [])).me.phase = .release [] (.ok []) ∧ (heldBy 1 (got0 [])).lock ≠ .held 0 :=
  ⟨.transact [] _ _ _ rfl rfl, rfl, by decide, .transact [] _ _ _ rfl rfl, rfl, rfl, ⟨_, rfl, rfl⟩, rfl, by decide⟩
/-- Both attempts of a probe, the reset write of CTRL_INIT after its probe, their holds at the release, and the second
hold of FREQ_SET. -/
theorem wit_LostLocksFault_probe :
    Issues (.busProbe ref0) (heldBy 1 (body0 (regs0 []))) 0x40 none (Prim.write []) ∧
    Issues (.busProbe ref0) (heldBy 1 (at0 (.probeRead []) (regs0 []) [])) 0x40 none (Prim.read 1) ∧
    (heldBy 1 (at0 (.probeRead []) (regs0 []) [])).lock ≠ .held 0 ∧
    Issues (.ctrlInit none 0x40 (.rat 1) true) (heldBy 1 (at0 (.body [[]]) (regs0 []) [])) 0x40 none
      (Prim.write [0x00, 0x00]) ∧
    (∃ sc, (scriptOf (.busProbe ref0) (heldBy 1 (got0 []))).resume [] = some sc ∧ sc.isHold = true) ∧
    (∃ sc, (scriptOf (.ctrlInit none 0x40 (.rat 1) true) (heldBy 1 (got0 []))).resume [] = some sc ∧ sc.isHold = true) ∧
    ((scriptOf (.freqSet ref0 (.rat 50)) (heldBy 1 (at0 (.release [[0x00]] (.ok [])) (regs0 []) []))).resume
      [[0x00]]).map Script.isHold = some true :=
  ⟨.probeWrite [] _ rfl rfl, .probeRead [] _ rfl rfl, by decide,
    .transact [[]] _ _ _ rfl rfl, ⟨_, rfl, rfl⟩, ⟨_, rfl, rfl⟩, by decide +kernel⟩
theorem wit_PayloadsDecodeBack :
    [(0xFF : Int), 0xFFFF].length = [Field.u8, .u16].length ∧
    encodeFields [.u8, .u16] [0xFF, 0xFFFF] = .ok [0xFF, 0xFF, 0xFF] ∧
    [(1 : Byte), 2, 3].length = elementSize [.u8, .u16] := by decide
theorem wit_DescriptorGetsComplete :
    CtrlCall (idle0 (regs0 [])) ref0 0 ctl0 (regs0 []) ∧ scalarWf 0xFE .u8 = true ∧ scalarWf 0x44 .u16 = true ∧
    tupleWf 0x06 [.u8, .u16] = true ∧ arrayWf 0x06 [.u16, .u16] 16 = true ∧ (0 : Int) ≤ 15 ∧ (15 : Int) < 16 :=
  ⟨wit_ctrlCall _, by decide, by decide, by decide, by decide, by decide, by decide⟩
theorem wit_DescriptorSetsComplete :
    CtrlCall (idle0 (regs0 [])) ref0 0 ctl0 (regs0 []) ∧ scalarWf 0x01 .u8 = true ∧ scalarWf 0x00 .u16 = true ∧
    ((0 : Int) ≤ 0xFF ∧ (0xFF : Int) ≤ 0xFF ∧ (0xFFFF : Int) ≤ 0xFFFF) ∧
    tupleWf 0x45 [.u8] = true ∧ encodeFields [.u8] [0] = .ok [0x00] ∧ arrayWf 0x06 [.u16, .u16] 16 = true ∧
    encodeFields [.u16, .u16] [0, 0x133] = .ok [0x00, 0x00, 0x33, 0x01] ∧
    QuietWrite Params.default 0 0x40 [0x01, 0xFF] (regs0 []) (idle0 (regs0 [])).oracle.drawResult.2 ∧
    QuietWrite Params.default 0 0x40 [0x00, 0xFF, 0xFF] (regs0 []) (idle0 (regs0 [])).oracle.drawResult.2 ∧
    QuietWrite Params.default 0 0x40 [0x45, 0x00] (regs0 []) (idle0 (regs0 [])).oracle.drawResult.2 ∧
    QuietWrite Params.default 0 0x40 [0x12, 0x00, 0x00, 0x33, 0x01] (regs0 [])
      (idle0 (regs0 [])).oracle.drawResult.2 :=
  ⟨wit_ctrlCall _, by decide, by decide, by decide, by decide, by decide, by decide, by decide, rfl, rfl, rfl, rfl⟩
/-- Agent 0 between operations, holding the lock. -/
theorem wit_holder : OwnsCtrl (heldBy 0 (idle0 (regs0 []))) ref0 0 ctl0 ∧
    (heldBy 0 (idle0 (regs0 []))).me.phase = .idle ∧
    (heldBy 0 (idle0 (regs0 []))).lock = .held (heldBy 0 (idle0 (regs0 []))).turn := ⟨⟨rfl, rfl, rfl⟩, rfl, rfl⟩
theorem wit_IndexErrorsComeFirst :
    OwnsCtrl (heldBy 0 (idle0 (regs0 []))) ref0 0 ctl0 ∧
    ((heldBy 0 (idle0 (regs0 []))).me.phase = .idle ∧
      (heldBy 0 (idle0 (regs0 []))).lock = .held (heldBy 0 (idle0 (regs0 []))).turn) ∧
    ¬ ((0 : Int) ≤ 16 ∧ (16 : Int) ≤ 15) ∧ ¬ ((0 : Int) ≤ -1 ∧ (-1 : Int) ≤ 15) ∧
    arrayWf 0x06 [.u8] 1 = true ∧ ¬ ((0 : Int) ≤ 1 ∧ (1 : Int) < 1) ∧ [(300 : Int)].length = [Field.u8].length :=
  ⟨wit_holder.1, wit_holder.2, by decide, by decide, by decide, by decide, by decide⟩
theorem wit_EncodingErrorsTouchNoBus :
    OwnsCtrl (heldBy 0 (idle0 (regs0 []))) ref0 0 ctl0 ∧
    ((heldBy 0 (idle0 (regs0 []))).me.phase = .idle ∧
      (heldBy 0 (idle0 (regs0 []))).lock = .held (heldBy 0 (idle0 (regs0 []))).turn) ∧
    ¬ ((0 : Int) ≤ 0x100 ∧ (0x100 : Int) ≤ 0xFF) ∧ ¬ ((0 : Int) ≤ 0x10000 ∧ (0x10000 : Int) ≤ 0xFFFF) ∧
    ¬ ((0 : Int) ≤ -1 ∧ (-1 : Int) ≤ 0xFF) ∧ scalarWf 0x01 .u8 = true ∧ scalarWf 0x06 .u16 = true ∧
    encodeFields [.u16, .u16] [0, 0x10000] = .error 0x10000 ∧ tupleWf 0x06 [.u16, .u16] = true ∧
    arrayWf 0x06 [.u16, .u16] 16 = true :=
  ⟨wit_holder.1, wit_holder.2, by decide, by decide, by decide, by decide, by decide, by decide, by decide,
    by decide⟩

/-- The state with its device at the last bus address. -/
def lastAddress : State := { idle0 (regs0 [(0, 0x11)]) with dev := [(0x7F, some (regs0 [(0, 0x11)]))] }

theorem wit_reliable (n : Nat) (h : n ≤ 8) (r : DeviceRegs) : (idle0 r).oracle.Reliable n := by
  refine ⟨fun b hb => ?_, fun hn => absurd hn ?_⟩
  · exact List.eq_of_mem_replicate (List.mem_of_mem_take hb)
  · show ¬ 8 < n
    omega
theorem wit_CtrlInitCompletes :
    Ready lastAddress ∧ (0 : Int) ≤ 0x7F ∧ (0x7F : Int) ≤ 0x7F ∧
    Sys2Proof.Num.operand lastAddress.params.arith (.rat 25000000) = some (.rat 25000000) ∧
    (Sys2Proof.Num.rat 25000000).pos = true ∧
    lastAddress.device (BitVec.ofInt 7 0x7F) = some (regs0 [(0, 0x11)]) ∧
    lastAddress.oracle.drawResult.1 = true ∧ lastAddress.oracle.Reliable 2 :=
  ⟨⟨rfl, rfl⟩, by decide, by decide, rfl, by decide +kernel, rfl, rfl, wit_reliable 2 (by decide) (regs0 [(0, 0x11)])⟩
/-- The transport results of a probe that falls back or fails, and of a reset write that fails. -/
theorem wit_CtrlInitCompletes_probe :
    (∀ l ∈ [[false, true, true], [false, false], [true, false], [false, true, false]],
      (at0 .idle (regs0 []) l).oracle.results = l ++ List.replicate 8 true ∧
      Ready (at0 .idle (regs0 []) l) ∧ (at0 .idle (regs0 []) l).device (BitVec.ofInt 7 0x40) = some (regs0 [])) :=
  fun _ _ => ⟨rfl, ⟨rfl, rfl⟩, rfl⟩
theorem wit_ResetAndDeinitComplete : CtrlCall (idle0 (regs0 [(0, 0xA0)])) ref0 0 ctl0 (regs0 [(0, 0xA0)]) :=
  wit_ctrlCall _
theorem wit_ScalarRegisterGetsComplete : CtrlCall (idle0 (regs0 [(0, 0xA0)])) ref0 0 ctl0 (regs0 [(0, 0xA0)]) :=
  wit_ctrlCall _
theorem wit_Mode1SetCompletes :
    CtrlCall (idle0 ((regs0 []).setWake (some [0]))) ref0 0 ctl0 ((regs0 []).setWake (some [0])) ∧
    (0 : Int) ≤ 0xFF ∧ (0xFF : Int) ≤ 0xFF ∧
    ¬ (BitVec.ofInt 8 0xFF &&& Params.default.restartMask ≠ 0 ∧
      ∃ S, ((regs0 []).setWake (some [0])).wake = some S ∧ 0 ∉ S) := by
  refine ⟨wit_ctrlCall _, by decide, by decide, ?_⟩
  rintro ⟨-, S, hS, hg⟩
  cases hS
  exact hg (by decide)
theorem wit_StoresThatFault :
    CtrlCall (idle0 ((regs0 []).setWake (some [1]))) ref0 0 ctl0 ((regs0 []).setWake (some [1])) ∧
    BitVec.ofInt 8 0x80 &&& Params.default.restartMask ≠ 0 ∧ ((regs0 []).setWake (some [1])).wake = some [1] ∧
    0 ∉ [1] ∧ CtrlCall (idle0 (regs0 [])) ref0 0 ctl0 (regs0 []) ∧
    (regs0 []).read 0x00 &&& Params.default.sleepMask = 0 :=
  ⟨wit_ctrlCall _, by decide, rfl, by decide, wit_ctrlCall _, by decide⟩
/-- Raw and descriptor writes that fault, at a device whose oscillator runs and where another agent waits out a wake. -/
theorem wit_StoresThatFault_raw :
    CtrlCall (idle0 ((regs0 []).setWake (some [1]))) ref0 0 ctl0 ((regs0 []).setWake (some [1])) ∧
    (∀ out ∈ [([0xFE, 7] : List Byte), [0x00, 0x80, 0x00], [0x00, 0x80]],
      ¬ QuietWrite Params.default 0 0x40 out ((regs0 []).setWake (some [1]))
        (idle0 ((regs0 []).setWake (some [1]))).oracle.drawResult.2) ∧
    ((0 : Int) ≤ 2 ∧ (2 : Int) ≤ [(0xFE : Byte), 7].length) ∧ scalarWf 0xFE .u8 = true ∧ scalarWf 0x00 .u16 = true ∧
    (tupleWf 0x00 [.u8, .u8] = true ∧ encodeFields [.u8, .u8] [0x80, 0] = .ok [0x80, 0]) ∧
    (arrayWf 0xFE [.u8] 1 = true ∧ encodeFields [.u8] [7] = .ok [7]) ∧
    ModelFault.prescaleWhileRunning 0x40 ∈ writeFaults Params.default 0 0x40 [0xFE, 7] (regs0 [])
      (idle0 (regs0 [])).oracle :=
  ⟨wit_ctrlCall _, by unfold QuietWrite; decide, by decide, by decide, by decide, by decide, by decide, by decide⟩
theorem wit_Mode2AndPrescaleSetsComplete :
    CtrlCall (idle0 (regs0 [(0, 0x10)])) ref0 0 ctl0 (regs0 [(0, 0x10)]) ∧ (0 : Int) ≤ 0xFF ∧ (0xFF : Int) ≤ 0xFF ∧
    (regs0 [(0, 0x10)]).read 0x00 &&& Params.default.sleepMask ≠ 0 :=
  ⟨wit_ctrlCall _, by decide, by decide, by decide⟩
theorem wit_LedAccessesComplete :
    CtrlCall (idle0 (regs0 [])) ref0 0 ctl0 (regs0 []) ∧ (0 : Int) ≤ 0xFFFF ∧ (0xFFFF : Int) ≤ 0xFFFF :=
  ⟨wit_ctrlCall _, by decide, by decide⟩
theorem wit_FrequencyGetsComplete :
    CtrlCall (idle0 (regs0 [(0xFE, 3)])) ref0 0 ctl0 (regs0 [(0xFE, 3)]) ∧
    ChanCall (idle0 (regs0 [(0xFE, 2)])) ref1 1 { controller := 0, index := 3 } ctl0 (regs0 [(0xFE, 2)]) :=
  ⟨wit_ctrlCall _, wit_chanCall _⟩
theorem wit_PrescaleForAFrequency : Params.default.arith = .exact ∧ Params.default.roundTie = .halfUp := by decide
theorem wit_FreqSetCompletes :
    CtrlCall (idle0 (regs0 [])) ref0 0 ctl0 (regs0 []) ∧ (idle0 (regs0 [])).oracle.Reliable 5 ∧
    (idle0 (regs0 [])).params.sleepMask ≠ 0 ∧ (idle0 (regs0 [])).params.restartMask ≠ 0 ∧
    SleepsQuietly Params.default 0 (regs0 []) ∧ Sys2Proof.Num.operand .exact (.rat 50) = some (.rat 50) ∧
    prescaleFor Params.default ctl0.refClk (.rat 50) = .ok 0x7A :=
  ⟨wit_ctrlCall _, wit_reliable 5 (by decide) _, by decide, by decide, .inl (by decide), rfl, by decide +kernel⟩
theorem wit_FrequencySetsThatFail :
    OwnsCtrl (idle0 (regs0 [])) ref0 0 ctl0 ∧
    ((idle0 (regs0 [])).me.phase = .idle ∧ (idle0 (regs0 [])).lock ≠ .held (idle0 (regs0 [])).turn) ∧
    prescaleFor Params.default ctl0.refClk (.rat 0) = .error (.calibration (.frequency (.rat 0))) ∧
    prescaleFor Params.default ctl0.refClk (.rat 3000) = .error (.calibration (.prescale 2)) ∧
    OwnsChan (idle0 (regs0 [])) ref1 1 { controller := 0, index := 3 } ctl0 :=
  ⟨wit_owns_ctrl _, wit_not_mine _, by decide +kernel, by decide +kernel, wit_owns_chan _⟩
theorem wit_FailedFreqSetLeavesItsSteps :
    (∀ l ∈ [[false], [true, false], [true, true, false], [true, true, true, false], [true, true, true, true, false]],
      (at0 .idle (regs0 []) l).oracle.results.take l.length = l) ∧
    (∀ l, OwnsCtrl (at0 .idle (regs0 []) l) ref0 0 ctl0 ∧ Ready (at0 .idle (regs0 []) l)) ∧
    (at0 .idle (regs0 []) [false]).device ctl0.devAddr = some (regs0 []) ∧
    (Params.default.sleepMask ≠ 0 ∧ Params.default.restartMask ≠ 0 ∧ SleepsQuietly Params.default 0 (regs0 [])) ∧
    prescaleFor Params.default ctl0.refClk (.rat 50) = .ok 0x7A :=
  ⟨by decide, fun _ => ⟨⟨rfl, rfl, rfl⟩, ⟨rfl, rfl⟩⟩, rfl, ⟨by decide, by decide, .inl (by decide)⟩, by decide +kernel⟩

/-- Agent 0 inside a hold of FREQ_SET, its first step's byte 0x00 read, before a write. -/
def calibrating (n : Nat) (r : DeviceRegs) : State := at0 (.body ([0x00] :: List.replicate n [])) r []

/-- Each write of FREQ_SET, the device left asleep, awake, or in a wake of another agent. -/
theorem wit_FailedFreqSetLeavesItsSteps_interleaved :
    (∀ n r, OwnsCtrl (calibrating n r) ref0 0 ctl0 ∧ (calibrating n r).device ctl0.devAddr = some r ∧
      (calibrating n r).oracle.drawResult.1 = true ∧ (calibrating n r).lock = .held (calibrating n r).turn ∧
      (calibrating n r).me.phase = .body ([0x00] :: List.replicate n [])) ∧
    prescaleFor Params.default ctl0.refClk (.rat 50) = .ok 0x7A ∧
    (∀ n ∈ [0, 1, 2, 4], (List.replicate n ([] : List Byte)).length = n) ∧
    (regs0 [(0, 0x10)]).read 0x00 &&& Params.default.sleepMask ≠ 0 ∧
    (regs0 []).read 0x00 &&& Params.default.sleepMask = 0 ∧
    (0x00 ||| Params.default.restartMask ||| Params.default.aiMask) &&& Params.default.restartMask ≠ 0 ∧
    (∃ S, ((regs0 []).setWake (some [1])).wake = some S ∧ 0 ∉ S) ∧
    ¬ (((0x00 &&& ~~~ Params.default.sleepEntryClear) ||| Params.default.sleepMask) &&& Params.default.restartMask ≠ 0 ∧
      ∃ S, (regs0 []).wake = some S ∧ 0 ∉ S) :=
  ⟨fun _ _ => ⟨⟨rfl, rfl, rfl⟩, rfl, rfl, rfl, rfl⟩, by decide +kernel, by decide, by decide, by decide, by decide,
    ⟨[1], rfl, by decide⟩, fun h => h.1 (by decide)⟩

theorem wit_UnusableObjects :
    (dead0.object 0 = some (.controller { ctl0 with live := false }) ∧ dead0.me.phase = .idle ∧
      dead0.lock ≠ .held dead0.turn) ∧
    (operandRef (.mode1Get none ref0) = some ref0 ∧ dead0.resolve ref0 = some 0 ∧
      standsOn dead0 (operandKind (.mode1Get none ref0)) 0 0) ∧
    (operandRef (.chFreqSet ref1 .nan) = some ref1 ∧ dead0.resolve ref1 = some 1 ∧
      standsOn dead0 (operandKind (.chFreqSet ref1 .nan)) 1 0) ∧
    (operandRef (.servoAngleGet none ref2) = some ref2 ∧ dead0.resolve ref2 = some 2 ∧
      standsOn dead0 (operandKind (.servoAngleGet none ref2)) 2 0) ∧
    ({ agent := 1, name := ['c'] } : ObjRef).agent ≠ (idle0 (regs0 [])).turn ∧
    (idle0 (regs0 [])).me.names.lookup ['x'] = none :=
  ⟨⟨rfl, rfl, by decide⟩, ⟨rfl, rfl, rfl⟩, ⟨rfl, rfl, _, rfl, rfl⟩, ⟨rfl, rfl, _, _, rfl, rfl, rfl⟩, by decide, by decide⟩

/-- A channel operation on a controller's name, and a controller operation on a servo's. -/
theorem wit_UnusableObjects_kind :
    (operandRef (.chDutyGet none ref0) = some ref0 ∧ (idle0 (regs0 [])).resolve ref0 = some 0 ∧
      (idle0 (regs0 [])).object 0 = some (.controller ctl0) ∧
      (Object.controller ctl0).kind ≠ operandKind (.chDutyGet none ref0)) ∧
    (operandRef (.busProbe ref2) = some ref2 ∧ (idle0 (regs0 [])).resolve ref2 = some 2 ∧
      (idle0 (regs0 [])).object 2 = some (.servo servo0) ∧
      (Object.servo servo0).kind ≠ operandKind (.busProbe ref2)) :=
  ⟨⟨rfl, rfl, rfl, by decide⟩, ⟨rfl, rfl, rfl, by decide⟩⟩

/-- A controller that has looked up its channel 3. -/
def ctlCached : Controller := { ctl0 with chan := ctl0.chan.set 3 (some 1) }

theorem wit_ChannelLookupCompletes :
    OwnsCtrl (idle0 (regs0 [])) ref0 0 ctl0 ∧ (idle0 (regs0 [])).me.phase = .idle ∧ ctl0.chan[(3 : Fin 16)] = none ∧
    OwnsCtrl ((idle0 (regs0 [])).setObject 0 (.controller ctlCached)) ref0 0 ctlCached ∧
    ctlCached.chan[(3 : Fin 16)] = some 1 ∧
    ¬ ((0 : Int) ≤ 16 ∧ (16 : Int) ≤ 15) ∧ ¬ ((0 : Int) ≤ -1 ∧ (-1 : Int) ≤ 15) ∧
    (idle0 (regs0 [])).lock ≠ .held (idle0 (regs0 [])).turn ∧
    OwnsCtrl ((idle0 (regs0 [])).setLock (.held 0)) ref0 0 ctl0 ∧
    ((idle0 (regs0 [])).setLock (.held 0)).lock = .held ((idle0 (regs0 [])).setLock (.held 0)).turn :=
  ⟨wit_owns_ctrl _, rfl, rfl, ⟨rfl, rfl, rfl⟩, by decide, by decide, by decide, by decide, ⟨rfl, rfl, rfl⟩, rfl⟩
theorem wit_DutyEncodingAndDecoding : (0 : Int) ≤ 0xFFFF ∧ (0xFFFF : Int) ≤ 0xFFFF ∧ (0xFFFE : Int) ≠ 0xFFFF := by decide
theorem wit_ChannelDutyGetCompletes :
    ChanCall (idle0 (regs0 [])) ref1 1 { controller := 0, index := 3 } ctl0 (regs0 []) := wit_chanCall _
theorem wit_ChannelDutySetCompletes :
    ChanCall (idle0 (regs0 [])) ref1 1 { controller := 0, index := 3 } ctl0 (regs0 []) ∧
    ((0 : Int) ≤ 0xFFFF ∧ (0xFFFF : Int) ≤ 0xFFFF) ∧ ¬ ((0 : Int) ≤ 0x10000 ∧ (0x10000 : Int) ≤ 0xFFFF) ∧
    ¬ ((0 : Int) ≤ -1 ∧ (-1 : Int) ≤ 0xFFFF) ∧
    OwnsChan (heldBy 0 (idle0 (regs0 []))) ref1 1 { controller := 0, index := 3 } ctl0 ∧
    (heldBy 0 (idle0 (regs0 []))).me.phase = .idle ∧
    OwnsChan { idle0 (regs0 []) with dev := [] } ref1 1 { controller := 0, index := 3 } ctl0 :=
  ⟨wit_chanCall _, by decide, by decide, by decide, ⟨rfl, rfl, rfl, rfl⟩, rfl, ⟨rfl, rfl, rfl, rfl⟩⟩
theorem wit_DutyRoundTrip :
    ChanCall (idle0 (regs0 [])) ref1 1 { controller := 0, index := 3 } ctl0 (regs0 []) ∧
    (idle0 (regs0 [])).oracle.Reliable 2 ∧ (regs0 []).adv (idle0 (regs0 [])).params = true ∧
    (0 : Int) ≤ 0xFFFE ∧ (0xFFFE : Int) < 0xFFFF := ⟨wit_chanCall _, wit_reliable 2 (by decide) _, rfl, by decide, by decide⟩
theorem wit_ChannelsWriteOnlyTheirElement :
    OwnsChan (idle0 (regs0 [])) ref1 1 { controller := 0, index := 3 } ctl0 ∧
    OwnsCtrl (idle0 (regs0 [])) ref0 0 ctl0 ∧
    (∃ t, exec (.chDutySet ref1 5) (idle0 (regs0 [])) = .next t) ∧
    (idle0 (regs0 [])).device 0x40 = some (regs0 []) := ⟨wit_owns_chan _, wit_owns_ctrl _, ⟨_, rfl⟩, rfl⟩
theorem wit_ServoCalibrationCompletes :
    ChanCall (idle0 (regs0 [(0xFE, 3)])) ref1 1 { controller := 0, index := 3 } ctl0 (regs0 [(0xFE, 3)]) ∧
    ServoCall (idle0 (regs0 [(0xFE, 3)])) ref2 2 servo0 { controller := 0, index := 3 } ctl0 (regs0 [(0xFE, 3)]) ∧
    Sys2Proof.Num.operand .exact (.rat 180) = some (.rat 180) ∧ (Sys2Proof.Num.rat 180).pos = true ∧
    3 ≤ ((regs0 [(0xFE, 3)]).read 0xFE).toNat ∧
    ChanCall (idle0 (regs0 [(0xFE, 2)])) ref1 1 { controller := 0, index := 3 } ctl0 (regs0 [(0xFE, 2)]) ∧
    ServoCall (idle0 (regs0 [(0xFE, 2)])) ref2 2 servo0 { controller := 0, index := 3 } ctl0 (regs0 [(0xFE, 2)]) ∧
    ((regs0 [(0xFE, 2)]).read 0xFE).toNat < 3 :=
  ⟨wit_chanCall _, wit_servoCall _, rfl, by decide +kernel, by decide, wit_chanCall _, wit_servoCall _, by decide⟩
theorem wit_CalibrationFormulas : Params.default.arith = .exact := rfl

/-- The state with a servo whose duty range is zero. -/
def flat0 (r : DeviceRegs) : State := (idle0 r).setObject 2 (.servo { servo0 with dutyRange := 0 })

theorem wit_ServoReadsComplete :
    ServoCall (idle0 (regs0 [])) ref2 2 servo0 { controller := 0, index := 3 } ctl0 (regs0 []) ∧
    dutyDecode Params.default.fullOnMatch 0 0 = 0 ∧ dutyDecode Params.default.fullOnMatch 0 0x133 ≠ 0 ∧
    servo0.dutyRange ≠ 0 ∧
    ServoCall (flat0 (regs0 [(0x14, 0x33)])) ref2 2 { servo0 with dutyRange := 0 } { controller := 0, index := 3 } ctl0
      (regs0 [(0x14, 0x33)]) ∧
    dutyDecode Params.default.fullOnMatch 0 ((regs0 [(0x14, 0x33)]).read 0x14).toNat ≠ 0 :=
  ⟨wit_servoCall _, by decide, by decide, by decide, ⟨⟨rfl, rfl⟩, ⟨rfl, rfl, rfl, rfl, rfl⟩, rfl, rfl⟩, by decide⟩
theorem wit_ServoSetsComplete :
    ServoCall (idle0 (regs0 [])) ref2 2 servo0 { controller := 0, index := 3 } ctl0 (regs0 []) ∧
    Sys2Proof.Num.operand .exact (.rat 1) = some (.rat 1) ∧ inRange (.rat 1) (.rat 1) = true ∧
    0 ≤ fractionDuty Params.default servo0 (.rat 1) ∧ fractionDuty Params.default servo0 (.rat 1) ≤ 0xFFFF ∧
    inRange (.rat 180) servo0.actuationRange = true ∧
    Sys2Proof.Num.div .exact (.rat 180) servo0.actuationRange = .rat 1 :=
  ⟨wit_servoCall _, rfl, by decide +kernel, by decide +kernel, by decide +kernel, by decide +kernel, by decide +kernel⟩
theorem wit_ServoRangeErrorsTouchNoBus :
    OwnsServo (idle0 (regs0 [])) ref2 2 servo0 { controller := 0, index := 3 } ctl0 ∧
    ((idle0 (regs0 [])).me.phase = .idle ∧ (idle0 (regs0 [])).lock ≠ .held (idle0 (regs0 [])).turn) ∧
    inRange (.rat (11 / 10)) (.rat 1) = false ∧ inRange (.rat (-1 / 1000)) servo0.actuationRange = false ∧
    Sys2Proof.Num.operand .binary64 .nan = some .nan ∧
    ¬ (0 ≤ fractionDuty Params.default { servo0 with minDuty := -1 } (.rat 0) ∧
      fractionDuty Params.default { servo0 with minDuty := -1 } (.rat 0) ≤ 0xFFFF) :=
  ⟨wit_owns_servo _, wit_not_mine _, by decide +kernel, by decide +kernel, rfl, by decide +kernel⟩
/-- An angle whose duty is out of range; a fraction out of range, of a servo of range 0. -/
theorem wit_ServoRangeErrorsTouchNoBus_angle :
    (inRange (.rat 0) servo0.actuationRange = true ∧ inRange (.rat 0) (.rat 1) = true ∧
      Sys2Proof.Num.div .exact (.rat 0) servo0.actuationRange = .rat 0 ∧
      ¬ (0 ≤ fractionDuty Params.default { servo0 with minDuty := -1 } (.rat 0) ∧
        fractionDuty Params.default { servo0 with minDuty := -1 } (.rat 0) ≤ 0xFFFF)) ∧
    (inRange (.rat 0) (.rat 0) = true ∧ inRange (Sys2Proof.Num.div .binary64 (.rat 0) (.rat 0)) (.rat 1) = false) := by
  decide +kernel
theorem wit_AngleQuantisationBound :
    ServoCall (idle0 (regs0 [])) ref2 2 servo0 { controller := 0, index := 3 } ctl0 (regs0 []) ∧
    (idle0 (regs0 [])).oracle.Reliable 2 ∧ (regs0 []).adv (idle0 (regs0 [])).params = true ∧
    servo0.actuationRange = .rat 180 ∧ 0 < servo0.dutyRange ∧
    15 ≤ servo0.minDuty + roundRat .halfUp (90 / 180 * servo0.dutyRange) ∧
    servo0.minDuty + roundRat .halfUp (90 / 180 * servo0.dutyRange) ≤ 0xFFFE :=
  ⟨wit_servoCall _, wit_reliable 2 (by decide) _, rfl, rfl, by decide, by decide +kernel, by decide +kernel⟩
theorem wit_CalibrationsGoStale :
    (∃ t, exec (.freqSet ref0 (.rat 50)) (idle0 (regs0 [])) = .next t) ∧
    ((idle0 (regs0 [])).agent 0).objs[2]? = some (.servo servo0) := ⟨⟨_, rfl⟩, rfl⟩
theorem wit_DelayDischargesTheSettle :
    OwnsCtrl (at0 (.wait [[0x00], [], [], []]) (regs0 []) []) ref0 0 ctl0 ∧
    Sys2Proof.Num.operand .exact (.rat 50) = some (.rat 50) ∧
    prescaleFor Params.default ctl0.refClk (.rat 50) = .ok 0x7A ∧
    (at0 (.wait [[0x00], [], [], []]) (regs0 []) []).me.phase = .wait [[0x00], [], [], []] ∧
    (5 : Rat) ≤ 5 ∧ (4 : Rat) < 5 ∧ (regs0 []).wake = none ∧ ((regs0 []).setWake (some [1])).wake = some [1] :=
  ⟨⟨rfl, rfl, rfl⟩, rfl, by decide +kernel, rfl, by decide +kernel, by decide +kernel, rfl, rfl⟩
theorem wit_StepsOnlyAdd : ∃ t, step (withProg (idle0 (regs0 [])) [.op (.lockAcquire ref0)]) = .next t := ⟨_, rfl⟩
theorem wit_StepKeepsMemoryCanonical :
    Memory.wf (withProg (body0 (regs0 [])) [.op (.ledSet ref0 0 1 2)]) = true ∧
    ∃ t, step (withProg (body0 (regs0 [])) [.op (.ledSet ref0 0 1 2)]) = .next t := ⟨by decide, _, rfl⟩
theorem wit_CanonicalMemoryIsUnique :
    Memory.wf (body0 (regs0 [(1, 7)])) = true ∧
    Memory.wf (idle0 (regs0 [(1, 7)])) = true ∧
    ∀ d, (idle0 (regs0 [(1, 7)])).device d = (body0 (regs0 [(1, 7)])).device d :=
  ⟨by decide, by decide, fun _ => rfl⟩

theorem agents_at0 (p : Phase) (r : DeviceRegs) (l : List Bool) (g : AgentId) :
    (at0 p r l).agent g = if g = 0 then agent0 p else AgentState.launch [] := by
  simp only [State.agent, at0, Table.get]
theorem wit_lockInv (r : DeviceRegs) : LockInv (body0 r) := by
  constructor
  · rintro g h
    cases h
    exact ⟨rfl, rfl⟩
  · intro g
    rw [body0, agents_at0]
    split <;> decide
  · intro _ g
    rw [body0, agents_at0]
    split
    · rename_i hg
      subst hg
      intro _
      rfl
    · intro h
      exact absurd h (by decide)
theorem wit_StepKeepsLockInvariant :
    LockInv (body0 (regs0 [])) ∧ ∃ t, step (body0 (regs0 [])) = .next t := ⟨wit_lockInv _, _, rfl⟩
theorem wit_ResetState : [Slot.op (.ctrlReset ref0)] ≠ [] := by decide

/-- A state in which every agent has stopped. -/
def over0 : State := { idle0 (regs0 []) with agents := [] }

theorem wit_LockHoldsAreExclusive :
    LockInv (body0 (regs0 [])) ∧ (∀ g, ModelFault.unbalancedRelease g ∉ (body0 (regs0 [])).faults) ∧
    (∃ t, step (body0 (regs0 [])) = .next t) ∧ LockInv over0 ∧ RunOver over0 := by
  refine ⟨wit_lockInv _, fun _ => by simp [body0, at0], ⟨_, rfl⟩, ⟨?_, ?_, ?_⟩, fun _ => rfl⟩
  · intro g h
    cases h
  · intro g h
    exact absurd h (by simp [State.agent, over0, Table.get, AgentState.launch, Phase.inHold])
  · intro _ g h
    exact absurd h (by simp [State.agent, over0, Table.get, AgentState.launch])
theorem wit_NoStepStopsTheMachine :
    Consistent (withProg (body0 (regs0 [])) [.op (.ctrlReset ref0)]) := by
  intro g
  by_cases hg : g = 0
  · subst hg
    rintro - i hi
    cases hi
    rfl
  · have : (withProg (body0 (regs0 [])) [.op (.ctrlReset ref0)]).agent g = AgentState.launch [] := by
      show Table.get _ [(0, _)] g = _
      simp [Table.get, hg]
    rw [this]
    exact fun h => absurd h (by decide)

end Sys2Proof.Tests
end

section
/-! SUPPORT. The frame of a step of the whole machine: the agent's own step changes what `OwnFrame` says, and the
passing of the turn changes only the turn and the free choices (R10). -/

namespace Sys2Proof.Machine

open Sys2Proof

/-! ### The passing of the turn -/

@[simp] theorem State.passTurn_params (s : State) : s.passTurn.params = s.params := rfl
@[simp] theorem State.passTurn_faults (s : State) : s.passTurn.faults = s.faults := rfl
@[simp] theorem State.passTurn_refused (s : State) : s.passTurn.refused = s.refused := rfl
@[simp] theorem State.passTurn_history (s : State) : s.passTurn.history = s.history := rfl
@[simp] theorem State.passTurn_device (s : State) (d : DevAddr) : s.passTurn.device d = s.device d := rfl
@[simp] theorem State.passTurn_agent (s : State) (g : AgentId) : s.passTurn.agent g = s.agent g := rfl

/-! ### The frame of an agent's own step -/

/-- An agent that has stopped takes no step (R30, R244). -/
theorem OwnFrame.refl (s : State) : OwnFrame s s where
  params := rfl
  turn := rfl
  others _ _ := rfl
  prog := rfl
  pc := .inl rfl
  history := ⟨[], by simp⟩
  faults _ hf := hf
  refused hr := hr
  devices _ := rfl

/-- Before the turn passes, the agent that steps is still the one whose turn it was. -/
theorem OwnFrame.agent_turn {s t : State} (h : OwnFrame s t) : t.agent s.turn = t.me := by
  rw [State.me, h.turn]

theorem OwnFrame.agent_prog {s t : State} (h : OwnFrame s t) (g : AgentId) :
    (t.agent g).prog = (s.agent g).prog := by
  by_cases hg : g = s.turn
  · rw [hg, h.agent_turn]; exact h.prog
  · rw [h.others g hg]

theorem step_ownFrame {s t : State} (h : step s = .next t) : ∃ u, t = u.passTurn ∧ OwnFrame s u := by
  obtain ⟨u, ht, rfl | ⟨-, hu⟩⟩ := step_shape h
  · exact ⟨u, ht, .refl u⟩
  · exact ⟨u, ht, hu.own⟩

/-- Settles O54: the frame of the agent's own step, which the passing of the turn keeps. -/
theorem stepsOnlyAdd : Obligations.StepsOnlyAdd := by
  intro s t h
  obtain ⟨u, rfl, hu⟩ := step_ownFrame h
  have pc : (u.agent s.turn).pc = s.me.pc ∨ (u.agent s.turn).pc = s.me.pc + 1 := by
    rw [hu.agent_turn]; exact hu.pc
  simp only [State.passTurn_params, State.passTurn_agent, State.passTurn_history, State.passTurn_faults,
    State.passTurn_refused, State.passTurn_device]
  exact ⟨hu.params, hu.others, hu.agent_prog, pc, hu.history, hu.faults, hu.refused, hu.devices⟩

end Sys2Proof.Machine
end

section
/-! SUPPORT. One step of the machine: an equation for each thing the agent whose turn it is may be at, the inversion of
a step into these cases, and what follows at once: a step runs the operation at `pc`, and agents stop (R10, R30). -/

namespace Sys2Proof.Machine

open Sys2Proof

/-! ### What the step is in each case -/

theorem step_op {s : State} {i : Instr} (hr : s.me.status = .running) (hi : s.me.prog[s.me.pc]? = some (.op i)) :
    step s = andPassTurn (exec i s) := by
  simp only [step, hr, State.fetch, hi]

theorem step_illFormed {s : State} {why : Reject} (hr : s.me.status = .running)
    (hi : s.me.prog[s.me.pc]? = some (.illFormed why)) : step s = .next s.refuseOp.passTurn := by
  simp only [step, hr, State.fetch, hi]

theorem step_programEnd {s : State} (hr : s.me.status = .running) (hi : s.me.prog[s.me.pc]? = none) :
    step s = .next s.endProgram.passTurn := by
  simp only [step, hr, State.fetch, hi]

theorem step_stopped {s : State} (hs : s.me.status.stopped = true) : step s = .next s.passTurn := by
  unfold step
  cases h : s.me.status with
  | running => rw [h] at hs; cases hs
  | _ => rfl

theorem Status.running_or_stopped (st : Status) : st = .running ∨ st.stopped = true := by
  cases st with
  | running => exact .inl rfl
  | _ => exact .inr rfl

/-- What a step of the machine is before the turn passes (R10, R30). -/
inductive StepCase (s u : State) : Prop where
  | op (i : Instr) (hr : s.me.status = .running) (hi : s.me.prog[s.me.pc]? = some (.op i)) (he : exec i s = .next u)
  | illFormed (hr : s.me.status = .running) (hu : u = s.refuseOp)
  | programEnd (hr : s.me.status = .running) (hu : u = s.endProgram)
  | stopped (hs : s.me.status.stopped = true) (hu : u = s)

/-- A step that answers a next state is one of these cases, then the turn passes. -/
theorem step_cases {s t : State} (h : step s = .next t) : ∃ u, t = u.passTurn ∧ StepCase s u := by
  rcases s.me.status.running_or_stopped with hr | hs
  · cases hi : s.me.prog[s.me.pc]? with
    | none =>
      rw [step_programEnd hr hi] at h
      injection h with h
      exact ⟨_, h.symm, .programEnd hr rfl⟩
    | some slot =>
      cases slot with
      | op i =>
        rw [step_op hr hi] at h
        cases he : exec i s with
        | next u =>
          rw [he] at h
          injection h with h
          exact ⟨u, h.symm, .op i hr hi he⟩
        | fault f => rw [he] at h; cases h
        | refused x => rw [he] at h; cases h
      | illFormed why =>
        rw [step_illFormed hr hi] at h
        injection h with h
        exact ⟨_, h.symm, .illFormed hr rfl⟩
  · rw [step_stopped hs] at h
    injection h with h
    exact ⟨s, h.symm, .stopped hs rfl⟩

/-! ### The obligations on a step of one agent -/

/-- Settles O7: the step is `exec` with the turn passed on. -/
theorem stepRunsTheOperationAtPc : Obligations.StepRunsTheOperationAtPc := by
  intro s i hr hi
  rw [step_op hr hi]
  refine ⟨fun t h => ?_, fun f h => ?_, fun x h => ?_⟩
  · rw [h]; rfl
  · rw [h]; rfl
  · rw [h]; rfl

@[simp] theorem State.endProgram_oracle (s : State) : s.endProgram.oracle = s.oracle := State.guardRelease_oracle s

@[simp] theorem State.refuseOp_oracle (s : State) : s.refuseOp.oracle = s.oracle :=
  State.guardRelease_oracle s.setRefused

/-- Settles O9: what the two stops leave is `Aborts`, as for every operation that stops at once. -/
theorem agentsStop : Obligations.AgentsStop := by
  refine ⟨fun s hs => step_stopped hs, fun s hr => ⟨fun hpc => ?_, fun why hi => ?_⟩⟩
  · exact ⟨s.endProgram, step_programEnd hr (List.getElem?_eq_none hpc), s.endProgram_oracle, s.endProgram_aborts⟩
  · exact ⟨s.refuseOp, step_illFormed hr hi, s.refuseOp_oracle, s.refuseOp_aborts⟩

end Sys2Proof.Machine
end

section
/-! SUPPORT. The memory: every step keeps its canonical form, and the canonical form is the only one (R21, R60, R61). -/

namespace Sys2Proof.Machine

open Sys2Proof

theorem StepCase.memory_wf {s u : State} (h : StepCase s u) (hw : Memory.wf s = true) : Memory.wf u = true := by
  cases h with
  | op i hr hi he => exact (exec_memory he).wf hw
  | illFormed hr hu => rw [hu, Memory.wf_congr s.refuseOp_dev]; exact hw
  | programEnd hr hu => rw [hu, Memory.wf_congr s.endProgram_dev]; exact hw
  | stopped hs hu => rw [hu]; exact hw

/-- Settles O55: inside an operation memory changes by a primitive or a delay alone, and a stop or the passing of the
turn does not touch it. -/
theorem stepKeepsMemoryCanonical : Obligations.StepKeepsMemoryCanonical := by
  intro s t hw h
  obtain ⟨u, rfl, hu⟩ := step_cases h
  exact (Memory.wf_congr rfl).trans (hu.memory_wf hw)

/-- A key above every listed one reads as an unlisted one. -/
theorem Table.get_of_keys_lt {β : Type} {dflt : Nat → β} {t : List (Nat × β)} {n a : Nat}
    (h : ∀ e ∈ t, e.1 < n) (ha : n ≤ a) : Table.get dflt t a = dflt a := by
  induction t with
  | nil => rfl
  | cons e t ih =>
    have hk := h e List.mem_cons_self
    have hne : a ≠ e.1 := by omega
    simpa [Table.get, hne] using ih fun f hf => h f (List.mem_cons_of_mem _ hf)

/-- Canonical memories with the same devices are the same data. -/
theorem Memory.ext_of_wf {s t : State} (hs : Memory.wf s = true) (ht : Memory.wf t = true)
    (h : ∀ d, s.device d = t.device d) : s.dev = t.dev := by
  obtain ⟨ws, ks⟩ := Memory.wf_iff.mp hs
  obtain ⟨wt, kt⟩ := Memory.wf_iff.mp ht
  refine Table.ext_of_wf ws wt fun a => ?_
  by_cases ha : a < 128
  · simpa [State.device, Nat.mod_eq_of_lt ha] using h (BitVec.ofNat 7 a)
  · rw [Table.get_of_keys_lt (fun e he => (ks e he).1) (by omega),
      Table.get_of_keys_lt (fun e he => (kt e he).1) (by omega)]

/-- Settles O56: register files in the canonical form are equal where they read alike, and so is the table of them. -/
theorem canonicalMemoryIsUnique : Obligations.CanonicalMemoryIsUnique := by
  intro s t hs ht h
  refine Memory.ext_of_wf hs ht fun d => ?_
  obtain ⟨h1, h2⟩ | ⟨r, q, hr, hq, hinit, hptr, hwake, hread⟩ := h d
  · rw [h1, h2]
  · rw [hr, hq, DeviceRegs.ext_of_wf (Memory.wf_device hs hr) (Memory.wf_device ht hq) hinit hptr hwake hread]

end Sys2Proof.Machine
end

section
/-! SUPPORT. The lock: no step takes a held lock, and every step keeps the lock and its holder in agreement, one lemma
for each clause of `LockInv` (R28, R73, R123, R126). -/

namespace Sys2Proof.Machine

open Sys2Proof

/-- Settles O14: among the ways a step ends, only an attempt on a free lock records an acquire. -/
theorem noStepTakesAHeldLock : Obligations.NoStepTakesAHeldLock :=
  fun _ _ _ hl h => (exec_shape h).events hl

section clauses

variable {s t : State} (inv : LockInv s) (own : OwnFrame s t) (hl : LockCase s t)
include inv own hl

/-- The holder after the step is a running agent that knows it holds. -/
theorem LockCase.holder (hr : s.me.status = .running) (g : AgentId) (hg : t.lock = .held g) :
    (t.agent g).holding = true ∧ (t.agent g).status = .running := by
  cases hl with
  | keep lock holding status phase =>
    have held := inv.holder g (lock ▸ hg)
    rcases eq_or_ne g s.turn with rfl | hne
    · rw [own.agent_turn, holding, status]; exact held
    · rw [own.others g hne]; exact held
  | take free lock holding status =>
    rw [lock] at hg
    injection hg with hg
    rw [← hg, own.agent_turn]
    exact ⟨holding, status.trans hr⟩
  | drop lock holding phase mine => rw [lock] at hg; cases hg
  | stop notMine lock holding phase =>
    rw [lock] at hg
    have hne : g ≠ s.turn := fun e => notMine (e ▸ hg)
    rw [own.others g hne]
    exact inv.holder g hg

/-- An agent inside a lock hold after the step has taken the lock. -/
theorem LockCase.inHold (g : AgentId) (hg : (t.agent g).phase.inHold = true) : (t.agent g).holding = true := by
  rcases eq_or_ne g s.turn with rfl | hne
  · rw [own.agent_turn] at hg ⊢
    cases hl with
    | keep lock holding status phase => rw [holding]; exact inv.inHold s.turn (phase hg)
    | take free lock holding status => exact holding
    | drop lock holding phase mine => rw [phase] at hg; cases hg
    | stop notMine lock holding phase => rw [phase] at hg; cases hg
  · rw [own.others g hne] at hg ⊢
    exact inv.inHold g hg

/-- Where no release by another has been recorded, an agent that has taken the lock holds it after the step. -/
theorem LockCase.exclusive (hf : ∀ g, ModelFault.unbalancedRelease g ∉ t.faults) (g : AgentId)
    (hg : (t.agent g).holding = true) : t.lock = .held g := by
  have excl := inv.exclusive fun g' h' => hf g' (own.faults _ h')
  rcases eq_or_ne g s.turn with rfl | hne
  · rw [own.agent_turn] at hg
    cases hl with
    | keep lock holding status phase => rw [lock]; exact excl s.turn (holding ▸ hg)
    | take free lock holding status => exact lock
    | drop lock holding phase mine => rw [holding] at hg; cases hg
    | stop notMine lock holding phase => exact absurd (excl s.turn (holding ▸ hg)) notMine
  · rw [own.others g hne] at hg
    have held : s.lock = .held g := excl g hg
    cases hl with
    | keep lock holding status phase => rw [lock]; exact held
    | take free lock holding status => rw [free] at held; cases held
    | drop lock holding phase mine =>
      have mine : s.lock = .held s.turn := mine.resolve_right (hf s.turn)
      rw [mine] at held
      injection held with held
      exact absurd held.symm hne
    | stop notMine lock holding phase => rw [lock]; exact held

end clauses

theorem LockInv.of_shape {s t : State} (inv : LockInv s) (hr : s.me.status = .running) (h : StepShape s t) :
    LockInv t :=
  ⟨h.lock.holder inv h.own hr, h.lock.inHold inv h.own, h.lock.exclusive inv h.own⟩

theorem LockInv.passTurn {s : State} (inv : LockInv s) : LockInv s.passTurn :=
  ⟨inv.holder, inv.inHold, inv.exclusive⟩

/-- Settles O57: the four things a step does to the lock each keep the three clauses. -/
theorem stepKeepsLockInvariant : Obligations.StepKeepsLockInvariant := by
  intro s t inv h
  obtain ⟨u, rfl, rfl | ⟨hr, hu⟩⟩ := step_shape h
  · exact inv.passTurn
  · exact (inv.of_shape hr hu).passTurn

end Sys2Proof.Machine
end

section
/-! SUPPORT. Progress: an agent at a place that its operation has takes its step, and is at such a place after it
(R30, R244, R247, R248). -/

namespace Sys2Proof.Machine

open Sys2Proof

/-- Between two operations the agent is at a place of any script. -/
theorem Phase.fits_of_idle {p : Phase} (h : p = .idle) (sc : Script) : p.fits sc = true := by rw [h]; rfl

/-- Agent `g` sees the same scripts in two states in which it is the same. -/
theorem SameView.of_agent {s t : State} {g : AgentId} (hp : t.params = s.params) (ha : t.agent g = s.agent g) :
    SameView { s with turn := g } { t with turn := g } :=
  ⟨rfl, hp, congrArg AgentState.names ha, congrArg (fun a => a.objs.map Object.bare) ha⟩

/-- After a step of operation `i`, the agent is at a place that the operation at its `pc` has: `i` itself, or a next one
that it has not begun. -/
theorem PlaceCase.fits {i j : Instr} {s t : State} (h : PlaceCase i s t) (hprog : t.me.prog = s.me.prog)
    (hi : s.me.prog[s.me.pc]? = some (.op i)) (hj : t.me.prog[t.me.pc]? = some (.op j)) :
    t.me.phase.fits (scriptOf j t) = true := by
  cases h with
  | inside place hf =>
    rw [hprog, place.pc, hi] at hj
    injection hj with hj
    injection hj with hj
    rw [← hj, place.view.scriptOf]
    exact hf
  | ended rs eff u hn hu ht => exact Phase.fits_of_idle (by simp [ht]) _
  | lock hn ho hp => exact Phase.fits_of_idle hp _
  | stopped place hp => exact Phase.fits_of_idle hp _

/-- After its step the agent is at a place that the operation at its `pc` has. -/
theorem StepCase.fits {s u : State} (h : StepCase s u) (hc : Consistent s) (hr : u.me.status = .running) {j : Instr}
    (hj : u.me.prog[u.me.pc]? = some (.op j)) : u.me.phase.fits (scriptOf j u) = true := by
  cases h with
  | op i hrs hi he => exact (exec_place he).fits (exec_shape he).own.prog hi hj
  | illFormed hrs hu => exact Phase.fits_of_idle (by simp [hu, State.refuseOp]) _
  | programEnd hrs hu => exact Phase.fits_of_idle (by simp [hu, State.endProgram]) _
  | stopped hs hu => subst hu; exact hc u.turn hr j hj

theorem StepCase.own {s u : State} (h : StepCase s u) : OwnFrame s u := by
  cases h with
  | op i hr hi he => exact (exec_shape he).own
  | illFormed hr hu => rw [hu]; exact s.refuseOp_shape.own
  | programEnd hr hu => rw [hu]; exact s.endProgram_shape.own
  | stopped hs hu => rw [hu]; exact .refl s

theorem StepCase.consistent {s u : State} (h : StepCase s u) (hc : Consistent s) : Consistent u := by
  intro g hr j hj
  rcases eq_or_ne g u.turn with rfl | hne
  · exact h.fits hc hr hj
  · have same : u.agent g = s.agent g := h.own.others g (h.own.turn ▸ hne)
    rw [(SameView.of_agent h.own.params same).scriptOf]
    rw [same] at hr hj ⊢
    exact hc g hr j hj

/-- Passing the turn moves no agent. -/
theorem Consistent.passTurn {s : State} (hc : Consistent s) : Consistent s.passTurn := by
  intro g hr j hj
  rw [(SameView.of_agent (s := s) (t := s.passTurn) (g := g) rfl rfl).scriptOf]
  exact hc g hr j hj

/-- Every agent that is where its operation can be takes its step. -/
theorem step_of_consistent {s : State} (hc : Consistent s) : ∃ t, step s = .next t := by
  rcases s.me.status.running_or_stopped with hr | hs
  · cases hi : s.me.prog[s.me.pc]? with
    | none => exact ⟨_, step_programEnd hr hi⟩
    | some slot =>
      cases slot with
      | op i =>
        obtain ⟨u, hu⟩ := exec_of_fits (hc s.turn hr i hi)
        exact ⟨u.passTurn, by rw [step_op hr hi, hu]; rfl⟩
      | illFormed why => exact ⟨_, step_illFormed hr hi⟩
  · exact ⟨_, step_stopped hs⟩

/-- Settles O60: progress, and the preservation of `Consistent` by the agent's own step and the passing of the turn. -/
theorem noStepStopsTheMachine : Obligations.NoStepStopsTheMachine := by
  intro s hc
  obtain ⟨t, h⟩ := step_of_consistent hc
  obtain ⟨u, rfl, hu⟩ := step_cases h
  exact ⟨_, h, (hu.consistent hc).passTurn⟩

end Sys2Proof.Machine
end

section
/-! SUPPORT. The delay: what it leaves by its length, what it adds to a settle obligation, and the one delay of the
calibration sequence (R38, R163, R283). -/

namespace Sys2Proof.Machine

open Sys2Proof

/-- A delay of at least 5 ms discharges every pending settle obligation of the agent (R283). -/
theorem Leaves.delay_of_le (s : State) {ms : Rat} (h : 5 ≤ ms) :
    Leaves s (s.delay ms) s.lock [] [.delay s.turn ms]
      (fun d => (s.device d).map (DeviceRegs.discharge s.turn)) s.me := by
  have settles : Config.oscSettleMs ≤ ms := h
  simpa only [settles, if_true] using Leaves.delay s ms

/-- A shorter delay only records itself (R283). -/
theorem Leaves.delay_of_lt (s : State) {ms : Rat} (h : ms < 5) :
    Leaves s (s.delay ms) s.lock [] [.delay s.turn ms] s.device s.me := by
  have short : ¬ Config.oscSettleMs ≤ ms := not_le.mpr h
  simpa only [short, if_false] using Leaves.delay s ms

@[simp] theorem DeviceRegs.discharge_read (g : AgentId) (r : DeviceRegs) (x : Byte) :
    (r.discharge g).read x = r.read x := rfl

@[simp] theorem DeviceRegs.discharge_ptr (g : AgentId) (r : DeviceRegs) : (r.discharge g).ptr = r.ptr := rfl

@[simp] theorem DeviceRegs.discharge_wake (g : AgentId) (r : DeviceRegs) :
    (r.discharge g).wake = r.wake.map (insertAgent g) := rfl

/-- After the four transactions of steps (1) to (4), the calibration sequence stands at its delay, `old` being what the
first of them read (R163). -/
theorem calibrationSequence_resume_delay (P : Params) (d : DevAddr) (p : Byte) {rs : List (List Byte)}
    (h : rs.length = 4) :
    ∃ old, (calibrationSequence P d p).resume rs =
      some (.delay Config.oscSettleMs (setByte d regMode1 (restartAi P old) (.done .none))) :=
  match rs, h with
  | [r, _, _, _], _ => ⟨r.getD 0 0, rfl⟩

/-- Settles O53: the delay of `FREQ_SET` is `Delay(5)`, after which the agent comes to the transaction of step (6). -/
theorem delayDischargesTheSettle : Obligations.DelayDischargesTheSettle := by
  refine ⟨fun s c ci ctl freq F p rs owns hF hp hph hrs => ?_, fun s ms => ⟨Leaves.delay_of_le s, Leaves.delay_of_lt s⟩,
    fun g r => ⟨r.discharge_read g, r.discharge_ptr g, fun hw => ?_, fun S hw => ?_⟩⟩
  · obtain ⟨old, hd⟩ := calibrationSequence_resume_delay s.params ctl.devAddr p hrs
    have waits := exec_wait (i := .freqSet c freq) hph (by rw [owns.freqSet hF hp]; exact hd)
    exact ⟨_, waits, (Leaves.delay_of_le s le_rfl).enter_transact ..⟩
  · simp [hw]
  · exact ⟨insertAgent g S, by simp [hw], fun a => mem_insertAgent g a S⟩

end Sys2Proof.Machine
end

section
/-! SUPPORT. Writes: the words of a duty-cycle element, where the bytes of a successful write go, and what each store of
it raises (R27, R61, R62, R63, R65, R282). -/

namespace Sys2Proof.Machine

open Sys2Proof

/-! ### Where a write stores -/

theorem DeviceRegs.ledOn_toNat (r : DeviceRegs) (n : Fin 16) :
    (r.ledOn n).toNat = (r.read (BitVec.ofNat 8 (0x06 + 4 * n.val))).toNat
      + 256 * (r.read (BitVec.ofNat 8 (0x06 + 4 * n.val + 1))).toNat := by
  rw [DeviceRegs.ledOn, append_toNat, ledAddr, Nat.add_comm]
  simp only [BitVec.ofNat_add]
  rfl

theorem DeviceRegs.ledOff_toNat (r : DeviceRegs) (n : Fin 16) :
    (r.ledOff n).toNat = (r.read (BitVec.ofNat 8 (0x06 + 4 * n.val + 2))).toNat
      + 256 * (r.read (BitVec.ofNat 8 (0x06 + 4 * n.val + 3))).toNat := by
  rw [DeviceRegs.ledOff, append_toNat, ledAddr, Nat.add_comm]
  simp only [BitVec.ofNat_add]
  rfl

/-- Settles O18: the data bytes go to the addresses of `dataAddrs`, and the pointer ends after the last of them. -/
theorem writesLandWhereThePointerPoints : Obligations.WritesLandWhereThePointerPoints := by
  refine ⟨fun r a b x n => ⟨r.read_write a b x, r.ledOn_toNat n, r.ledOff_toNat n⟩,
    fun P g d r o => ⟨rfl, fun a data => ⟨afterWrite_read, fun h => ⟨?_, ?_⟩⟩⟩⟩
  · exact dataAddrs_eq P (r.read regMode1) a data h
  · exact Bus.writeData_ptr P g d data ⟨r.setPtr a, o, []⟩ h

/-! ### What a store raises -/

theorem restartTooEarly_iff (P : Params) (g : AgentId) (b : Byte) (wake : Option (List AgentId)) :
    restartTooEarly P g b wake = true ↔ b &&& P.restartMask ≠ 0 ∧ ∃ S, wake = some S ∧ g ∉ S := by
  cases wake <;> simp [restartTooEarly, restartSet]

theorem wakeAfter_eq (P : Params) (old b : Byte) (wake : Option (List AgentId)) :
    wakeAfter P old b wake =
      if b &&& P.restartMask ≠ 0 ∨ b &&& P.sleepMask ≠ 0 then none
      else if old &&& P.sleepMask ≠ 0 then some [] else wake := by
  simp [wakeAfter, restartSet, sleepSet]

/-- A write that stores to neither MODE1 nor PRESCALE raises nothing. -/
theorem Bus.writeData_raised_plain (P : Params) (g : AgentId) (d : DevAddr) (data : List Byte) (u : Bus)
    (h1 : regMode1 ∉ dataAddrs P (u.dev.read regMode1) u.dev.ptr data)
    (h2 : regPrescale ∉ dataAddrs P (u.dev.read regMode1) u.dev.ptr data) :
    (Bus.writeData P g d data u).raised = u.raised := by
  induction data generalizing u with
  | nil => rfl
  | cons b rest ih =>
    simp only [dataAddrs, List.mem_cons, not_or] at h1 h2
    simp only [Bus.writeData]
    rw [ih _ (by simpa [Bus.store_mode1] using h1.2) (by simpa [Bus.store_mode1] using h2.2),
      Bus.store_plain P g d (Ne.symm h1.1) (Ne.symm h2.1)]

theorem quietWrite_plain {P : Params} {g : AgentId} {d : DevAddr} {out : List Byte} {r : DeviceRegs} {o : Oracle}
    (h1 : regMode1 ∉ storedAddrs P (r.read regMode1) out) (h2 : regPrescale ∉ storedAddrs P (r.read regMode1) out) :
    QuietWrite P g d out r o := by
  cases out with
  | nil => rfl
  | cons a data => exact Bus.writeData_raised_plain P g d data ⟨r.setPtr a, o, []⟩ h1 h2

theorem quietWrite_mode1_iff (P : Params) (g : AgentId) (d : DevAddr) (r : DeviceRegs) (o : Oracle) (v : Byte) :
    QuietWrite P g d [regMode1, v] r o ↔ restartTooEarly P g v r.wake = false := by
  cases h : restartTooEarly P g v r.wake <;> simp [QuietWrite, Bus.write_mode1, h]

theorem quietWrite_prescale_iff (P : Params) (g : AgentId) (d : DevAddr) (r : DeviceRegs) (o : Oracle) (v : Byte) :
    QuietWrite P g d [regPrescale, v] r o ↔ sleepSet P (r.read regMode1) = true := by
  cases h : sleepSet P (r.read regMode1)
  · simp [QuietWrite, Bus.write_prescale_running, h]
  · simp [QuietWrite, Bus.write_prescale, h]

/-- A store into MODE1 (R282). -/
theorem Bus.store_at_mode1 (P : Params) (g : AgentId) (d : DevAddr) (b : Byte) (r : DeviceRegs) (o : Oracle) :
    Bus.store P g d regMode1 b ⟨r, o, []⟩ =
      ⟨(r.write regMode1 b).setWake (wakeAfter P (r.read regMode1) b r.wake), o,
        if restartTooEarly P g b r.wake then [.restartBeforeSettle d] else []⟩ := by
  simp [Bus.store]

/-- A store into PRESCALE while the oscillator runs (R65). -/
theorem Bus.store_at_prescale (P : Params) (g : AgentId) (d : DevAddr) (b : Byte) {r : DeviceRegs} (o : Oracle)
    (h : sleepSet P (r.read regMode1) = false) :
    Bus.store P g d regPrescale b ⟨r, o, []⟩ =
      ⟨r.write regPrescale o.drawByte.1, o.drawByte.2, [.prescaleWhileRunning d]⟩ := by
  have hne : regPrescale ≠ regMode1 := by decide
  simp [Bus.store, hne, h]

/-- Every other store (R61). -/
theorem Bus.store_elsewhere (P : Params) (g : AgentId) (d : DevAddr) {a : Byte} (b : Byte) {r : DeviceRegs}
    (o : Oracle) (h1 : a ≠ regMode1) (h2 : a = regPrescale → sleepSet P (r.read regMode1) = true) :
    Bus.store P g d a b ⟨r, o, []⟩ = ⟨r.write a b, o, []⟩ := by
  by_cases ha : a = regPrescale
  · subst ha
    simp [Bus.store, h1, h2 rfl]
  · exact Bus.store_plain P g d h1 ha b _

theorem sleepSet_iff (P : Params) (v : Byte) : sleepSet P v = true ↔ v &&& P.sleepMask ≠ 0 := by simp [sleepSet]

theorem sleepSet_eq_false_iff (P : Params) (v : Byte) : sleepSet P v = false ↔ v &&& P.sleepMask = 0 := by
  simp [sleepSet]

/-- Settles O19: a write of several bytes is the store of its first data byte, then the write of the others on the device
that store left. -/
theorem whenAWriteFaults : Obligations.WhenAWriteFaults := by
  intro P g d r o
  refine ⟨fun out => quietWrite_plain, fun v => ?_, fun v => ?_, fun out => Iff.rfl, rfl, fun a => rfl,
    fun a b rest => ⟨?_, ?_, ?_, ?_⟩⟩
  · rw [← restartTooEarly_iff, Bool.not_eq_true]
    exact quietWrite_mode1_iff P g d r o v
  · rw [← sleepSet_iff]
    exact quietWrite_prescale_iff P g d r o v
  · rintro rfl early
    refine writeFaults_cons P g d regMode1 b rest r o ?_
    rw [Bus.store_at_mode1, DeviceRegs.setPtr_wake, if_pos ((restartTooEarly_iff ..).mpr early), wakeAfter_eq]
    rfl
  · rintro rfl early
    refine writeFaults_cons P g d regMode1 b rest r o ?_
    rw [Bus.store_at_mode1, DeviceRegs.setPtr_wake, if_neg ((restartTooEarly_iff ..).not.mpr early), wakeAfter_eq]
    rfl
  · rintro rfl awake
    exact writeFaults_cons P g d regPrescale b rest r o
      (Bus.store_at_prescale P g d b o ((sleepSet_eq_false_iff ..).mpr awake))
  · intro h1 h2
    exact writeFaults_cons P g d a b rest r o (Bus.store_elsewhere P g d b o h1 fun ha =>
      (sleepSet_iff ..).mpr fun awake => h2 ⟨ha, awake⟩)

end Sys2Proof.Machine
end

section
/-! SUPPORT. Operations whose first transaction or probe fails: the absent device, and the failed transfer to a present
one (R66, R68, R124, R126). -/

namespace Sys2Proof.Machine

open Sys2Proof

/-- An operation that begins with an acquire is, in its first step, where it would be at the first attempt: its checks
made, its buffer built, nothing else of the machine changed (R122, R141). -/
theorem Ready.start {i : Instr} {s : State} {sc : Script} {d : DevAddr} (ready : Ready s) (hs : scriptOf i s = sc)
    (hd : sc.locks = some d) :
    ∃ u, exec i s = exec i u ∧ u.me.phase = .acquire [] ∧ (scriptOf i u).resume [] = some sc ∧ u.oracle = s.oracle ∧
      Leaves s u .free [] [] s.device
        { s.me with attempts := 0, phase := .acquire [], objs := sc.builtObjs s.me.objs } := by
  have lv := (Leaves.refl s).enter_locks hd []
  have view : SameView s (s.enter sc []) := lv.sameView rfl (by cases sc <;> simp [Script.builtObjs, stageObjs_bare])
  refine ⟨s.enter sc [], exec_start ready.idle hs (by rw [hd]; rfl), by rw [lv.me], ?_, ?_, ready.free ▸ lv⟩
  · rw [view.scriptOf, hs, Script.resume_nil]
  · cases sc with
    | transact d via p k => exact State.enter_transact_oracle ..
    | acquire d => rfl
    | probe d k => rfl
    | _ => cases hd

/-- An operation that begins with a probe of an absent device (R66, R124). -/
theorem runs_first_probe_absent {i : Instr} {s : State} {d : DevAddr} {k : Script} (ready : Ready s)
    (hs : scriptOf i s = .probe d k) (hd : s.device d = none) :
    ∃ t b, Runs i 4 s t ∧
      Leaves s t .free [] (fallback s.turn d b false) s.device (s.me.stopped (.errored (.deviceNotFound d))) := by
  obtain ⟨u, he, hp, hsu, -, lu⟩ := ready.start hs rfl
  obtain ⟨t, b, run, lt⟩ := runs_probe_absent hp hsu lu.lock ((lu.devices d).trans hd)
  refine ⟨t, b, run.of_exec_eq he, (lu.trans lt).congr rfl ?_ lu.devices ?_⟩
  · rw [lu.turn]; rfl
  · rw [lu.me]; rfl

/-- The buffer as an operation built it, with the bytes of its transfer over it, is the buffer with those bytes. -/
theorem stageObjs_built (objs : List Object) (via : Option ObjId) (p : Prim) {inp : List Byte}
    (h : inp.length = p.inLen) :
    stageObjs (stageObjs objs via (builtBuf p)) via (p.out ++ inp) = stageObjs objs via (p.out ++ inp) :=
  stageObjs_idem _ _ _ _ (by simp [builtBuf, h])

/-- An operation that begins with a transaction with an absent device (R66, R126). -/
theorem runs_first_transact_absent {i : Instr} {s : State} {d : DevAddr} {via : Option ObjId} {p : Prim}
    {k : List Byte → Script} (ready : Ready s) (hs : scriptOf i s = .transact d via p k) (hd : s.device d = none) :
    ∃ t inp, Runs i 3 s t ∧ inp.length = p.inLen ∧
      Leaves s t .free [] (heldTx s.turn d p.kind p.out inp false) s.device
        (({ s.me with objs := stageObjs s.me.objs via (p.out ++ inp) } : AgentState).stopped
          (.errored (.busTransport d (.tx s.turn d p.kind p.out inp false)))) := by
  obtain ⟨u, he, hp, hsu, -, lu⟩ := ready.start hs rfl
  obtain ⟨t, run, lt⟩ := runs_transact_absent hp hsu lu.lock ((lu.devices d).trans hd)
  have hlen := Oracle.drawBytes_length u.oracle p.inLen
  refine ⟨t, _, run.of_exec_eq he, hlen, (lu.trans lt).congr rfl ?_ lu.devices ?_⟩
  · rw [lu.turn]; rfl
  · rw [lu.me, lu.turn, ← stageObjs_built s.me.objs via p hlen]; rfl

/-- Settles O16: the operation is its first lock hold, which an absent device fails. -/
theorem absentDevicesFail : Obligations.AbsentDevicesFail := by
  refine ⟨fun s c ci ctl owns ready hd => ?_, fun s dst addr ref F ready h0 h1 hF hpos => ?_,
    fun i s d via p k hs ready hd => runs_first_transact_absent ready hs hd⟩
  · exact runs_first_probe_absent ready (owns.withCtrl _) hd
  · exact runs_first_probe_absent ready (ctrlInit_probe_script h0 h1 hF hpos)

/-! ### The device side of a primitive, by its result -/

/-- A primitive that succeeds raises what was raised before it and the faults of its stores, reads from the pointer that
its written part leaves, and leaves that write's registers, the pointer moved on (R61, R62, R64). -/
theorem Bus.transfer_ok (P : Params) (g : AgentId) (d : DevAddr) (p : Prim) (r : DeviceRegs) (o : Oracle)
    (fs : List ModelFault) :
    let x := Bus.transfer P g d p true ⟨r, o, fs⟩
    let w := afterWrite P g d p.out r o
    x.1.length = p.inLen ∧ x.2.raised = fs ++ writeFaults P g d p.out r o ∧
    ReadsFrom P w w.ptr x.1 ∧ x.2.dev = w.setPtr (ptrAfter (w.adv P) w.ptr p.inLen) := by
  intro x w
  have hx : x = Bus.readBytes P p.inLen
      { Bus.write P g d p.out ⟨r, o, []⟩ with raised := fs ++ writeFaults P g d p.out r o } := by
    rw [← Bus.write_prior]; rfl
  obtain ⟨-, -, hraised, hlen⟩ := Bus.readBytes_dev P p.inLen
    { Bus.write P g d p.out ⟨r, o, []⟩ with raised := fs ++ writeFaults P g d p.out r o }
  obtain ⟨hreads, hdev⟩ := Bus.readBytes_reads P p.inLen
    { Bus.write P g d p.out ⟨r, o, []⟩ with raised := fs ++ writeFaults P g d p.out r o }
  rw [← hx] at hraised hlen hreads hdev
  exact ⟨hlen, hraised, hreads, hdev⟩

/-- A failed primitive reads draws, raises nothing, and changes only the registers that its written part would have
stored to; the settle tracking is dropped where MODE1 is one of them (R68, R282). -/
theorem Bus.transfer_failed (P : Params) (g : AgentId) (d : DevAddr) (p : Prim) (u : Bus) :
    let x := Bus.transfer P g d p false u
    x.1.length = p.inLen ∧ x.2.raised = u.raised ∧
    (∀ a, a ∉ storedAddrs P (u.dev.read regMode1) p.out → x.2.dev.read a = u.dev.read a) ∧
    (regMode1 ∉ storedAddrs P (u.dev.read regMode1) p.out → x.2.dev.wake = u.dev.wake) ∧
    (regMode1 ∈ storedAddrs P (u.dev.read regMode1) p.out → x.2.dev.wake = none) :=
  ⟨Oracle.drawBytes_length _ _, Bus.failed_raised P p.out u, fun a => Bus.failed_read P p.out u a,
    Bus.scramble_wake _ u⟩

/-- Settles O20: the operation is its one lock hold, whose primitive fails. -/
theorem failedTransfersEndTheOperation : Obligations.FailedTransfersEndTheOperation := by
  intro i s d via p k r hs ready hd ho
  obtain ⟨u, he, hp, hsu, hou, lu⟩ := ready.start hs rfl
  obtain ⟨t, run, lt⟩ := runs_transact_fails hp hsu lu.lock ((lu.devices d).trans hd) (hou ▸ ho)
  have hx : u.heldTransfer d p r = Bus.transfer s.params s.turn d p false ⟨r, s.oracle.drawResult.2, []⟩ := by
    rw [State.heldTransfer, lu.params, lu.turn, hou, ho]
  rw [hx] at lt
  obtain ⟨hlen, -, hread, hwake, hdrop⟩ := Bus.transfer_failed s.params s.turn d p ⟨r, s.oracle.drawResult.2, []⟩
  refine ⟨t, _, _, run.of_exec_eq he, (lu.trans lt).congr rfl ?_ (fun e => ?_) ?_, hlen, hread, hwake, hdrop⟩
  · rw [lu.turn]; rfl
  · simp only [devWith, lu.devices]
  · rw [lu.me, lu.turn, ← stageObjs_built s.me.objs via p hlen]; rfl

end Sys2Proof.Machine
end

section
/-! SUPPORT. An agent whose lock another agent has released: its primitive has its effect and faults, and the end of its
lock hold faults (R67, R125, R126, R247). -/

namespace Sys2Proof.Machine

open Sys2Proof

/-- A stop for faults, by an agent that does not hold the lock (R130, R247). -/
theorem Leaves.faultStop {s t : State} {l fs evs dev me} (h : Leaves s t l fs evs dev me) (hl : l ≠ .held s.turn)
    (gs : List ModelFault) :
    Leaves s (t.faultStop gs) l (fs ++ gs) evs dev (me.halted .faulted) :=
  ((h.addFaults gs).guardRelease hl).updMe fun a => { a with status := .faulted, phase := .idle }

theorem State.unlockedFault_of_not_mine {s : State} (h : s.lock ≠ .held s.turn) :
    s.unlockedFault = [.unlockedBusAccess s.turn] := by
  simp [State.unlockedFault, State.lockMine, h]

section lost

variable {i : Instr} {s : State} {d : DevAddr} {via : Option ObjId} {p : Prim}

/-- A primitive that raises a fault and whose agent does not hold the lock: its transfer, then the stop. -/
theorem Issues.exec_faults (h : Issues i s d via p) (hl : s.lock ≠ .held s.turn) {evs dev}
    (lt : Leaves s (s.transfer d p).state s.lock [] evs dev s.me) (hr : (s.transfer d p).raised ≠ []) :
    ∃ t, Machine.exec i s = .next t ∧
      Leaves s t s.lock (s.transfer d p).raised evs dev
        (({ s.me with objs := stageObjs s.me.objs via (p.out ++ (s.transfer d p).inp) } : AgentState).halted
          .faulted) := by
  obtain ⟨next, he⟩ := h.exec
  rw [State.afterPrim, if_neg (by simpa using hr)] at he
  exact ⟨_, he, (lt.stage via _).faultStop hl _⟩

/-- To an absent device (R66, R67). -/
theorem Issues.exec_lost_absent (h : Issues i s d via p) (hl : s.lock ≠ .held s.turn) (hd : s.device d = none) :
    ∃ t inp, Machine.exec i s = .next t ∧ inp.length = p.inLen ∧
      Leaves s t s.lock [.unlockedBusAccess s.turn] [.tx s.turn d p.kind p.out inp false] s.device
        (({ s.me with objs := stageObjs s.me.objs via (p.out ++ inp) } : AgentState).halted .faulted) := by
  have hr : (s.transfer d p).raised = [.unlockedBusAccess s.turn] := by
    rw [State.transfer_absent hd, ← State.unlockedFault_of_not_mine hl]
  obtain ⟨t, he, lt⟩ := h.exec_faults hl (Leaves.transfer_absent hd) (by rw [hr]; simp)
  rw [hr, State.transfer_absent hd] at lt
  exact ⟨t, _, he, Oracle.drawBytes_length _ _, lt⟩

/-- To a present device (R67). -/
theorem Issues.exec_lost_present {r : DeviceRegs} (h : Issues i s d via p) (hl : s.lock ≠ .held s.turn)
    (hd : s.device d = some r) {fs : List ModelFault}
    (hr : (s.nextTransfer d p r).2.raised = .unlockedBusAccess s.turn :: fs) :
    ∃ t, Machine.exec i s = .next t ∧
      Leaves s t s.lock (.unlockedBusAccess s.turn :: fs)
        [.tx s.turn d p.kind p.out (s.nextTransfer d p r).1 s.oracle.drawResult.1]
        (devWith s d (s.nextTransfer d p r).2.dev)
        (({ s.me with objs := stageObjs s.me.objs via (p.out ++ (s.nextTransfer d p r).1) } : AgentState).halted
          .faulted) := by
  have hraised : (s.transfer d p).raised = .unlockedBusAccess s.turn :: fs := by
    rw [State.transfer_present hd]; exact hr
  obtain ⟨t, he, lt⟩ := h.exec_faults hl (Leaves.transfer_present hd) (by rw [hraised]; simp)
  rw [hraised, State.transfer_present hd] at lt
  exact ⟨t, he, lt⟩

/-- The end of a lock hold that another agent has released (R125, R126). -/
theorem exec_release_lost {rs : List (List Byte)} {how : BodyEnd} {sc : Script} (hp : s.me.phase = .release rs how)
    (hs : (scriptOf i s).resume rs = some sc) (hh : sc.isHold = true) (hl : s.lock ≠ .held s.turn) :
    exec i s = .next (s.unlock.faultStop [.unbalancedRelease s.turn]) := by
  have lost : ∀ d k, s.releaseStep d k rs how = s.unlock.faultStop [.unbalancedRelease s.turn] := fun d k => by
    simp [State.releaseStep, State.lockMine, hl]
  cases sc with
  | transact d via p k => rw [exec_release hp hs, lost]
  | probe d k => rw [exec_release_probe hp hs, lost]
  | _ => cases hh

end lost

/-- Settles O21: by the result of the primitive, and by the release that ends every hold. -/
theorem lostLocksFault : Obligations.LostLocksFault := by
  refine ⟨fun i s d via p h hl => ⟨h.exec_lost_absent hl, fun r hd => ?_⟩, fun i s rs how sc hp hs hh hl => ?_⟩
  · have side : s.nextTransfer d p r = Bus.transfer s.params s.turn d p s.oracle.drawResult.1
        ⟨r, s.oracle.drawResult.2, [.unlockedBusAccess s.turn]⟩ := by
      rw [State.nextTransfer, State.unlockedFault_of_not_mine hl]
    cases hok : s.oracle.drawResult.1 with
    | true =>
      obtain ⟨hlen, hraised, hreads, hdev⟩ :=
        Bus.transfer_ok s.params s.turn d p r s.oracle.drawResult.2 [.unlockedBusAccess s.turn]
      rw [hok] at side
      obtain ⟨t, he, lt⟩ := h.exec_lost_present hl hd (side ▸ hraised)
      rw [side, hok] at lt
      refine ⟨t, _, _, he, hlen, lt, fun _ => ⟨hreads, hdev⟩, fun a ha => ?_, nofun⟩
      rw [hdev]
      exact afterWrite_read_ne s.params s.turn d p.out r s.oracle.drawResult.2 a ha
    | false =>
      obtain ⟨hlen, hraised, hread, hwake, hdrop⟩ := Bus.transfer_failed s.params s.turn d p
        ⟨r, s.oracle.drawResult.2, [.unlockedBusAccess s.turn]⟩
      rw [hok] at side
      obtain ⟨t, he, lt⟩ := h.exec_lost_present hl hd (side ▸ hraised)
      rw [side, hok] at lt
      exact ⟨t, _, _, he, hlen, lt, nofun, hread, fun _ => ⟨hwake, hdrop⟩⟩
  · exact ⟨_, exec_release_lost hp hs hh hl, (Leaves.refl s).unlock.faultStop (by simp) _⟩

end Sys2Proof.Machine
end

section
/-! SUPPORT. The operations of one write that raises a model fault: they stop in the step of their primitive, the write's
whole effect done (R65, R247, R282). -/

namespace Sys2Proof.Machine

open Sys2Proof

@[simp] theorem ptrAfter_zero (adv : Bool) (a : Byte) : ptrAfter adv a 0 = a := by simp [ptrAfter, readAddr]

/-! ### The scripts of the writes -/

theorem setFields_ok {d : DevAddr} {via : Option ObjId} {a : Byte} {fs : List Field} {vs : List Int} {payload : List Byte}
    (h : encodeFields fs vs = .ok payload) (k : Script) :
    setFields d via a fs vs k = .transact d via (Prim.write (a :: payload)) fun _ => k := by
  simp [setFields, h]

theorem encodeFields_u8 {v : Int} (h0 : 0 ≤ v) (h1 : v ≤ 0xFF) : encodeFields [.u8] [v] = .ok [BitVec.ofInt 8 v] := by
  simp [encodeFields, fieldHolds, fieldBytes, h0, h1]

theorem encodeFields_u16 {v : Int} (h0 : 0 ≤ v) (h1 : v ≤ 0xFFFF) :
    encodeFields [.u16] [v] = .ok [BitVec.ofInt 8 (v % 256), BitVec.ofInt 8 (v / 256)] := by
  have low : BitVec.ofInt 8 (v % 256) = BitVec.ofInt 8 v :=
    BitVec.eq_of_toNat_eq (by simp only [BitVec.toNat_ofInt]; omega)
  simp [encodeFields, fieldHolds, fieldBytes, h0, h1, low]

theorem require_true {b : Bool} (h : b = true) (sc : Script) : require b sc = sc := by simp [require, h]

theorem checkIndex_ok {i count : Int} (h0 : 0 ≤ i) (h1 : i < count) (sc : Script) : checkIndex i count sc = sc := by
  simp [checkIndex, indexOk, h0, h1]

/-! ### A write that faults -/

section faulting

variable {s : State} {c : ObjRef} {ci : ObjId} {ctl : Controller} {r : DeviceRegs} {i : Instr} {kind : TxKind}
  {out : List Byte} {n : Nat} {k : List Byte → Script}

/-- An operation of one primitive, undisturbed, whose written part raises a fault: two steps, the second of which stops
the agent and releases its lock (R247). -/
theorem CtrlCall.runs_faults (call : CtrlCall s c ci ctl r)
    (hs : scriptOf i s = .transact ctl.devAddr none { kind := kind, out := out, inLen := n } k)
    (hq : ¬ QuietWrite s.params s.turn ctl.devAddr out r s.oracle.drawResult.2) :
    ∃ t inp, Runs i 2 s t ∧ inp.length = n ∧
      let w := afterWrite s.params s.turn ctl.devAddr out r s.oracle.drawResult.2
      Leaves s t .free (writeFaults s.params s.turn ctl.devAddr out r s.oracle.drawResult.2)
        [.acquire s.turn, .tx s.turn ctl.devAddr kind out inp true, .release s.turn]
        (devWith s ctl.devAddr (w.setPtr (ptrAfter (w.adv s.params) w.ptr n))) (s.me.stopped .faulted) := by
  have hx : s.heldTransfer ctl.devAddr { kind := kind, out := out, inLen := n } r =
      Bus.transfer s.params s.turn ctl.devAddr { kind := kind, out := out, inLen := n } true
        ⟨r, s.oracle.drawResult.2, []⟩ := by
    rw [State.heldTransfer, call.reliable]
  obtain ⟨hlen, hraised, -, hdev⟩ := Bus.transfer_ok s.params s.turn ctl.devAddr
    { kind := kind, out := out, inLen := n } r s.oracle.drawResult.2 []
  rw [← hx] at hlen hraised hdev
  obtain ⟨t, run, lt⟩ := runs_single_faults call.ready hs call.present (fun h => hq (hraised.symm.trans h)) hlen
  rw [hdev, hraised, call.reliable] at lt
  exact ⟨t, _, run, hlen, lt⟩

/-- What such an operation leaves in the registers, the pointer left out. -/
theorem CtrlCall.stops (call : CtrlCall s c ci ctl r)
    (hs : scriptOf i s = .transact ctl.devAddr none { kind := kind, out := out, inLen := n } k)
    (hq : ¬ QuietWrite s.params s.turn ctl.devAddr out r s.oracle.drawResult.2) :
    ∃ t q inp, Runs i 2 s t ∧ inp.length = n ∧
      Leaves s t .free (writeFaults s.params s.turn ctl.devAddr out r s.oracle.drawResult.2)
        [.acquire s.turn, .tx s.turn ctl.devAddr kind out inp true, .release s.turn]
        (devWith s ctl.devAddr q) (s.me.stopped .faulted) ∧
      (∀ x, q.read x = (afterWrite s.params s.turn ctl.devAddr out r s.oracle.drawResult.2).read x) ∧
      q.wake = (afterWrite s.params s.turn ctl.devAddr out r s.oracle.drawResult.2).wake ∧
      ∀ x, x ∉ storedAddrs s.params (r.read regMode1) out → q.read x = r.read x := by
  obtain ⟨t, inp, run, hlen, lt⟩ := call.runs_faults hs hq
  exact ⟨t, _, inp, run, hlen, lt, fun _ => rfl, rfl,
    afterWrite_read_ne s.params s.turn ctl.devAddr out r s.oracle.drawResult.2⟩

/-- `MODE1_SET` that sets RESTART too early (R167, R282). -/
theorem CtrlCall.mode1Set_faults (call : CtrlCall s c ci ctl r) {v : Int} (h0 : 0 ≤ v) (h1 : v ≤ 0xFF)
    {S : List AgentId} (hr : BitVec.ofInt 8 v &&& s.params.restartMask ≠ 0) (hw : r.wake = some S)
    (hS : s.turn ∉ S) :
    ∃ t q, Runs (.mode1Set c v) 2 s t ∧
      Leaves s t .free [.restartBeforeSettle ctl.devAddr]
        [.acquire s.turn, .tx s.turn ctl.devAddr .w [0x00, BitVec.ofInt 8 v] [] true, .release s.turn]
        (devWith s ctl.devAddr q) (s.me.stopped .faulted) ∧
      (∀ x, q.read x = if x = 0x00 then BitVec.ofInt 8 v else r.read x) ∧ q.wake = none := by
  have early : restartTooEarly s.params s.turn (BitVec.ofInt 8 v) r.wake = true :=
    (restartTooEarly_iff ..).mpr ⟨hr, S, hw, hS⟩
  have script : scriptOf (.mode1Set c v) s = .transact ctl.devAddr none
      (Prim.write [regMode1, BitVec.ofInt 8 v]) fun _ => .done .none :=
    (call.owns.withCtrl _).trans (setFields_ok (encodeFields_u8 h0 h1) _)
  have wrote := Bus.write_mode1 s.params s.turn ctl.devAddr (BitVec.ofInt 8 v) r s.oracle.drawResult.2 []
  rw [early, wakeAfter_eq, if_pos (.inl hr)] at wrote
  obtain ⟨t, q, inp, run, hlen, lt, hread, hwake, -⟩ := call.stops script fun hq => by
    rw [quietWrite_mode1_iff, early] at hq
    cases hq
  obtain rfl := List.eq_nil_of_length_eq_zero hlen
  rw [writeFaults, wrote] at lt
  rw [afterWrite, wrote] at hread hwake
  exact ⟨t, q, run, lt, fun x => (hread x).trans (r.read_write ..), hwake⟩

/-- `PRESCALE_SET` while the oscillator runs (R65, R172). -/
theorem CtrlCall.prescaleSet_faults (call : CtrlCall s c ci ctl r) {v : Int} (h0 : 0 ≤ v) (h1 : v ≤ 0xFF)
    (hs : r.read 0x00 &&& s.params.sleepMask = 0) :
    ∃ t draw, Runs (.prescaleSet c v) 2 s t ∧
      Leaves s t .free [.prescaleWhileRunning ctl.devAddr]
        [.acquire s.turn, .tx s.turn ctl.devAddr .w [0xFE, BitVec.ofInt 8 v] [] true, .release s.turn]
        (devWith s ctl.devAddr ((r.write 0xFE draw).setPtr (ptrAfter (r.adv s.params) 0xFE 1)))
        (s.me.stopped .faulted) := by
  have awake : sleepSet s.params (r.read regMode1) = false := (sleepSet_eq_false_iff ..).mpr hs
  have script : scriptOf (.prescaleSet c v) s = .transact ctl.devAddr none
      (Prim.write [regPrescale, BitVec.ofInt 8 v]) fun _ => .done .none :=
    (call.owns.withCtrl _).trans (setFields_ok (encodeFields_u8 h0 h1) _)
  obtain ⟨t, inp, run, hlen, lt⟩ := call.runs_faults script fun hq => by
    rw [quietWrite_prescale_iff, awake] at hq
    cases hq
  obtain rfl := List.eq_nil_of_length_eq_zero hlen
  rw [writeFaults, afterWrite, Bus.write_prescale_running _ _ _ _ _ _ awake] at lt
  simp only [ptrAfter_zero, DeviceRegs.setPtr_setPtr, DeviceRegs.setPtr_ptr] at lt
  exact ⟨t, _, run, lt⟩

end faulting

/-- Settles O31: each operation is one write, which faults. -/
theorem storesThatFault : Obligations.StoresThatFault := by
  refine ⟨fun s c ci ctl r v S call h0 h1 hr hw hS => call.mode1Set_faults h0 h1 hr hw hS,
    fun s c ci ctl r v call h0 h1 hs => call.prescaleSet_faults h0 h1 hs,
    fun s c ci ctl r call => ⟨fun buf st en h0 h1 h2 => ?_, fun dst out m hm => ?_, fun addr v hwf h0 h1 => ?_,
      fun addr v hwf h0 h1 => ?_, fun addr fs vs payload hwf hl henc => ?_,
      fun base fs count i vs payload hwf h0 h1 hl henc => ?_⟩,
    fun P g d out r o f hf => (Bus.write_raised_kind P g d out _ f hf).resolve_left List.not_mem_nil⟩
  · exact call.stops ((call.owns.withCtrl _).trans (require_true (by simp [rangeOk, h0, h1, h2]) _))
  · exact call.stops ((call.owns.withCtrl _).trans (require_true (by simp [hm]) _))
  · exact call.stops ((call.owns.withCtrl _).trans <| (require_true hwf _).trans <|
      setFields_ok (encodeFields_u8 h0 h1) _)
  · exact call.stops ((call.owns.withCtrl _).trans <| (require_true hwf _).trans <|
      setFields_ok (encodeFields_u16 h0 h1) _)
  · exact call.stops ((call.owns.withCtrl _).trans <| (require_true (by simp [hwf, hl]) _).trans <|
      setFields_ok henc _)
  · exact call.stops ((call.owns.withCtrl _).trans <| (require_true (by simp [hwf, hl]) _).trans <|
      (checkIndex_ok h0 h1 _).trans <| setFields_ok henc _)

end Sys2Proof.Machine
end

section
/-! SUPPORT. Lock holds are exclusive: where no release by another agent has been recorded, an agent inside a lock hold
is the holder, so no primitive and no end of a hold faults; and a run that is over has left the lock free (R67, R73,
R126, R288). -/

namespace Sys2Proof.Machine

open Sys2Proof

theorem withCtrl_ne_unlock {s : State} {r : ObjRef} {k : ObjId → Controller → Script} (h : ∀ i c, k i c ≠ .unlock) :
    withCtrl s r k ≠ .unlock := by
  unfold withCtrl withLive
  split
  · split
    · split
      · exact h _ _
      · simp
    · simp
  · simp

/-- Only `BUS_UNLOCK` and `LOCK_RELEASE` have an unlock for their script (R121, R125). -/
theorem unlock_of_scriptOf {i : Instr} {s : State} (h : scriptOf i s = .unlock) :
    ∃ c, i = .busUnlock c ∨ i = .lockRelease c := by
  cases hop : lockOp i with
  | false =>
    have hl := scriptOf_later s hop
    rw [h] at hl
    cases hl
  | true =>
    cases i with
    | busUnlock c => exact ⟨c, .inl rfl⟩
    | lockRelease c => exact ⟨c, .inr rfl⟩
    | busTryLock dst c => exact absurd h (withCtrl_ne_unlock fun _ _ => by simp)
    | lockAcquire c => exact absurd h (withCtrl_ne_unlock fun _ _ => by simp)
    | _ => cases hop

/-- While no release by another is recorded, an agent inside a lock hold is the holder (R126). -/
theorem LockInv.held_of_inHold {s : State} (inv : LockInv s) (hf : ∀ g, ModelFault.unbalancedRelease g ∉ s.faults)
    (hp : s.me.phase.inHold = true) : s.lock = .held s.turn :=
  inv.exclusive hf s.turn (inv.inHold s.turn hp)

/-- When every agent has stopped there is no holder (R288). -/
theorem LockInv.free_of_runOver {s : State} (inv : LockInv s) (hover : RunOver s) : s.lock = .free := by
  cases hl : s.lock with
  | free => rfl
  | held g =>
    have hs := hover g
    rw [(inv.holder g hl).2] at hs
    cases hs

/-- Where a fault of the state before the turn passes comes from: it was there, or the operation at `pc` raised it. -/
theorem StepCase.faults {s u : State} (h : StepCase s u) {f : ModelFault} (hf : f ∈ u.faults) :
    f ∈ s.faults ∨ ∃ i, s.fetch = some (.op i) ∧ FaultCase i s f := by
  cases h with
  | op i hr hi he => exact .inr ⟨i, hi, exec_faults he hf⟩
  | illFormed hr hu => rw [hu, State.refuseOp_faults] at hf; exact .inl hf
  | programEnd hr hu => rw [hu, State.endProgram_faults] at hf; exact .inl hf
  | stopped hs hu => rw [hu] at hf; exact .inl hf

/-- Settles O59: a fault of a primitive or of the end of a hold needs an agent inside a hold that is not the holder. -/
theorem lockHoldsAreExclusive : Obligations.LockHoldsAreExclusive := by
  refine ⟨fun s t inv hf h => ?_, fun s => LockInv.free_of_runOver⟩
  obtain ⟨u, rfl, hu⟩ := step_cases h
  have held := inv.held_of_inHold hf
  refine ⟨fun g hg => ?_, fun ⟨g, hg⟩ => ?_⟩
  · obtain old | ⟨i, -, hc⟩ := hu.faults hg
    · exact old
    · cases hc with
      | old h => exact h
      | unlocked h hp hl => exact absurd (held hp) hl
      | object h => cases h
      | device h => cases h
      | unbalanced h => cases h
      | unlock h => cases h
  · obtain old | ⟨i, hi, hc⟩ := hu.faults hg
    · exact absurd old (hf g)
    · cases hc with
      | old h => exact absurd h (hf g)
      | unbalanced h hp hl => exact absurd (held hp) hl
      | unlock h hs hl =>
        obtain ⟨c, rfl | rfl⟩ := unlock_of_scriptOf hs
        · exact ⟨c, .inl hi⟩
        · exact ⟨c, .inr hi⟩
      | object h => cases h
      | device h => cases h
      | unlocked h => cases h

end Sys2Proof.Machine
end

section
/-! SUPPORT. The wire: what each address byte decodes to, and which transfers are register accesses (R91, R92, R96,
R97). -/

namespace Sys2Proof

open Sys2Proof.Machine

/-! ### The address byte -/

@[simp] theorem decodeAddr_addr (r : ScalarReg) : decodeAddr r.addr = .ok (.inl r) := by
  cases r <;> rfl

theorem elementByte_toNat (n : Fin 16) : (elementByte n).toNat = 0x06 + 4 * n.val := by
  rw [elementByte, BitVec.toNat_ofNat]
  omega

/-- An address inside the duty-cycle array is no scalar register (R22). -/
theorem decodeAddr_array {a : Byte} (h1 : 0x06 ≤ a.toNat) (h2 : a.toNat ≤ 0x45) :
    decodeAddr a = if (a.toNat - 0x06) % 4 = 0 then .ok (.inr (Fin.ofNat 16 ((a.toNat - 0x06) / 4)))
      else .error (.ledMisaligned a) := by
  have m1 : a ≠ 0x00 := by bv_omega
  have m2 : a ≠ 0x01 := by bv_omega
  have pre : a ≠ 0xFE := by bv_omega
  rw [decodeAddr, if_neg m1, if_neg m2, if_neg pre, if_pos ⟨h1, h2⟩]

@[simp] theorem decodeAddr_elementByte (n : Fin 16) : decodeAddr (elementByte n) = .ok (.inr n) := by
  have hn := elementByte_toNat n
  rw [decodeAddr_array (by omega) (by omega), hn, if_pos (by omega)]
  congr 2
  apply Fin.ext
  simp only [Fin.ofNat]
  omega

theorem decodeAddr_misaligned {a : Byte} (h1 : 0x06 ≤ a.toNat) (h2 : a.toNat ≤ 0x45)
    (h : (a.toNat - 0x06) % 4 ≠ 0) : decodeAddr a = .error (.ledMisaligned a) := by
  rw [decodeAddr_array h1 h2, if_neg h]

theorem decodeAddr_unnamed {a : Byte}
    (h : (0x02 ≤ a.toNat ∧ a.toNat ≤ 0x05) ∨ (0x46 ≤ a.toNat ∧ a.toNat ≤ 0xFD) ∨ a.toNat = 0xFF) :
    decodeAddr a = .error (.unnamedRegister a) := by
  have m1 : a ≠ 0x00 := by bv_omega
  have m2 : a ≠ 0x01 := by bv_omega
  have pre : a ≠ 0xFE := by bv_omega
  rw [decodeAddr, if_neg m1, if_neg m2, if_neg pre, if_neg (by omega)]

/-- An address byte that is read as a register or an element is the address byte of that. -/
theorem eq_of_decodeAddr {a : Byte} {x : ScalarReg ⊕ Fin 16} (h : decodeAddr a = .ok x) :
    a = x.elim ScalarReg.addr elementByte := by
  unfold decodeAddr at h
  split at h
  · cases h; assumption
  split at h
  · cases h; assumption
  split at h
  · cases h; assumption
  split at h
  · split at h
    · cases h
      apply BitVec.eq_of_toNat_eq
      simp only [Sum.elim_inr, elementByte_toNat, Fin.ofNat]
      omega
    · cases h
  · cases h

/-! ### Transfers -/

/-- Settles O1: the address byte gives the register or the element back, and the two bytes of a word the word. -/
theorem wireDecodeEncode : Obligations.WireDecodeEncode := by
  intro x
  cases x with
  | zeroWrite => rfl
  | byteRead => rfl
  | get1 r => simp [encodeAccess, decodeTransfer]
  | set1 r v => simp [encodeAccess, decodeTransfer]
  | get4 n => simp [encodeAccess, decodeTransfer]
  | set4 n on off => simp [encodeAccess, decodeTransfer, highByte_append_lowByte]

/-- A write whose bytes are read as an access is the transfer of that access. -/
theorem encodeAccess_of_decode_write {out : List Byte} {n : Nat} {x : Access}
    (h : decodeTransfer { kind := .w, out := out, inLen := n } = .ok x) :
    encodeAccess x = { kind := .w, out := out, inLen := n } := by
  cases out with
  | nil =>
    simp only [decodeTransfer] at h
    split at h
    · cases h; subst n; rfl
    · cases h
  | cons a payload =>
    simp only [decodeTransfer] at h
    split at h
    · cases h
    have hn : n = 0 := by omega
    subst hn
    split at h
    case h_1 r v ha =>
      cases h
      rw [eq_of_decodeAddr ha]; rfl
    case h_2 m onLo onHi offLo offHi ha =>
      cases h
      simp only [encodeAccess, eq_of_decodeAddr ha, Sum.elim_inr, lowByte_append, highByte_append]
    · cases h
    · cases h

/-- A write then read that is read as an access is the transfer of that access. -/
theorem encodeAccess_of_decode_writeRead {out : List Byte} {n : Nat} {x : Access}
    (h : decodeTransfer { kind := .wr, out := out, inLen := n } = .ok x) :
    encodeAccess x = { kind := .wr, out := out, inLen := n } := by
  match out with
  | [] => cases h
  | [a] =>
    simp only [decodeTransfer] at h
    split at h
    case h_1 r ha =>
      split at h
      · cases h; subst n; rw [eq_of_decodeAddr ha]; rfl
      · cases h
    case h_2 m ha =>
      split at h
      · cases h; subst n; rw [eq_of_decodeAddr ha]; rfl
      · cases h
    · cases h
  | _ :: _ :: _ => cases h

/-- A read that is read as an access is the one-byte read. -/
theorem encodeAccess_of_decode_read {out : List Byte} {n : Nat} {x : Access}
    (h : decodeTransfer { kind := .r, out := out, inLen := n } = .ok x) :
    encodeAccess x = { kind := .r, out := out, inLen := n } := by
  cases out with
  | nil =>
    simp only [decodeTransfer] at h
    split at h
    · cases h; subst n; rfl
    · cases h
  | cons a out => cases h

/-- Settles O2: for each direction of the transfer, an accepted address byte is the one that the access sends. -/
theorem wireEncodeDecode : Obligations.WireEncodeDecode := by
  rintro ⟨kind, out, n⟩ x h
  cases kind with
  | w => exact encodeAccess_of_decode_write h
  | r => exact encodeAccess_of_decode_read h
  | wr => exact encodeAccess_of_decode_writeRead h

/-! ### Rejected transfers -/

/-- A set and a get of an address that is rejected are rejected alike. -/
theorem decodeTransfer_badAddr {a : Byte} {e : WireReject} (h : decodeAddr a = .error e) (payload : List Byte)
    (n : Nat) :
    decodeTransfer { kind := .w, out := a :: payload, inLen := 0 } = .error e ∧
    decodeTransfer { kind := .wr, out := [a], inLen := n } = .error e := by
  simp [decodeTransfer, h]

/-- A set and a get of a scalar register have a payload of one byte. -/
theorem decodeTransfer_scalarLength (r : ScalarReg) (payload : List Byte) (n : Nat) :
    (payload.length ≠ 1 →
      decodeTransfer { kind := .w, out := r.addr :: payload, inLen := 0 } = .error .wrongLength) ∧
    (n ≠ 1 → decodeTransfer { kind := .wr, out := [r.addr], inLen := n } = .error .wrongLength) := by
  refine ⟨fun h => ?_, fun h => by simp [decodeTransfer, h]⟩
  match payload with
  | [] => simp [decodeTransfer]
  | [v] => exact absurd rfl h
  | _ :: _ :: _ => simp [decodeTransfer]

/-- A set and a get of an element have a payload of four bytes. -/
theorem decodeTransfer_elementLength (m : Fin 16) (payload : List Byte) (n : Nat) :
    (payload.length ≠ 4 →
      decodeTransfer { kind := .w, out := elementByte m :: payload, inLen := 0 } = .error .wrongLength) ∧
    (n ≠ 4 → decodeTransfer { kind := .wr, out := [elementByte m], inLen := n } = .error .wrongLength) := by
  refine ⟨fun h => ?_, fun h => by simp [decodeTransfer, h]⟩
  match payload with
  | [] => simp [decodeTransfer]
  | [_] => simp [decodeTransfer]
  | [_, _] => simp [decodeTransfer]
  | [_, _, _] => simp [decodeTransfer]
  | [_, _, _, _] => exact absurd rfl h
  | _ :: _ :: _ :: _ :: _ :: _ => simp [decodeTransfer]

theorem elementEmitted_iff (on off : Half) :
    elementEmitted on off = true ↔ (on = 0x1000 ∧ off = 0) ∨ (on = 0 ∧ off.toNat ≤ 0xFFF) := by
  simp [elementEmitted, Nat.lt_succ_iff]

/-- The elements that no channel writes: neither the full-on marker nor a driven one (R27, R97). -/
theorem foreign_set4_iff (n : Fin 16) (on off : Half) :
    (Access.set4 n on off).foreign = true ↔ ¬ (on = 0x1000 ∧ off = 0) ∧ ¬ (on = 0 ∧ off.toNat ≤ 0xFFF) := by
  rw [Access.foreign, Bool.not_eq_true', Bool.eq_false_iff, Ne, elementEmitted_iff, not_or]

/-- Settles O3: a transfer is rejected for its address byte, or for its length where the address byte is good. -/
theorem wireRejectsByName : Obligations.WireRejectsByName := by
  refine ⟨fun a payload n h => decodeTransfer_badAddr (decodeAddr_unnamed h) payload n,
    fun a payload n h1 h2 h => decodeTransfer_badAddr (decodeAddr_misaligned h1 h2 h) payload n,
    fun a payload n ha => ?_, decodeTransfer_elementLength, foreign_set4_iff⟩
  have hr : ∃ r : ScalarReg, a = r.addr := by
    simp only [List.mem_cons, List.not_mem_nil, or_false] at ha
    obtain rfl | rfl | rfl := ha
    · exact ⟨.mode1, rfl⟩
    · exact ⟨.mode2, rfl⟩
    · exact ⟨.prescale, rfl⟩
  obtain ⟨r, rfl⟩ := hr
  exact decodeTransfer_scalarLength r payload n

end Sys2Proof
end

section
/-! SUPPORT. Lines of operations: the operands of every operation are read as they are written (R99, R103, R104). -/

namespace Sys2Proof

open Sys2Proof.Machine

/-- An operand that has been read is handed on. -/
@[simp] theorem ok_bind {ε α β : Type} (x : α) (f : α → Except ε β) : (Except.ok x >>= f) = f x := rfl

/-! ### The operand forms -/

@[simp] theorem asBytes_write (bs : List Byte) : asAll asByte (bs.map writeByte) = .ok bs := asAll_ok asByte_ok bs

@[simp] theorem asInts_write (vs : List Int) : asAll asInt (vs.map writeInt) = .ok vs := asAll_ok asInt_ok vs

section forms

variable {g : AgentId} {c : ObjRef} (hc : refOk g c = true)
include hc

theorem lineC_write : lineC g [refArg c] = .ok c := asRef_ok hc

theorem lineCI_write (n : Int) : lineCI g [refArg c, intArg n] = .ok (c, n) := by
  simp [lineCI, args2, refArg, intArg, asRef_ok hc, asInt_ok]

theorem lineCN_write {x : Num} (hx : numOk x = true) : lineCN g [refArg c, numArg x] = .ok (c, x) := by
  simp [lineCN, args2, refArg, numArg, asRef_ok hc, asNum_ok hx]

theorem lineCO_write {x : Option Num} (hx : optNumOk x = true) :
    lineCO g [refArg c, .word (writeOptNum x)] = .ok (c, x) := by
  simp [lineCO, args2, refArg, asRef_ok hc, asOptNum_ok hx]

theorem lineBusWrite_write (buf : List Byte) (st en : Int) :
    lineBusWrite g [refArg c, bytesArg buf, intArg st, intArg en] = .ok (.busWrite c buf st en) := by
  simp [lineBusWrite, refArg, bytesArg, intArg, asRef_ok hc, asInt_ok]

theorem lineBusWriteRead_write (dst : Option Name) (out : List Byte) (m : Int) :
    lineBusWriteRead g dst [refArg c, bytesArg out, intArg m] = .ok (.busWriteRead dst c out m) := by
  simp [lineBusWriteRead, refArg, bytesArg, intArg, asRef_ok hc, asInt_ok]

theorem lineScalarGet_write (dst : Option Name) (addr : Int) (f : Field) :
    lineScalarGet g dst [refArg c, intArg addr, .word (writeField f)] = .ok (.scalarGet dst c addr f) := by
  simp [lineScalarGet, args3, refArg, intArg, asRef_ok hc, asInt_ok, asField_ok]

theorem lineScalarSet_write (addr : Int) (f : Field) (v : Int) :
    lineScalarSet g [refArg c, intArg addr, .word (writeField f), intArg v] = .ok (.scalarSet c addr f v) := by
  simp [lineScalarSet, refArg, intArg, asRef_ok hc, asInt_ok, asField_ok]

theorem lineTupleGet_write (dst : Option Name) (addr : Int) (fs : List Field) :
    lineTupleGet g dst [refArg c, intArg addr, layoutArg fs] = .ok (.tupleGet dst c addr fs) := by
  simp [lineTupleGet, refArg, intArg, asRef_ok hc, asInt_ok, asLayout_ok]

theorem lineTupleSet_write (addr : Int) (fs : List Field) (vs : List Int) :
    lineTupleSet g [refArg c, intArg addr, layoutArg fs, intsArg vs] = .ok (.tupleSet c addr fs vs) := by
  simp [lineTupleSet, refArg, intArg, intsArg, asRef_ok hc, asInt_ok, asLayout_ok]

theorem lineArrayGet_write (dst : Option Name) (base : Int) (fs : List Field) (count n : Int) :
    lineArrayGet g dst [refArg c, intArg base, layoutArg fs, intArg count, intArg n] =
      .ok (.arrayGet dst c base fs count n) := by
  simp [lineArrayGet, refArg, intArg, asRef_ok hc, asInt_ok, asLayout_ok]

theorem lineArraySet_write (base : Int) (fs : List Field) (count n : Int) (vs : List Int) :
    lineArraySet g [refArg c, intArg base, layoutArg fs, intArg count, intArg n, intsArg vs] =
      .ok (.arraySet c base fs count n vs) := by
  simp [lineArraySet, refArg, intArg, intsArg, asRef_ok hc, asInt_ok, asLayout_ok]

theorem lineLedSet_write (n on off : Int) :
    lineLedSet g [refArg c, intArg n, intsArg [on, off]] = .ok (.ledSet c n on off) := by
  simp [lineLedSet, refArg, intArg, intsArg, asRef_ok hc, asInt_ok]

theorem lineServoPulse_write {min max : Num} (h0 : numOk min = true) (h1 : numOk max = true) :
    lineServoPulse g [refArg c, numArg min, numArg max] = .ok (.servoSetPulseRange c min max) := by
  simp [lineServoPulse, args3, refArg, numArg, asRef_ok hc, asNum_ok h0, asNum_ok h1]

end forms

/-! ### Keyword operands -/

/-- Three distinct keywords, each given once: the keywords are accepted, and each has the value written after it. -/
theorem keywords_three {k₁ k₂ k₃ : List Char} (h : [k₁, k₂, k₃].Nodup) (a b c : List Char) :
    keywordsOk [k₁, k₂, k₃] [(k₁, a), (k₂, b), (k₃, c)] = true ∧
    [(k₁, a), (k₂, b), (k₃, c)].lookup k₁ = some a ∧ [(k₁, a), (k₂, b), (k₃, c)].lookup k₂ = some b ∧
    [(k₁, a), (k₂, b), (k₃, c)].lookup k₃ = some c := by
  have known : keywordsOk [k₁, k₂, k₃] [(k₁, a), (k₂, b), (k₃, c)] = true := by
    simpa [keywordsOk] using h
  obtain ⟨⟨h12, h13⟩, h23⟩ : (k₂ ≠ k₁ ∧ k₃ ≠ k₁) ∧ k₃ ≠ k₂ := by simpa [eq_comm] using h
  have b12 : (k₂ == k₁) = false := beq_false_of_ne h12
  have b13 : (k₃ == k₁) = false := beq_false_of_ne h13
  have b23 : (k₃ == k₂) = false := beq_false_of_ne h23
  exact ⟨known, by simp, by simp [List.lookup_cons, b12], by simp [List.lookup_cons, b13, b23]⟩

theorem keyword_of_lookup {kvs : List (List Char × List Char)} {k v : List Char} (h : kvs.lookup k = some v) :
    keyword kvs k = .ok v := by
  rw [keyword, h]

theorem lineCtrlInit_write (dst : Option Name) (addr : Int) {ref : Num} (h : numOk ref = true)
    (probe : Bool) :
    lineCtrlInit dst [.kw kwAddr (writeInt addr), .kw kwRef (writeNum ref), .kw kwProbe (writeBool probe)] =
      .ok (.ctrlInit dst addr ref probe) := by
  obtain ⟨known, hAddr, hRef, hProbe⟩ := keywords_three (k₁ := kwAddr) (k₂ := kwRef) (k₃ := kwProbe) (by decide)
    (writeInt addr) (writeNum ref) (writeBool probe)
  simp [lineCtrlInit, asKeywords, known, keyword_of_lookup hAddr, hRef, keyword_of_lookup hProbe, asInt_ok,
    asNum_ok h, asBool_ok]

theorem lineServoInit_write {g : AgentId} {ch : ObjRef} (hc : refOk g ch = true) (dst : Option Name)
    {range min max : Num} (h : numOk range = true) (h0 : numOk min = true) (h1 : numOk max = true) :
    lineServoInit g dst
        [refArg ch, .kw kwRange (writeNum range), .kw kwMin (writeNum min), .kw kwMax (writeNum max)] =
      .ok (.servoInit dst ch range min max) := by
  obtain ⟨known, hRange, hMin, hMax⟩ := keywords_three (k₁ := kwRange) (k₂ := kwMin) (k₃ := kwMax) (by decide)
    (writeNum range) (writeNum min) (writeNum max)
  simp [lineServoInit, refArg, asRef_ok hc, asKeywords, known, keyword_of_lookup hRange, keyword_of_lookup hMin,
    keyword_of_lookup hMax, asNum_ok h, asNum_ok h0, asNum_ok h1]

/-! ### Whole operations -/

/-- The operation that a mnemonic reads from the operands of an operation's line is that operation. -/
theorem readOperation_parts {g : AgentId} {i : Instr} (h : i.writable g = true) :
    readOperation g i.parts.1 i.parts.2.1 i.parts.2.2 = .ok i := by
  cases i <;> simp only [Instr.writable, Bool.and_eq_true] at h <;> simp only [Instr.parts, readOperation]
  case busUnlock c | lockAcquire c | lockRelease c | busProbe c | ctrlReset c | ctrlDeinit c =>
    rw [lineC_write h]; rfl
  case busTryLock dst c | mode1Get dst c | mode2Get dst c | prescaleGet dst c | freqGet dst c | chFreqGet dst c
      | chDutyGet dst c | servoFractionGet dst c | servoAngleGet dst c =>
    rw [lineC_write h.2]; rfl
  case mode1Set c n | mode2Set c n | prescaleSet c n | chDutySet c n => rw [lineCI_write h]; rfl
  case busRead dst c n | ledGet dst c n | chLookup dst c n => rw [lineCI_write h.2]; rfl
  case freqSet c x | chFreqSet c x => rw [lineCN_write h.1 h.2]; rfl
  case servoFractionSet c x | servoAngleSet c x => rw [lineCO_write h.1 h.2]; rfl
  case busWrite c buf st en => exact lineBusWrite_write h buf st en
  case busWriteRead dst c out m => exact lineBusWriteRead_write h.2 dst out m
  case scalarGet dst c addr f => exact lineScalarGet_write h.2 dst addr f
  case scalarSet c addr f v => exact lineScalarSet_write h addr f v
  case tupleGet dst c addr fs => exact lineTupleGet_write h.1.2 dst addr fs
  case tupleSet c addr fs vs => exact lineTupleSet_write h.1.1 addr fs vs
  case arrayGet dst c base fs count n => exact lineArrayGet_write h.1.2 dst base fs count n
  case arraySet c base fs count n vs => exact lineArraySet_write h.1.1 base fs count n vs
  case ledSet c n on off => exact lineLedSet_write h n on off
  case ctrlInit dst addr ref probe => exact lineCtrlInit_write dst addr h.2 probe
  case servoInit dst ch range min max =>
    obtain ⟨⟨⟨⟨-, hc⟩, hRange⟩, hMin⟩, hMax⟩ := h
    exact lineServoInit_write hc dst hRange hMin hMax
  case servoSetPulseRange sv min max =>
    obtain ⟨⟨hc, hMin⟩, hMax⟩ := h
    exact lineServoPulse_write hc hMin hMax

/-- Settles O5: the line is cut into the operation's tokens, these into its operands, which its mnemonic reads. -/
theorem lineDecodeEncode : Obligations.LineDecodeEncode := by
  intro g i h
  obtain ⟨hdst, hne, hgood⟩ := parts_good h
  obtain ⟨htoks, hread⟩ := readTokens_ok (g := g) hdst hne hgood
  exact decode_encode_of htoks (hread.trans (readOperation_parts h))

end Sys2Proof
end

section
/-! SUPPORT. What a text is read as: the words and lines of the spec's examples, and the program of a text (R92, R99,
R104, R270). -/

namespace Sys2Proof.Machine

open Sys2Proof

/-- Settles O4: the words are the transfers of their accesses, and each line is one evaluation of the decoder. -/
theorem wordsAreReadRight : Obligations.WordsAreReadRight :=
  ⟨⟨wireDecodeEncode (.get1 .mode1), wireDecodeEncode (.set1 .prescale 0x7A), wireDecodeEncode (.get4 15),
      wireDecodeEncode (.set4 3 0 0x133), wireDecodeEncode (.set4 0 0x1000 0)⟩,
    rfl, rfl, rfl, rfl, rfl⟩

/-! ### Programs -/

/-- The program entry of a line. -/
def lineSlot (g : AgentId) (l : List Char) : Slot :=
  match decodeLine g l with
  | .ok i => .op i
  | .error e => .illFormed e

theorem lineSlot_ok {g : AgentId} {l : List Char} {i : Instr} (h : decodeLine g l = .ok i) : lineSlot g l = .op i := by
  rw [lineSlot, h]

theorem lineSlot_error {g : AgentId} {l : List Char} {e : Reject} (h : decodeLine g l = .error e) :
    lineSlot g l = .illFormed e := by
  rw [lineSlot, h]

theorem readProgram_eq_map (g : AgentId) (text : List Byte) :
    readProgram g text = ((splitLines (text.map byteChar)).filter fun l => !blankLine l).map (lineSlot g) := rfl

theorem AgentState.launch_running {prog : List Slot} (h : prog ≠ []) : (AgentState.launch prog).status = .running :=
  if_neg (mt List.isEmpty_iff.mp h)

theorem State.loadProgram_agent (s : State) (g : AgentId) (text : List Byte) :
    (s.loadProgram g text).agent g = AgentState.launch (readProgram g text) := by
  rw [State.loadProgram, State.setAgent_agent, if_pos rfl]

/-- Settles O8: the agent is launched with the entries of the lines, `lineSlot` of each. -/
theorem programIsTheLinesOfItsText : Obligations.ProgramIsTheLinesOfItsText := by
  intro s g text lines a
  have ha : a = AgentState.launch (lines.map (lineSlot g)) := s.loadProgram_agent g text
  have entry {k : Nat} {l : List Char} (hl : lines[k]? = some l) : a.prog[k]? = some (lineSlot g l) := by
    rw [ha]
    simp [AgentState.launch, hl]
  refine ⟨?_, ?_, fun h => ?_, fun h => ?_, fun k l hl => ⟨fun i h => ?_, fun e h => ?_⟩⟩
  · rw [ha]; exact List.length_map _
  · rw [ha]; rfl
  · rw [ha]; exact AgentState.launch_running (mt List.map_eq_nil_iff.mp h)
  · rw [ha, h]; rfl
  · rw [entry hl, lineSlot_ok h]
  · rw [entry hl, lineSlot_error h]

end Sys2Proof.Machine
end

section
/-! SUPPORT. Operands that name no usable object: a deinitialised controller, another agent's object, an unknown name,
an object of another kind (R99, R102, R168, R255). -/

namespace Sys2Proof.Machine

open Sys2Proof

/-- Settles O39: the script of the operation is the fault or the refusal, which stops the agent at once. -/
theorem unusableObjects : Obligations.UnusableObjects := by
  refine ⟨fun i s ref oi ci ctl ho hr hst hc hl hp => exec_faultsAtOnce hp (script_dead ho hr hst hc hl),
    fun i s ref ho hp h => exec_refusesAtOnce hp ?_⟩
  rcases h with hforeign | hunknown | ⟨oi, o, hr, hobj, hkind⟩
  · exact script_none ho (resolve_none (.inl hforeign))
  · exact script_none ho (resolve_none (.inr hunknown))
  · exact script_wrongKind ho hr hobj hkind

end Sys2Proof.Machine
end

section
/-! SUPPORT. Raw transfers: the operations of one primitive that BusLock gives a program (R127, R128, R129). -/

namespace Sys2Proof.Machine

open Sys2Proof

section raw

variable {s : State} {c : ObjRef} {ci : ObjId} {ctl : Controller} {r : DeviceRegs}

/-- `BUS_WRITE` (R127). -/
theorem CtrlCall.busWrite (call : CtrlCall s c ci ctl r) {buf : List Byte} {st en : Int} (h0 : 0 ≤ st) (h1 : st ≤ en)
    (h2 : en ≤ buf.length)
    (hq : QuietWrite s.params s.turn ctl.devAddr (slice buf st en) r s.oracle.drawResult.2) :
    ∃ t, Runs (.busWrite c buf st en) 3 s t ∧
      Leaves s t .free [] (heldTx s.turn ctl.devAddr .w (slice buf st en) [] true)
        (devWith s ctl.devAddr (afterWrite s.params s.turn ctl.devAddr (slice buf st en) r s.oracle.drawResult.2))
        s.me.done := by
  have script : scriptOf (.busWrite c buf st en) s =
      .transact ctl.devAddr none (Prim.write (slice buf st en)) fun _ => .done .none :=
    (call.owns.withCtrl _).trans (require_true (by simp [rangeOk, h0, h1, h2]) _)
  obtain ⟨w, run, lw, -⟩ := runs_write call.ready script call.present call.reliable hq
  exact ⟨_, run, lw.enter_done_none _⟩

/-- An operation of one read, with a written part before it or none, whose result is the bytes read (R128, R129). -/
theorem CtrlCall.returnsBytes (call : CtrlCall s c ci ctl r) {i : Instr} {kind : TxKind} {out : List Byte} {n : Nat}
    {dst : Option Name}
    (hs : scriptOf i s = .transact ctl.devAddr none { kind := kind, out := out, inLen := n } fun bs =>
      .done (.result dst (.bytes bs)))
    (hq : QuietWrite s.params s.turn ctl.devAddr out r s.oracle.drawResult.2) :
    ∃ t bs, Runs i 3 s t ∧ bs.length = n ∧
      let q := afterWrite s.params s.turn ctl.devAddr out r s.oracle.drawResult.2
      ReadsFrom s.params q q.ptr bs ∧
      Leaves s t .free [] (heldTx s.turn ctl.devAddr kind out bs true)
        (devWith s ctl.devAddr (q.setPtr (ptrAfter (q.adv s.params) q.ptr n))) (s.me.done.bound dst (.bytes bs)) := by
  obtain ⟨w, bs, run, hlen, hreads, lw⟩ := runs_read call.ready hs call.present call.reliable hq
  exact ⟨_, bs, run, hlen, hreads, lw.enter_done_result dst (.bytes bs) _⟩

end raw

/-- Settles O17: each operation is one primitive; a read is a write then read of no written byte. -/
theorem rawTransfersComplete : Obligations.RawTransfersComplete := by
  refine ⟨fun s c ci ctl r buf st en call h0 h1 h2 hq => ?_, fun s c ci ctl r dst m call hm => ?_,
    fun s c ci ctl r dst out m call hm hq => ?_⟩
  · obtain ⟨t, run, lt⟩ := call.busWrite h0 h1 h2 hq
    exact ⟨t, _, run, lt, rfl, fun x => afterWrite_read_ne _ _ _ _ _ _ x⟩
  · have script : scriptOf (.busRead dst c m) s =
        .transact ctl.devAddr none (Prim.read m.toNat) fun bs => .done (.result dst (.bytes bs)) :=
      (call.owns.withCtrl _).trans (require_true (decide_eq_true hm) _)
    obtain ⟨t, bs, run, hlen, hreads, lt⟩ := call.returnsBytes script rfl
    exact ⟨t, bs, run, hlen, hreads, lt⟩
  · have script : scriptOf (.busWriteRead dst c out m) s =
        .transact ctl.devAddr none (Prim.writeRead out m.toNat) fun bs => .done (.result dst (.bytes bs)) :=
      (call.owns.withCtrl _).trans (require_true (decide_eq_true hm) _)
    obtain ⟨t, bs, run, hlen, hreads, lt⟩ := call.returnsBytes script hq
    exact ⟨t, _, bs, run, rfl, hlen, hreads, lt, fun x => afterWrite_read_ne _ _ _ _ _ _ x⟩

end Sys2Proof.Machine
end

section
/-! SUPPORT. Operations that begin with a probe of a present device, in its three outcomes (R124). -/

namespace Sys2Proof.Machine

open Sys2Proof

section probe

variable {i : Instr} {s : State} {d : DevAddr} {k : Script} {r : DeviceRegs} (ready : Ready s)
  (hs : scriptOf i s = .probe d k) (hd : s.device d = some r)
include ready hs hd

/-- The zero-length write succeeds: no device changes. -/
theorem runs_first_probe_ok (ho : s.oracle.drawResult.1 = true) :
    ∃ w, Runs i 3 s (w.enter k [[]]) ∧
      Leaves s w .free [] (heldTx s.turn d .w [] [] true) s.device
        { s.me with holding := false, attempts := 0, phase := .release [] (.ok []) } := by
  obtain ⟨u, he, hp, hsu, hou, lu⟩ := ready.start hs rfl
  obtain ⟨w, run, lw, -⟩ := runs_probe_ok hp hsu lu.lock ((lu.devices d).trans hd) (hou ▸ ho)
  refine ⟨w, run.of_exec_eq he, (lu.trans lw).congr rfl ?_ lu.devices ?_⟩
  · rw [lu.turn]; rfl
  · rw [lu.me]; rfl

/-- The write fails and the one-byte read succeeds: the pointer has moved. -/
theorem runs_first_probe_read {rest : List Bool} (ho : s.oracle.results = false :: true :: rest) :
    ∃ w p b, Runs i 4 s (w.enter k [[]]) ∧ readsAs s.params r p b ∧
      Leaves s w .free [] (fallback s.turn d b true)
        (devWith s d (r.setPtr (ptrAfter (r.adv s.params) p 1)))
        { s.me with holding := false, attempts := 0, phase := .release [] (.ok []) } := by
  obtain ⟨u, he, hp, hsu, hou, lu⟩ := ready.start hs rfl
  obtain ⟨w, p, b, run, hreads, lw, -⟩ :=
    runs_probe_read hp hsu lu.lock ((lu.devices d).trans hd) (hou ▸ ho)
  rw [lu.params] at hreads lw
  refine ⟨w, p, b, run.of_exec_eq he, hreads, (lu.trans lw).congr rfl ?_ (fun e => ?_) ?_⟩
  · rw [lu.turn]; rfl
  · simp only [devWith, lu.devices]
  · rw [lu.me]; rfl

/-- Both attempts fail: the operation ends with DeviceNotFoundError. -/
theorem runs_first_probe_notFound {rest : List Bool} (ho : s.oracle.results = false :: false :: rest) :
    ∃ t q b, Runs i 4 s t ∧
      Leaves s t .free [] (fallback s.turn d b false) (devWith s d (r.setPtr q))
        (s.me.stopped (.errored (.deviceNotFound d))) := by
  obtain ⟨u, he, hp, hsu, hou, lu⟩ := ready.start hs rfl
  obtain ⟨t, q, b, run, lt⟩ := runs_probe_notFound hp hsu lu.lock ((lu.devices d).trans hd) (hou ▸ ho)
  refine ⟨t, q, b, run.of_exec_eq he, (lu.trans lt).congr rfl ?_ (fun e => ?_) ?_⟩
  · rw [lu.turn]; rfl
  · simp only [devWith, lu.devices]
  · rw [lu.me]; rfl

end probe

/-- Settles O15: the operation is its probe, and is done where one of the two attempts succeeds. -/
theorem probeOfAPresentDevice : Obligations.ProbeOfAPresentDevice := by
  intro s c ci ctl r owns ready hd
  have script : scriptOf (.busProbe c) s = .probe ctl.devAddr (.done .none) := owns.withCtrl _
  refine ⟨fun ho => ?_, fun rest ho => ?_, fun rest ho => runs_first_probe_notFound ready script hd ho⟩
  · obtain ⟨w, run, lw⟩ := runs_first_probe_ok ready script hd ho
    exact ⟨_, run, lw.enter_done_none _⟩
  · obtain ⟨w, p, b, run, hreads, lw⟩ := runs_first_probe_read ready script hd ho
    exact ⟨_, p, b, run, hreads, lw.enter_done_none _⟩

end Sys2Proof.Machine
end

section
/-! SUPPORT. The operations on the bus lock, and the acquires inside the others: a try, an unlock, and an attempt that
finds the lock free or held (R120, R121, R122, R123, R125). -/

namespace Sys2Proof.Machine

open Sys2Proof

/-! ### Trying and unlocking -/

theorem Leaves.refl_of_free {s : State} (h : s.lock = .free) : Leaves s s .free [] [] s.device s.me := h ▸ .refl s

/-- Taking the lock (R120). -/
theorem Leaves.takeLock {s t : State} {l fs evs dev me} (h : Leaves s t l fs evs dev me) :
    Leaves s t.takeLock (.held s.turn) fs (evs ++ [.acquire s.turn]) dev { me with holding := true } where
  params := h.params
  lock := by rw [State.takeLock_lock, h.turn]
  devices := h.devices
  faults := h.faults
  refused := h.refused
  history := by rw [State.takeLock_history, h.history, h.turn, List.append_assoc]
  turn := h.turn
  me := by rw [State.takeLock_me, h.me]
  others g hg := (State.takeLock_agent_ne t (h.turn ▸ hg)).trans (h.others g hg)

theorem State.tryLockOp_of_free {s : State} (h : s.lock = .free) (dst : Option Name) :
    s.tryLockOp dst = (s.takeLock.bindResult dst (.bool true)).finish := by
  simp [State.tryLockOp, State.lockFree, h]

theorem State.tryLockOp_of_held {s : State} (h : s.lock ≠ .free) (dst : Option Name) :
    s.tryLockOp dst = (s.bindResult dst (.bool false)).finish := by
  simp [State.tryLockOp, State.lockFree, h]

theorem State.unlockOp_of_mine {s : State} (h : s.lock = .held s.turn) : s.unlockOp = s.unlock.finish := by
  simp [State.unlockOp, State.lockMine, h]

theorem State.unlockOp_of_not_mine {s : State} (h : s.lock ≠ .held s.turn) :
    s.unlockOp = s.unlock.finish.faultStop [.unbalancedRelease s.turn] := by
  simp [State.unlockOp, State.lockMine, h]

/-- `BUS_UNLOCK` and `LOCK_RELEASE` have one rule (R121, R125). -/
theorem OwnsCtrl.exec_unlock {s : State} {c : ObjRef} {ci : ObjId} {ctl : Controller} (owns : OwnsCtrl s c ci ctl)
    (hp : s.me.phase = .idle) {i : Instr} (hi : i ∈ [Instr.busUnlock c, Instr.lockRelease c]) :
    exec i s = .next s.unlockOp := by
  have script : scriptOf i s = .unlock := by
    obtain rfl | rfl : i = .busUnlock c ∨ i = .lockRelease c := by simpa using hi
    · exact owns.withCtrl _
    · exact owns.withCtrl _
  exact exec_now hp script rfl

/-- Settles O10: the one step tests the lock. -/
theorem tryLockTakesAFreeLock : Obligations.TryLockTakesAFreeLock := by
  intro s c ci ctl dst owns hp
  have script : scriptOf (.busTryLock dst c) s = .tryLock dst := owns.withCtrl _
  have tries : exec (.busTryLock dst c) s = .next (s.tryLockOp dst) := exec_now hp script rfl
  refine ⟨fun hl => ⟨_, tries, ?_⟩, fun hl => ⟨_, tries, ?_⟩⟩
  · rw [State.tryLockOp_of_free hl]
    exact ((Leaves.refl s).takeLock.updMe (·.bound dst (.bool true))).updMe AgentState.advanced
  · rw [State.tryLockOp_of_held hl]
    exact ((Leaves.refl s).updMe (·.bound dst (.bool false))).updMe AgentState.advanced

/-- Settles O11: the lock is freed either way, and a caller that is not the holder then stops. -/
theorem unlockFreesTheLock : Obligations.UnlockFreesTheLock := by
  refine ⟨fun s c ci ctl owns hp hl i hi => ⟨_, owns.exec_unlock hp hi, ?_⟩,
    fun s c ci ctl owns hp hl i hi => ⟨_, owns.exec_unlock hp hi, ?_⟩⟩
  · rw [State.unlockOp_of_mine hl]
    exact (Leaves.refl s).unlock.updMe AgentState.advanced
  · rw [State.unlockOp_of_not_mine hl]
    exact ((Leaves.refl s).unlock.updMe AgentState.advanced).faultStop (by simp) _

/-! ### Attempts -/

section attempt

variable {i : Instr} {s : State} {rs : List (List Byte)} {sc : Script} {d : DevAddr}

/-- A waiting agent's step is an attempt (R122). -/
theorem exec_attempt (hp : s.me.phase = .acquire rs) (hs : (scriptOf i s).resume rs = some sc)
    (hd : sc.locks = some d) : exec i s = .next (s.attempt sc rs) := by
  rw [exec_eq_runScript, runScript, hp]
  simp [hs, hd]

/-- The first step of an operation makes its checks, builds its buffer and makes the first attempt where it begins with
an acquire (R122). -/
theorem exec_first_attempt (hp : s.me.phase = .idle) (hs : (scriptOf i s).resume [] = some sc) :
    exec i s = .next ((s.enter sc []).attempt sc []) := by
  rw [Script.resume_nil] at hs
  injection hs with hs
  rw [exec_eq_runScript, runScript, hp, hs]

/-- An attempt that finds the lock held fails, whoever holds it (R122, R123). -/
theorem State.attempt_of_held (hl : s.lock ≠ .free) (hd : sc.locks = some d) :
    s.attempt sc rs = s.failedAttempt d := by
  simp [State.attempt, hd, State.lockFree, hl]

theorem exec_attempt_of_held (hp : s.me.phase = .acquire rs) (hs : (scriptOf i s).resume rs = some sc)
    (hd : sc.locks = some d) (hl : s.lock ≠ .free) : exec i s = .next (s.failedAttempt d) := by
  rw [exec_attempt hp hs hd, State.attempt_of_held hl hd]

theorem exec_first_attempt_of_held (hp : s.me.phase = .idle) (hs : (scriptOf i s).resume [] = some sc)
    (hd : sc.locks = some d) (hl : s.lock ≠ .free) : exec i s = .next ((s.enter sc []).failedAttempt d) := by
  have held : (s.enter sc []).lock ≠ .free := by rw [((Leaves.refl s).enter_locks hd []).lock]; exact hl
  rw [exec_first_attempt hp hs, State.attempt_of_held held hd]

theorem OwnsCtrl.lockAcquire_resume {c : ObjRef} {ci : ObjId} {ctl : Controller} (owns : OwnsCtrl s c ci ctl) :
    (scriptOf (.lockAcquire c) s).resume [] = some (.acquire ctl.devAddr) := by
  rw [Script.resume_nil]
  exact congrArg some (owns.withCtrl _)

end attempt

theorem timedOut_eq_false {P : Params} {n : Nat}
    (h : P.acquireTimeout = none ∨ ∃ m, P.acquireTimeout = some m ∧ n < m) : timedOut P n = false := by
  obtain h | ⟨m, h, hlt⟩ := h
  · simp [timedOut, h]
  · simp [timedOut, h, hlt]

theorem timedOut_eq_true {P : Params} {n m : Nat} (h : P.acquireTimeout = some m) (hle : m ≤ n) :
    timedOut P n = true := by
  simp [timedOut, h, hle]

/-- Raising an error by the holder frees the lock (R130, R244). -/
theorem Leaves.raiseError_of_mine {s t : State} {fs evs dev me} (h : Leaves s t (.held s.turn) fs evs dev me)
    (e : ErrorCode) :
    Leaves s (t.raiseError e) .free fs (evs ++ [.release s.turn]) dev
      (({ me with holding := false } : AgentState).halted (.errored e)) := by
  rw [State.raiseError, State.guardRelease_of_mine (by rw [h.lock, h.turn])]
  exact h.unlock.updMe fun a => a.halted (.errored e)

/-- A failed attempt that does not time out is counted, and no more (R122). -/
theorem State.failedAttempt_waits {s : State} (d : DevAddr) (ht : timedOut s.params (s.me.attempts + 1) = false) :
    s.failedAttempt d = s.setAttempts (s.me.attempts + 1) := by
  simp [State.failedAttempt, ht]

/-- A failed attempt that times out raises LockTimeoutError (R122). -/
theorem State.failedAttempt_timedOut {s : State} (d : DevAddr) (ht : timedOut s.params (s.me.attempts + 1) = true) :
    s.failedAttempt d = (s.setAttempts (s.me.attempts + 1)).raiseError (.lockTimeout d) := by
  simp only [State.failedAttempt, ht, if_true]

/-- A step that is a failed attempt, from a state that is `s` but for the agent: it waits, or times out (R122, R244). -/
theorem failedAttempt_counted {i : Instr} {s u : State} {d : DevAddr} {me : AgentState}
    (he : exec i s = .next (u.failedAttempt d)) (lu : Leaves s u s.lock [] [] s.device me) :
    let tried : AgentState := { me with attempts := me.attempts + 1 }
    (s.params.acquireTimeout = none ∨ (∃ n, s.params.acquireTimeout = some n ∧ tried.attempts < n) →
      ∃ t, exec i s = .next t ∧ Leaves s t s.lock [] [] s.device tried) ∧
    (∀ n, s.params.acquireTimeout = some n → n ≤ tried.attempts →
      (s.lock ≠ .held s.turn → ∃ t, exec i s = .next t ∧
        Leaves s t s.lock [] [] s.device (tried.halted (.errored (.lockTimeout d)))) ∧
      (s.lock = .held s.turn → ∃ t, exec i s = .next t ∧
        Leaves s t .free [] [.release s.turn] s.device
          (({ tried with holding := false } : AgentState).halted (.errored (.lockTimeout d))))) := by
  intro tried
  have lt : Leaves s (u.setAttempts (u.me.attempts + 1)) s.lock [] [] s.device tried := by
    rw [lu.me]
    exact lu.updMe fun a => { a with attempts := tried.attempts }
  refine ⟨fun ht => ?_, fun n hn hle => ?_⟩
  · rw [State.failedAttempt_waits d (by rw [lu.params, lu.me]; exact timedOut_eq_false ht)] at he
    exact ⟨_, he, lt⟩
  · rw [State.failedAttempt_timedOut d (by rw [lu.params, lu.me]; exact timedOut_eq_true hn hle)] at he
    exact ⟨fun hl => ⟨_, he, lt.enter_raise hl _ []⟩, fun hl => ⟨_, he, (hl ▸ lt).raiseError_of_mine _⟩⟩

/-- Settles O12: the attempt succeeds, in the state in which it is made: the operation's own, or that in which its
checks are made and its buffer is built. -/
theorem lockAcquireTakesAFreeLock : Obligations.LockAcquireTakesAFreeLock := by
  refine ⟨fun s c ci ctl owns hl => ⟨fun hp => ?_, fun hp => ?_⟩, fun i s rs sc d hs hd hl => ⟨fun hp => ?_, ?_⟩⟩
  · exact ⟨_, exec_first_attempt hp owns.lockAcquire_resume,
      ((Leaves.refl_of_free hl).enter_locks rfl []).attempt_free rfl []⟩
  · exact ⟨_, exec_attempt hp owns.lockAcquire_resume rfl, (Leaves.refl_of_free hl).attempt_free rfl []⟩
  · exact ⟨_, exec_attempt hp hs hd, (Leaves.refl_of_free hl).attempt_free hd rs⟩
  · rintro hp rfl
    exact ⟨_, exec_first_attempt hp hs, ((Leaves.refl_of_free hl).enter_locks hd []).attempt_free hd []⟩

/-- Settles O13: the attempt fails, in the same two states. -/
theorem failedAttemptsAreCounted : Obligations.FailedAttemptsAreCounted := by
  refine ⟨fun s c ci ctl owns hp hl =>
      failedAttempt_counted (exec_attempt_of_held hp owns.lockAcquire_resume rfl hl) (.refl s),
    fun i s rs sc d hs hd hl => ⟨fun hp =>
      failedAttempt_counted (exec_attempt_of_held hp hs hd hl) (.refl s), ?_⟩⟩
  rintro hp rfl
  exact failedAttempt_counted (exec_first_attempt_of_held hp hs hd hl) ((Leaves.refl s).enter_locks hd [])

end Sys2Proof.Machine
end

section
/-! SUPPORT. Register descriptors: the payloads of a layout, the transactions of the generic get and set, and the errors
that come before them (R130, R140 to R149, R190, R243, R244). -/

namespace Sys2Proof.Machine

open Sys2Proof

/-- Settles O22: the three laws of a layout. -/
theorem payloadsDecodeBack : Obligations.PayloadsDecodeBack :=
  ⟨decodeFields_encodeFields, encodeFields_decodeFields, encodeFields_ok_iff⟩

/-! ### The scripts of the generic operations -/

section scripts

variable {s : State} {c : ObjRef} {ci : ObjId} {ctl : Controller} (owns : OwnsCtrl s c ci ctl)
include owns

theorem OwnsCtrl.scalarGet {addr : Int} {f : Field} (hwf : scalarWf addr f = true) (dst : Option Name) :
    scriptOf (.scalarGet dst c addr f) s =
      getFields ctl.devAddr none (addrByte addr) [f] fun vs => .done (.result dst (.int (vs.getD 0 0))) :=
  (owns.withCtrl _).trans (require_true hwf _)

theorem OwnsCtrl.scalarSet {addr : Int} {f : Field} (hwf : scalarWf addr f = true) (v : Int) :
    scriptOf (.scalarSet c addr f v) s = setFields ctl.devAddr none (addrByte addr) [f] [v] (.done .none) :=
  (owns.withCtrl _).trans (require_true hwf _)

theorem OwnsCtrl.tupleGet {addr : Int} {fs : List Field} (hwf : tupleWf addr fs = true) (dst : Option Name) :
    scriptOf (.tupleGet dst c addr fs) s =
      getFields ctl.devAddr none (addrByte addr) fs fun vs => .done (.result dst (.tuple vs)) :=
  (owns.withCtrl _).trans (require_true hwf _)

theorem OwnsCtrl.tupleSet {addr : Int} {fs : List Field} {vs : List Int} (hwf : tupleWf addr fs = true)
    (hl : vs.length = fs.length) :
    scriptOf (.tupleSet c addr fs vs) s = setFields ctl.devAddr none (addrByte addr) fs vs (.done .none) :=
  (owns.withCtrl _).trans (require_true (by simp [hwf, hl]) _)

theorem OwnsCtrl.arrayGet {base : Int} {fs : List Field} {count : Int} (hwf : arrayWf base fs count = true)
    (i : Int) (dst : Option Name) :
    scriptOf (.arrayGet dst c base fs count i) s = checkIndex i count
      (getFields ctl.devAddr none (elementAddr base fs i) fs fun vs => .done (.result dst (.tuple vs))) :=
  (owns.withCtrl _).trans (require_true hwf _)

theorem OwnsCtrl.arraySet {base : Int} {fs : List Field} {count : Int} {vs : List Int}
    (hwf : arrayWf base fs count = true) (hl : vs.length = fs.length) (i : Int) :
    scriptOf (.arraySet c base fs count i vs) s = checkIndex i count
      (setFields ctl.devAddr none (elementAddr base fs i) fs vs (.done .none)) :=
  (owns.withCtrl _).trans (require_true (by simp [hwf, hl]) _)

end scripts

/-! ### Gets -/

/-- A field's value is in its first bytes (R149). -/
theorem fieldValue_take (f : Field) (bs : List Byte) : fieldValue f (bs.take (fieldSize f)) = fieldValue f bs := by
  cases f with
  | u8 => simp [fieldValue, fieldSize]
  | u16 => simp [fieldValue, fieldSize]

/-- The one value of a layout of one field (R142). -/
theorem decodeFields_single (f : Field) (bs : List Byte) : (decodeFields [f] bs).getD 0 0 = fieldValue f bs :=
  fieldValue_take f bs

section call

variable {s : State} {c : ObjRef} {ci : ObjId} {ctl : Controller} {r : DeviceRegs} {i : Instr} {a : Byte}
  {fs : List Field} (call : CtrlCall s c ci ctl r)
include call

/-- An operation of one `get(a, fs)`, undisturbed, whose result is a function `v` of the decoded values (R141). -/
theorem CtrlCall.getFields_completes {dst : Option Name} {v : List Int → Value}
    (hs : scriptOf i s = getFields ctl.devAddr none a fs fun vs => .done (.result dst (v vs))) :
    ∃ t bs, Runs i 3 s t ∧ bs.length = elementSize fs ∧ ReadsFrom s.params r a bs ∧
      Leaves s t .free [] (heldTx s.turn ctl.devAddr .wr [a] bs true)
        (devWith s ctl.devAddr (r.setPtr (ptrAfter (r.adv s.params) a (elementSize fs))))
        (s.me.done.bound dst (v (decodeFields fs bs))) := by
  have quiet : QuietWrite s.params s.turn ctl.devAddr [a] r s.oracle.drawResult.2 := rfl
  obtain ⟨w, bs, run, hlen, hreads, lw⟩ := runs_read call.ready hs call.present call.reliable quiet
  exact ⟨_, bs, run, hlen, hreads, lw.enter_done_result dst (v (decodeFields fs bs)) _⟩

/-- An operation of one `set(a, fs, vs)` of values that encode, undisturbed, whose write raises no fault (R141). -/
theorem CtrlCall.setFields_completes {vs : List Int} {payload : List Byte}
    (hs : scriptOf i s = setFields ctl.devAddr none a fs vs (.done .none))
    (henc : encodeFields fs vs = .ok payload)
    (hq : QuietWrite s.params s.turn ctl.devAddr (a :: payload) r s.oracle.drawResult.2) :
    ∃ t q, Runs i 3 s t ∧
      Leaves s t .free [] (heldTx s.turn ctl.devAddr .w (a :: payload) [] true) (devWith s ctl.devAddr q) s.me.done ∧
      q = afterWrite s.params s.turn ctl.devAddr (a :: payload) r s.oracle.drawResult.2 ∧
      (∀ x, q.read x = writtenReg s.params r (a :: payload) x) ∧
      ∀ x, x ∉ storedAddrs s.params (r.read regMode1) (a :: payload) → q.read x = r.read x := by
  rw [setFields_ok henc] at hs
  obtain ⟨w, run, lw, -⟩ := runs_write call.ready hs call.present call.reliable hq
  exact ⟨_, _, run, lw.enter_done_none _, rfl, afterWrite_read hq, fun x => afterWrite_read_ne _ _ _ _ _ _ x⟩

end call

/-- Settles O23: each operation is one `get` of its layout; that of a scalar has one field. -/
theorem descriptorGetsComplete : Obligations.DescriptorGetsComplete := by
  intro s c ci ctl r dst call got
  have scalar {addr : Int} {f : Field} (hwf : scalarWf addr f = true) :
      got (.scalarGet dst c addr f) (addrByte addr) (elementSize [f]) fun bs => .int (fieldValue f bs) := by
    obtain ⟨t, bs, run, hlen, hreads, lt⟩ := call.getFields_completes (call.owns.scalarGet hwf dst)
    rw [decodeFields_single] at lt
    exact ⟨t, bs, run, hlen, hreads, lt⟩
  refine ⟨fun addr hwf => scalar hwf, fun addr hwf => scalar hwf, fun addr fs hwf => ?_,
    fun base fs count i hwf h0 h1 => ?_⟩
  · exact call.getFields_completes (call.owns.tupleGet hwf dst)
  · exact call.getFields_completes ((call.owns.arrayGet hwf i dst).trans (checkIndex_ok h0 h1 _))

/-- Settles O24: each operation is one `set` of its layout. -/
theorem descriptorSetsComplete : Obligations.DescriptorSetsComplete := by
  intro s c ci ctl r call put
  refine ⟨fun addr v hwf h0 h1 => ?_, fun addr v hwf h0 h1 => ?_, fun addr fs vs payload hwf hl henc => ?_,
    fun base fs count i vs payload hwf h0 h1 hl henc => ?_⟩
  · exact call.setFields_completes (call.owns.scalarSet hwf v) (encodeFields_u8 h0 h1)
  · exact call.setFields_completes (call.owns.scalarSet hwf v) (encodeFields_u16 h0 h1)
  · exact call.setFields_completes (call.owns.tupleSet hwf hl) henc
  · exact call.setFields_completes ((call.owns.arraySet hwf hl i).trans (checkIndex_ok h0 h1 _)) henc

/-! ### Errors before the transaction -/

theorem checkIndex_raises {i count : Int} (h : ¬ (0 ≤ i ∧ i < count)) (sc : Script) :
    checkIndex i count sc = .raise (.index i) := by
  have out : indexOk i count = false := by simpa [indexOk] using h
  simp [checkIndex, out]

/-- Settles O25: the index check is the whole script of the operation. -/
theorem indexErrorsComeFirst : Obligations.IndexErrorsComeFirst := by
  intro s c ci ctl dst n owns idle fails
  refine ⟨fun h => ?_, fun base fs count hwf h => ⟨?_, fun vs hl => ?_⟩⟩
  · have led (sc : Script) : checkIndex n 16 sc = .raise (.index n) := checkIndex_raises (by omega) sc
    exact ⟨exec_raises idle ((owns.withCtrl _).trans (led _)), exec_raises idle ((owns.withCtrl _).trans (led _)),
      fun on off => exec_raises idle ((owns.withCtrl _).trans (led _))⟩
  · exact exec_raises idle ((owns.arrayGet hwf n dst).trans (checkIndex_raises h _))
  · exact exec_raises idle ((owns.arraySet hwf hl n).trans (checkIndex_raises h _))

theorem setFields_error {fs : List Field} {vs : List Int} {v : Int} (h : encodeFields fs vs = .error v) (d : DevAddr)
    (via : Option ObjId) (a : Byte) (k : Script) : setFields d via a fs vs k = .raise (.encoding v) := by
  simp [setFields, h]

/-- A first value out of its field's range is the one reported, whatever follows (R148). -/
theorem encodeFields_head_error {f : Field} {v : Int} (h : fieldHolds f v = false) (fs : List Field) (vs : List Int) :
    encodeFields (f :: fs) (v :: vs) = .error v := by
  rw [encodeFields_cons, h]; rfl

/-- After a value in range, what is reported is the first one out of range among the others (R148). -/
theorem encodeFields_tail_error {f : Field} {v w : Int} {fs : List Field} {vs : List Int}
    (h : fieldHolds f v = true) (hw : encodeFields fs vs = .error w) :
    encodeFields (f :: fs) (v :: vs) = .error w := by
  rw [encodeFields_cons, h, hw]; rfl

/-- Settles O26: the operation is its `set`, whose encoding fails. -/
theorem encodingErrorsTouchNoBus : Obligations.EncodingErrorsTouchNoBus := by
  intro s c ci ctl v owns idle fails
  have raises {i : Instr} {via : Option ObjId} {a : Byte} {fs : List Field} {vs : List Int}
      (hs : scriptOf i s = setFields ctl.devAddr via a fs vs (.done .none)) (he : encodeFields fs vs = .error v) :
      fails i := exec_raises idle (hs.trans (setFields_error he ..))
  refine ⟨fun h => ?_, fun h => ?_, fun fs vs hl he => ⟨fun addr hwf => ?_, fun base count n hwf h0 h1 => ?_⟩⟩
  · have byte : encodeFields [.u8] [v] = .error v :=
      encodeFields_head_error (by simpa [fieldHolds] using h) [] []
    exact ⟨raises (owns.withCtrl _) byte, raises (owns.withCtrl _) byte, raises (owns.withCtrl _) byte,
      fun addr hwf => raises (owns.scalarSet hwf v) byte⟩
  · have word (fs : List Field) (vs : List Int) : encodeFields (.u16 :: fs) (v :: vs) = .error v :=
      encodeFields_head_error (by simpa [fieldHolds] using h) fs vs
    refine ⟨fun addr hwf => raises (owns.scalarSet hwf v) (word [] []), fun n h0 h1 => ?_⟩
    have led (on off : Int) : scriptOf (.ledSet c n on off) s = setFields ctl.devAddr (some ci)
        (elementAddr 0x06 ledLayout n) ledLayout [on, off] (.done .none) :=
      (owns.withCtrl _).trans (checkIndex_ok h0 (by omega) _)
    exact ⟨fun off => raises (led v off) (word _ _), fun on hon0 hon1 =>
      raises (led on v) (encodeFields_tail_error (by simp [fieldHolds, hon0, hon1]) (word [] []))⟩
  · exact raises (owns.tupleSet hwf hl) he
  · exact raises ((owns.arraySet hwf hl n).trans (checkIndex_ok h0 h1 _)) he

end Sys2Proof.Machine
end

section
/-! SUPPORT. The operations of a controller that are one transaction: the reset and the deinitialisation, the accesses
of the scalar registers and of the elements, and the frequency read (R161, R162, R166 to R174, R177). -/

namespace Sys2Proof.Machine

open Sys2Proof

/-! ### The device after a write of MODE1 -/

theorem nextPtr_eq_ptrAfter (P : Params) (m a : Byte) : nextPtr P m a = ptrAfter (advances P m) a 1 := rfl

/-- The registers after byte `v` has been written into MODE1, whatever fault that raises (R61, R62, R282). -/
def DeviceRegs.mode1Set (P : Params) (v : Byte) (r : DeviceRegs) : DeviceRegs :=
  ((r.write regMode1 v).setPtr (nextPtr P v regMode1)).setWake (wakeAfter P (r.read regMode1) v r.wake)

theorem DeviceRegs.mode1Set_read (P : Params) (v : Byte) (r : DeviceRegs) (x : Byte) :
    (r.mode1Set P v).read x = if x = 0x00 then v else r.read x := r.read_write ..

theorem DeviceRegs.mode1Set_ptr (P : Params) (v : Byte) (r : DeviceRegs) :
    (r.mode1Set P v).ptr = ptrAfter ((r.mode1Set P v).adv P) 0x00 1 := by
  rw [DeviceRegs.adv, r.mode1Set_read]
  rfl

theorem DeviceRegs.mode1Set_wake (P : Params) (v : Byte) (r : DeviceRegs) :
    (r.mode1Set P v).wake =
      if v &&& P.restartMask ≠ 0 ∨ v &&& P.sleepMask ≠ 0 then none
      else if r.read 0x00 &&& P.sleepMask ≠ 0 then some [] else r.wake := wakeAfter_eq ..

/-- The reset write (R161). -/
theorem DeviceRegs.mode1Set_zero (P : Params) (r : DeviceRegs) :
    r.mode1Set P 0x00 =
      ((r.write 0x00 0x00).setPtr (if P.aiModel = .always then 0x01 else 0x00)).setWake
        (if r.read 0x00 &&& P.sleepMask ≠ 0 then some [] else r.wake) := by
  rw [DeviceRegs.mode1Set, nextPtr_zero, wakeAfter_zero]
  rfl

/-- A write of MODE1 that sets no RESTART bit too early raises nothing (R282). -/
theorem Bus.write_mode1_quiet {P : Params} {g : AgentId} {v : Byte} {r : DeviceRegs}
    (h : ¬ (v &&& P.restartMask ≠ 0 ∧ ∃ S, r.wake = some S ∧ g ∉ S)) (d : DevAddr) (o : Oracle) :
    Bus.write P g d [regMode1, v] ⟨r, o, []⟩ = ⟨r.mode1Set P v, o, []⟩ := by
  rw [← restartTooEarly_iff, Bool.not_eq_true] at h
  rw [Bus.write_mode1, h]
  rfl

/-- A write of MODE1 that sets a RESTART bit too early stores its byte and faults (R282). -/
theorem Bus.write_mode1_early {P : Params} {g : AgentId} {v : Byte} {r : DeviceRegs}
    (h : v &&& P.restartMask ≠ 0 ∧ ∃ S, r.wake = some S ∧ g ∉ S) (d : DevAddr) (o : Oracle) :
    Bus.write P g d [regMode1, v] ⟨r, o, []⟩ = ⟨r.mode1Set P v, o, [.restartBeforeSettle d]⟩ := by
  rw [← restartTooEarly_iff] at h
  rw [Bus.write_mode1, h]
  rfl

/-- The reset write raises nothing. -/
theorem Bus.write_mode1_zero (P : Params) (g : AgentId) (d : DevAddr) (r : DeviceRegs) (o : Oracle) :
    Bus.write P g d [regMode1, 0x00] ⟨r, o, []⟩ = ⟨r.mode1Set P 0x00, o, []⟩ :=
  Bus.write_mode1_quiet (by simp) d o

/-! ### One scalar register -/

section scalar

variable {i : Instr} {s : State} {d : DevAddr} {a v : Byte} {r q : DeviceRegs} (ready : Ready s)
  (hd : s.device d = some r) (ho : s.oracle.drawResult.1 = true)
include ready hd ho

/-- An operation that begins with the set of one byte, undisturbed, its write raising no fault. -/
theorem runs_setByte {k : Script} {o : Oracle} (hs : scriptOf i s = setByte d a v k)
    (hw : Bus.write s.params s.turn d [a, v] ⟨r, s.oracle.drawResult.2, []⟩ = ⟨q, o, []⟩) :
    ∃ w, Runs i 3 s (w.enter k [[]]) ∧
      Leaves s w .free [] (heldTx s.turn d .w [a, v] [] true) (devWith s d q)
        { s.me with holding := false, attempts := 0, phase := .release [] (.ok []) } := by
  have quiet : QuietWrite s.params s.turn d [a, v] r s.oracle.drawResult.2 := congrArg Bus.raised hw
  obtain ⟨w, run, lw, -⟩ := runs_write ready hs hd ho quiet
  rw [afterWrite, hw] at lw
  exact ⟨w, run, lw⟩

/-- An operation that is the set of one byte, undisturbed, its write raising no fault. -/
theorem setByte_completes {o : Oracle} (hs : scriptOf i s = setByte d a v (.done .none))
    (hw : Bus.write s.params s.turn d [a, v] ⟨r, s.oracle.drawResult.2, []⟩ = ⟨q, o, []⟩) :
    ∃ t, Runs i 3 s t ∧
      Leaves s t .free [] (heldTx s.turn d .w [a, v] [] true) (devWith s d q) s.me.done := by
  obtain ⟨w, run, lw⟩ := runs_setByte ready hd ho hs hw
  exact ⟨_, run, lw.enter_done_none _⟩

/-- An operation that is the get of one byte, undisturbed, whose result is that byte. -/
theorem getByte_completes {dst : Option Name}
    (hs : scriptOf i s = getByte d a fun b => .done (.result dst (.int b.toNat))) :
    ∃ b, readsAs s.params r a b ∧ ∃ t, Runs i 3 s t ∧
      Leaves s t .free [] (heldTx s.turn d .wr [a] [b] true)
        (devWith s d (r.setPtr (ptrAfter (r.adv s.params) a 1))) (s.me.done.bound dst (.int b.toNat)) := by
  have quiet : QuietWrite s.params s.turn d [a] r s.oracle.drawResult.2 := rfl
  obtain ⟨w, bs, run, hlen, hreads, lw⟩ := runs_read ready hs hd ho quiet
  obtain ⟨b, rfl⟩ := List.length_eq_one_iff.mp hlen
  have reads : readsAs s.params r a b := by
    simpa [afterWrite, Bus.write, Bus.writeData, readsAs_setPtr, readAddr] using hreads 0
  exact ⟨b, reads, _, run, lw.enter_done_result dst (.int b.toNat) _⟩

end scalar

/-- Outside MODE1 a register reads as the byte it holds (R64). -/
theorem eq_of_readsAs {P : Params} {r : DeviceRegs} {a b : Byte} (h : readsAs P r a b) (ha : a ≠ regMode1) :
    b = r.read a := by
  rwa [readsAs, if_neg ha] at h

/-- The set of an 8-bit register to an integer in its range is the set of that byte (R141). -/
theorem setFields_u8 {v : Int} (h0 : 0 ≤ v) (h1 : v ≤ 0xFF) (d : DevAddr) (a : Byte) (k : Script) :
    setFields d none a [.u8] [v] k = setByte d a (BitVec.ofInt 8 v) k :=
  setFields_ok (encodeFields_u8 h0 h1) k

/-- Settles O28: each operation is the write of 0 into MODE1, after which a deinitialisation ends the controller. -/
theorem resetAndDeinitComplete : Obligations.ResetAndDeinitComplete := by
  intro s c ci ctl r call
  rw [← DeviceRegs.mode1Set_zero]
  have zero := Bus.write_mode1_zero s.params s.turn ctl.devAddr r s.oracle.drawResult.2
  refine ⟨setByte_completes call.ready call.present call.reliable (call.owns.withCtrl _) zero, ?_⟩
  obtain ⟨w, run, lw⟩ := runs_setByte (i := .ctrlDeinit c) call.ready call.present call.reliable
    (call.owns.withCtrl _) zero
  exact ⟨_, run, lw.enter_deinit call.owns.object _⟩

/-- Settles O29: each operation is the get of its register, and only MODE1 has volatile bits. -/
theorem scalarRegisterGetsComplete : Obligations.ScalarRegisterGetsComplete := by
  intro s c ci ctl r dst call got
  have completes {i : Instr} {a : Byte}
      (hs : scriptOf i s = getByte ctl.devAddr a fun b => .done (.result dst (.int b.toNat))) :
      ∃ b, readsAs s.params r a b ∧ got i a b := getByte_completes call.ready call.present call.reliable hs
  refine ⟨?_, ?_, ?_⟩
  · obtain ⟨b, hb, h⟩ := completes (i := .mode1Get dst c) (call.owns.withCtrl _)
    obtain ⟨draw, rfl⟩ := readsAs_mode1 hb
    exact ⟨draw, h⟩
  · obtain ⟨b, hb, h⟩ := completes (i := .mode2Get dst c) (call.owns.withCtrl _)
    obtain rfl := eq_of_readsAs hb (by decide)
    exact h
  · obtain ⟨b, hb, h⟩ := completes (i := .prescaleGet dst c) (call.owns.withCtrl _)
    obtain rfl := eq_of_readsAs hb (by decide)
    exact h

/-- Settles O30: the operation is one write of MODE1, which raises nothing. -/
theorem mode1SetCompletes : Obligations.Mode1SetCompletes := by
  intro s c ci ctl r v call h0 h1 settled
  have script : scriptOf (.mode1Set c v) s = setByte ctl.devAddr regMode1 (BitVec.ofInt 8 v) (.done .none) :=
    (call.owns.withCtrl _).trans (setFields_u8 h0 h1 ..)
  obtain ⟨t, run, lt⟩ := setByte_completes call.ready call.present call.reliable script
    (Bus.write_mode1_quiet settled ..)
  exact ⟨t, _, run, lt, r.mode1Set_read _ _, r.mode1Set_ptr _ _, r.mode1Set_wake _ _⟩

/-- Settles O32: each operation is one write of its register, which is plain: for PRESCALE since the device sleeps. -/
theorem mode2AndPrescaleSetsComplete : Obligations.Mode2AndPrescaleSetsComplete := by
  intro s c ci ctl r v call h0 h1
  refine ⟨?_, fun asleep => ?_⟩
  · exact setByte_completes call.ready call.present call.reliable
      ((call.owns.withCtrl _).trans (setFields_u8 h0 h1 ..))
      (Bus.write_plain1 _ _ _ (by decide) (by decide) ..)
  · exact setByte_completes call.ready call.present call.reliable
      ((call.owns.withCtrl _).trans (setFields_u8 h0 h1 ..))
      (Bus.write_prescale _ _ _ _ _ _ ((sleepSet_iff ..).mpr asleep))

/-! ### Elements -/

/-- Settles O33: each operation is one access of the element's four bytes, which are neither MODE1 nor PRESCALE. -/
theorem ledAccessesComplete : Obligations.LedAccessesComplete := by
  intro s c ci ctl r dst n call a b
  have get : scriptOf (.ledGet dst c n.val) s = getFields ctl.devAddr (some ci) (ledAddr n) ledLayout fun vs =>
      .done (.result dst (.tuple vs)) := by
    rw [← elementAddr_led]
    exact (call.owns.withCtrl _).trans (checkIndex_fin n _)
  have set (on off : Int) : scriptOf (.ledSet c n.val on off) s =
      setFields ctl.devAddr (some ci) (ledAddr n) ledLayout [on, off] (.done .none) := by
    rw [← elementAddr_led]
    exact (call.owns.withCtrl _).trans (checkIndex_fin n _)
  refine ⟨?_, fun on off hon0 hon1 hoff0 hoff1 => ?_⟩
  · obtain ⟨w, run, lw, -⟩ := runs_getLed call.ready call.present call.reliable get call.owns.object
    rw [decodeLed] at run
    exact ⟨_, run, lw.enter_done_result dst _ _⟩
  · obtain ⟨w, q, run, lw, -, hq⟩ := runs_setLed call.ready call.present call.reliable
      ((set on off).trans (setFields_ok (encodeLed hon0 hon1 hoff0 hoff1) _)) call.owns.object
    exact ⟨_, q, run, lw.enter_done_none _, hq⟩

/-! ### The frequency read -/

/-- The frequency with the formula's integers written as rationals (R162). -/
theorem freqOf_eq (ar : Arith) (ref : Num) (p : Byte) :
    freqOf ar ref p = Num.div ar (Num.div ar ref (Num.ofRat ar 4096)) (Num.ofRat ar p.toNat) := by
  simp [freqOf, Num.ofInt]

/-- An operation that is `get frequency()`, undisturbed (R162): the read of PRESCALE, then the check of what it read. -/
theorem getFreq_completes {i : Instr} {s : State} {ctl : Controller} {r : DeviceRegs} {dst : Option Name}
    (ready : Ready s) (hd : s.device ctl.devAddr = some r) (ho : s.oracle.drawResult.1 = true)
    (hs : scriptOf i s = getFreq s.params ctl fun f => .done (.result dst (.num f))) :
    ∃ t, Runs i 3 s t ∧
      Leaves s t .free [] (heldTx s.turn ctl.devAddr .wr [0xFE] [r.read 0xFE] true)
        (devWith s ctl.devAddr (r.setPtr (ptrAfter (r.adv s.params) 0xFE 1)))
        (if (r.read 0xFE).toNat < 3 then
          s.me.stopped (.errored (.calibration (.prescale (r.read 0xFE).toNat)))
        else s.me.done.bound dst (.num (freqOf s.params.arith ctl.refClk (r.read 0xFE)))) := by
  obtain ⟨w, run, lw⟩ := runs_prescale ready hd ho hs
  by_cases low : (r.read 0xFE).toNat < 3
  · rw [if_pos low] at run
    exact ⟨_, run, (lw.enter_raise nofun _ _).congr_me (if_pos low).symm⟩
  · rw [if_neg low] at run
    exact ⟨_, run, (lw.enter_done_result dst _ _).congr_me (if_neg low).symm⟩

/-- Settles O34: both operations are `get frequency()` of their controller. -/
theorem frequencyGetsComplete : Obligations.FrequencyGetsComplete := by
  simp only [Obligations.FrequencyGetsComplete, ← freqOf_eq]
  exact ⟨fun s c ci ctl r dst call =>
      getFreq_completes call.ready call.present call.reliable (call.owns.withCtrl _),
    fun s ch hi h ctl r dst call =>
      getFreq_completes call.ready call.present call.reliable (call.owns.withChan _)⟩

end Sys2Proof.Machine
end

section
/-! SUPPORT. The arithmetic of the calibration (R162, R164, R211, R213, R214) and the frequency sets that it, or R192,
fails at once. -/

namespace Sys2Proof.Machine

open Sys2Proof

/-- The duty of a pulse width, under exact arithmetic (R211). -/
theorem pulseDuty_exact (pulse f : Rat) :
    pulseDuty .exact (.rat pulse) (.rat f) = .rat (pulse * f / 1000000 * 65535) := by
  simp [pulseDuty, Num.ofInt, Num.ofRat, Num.div, Num.mul, exactOp]

/-- Settles O47: the operators of `ARITH = exact` are those of the rationals. -/
theorem calibrationFormulas : Obligations.CalibrationFormulas := by
  intro P ref pulse f v p sv md dr dc hexact
  refine ⟨?_, ?_, ?_, ?_, ?_⟩
  · rw [freqOf_eq, hexact]; rfl
  · rw [minDutyFor, hexact, pulseDuty_exact]; rfl
  · rw [dutyRangeFor, hexact, pulseDuty_exact]; rfl
  · rw [hexact]; rfl
  · rw [fractionDuty, hexact]; rfl

/-- A number is rounded, ties up, to an integer in `a..b` exactly where it lies within a half of that range (R8). -/
theorem roundRat_halfUp_mem (q : Rat) (a b : Int) :
    a ≤ roundRat .halfUp q ∧ roundRat .halfUp q ≤ b ↔ (a : Rat) - 1 / 2 ≤ q ∧ q < b + 1 / 2 := by
  have lower : a ≤ roundRat .halfUp q ↔ (a : Rat) - 1 / 2 ≤ q := by
    rw [roundRat, Rat.le_floor_iff, sub_le_iff_le_add]
  have upper : roundRat .halfUp q ≤ b ↔ q < b + 1 / 2 := by
    rw [roundRat, ← Int.lt_add_one_iff, Rat.floor_lt_iff]
    push_cast
    constructor <;> intro h <;> linarith
  rw [lower, upper]

/-- A quotient of a positive number lies between two positive bounds exactly where the divisor lies between the inverse
ones; a divisor that is not positive does neither. -/
theorem div_mem_iff {c a b x : Rat} (hc : 0 < c) (ha : 0 < a) (hb : 0 < b) :
    a ≤ c / x ∧ c / x < b ↔ c / b < x ∧ x ≤ c / a := by
  have pos_left : a ≤ c / x → 0 < x := fun h => (div_pos_iff_of_pos_left hc).mp (ha.trans_le h)
  have pos_right : c / b < x → 0 < x := (div_pos hc hb).trans
  constructor
  · rintro ⟨h1, h2⟩
    have hx := pos_left h1
    exact ⟨(div_lt_comm₀ hx hb).mp h2, (le_div_comm₀ ha hx).mp h1⟩
  · rintro ⟨h1, h2⟩
    have hx := pos_right h1
    exact ⟨(le_div_comm₀ ha hx).mpr h2, (div_lt_comm₀ hx hb).mpr h1⟩

/-- The frequencies that have a prescale, under exact arithmetic (R164). -/
theorem prescaleFor_accepts_iff {P : Params} (hexact : P.arith = .exact) (ref freq : Rat) :
    (∃ p, prescaleFor P (.rat ref) (.rat freq) = .ok p) ↔
      freq ≠ 0 ∧ 3 ≤ roundRat P.roundTie (ref / 4096 / freq) ∧
        roundRat P.roundTie (ref / 4096 / freq) ≤ 255 := by
  rw [prescaleFor_exact P ref freq hexact]
  generalize roundRat P.roundTie (ref / 4096 / freq) = p
  by_cases zero : freq = 0
  · simp [zero]
  · by_cases bounds : 3 ≤ p ∧ p ≤ 255
    · simp [zero, bounds]
    · simp [zero, bounds]

/-- Settles O35: a prescale in 3..255 is a quotient from 5/2 to below 511/2, whose divisor is the frequency. -/
theorem prescaleForAFrequency : Obligations.PrescaleForAFrequency := by
  refine ⟨prescaleFor_exact, fun P freq hexact up => ?_⟩
  have clock : (25000000 : Rat) / 4096 = 6103515625 / 1000000 := by norm_num
  have round (q : Rat) : 3 ≤ roundRat .halfUp q ∧ roundRat .halfUp q ≤ 255 ↔ 5 / 2 ≤ q ∧ q < 511 / 2 := by
    convert roundRat_halfUp_mem q 3 255 using 2 <;> norm_num
  rw [prescaleFor_accepts_iff hexact, up, clock, round,
    ← div_mem_iff (by norm_num) (by norm_num) (by norm_num)]
  refine and_iff_right_of_imp fun h zero => ?_
  norm_num [zero] at h

/-- Settles O37: the script is the error, raised before any transaction. -/
theorem frequencySetsThatFail : Obligations.FrequencySetsThatFail := by
  refine ⟨fun s c ci ctl freq F e owns idle hF he => exec_raises idle ?_,
    fun s ch hi h ctl f owns idle => exec_raises idle (owns.withChan _)⟩
  have script : scriptOf (.freqSet c freq) s = _ := (owns.withCtrl _).trans (withNum_operand hF _)
  rw [script, he]

end Sys2Proof.Machine
end

section
/-! SUPPORT. `CTRL_INIT`: its reset write without a probe, and the probe that comes before it, in its outcomes (R124,
R160, R161, R271). -/

namespace Sys2Proof.Machine

open Sys2Proof

/-- What `CTRL_INIT` without a probe does, its operands checked (R160). -/
theorem ctrlInit_script {s : State} {addr : Int} {ref F : Num} (h0 : 0 ≤ addr) (h1 : addr ≤ 0x7F)
    (hF : Num.operand s.params.arith ref = some F) (hp : F.pos = true) (dst : Option Name) :
    scriptOf (.ctrlInit dst addr ref false) s =
      setByte (BitVec.ofInt 7 addr) regMode1 0x00 (.done (.newController dst (BitVec.ofInt 7 addr) F)) :=
  (require_true (by simp [h0, h1]) _).trans <| (withNum_operand hF _).trans (require_true hp _)

section probed

variable {i : Instr} {s : State} {d : DevAddr} {k : Script} {r : DeviceRegs} (ready : Ready s)
  (hs : scriptOf i s = .probe d k) (hd : s.device d = some r)
include ready hs hd

/-- The zero-length write of the probe succeeds: what `runs_first_probe_ok` says, with the choices that are left. -/
theorem runs_probe_before_reset (ho : s.oracle.drawResult.1 = true) :
    ∃ w, Runs i 3 s (w.enter k [[]]) ∧
      Leaves s w .free [] (heldTx s.turn d .w [] [] true) (devWith s d r)
        { s.me with holding := false, attempts := 0, phase := .release [] (.ok []) } ∧
      w.oracle = s.oracle.drawResult.2 := by
  obtain ⟨u, he, hp, hsu, hou, lu⟩ := ready.start hs rfl
  obtain ⟨w, run, lw, ow⟩ := runs_probe_ok hp hsu lu.lock ((lu.devices d).trans hd) (hou ▸ ho)
  refine ⟨w, run.of_exec_eq he, (lu.trans lw).congr rfl ?_ (fun e => ?_) ?_, hou ▸ ow⟩
  · rw [lu.turn]; rfl
  · rw [lu.devices, devWith]
    split
    · next h => rw [h, hd]
    · rfl
  · rw [lu.me]; rfl

/-- The probe falls back to its read, which succeeds. -/
theorem runs_fallback_before_reset {rest : List Bool} (ho : s.oracle.results = false :: true :: rest) :
    ∃ w p b, Runs i 4 s (w.enter k [[]]) ∧
      Leaves s w .free [] (fallback s.turn d b true) (devWith s d (r.setPtr p))
        { s.me with holding := false, attempts := 0, phase := .release [] (.ok []) } ∧
      w.oracle.results = rest := by
  obtain ⟨u, he, hp, hsu, hou, lu⟩ := ready.start hs rfl
  obtain ⟨w, p, b, run, -, lw, ow⟩ := runs_probe_read hp hsu lu.lock ((lu.devices d).trans hd) (hou ▸ ho)
  refine ⟨w, ptrAfter (r.adv s.params) p 1, b, run.of_exec_eq he, (lu.trans lw).congr rfl ?_ (fun e => ?_) ?_, ow⟩
  · rw [lu.turn]; rfl
  · simp only [devWith, lu.devices, lu.params]
  · rw [lu.me]; rfl

end probed

/-- Settles O27: by the outcome of the probe, where one is asked for, and of the reset write after it. -/
theorem ctrlInitCompletes : Obligations.CtrlInitCompletes := by
  refine ⟨fun s dst addr ref F r ready h0 h1 hF hp hd ho => ?_,
    fun s dst addr ref F r ready h0 h1 hF hp hd reliable => ?_,
    fun s dst addr ref F r rest ready h0 h1 hF hp => ?_⟩
  · obtain ⟨w, run, lw⟩ := runs_setByte ready hd ho (ctrlInit_script h0 h1 hF hp dst) (Bus.write_mode1_zero ..)
    rw [DeviceRegs.mode1Set_zero] at lw
    obtain ⟨buf, lt⟩ := lw.enter_new dst (BitVec.ofInt 7 addr) F [[]]
    exact ⟨_, buf, run, lt⟩
  · have script := ctrlInit_probe_script (s := s) (dst := dst) h0 h1 hF hp
    obtain ⟨first, second⟩ := reliable.two
    obtain ⟨w, run, lw, ow⟩ := runs_probe_before_reset ready script hd first
    obtain ⟨t, buf, run', lt⟩ := runs_reset_ok script lw (ow ▸ second)
    exact ⟨t, buf, run.trans run', lt⟩
  · intro d hd fellBack resetFails
    have script := ctrlInit_probe_script (s := s) (dst := dst) h0 h1 hF hp
    refine ⟨fun ho => ?_, fun ho => ?_, fun ho => ?_, fun ho => ?_⟩
    · obtain ⟨w, p, b, run, lw, ow⟩ := runs_fallback_before_reset ready script hd ho
      obtain ⟨t, buf, run', lt⟩ := runs_reset_ok script lw (by rw [Oracle.drawResult_cons ow])
      exact ⟨t, b, buf, run.trans run', lt⟩
    · exact runs_first_probe_notFound ready script hd ho
    · have first := Oracle.drawResult_cons ho
      obtain ⟨w, run, lw, ow⟩ := runs_probe_before_reset ready script hd (by rw [first])
      obtain ⟨t, q, run', lt, frame⟩ := runs_reset_fails script lw (by rw [ow, first]; rfl)
      exact ⟨t, q, 0, run.trans run', lt, frame⟩
    · obtain ⟨w, p, b, run, lw, ow⟩ := runs_fallback_before_reset ready script hd ho
      obtain ⟨t, q, run', lt, frame⟩ := runs_reset_fails script lw (by rw [Oracle.drawResult_cons ow])
      exact ⟨t, q, b, run.trans run', lt, frame⟩

end Sys2Proof.Machine
end

section
/-! SUPPORT. `FREQ_SET`: its six steps undisturbed, the step at which it fails, and each of its writes on the device
that it finds (R163, R165, R175, R282, R284). -/

namespace Sys2Proof.Machine

open Sys2Proof

/-! ### The registers after the steps of the calibration sequence -/

theorem cal2_read (P : Params) (r : DeviceRegs) (old x : Byte) :
    (cal2 P r old).read x = if x = 0x00 then sleepEntry P old else r.read x := r.read_write ..

theorem cal3_read_ne (P : Params) (r : DeviceRegs) (old p : Byte) {x : Byte} (h : x ≠ 0x00) :
    (cal3 P r old p).read x = if x = 0xFE then p else r.read x :=
  ((cal2 P r old).read_write ..).trans (by rw [cal2_read, if_neg h]; rfl)

theorem cal4_read_ne (P : Params) (r : DeviceRegs) (old p : Byte) {x : Byte} (h : x ≠ 0x00) :
    (cal4 P r old p).read x = if x = 0xFE then p else r.read x :=
  ((cal3 P r old p).read_write_ne h old).trans (cal3_read_ne P r old p h)

/-- A write of MODE1 that sets RESTART ends the settle tracking (R282). -/
theorem DeviceRegs.mode1Set_restart {P : Params} {v : Byte} (h : restartSet P v = true) (r : DeviceRegs) :
    r.mode1Set P v = ((r.write regMode1 v).setPtr (nextPtr P v regMode1)).setWake none := by
  rw [DeviceRegs.mode1Set, wakeAfter_restart h]

/-! ### The steps from the start of the operation -/

/-- The events of steps (1) to (5) of agent `g`'s calibration sequence, `old` being what step (1) read (R163). -/
def cal1Events (g : AgentId) (d : DevAddr) (old : Byte) : List Event := heldTx g d .wr [0x00] [old] true
def cal2Events (P : Params) (g : AgentId) (d : DevAddr) (old : Byte) : List Event :=
  cal1Events g d old ++ heldTx g d .w [0x00, sleepEntry P old] [] true
def cal3Events (P : Params) (g : AgentId) (d : DevAddr) (p old : Byte) : List Event :=
  cal2Events P g d old ++ heldTx g d .w [0xFE, p] [] true
def cal5Events (P : Params) (g : AgentId) (d : DevAddr) (p old : Byte) : List Event :=
  cal3Events P g d p old ++ heldTx g d .w [0x00, old] [] true ++ [.delay g 5]

section steps

variable {i : Instr} {s : State} {d : DevAddr} {r : DeviceRegs} {p : Byte} {l : List Bool} (ready : Ready s)
  (hs : scriptOf i s = calibrationSequence s.params d p) (hd : s.device d = some r)
include ready hs hd

/-- Step (1) done: MODE1 is read (R163). -/
theorem runs_cal1 (ha : Answers (true :: l) s.oracle) :
    ∃ w old, Runs i 3 s w ∧ readsAs s.params r 0x00 old ∧
      At i s w [[old]] (cal1Events s.turn d old) (devUpd s.device d (cal1 s.params r)) l := by
  obtain ⟨u, he, hu⟩ := cal_start ready hs ha
  obtain ⟨w, old, run, hold, hw⟩ := cal_step1 hs hu hd
  exact ⟨w, old, run.of_exec_eq he, hold, hw⟩

variable (hq : SleepsQuietly s.params s.turn r) (hm : s.params.sleepMask ≠ 0)
include hq hm

/-- Steps (1) and (2) done: the device sleeps. -/
theorem runs_cal2 (ha : Answers (true :: true :: l) s.oracle) :
    ∃ w old, Runs i 6 s w ∧ readsAs s.params r 0x00 old ∧
      At i s w [[old], []] (cal2Events s.params s.turn d old) (devUpd s.device d (cal2 s.params r old)) l := by
  obtain ⟨u, old, run, hold, hu⟩ := runs_cal1 ready hs hd ha
  obtain ⟨w, run', hw⟩ := cal_step2 hs hq hm hu
  exact ⟨w, old, run.trans run', hold, hw⟩

/-- Steps (1) to (3) done: PRESCALE is written. -/
theorem runs_cal3 (ha : Answers (true :: true :: true :: l) s.oracle) :
    ∃ w old, Runs i 9 s w ∧ readsAs s.params r 0x00 old ∧
      At i s w [[old], [], []] (cal3Events s.params s.turn d p old)
        (devUpd s.device d (cal3 s.params r old p)) l := by
  obtain ⟨u, old, run, hold, hu⟩ := runs_cal2 ready hs hd hq hm ha
  obtain ⟨w, run', hw⟩ := cal_step3 hs hm hu
  exact ⟨w, old, run.trans run', hold, hw⟩

/-- Steps (1) to (5) done: MODE1 is restored, and the delay is over. -/
theorem runs_cal5 (ha : Answers (true :: true :: true :: true :: l) s.oracle) :
    ∃ w old, Runs i 13 s w ∧ readsAs s.params r 0x00 old ∧
      At i s w [[old], [], [], [], []] (cal5Events s.params s.turn d p old)
        (fun e => if e = d then some ((cal4 s.params r old p).discharge s.turn)
          else (s.device e).map (DeviceRegs.discharge s.turn)) l := by
  obtain ⟨u, old, run, hold, hu⟩ := runs_cal3 ready hs hd hq hm ha
  obtain ⟨w, run', hw⟩ := cal_step4 hs hu
  exact ⟨w, old, run.trans run', hold, hw⟩

end steps

/-- Settles O36: the steps before the last leave the settle obligation discharged, so that the last raises nothing. -/
theorem freqSetCompletes : Obligations.FreqSetCompletes := by
  intro s c ci ctl r freq F p call reliable hm hm' hq hF hp
  have script := call.owns.freqSet hF hp
  obtain ⟨u, old, run, hold, hu⟩ :=
    runs_cal5 call.ready script call.present hq hm (l := [true]) (Answers.of_reliable reliable)
  obtain ⟨w, run', lw⟩ := cal_step5 script hm' hu (if_pos rfl) (discharge_waits s.turn _)
  have restarts := DeviceRegs.mode1Set_restart (restartSet_restartAi hm' old)
    ((cal4 s.params r old p).discharge s.turn)
  rw [← restarts] at lw
  refine ⟨w, _, old, run.trans run', hold, lw.congr rfl rfl (fun e => ?_) rfl, fun x => ?_,
    DeviceRegs.mode1Set_ptr .., congrArg DeviceRegs.wake restarts⟩
  · simp only [devUpd]
    split <;> rfl
  · rw [DeviceRegs.mode1Set_read]
    exact ite_congr rfl (fun _ => rfl) fun h => cal4_read_ne s.params r old p h

/-! ### The step that fails -/

/-- What a run of `n` steps leaves that ends with a failed primitive (R175): the events `before`, then the lock hold of
the primitive, and the device as `left` says; both depend on the byte `old` that step (1) read, or might have read. -/
def FailsAfter (i : Instr) (s : State) (d : DevAddr) (r : DeviceRegs) (n : Nat) (before : Byte → List Event)
    (kind : TxKind) (out : Byte → List Byte) (left : DeviceRegs → Byte → Prop) : Prop :=
  ∃ t q old inp, Runs i n s t ∧ readsAs s.params r 0x00 old ∧ t.lock = .free ∧
    t.me.status = .errored (.busTransport d (.tx s.turn d kind (out old) inp false)) ∧
    t.me.pc = s.me.pc ∧ (∀ f, f ∈ t.faults ↔ f ∈ s.faults) ∧
    t.history = s.history ++ (before old ++ heldTx s.turn d kind (out old) inp false) ∧
    t.device d = some q ∧ left q old

/-- A write of one byte would store to the register that it addresses. -/
theorem mem_storedAddrs_one (P : Params) (m a v x : Byte) : x ∈ storedAddrs P m [a, v] ↔ x = a := by
  simp [storedAddrs, dataAddrs]

/-- What PRESCALE and the registers beside it hold, once PRESCALE has been written. -/
theorem prescale_and_others {q q' r : DeviceRegs} {p : Byte} (h : ∀ x, x ≠ 0x00 → q'.read x = q.read x)
    (hq : ∀ x, x ≠ 0x00 → q.read x = if x = 0xFE then p else r.read x) :
    q'.read 0xFE = p ∧ ∀ x, x ≠ 0x00 → x ≠ 0xFE → q'.read x = r.read x :=
  ⟨(h 0xFE (by decide)).trans ((hq 0xFE (by decide)).trans (if_pos rfl)),
    fun x h0 h1 => (h x h0).trans ((hq x h0).trans (if_neg h1))⟩

section failing

variable {i : Instr} {s : State} {d : DevAddr} {r : DeviceRegs} {p : Byte} {l : List Bool}

/-- The transaction that the agent has come to fails: the device keeps every register that the primitive would not have
stored to (R68, R126). -/
theorem At.failsAfter {u : State} {n : Nat} {old : Byte} {rs : List (List Byte)} {evs : List Event}
    {dev : DevAddr → Option DeviceRegs} {before : Byte → List Event} {kind : TxKind} {out : Byte → List Byte}
    {left : DeviceRegs → Byte → Prop} {q : DeviceRegs} {p : Prim} {k : List Byte → Script}
    (hu : At i s u rs evs dev (false :: l)) (run : Runs i n s u) (hold : readsAs s.params r 0x00 old)
    (hs : (scriptOf i s).resume rs = some (.transact d none p k)) (hd : dev d = some q) (hbefore : before old = evs)
    (hkind : kind = p.kind) (hout : out old = p.out)
    (hleft : ∀ q', (∀ x, x ∉ storedAddrs s.params (q.read regMode1) p.out → q'.read x = q.read x) →
      left q' old) :
    FailsAfter i s d r (n + 3) before kind out left := by
  obtain ⟨t, q', inp, run', hlock, hstatus, hpc, hfaults, hhist, hdev, hread⟩ := hu.fails hs hd
  rw [← hkind, ← hout] at hstatus hhist
  rw [← hbefore] at hhist
  exact ⟨t, q', old, inp, run.trans run', hold, hlock, hstatus, hpc, hfaults, hhist, hdev, hleft q' hread⟩

variable (ready : Ready s) (hs : scriptOf i s = calibrationSequence s.params d p) (hd : s.device d = some r)
include ready hs hd

/-- Step (1) fails. -/
theorem cal_fails1 (ha : Answers (false :: l) s.oracle) :
    FailsAfter i s d r 3 (fun _ => []) .wr (fun _ => [0x00]) fun q _ => ∀ x, q.read x = r.read x := by
  obtain ⟨u, he, hu⟩ := cal_start ready hs ha
  obtain ⟨t, q, inp, run, hlock, hstatus, hpc, hfaults, hhist, hdev, hread⟩ := hu.fails (by rw [hs]; rfl) hd
  exact ⟨t, q, mode1ReadValue s.params (r.read regMode1) 0, inp, run.of_exec_eq he, ⟨0, rfl⟩, hlock, hstatus, hpc,
    hfaults, hhist, hdev, fun x => hread x List.not_mem_nil⟩

/-- Step (2) fails. -/
theorem cal_fails2 (ha : Answers (true :: false :: l) s.oracle) :
    FailsAfter i s d r 6 (cal1Events s.turn d) .w (fun old => [0x00, sleepEntry s.params old]) fun q _ =>
      ∀ x, x ≠ 0x00 → q.read x = r.read x := by
  obtain ⟨u, old, run, hold, hu⟩ := runs_cal1 ready hs hd ha
  exact hu.failsAfter run hold (by rw [hs]; rfl) (if_pos rfl) rfl rfl rfl
    fun q hq x hx => hq x (mt (mem_storedAddrs_one ..).mp hx)

variable (hq : SleepsQuietly s.params s.turn r) (hm : s.params.sleepMask ≠ 0)
include hq hm

/-- Step (3) fails. -/
theorem cal_fails3 (ha : Answers (true :: true :: false :: l) s.oracle) :
    FailsAfter i s d r 9 (cal2Events s.params s.turn d) .w (fun _ => [0xFE, p]) fun q old =>
      q.read 0x00 = sleepEntry s.params old ∧ ∀ x, x ≠ 0x00 → x ≠ 0xFE → q.read x = r.read x := by
  obtain ⟨u, old, run, hold, hu⟩ := runs_cal2 ready hs hd hq hm ha
  refine hu.failsAfter run hold (by rw [hs]; rfl) (if_pos rfl) rfl rfl rfl fun q hread => ?_
  have keeps {x : Byte} (hx : x ≠ 0xFE) : q.read x = if x = 0x00 then sleepEntry s.params old else r.read x :=
    (hread x (mt (mem_storedAddrs_one ..).mp hx)).trans (cal2_read ..)
  exact ⟨keeps (by decide), fun x h0 h1 => (keeps h1).trans (if_neg h0)⟩

/-- Step (4) fails. -/
theorem cal_fails4 (ha : Answers (true :: true :: true :: false :: l) s.oracle) :
    FailsAfter i s d r 12 (cal3Events s.params s.turn d p) .w (fun old => [0x00, old]) fun q _ =>
      q.read 0xFE = p ∧ ∀ x, x ≠ 0x00 → x ≠ 0xFE → q.read x = r.read x := by
  obtain ⟨u, old, run, hold, hu⟩ := runs_cal3 ready hs hd hq hm ha
  exact hu.failsAfter run hold (by rw [hs]; rfl) (if_pos rfl) rfl rfl rfl fun q hread =>
    prescale_and_others (fun x hx => hread x (mt (mem_storedAddrs_one ..).mp hx))
      fun x hx => cal3_read_ne s.params r old p hx

/-- Step (6) fails. -/
theorem cal_fails6 (ha : Answers (true :: true :: true :: true :: false :: l) s.oracle) :
    FailsAfter i s d r 16 (cal5Events s.params s.turn d p) .w (fun old => [0x00, restartAi s.params old]) fun q _ =>
      q.read 0xFE = p ∧ ∀ x, x ≠ 0x00 → x ≠ 0xFE → q.read x = r.read x := by
  obtain ⟨u, old, run, hold, hu⟩ := runs_cal5 ready hs hd hq hm ha
  exact hu.failsAfter run hold (by rw [hs]; rfl) (if_pos rfl) rfl rfl rfl fun q hread =>
    prescale_and_others (fun x hx => hread x (mt (mem_storedAddrs_one ..).mp hx))
      fun x hx => cal4_read_ne s.params r old p hx

end failing

/-! ### A write on the device as it is found -/

/-- The places of the calibration sequence that write MODE1: steps (2), (4) and (6) (R163, R165). -/
theorem calibrationSequence_resume_mode1 {P : Params} {old v : Byte} {rs : List (List Byte)} (d : DevAddr) (p : Byte)
    (h : (rs.length = 0 ∧ v = sleepEntry P old) ∨ (rs.length = 2 ∧ v = old) ∨
      (rs.length = 4 ∧ v = restartAi P old)) :
    ∃ k, (calibrationSequence P d p).resume ([old] :: rs) =
      some (.transact d none (Prim.write [regMode1, v]) k) := by
  obtain ⟨hl, rfl⟩ | ⟨hl, rfl⟩ | ⟨hl, rfl⟩ := h
  · match rs, hl with
    | [], _ => exact ⟨_, rfl⟩
  · match rs, hl with
    | [_, _], _ => exact ⟨_, rfl⟩
  · match rs, hl with
    | [_, _, _, _], _ => exact ⟨_, rfl⟩

/-- Settles O38: the steps before the one that fails are those of the run that completes; and a write inside a hold acts
on the device that it finds, whoever left it so. -/
theorem failedFreqSetLeavesItsSteps : Obligations.FailedFreqSetLeavesItsSteps := by
  refine ⟨fun s c ci ctl r freq F p owns ready hd hm hm' hq hF hp => ?_,
    fun s c ci ctl r freq F p old rs owns hd ho hl hF hp hph => ?_⟩
  · have script := owns.freqSet hF hp
    exact ⟨fun ho => cal_fails1 ready script hd (.of_take (l := [false]) ho),
      fun ho => cal_fails2 ready script hd (.of_take (l := [true, false]) ho),
      fun ho => cal_fails3 ready script hd hq hm (.of_take (l := [true, true, false]) ho),
      fun ho => cal_fails4 ready script hd hq hm (.of_take (l := [true, true, true, false]) ho),
      fun ho => cal_fails6 ready script hd hq hm (.of_take (l := [true, true, true, true, false]) ho)⟩
  · intro sent goesOn stops
    have writes {out : List Byte} {k : List Byte → Script} {q : DeviceRegs} {o : Oracle} {raised : List ModelFault}
        (hs : (calibrationSequence s.params ctl.devAddr p).resume ([old] :: rs) =
          some (.transact ctl.devAddr none (Prim.write out) k)) :=
      exec_body_write (i := .freqSet c freq) (q := q) (o' := o) (raised := raised) hph
        (by rw [owns.freqSet hF hp]; exact hs) hl hd ho
    refine ⟨fun hrs => ?_, fun v hv => ?_⟩
    · obtain ⟨x, rfl⟩ := List.length_eq_one_iff.mp hrs
      refine ⟨fun asleep => ?_, fun awake => ?_⟩
      · obtain ⟨t, he, lt⟩ := (writes rfl (Bus.write_prescale _ _ _ _ _ _ ((sleepSet_iff ..).mpr asleep))).1 rfl
        exact ⟨t, _, he, rfl, lt⟩
      · obtain ⟨t, he, lt⟩ := (writes rfl
          (Bus.write_prescale_running _ _ _ _ _ _ ((sleepSet_eq_false_iff ..).mpr awake))).2 nofun
        exact ⟨t, _, he, ⟨_, rfl⟩, lt⟩
    · intro left
      obtain ⟨k, hk⟩ := calibrationSequence_resume_mode1 ctl.devAddr p hv
      have holds : left (r.mode1Set s.params v) := ⟨r.mode1Set_read _ _, r.mode1Set_ptr _ _, r.mode1Set_wake _ _⟩
      refine ⟨fun early => ?_, fun settled => ?_⟩
      · obtain ⟨t, he, lt⟩ := (writes hk (Bus.write_mode1_early early ..)).2 nofun
        exact ⟨t, _, he, holds, lt⟩
      · obtain ⟨t, he, lt⟩ := (writes hk (Bus.write_mode1_quiet settled ..)).1 rfl
        exact ⟨t, _, he, holds, lt⟩

end Sys2Proof.Machine
end

section
/-! SUPPORT. The channels: the lookup of a handle, the duty encoding, the accesses of a channel's own element, and what
no step of a channel operation writes (R190 to R198). -/

namespace Sys2Proof.Machine

open Sys2Proof

/-! ### The lookup -/

/-- A lookup of an index whose handle is cached binds that handle (R190). -/
theorem Leaves.enter_lookup_cached {s t : State} {l fs evs dev me} (h : Leaves s t l fs evs dev me) {ci hi : ObjId}
    {ctl : Controller} {n : Fin 16} (hc : me.objs[ci]? = some (.controller ctl)) (hn : ctl.chan[n] = some hi)
    (dst : Option Name) (rs : List (List Byte)) :
    Leaves s (t.enter (.done (.lookup dst ci n)) rs) l fs evs dev
      { me.advanced with names := bindName me.names dst hi } := by
  have object : t.object ci = some (.controller ctl) := by rw [State.object, h.me, hc]
  simp only [State.enter, State.applyEffect, object, hn]
  exact (h.updMe fun a => { a with names := bindName a.names dst hi }).updMe AgentState.advanced

/-- A lookup of an index that has no handle makes one, caches it and binds it (R190). -/
theorem Leaves.enter_lookup_new {s t : State} {l fs evs dev me} (h : Leaves s t l fs evs dev me) {ci : ObjId}
    {ctl : Controller} {n : Fin 16} (hc : me.objs[ci]? = some (.controller ctl)) (hn : ctl.chan[n] = none)
    (dst : Option Name) (rs : List (List Byte)) :
    Leaves s (t.enter (.done (.lookup dst ci n)) rs) l fs evs dev
      ((me.advanced.withObj ci (.controller { ctl with chan := ctl.chan.set n (some me.objs.length) })).withNew dst
        (.channel { controller := ci, index := n })) := by
  have object : t.object ci = some (.controller ctl) := by rw [State.object, h.me, hc]
  simp only [State.enter, State.applyEffect, object, hn, h.me]
  exact ((h.updMe fun a => a.withObj ci (.controller { ctl with chan := ctl.chan.set n (some me.objs.length) })).updMe
    fun a => a.withNew dst (.channel { controller := ci, index := n })).updMe AgentState.advanced

/-- The lookup of an index in range (R190). -/
theorem OwnsCtrl.chLookup {s : State} {c : ObjRef} {ci : ObjId} {ctl : Controller} (owns : OwnsCtrl s c ci ctl)
    (dst : Option Name) (n : Fin 16) : scriptOf (.chLookup dst c n.val) s = .done (.lookup dst ci n) := by
  have index : Fin.ofNat 16 (n.val : Int).toNat = n := by simp
  have script : scriptOf (.chLookup dst c n.val) s = _ := (owns.withCtrl _).trans (checkIndex_fin n _)
  rw [script, index]

/-- Settles O40: the script is the error of the index check, or the lookup's effect alone. -/
theorem channelLookupCompletes : Obligations.ChannelLookupCompletes := by
  intro s c ci ctl dst owns idle
  have raises {n : Int} (hn : ¬ (0 ≤ n ∧ n ≤ 15)) : scriptOf (.chLookup dst c n) s = .raise (.index n) :=
    (owns.withCtrl _).trans (checkIndex_raises (by omega) _)
  have start := Leaves.refl s
  refine ⟨fun n hn free => ⟨_, exec_now idle (raises hn) rfl, start.enter_raise free _ _⟩,
    fun n hn held => ⟨_, exec_now idle (raises hn) rfl, (held ▸ start).raiseError_of_mine _⟩, fun n => ?_⟩
  have done := exec_now idle (owns.chLookup dst n) rfl
  exact ⟨fun hi cached => ⟨_, done, start.enter_lookup_cached owns.object cached dst _⟩,
    fun fresh => ⟨_, done, start.enter_lookup_new owns.object fresh dst _⟩⟩

/-! ### The duty encoding -/

theorem dutyEncode_fullOn : dutyEncode 0xFFFF = (0x1000, 0) := rfl

theorem dutyEncode_native {v : Int} (h : v ≠ 0xFFFF) : dutyEncode v = (0, (v + 1) / 16) := if_neg h

/-- What an element decodes to, `FULL_ON_MATCH` matching both words or the `on` word alone (R196). -/
theorem dutyDecode_pair (on off : Int) :
    dutyDecode .pair on off = if on = 0x1000 ∧ off = 0 then 0xFFFF else off * 16 := by
  simp [dutyDecode, fullOn]

theorem dutyDecode_onWord (on off : Int) :
    dutyDecode .onWord on off = if on = 0x1000 then 0xFFFF else off * 16 := by
  simp [dutyDecode, fullOn]

/-- An element whose `on` word is not the marker's decodes to its `off` word alone (R196). -/
theorem dutyDecode_of_on_ne {on : Int} (h : on ≠ 0x1000) (m : FullOnMatch) (off : Int) :
    dutyDecode m on off = off * 16 := by
  cases m with
  | pair => rw [dutyDecode_pair, if_neg fun marker => h marker.1]
  | onWord => rw [dutyDecode_onWord, if_neg h]

/-- An encoding decodes alike under either `FULL_ON_MATCH` (R196, R197). -/
theorem dutyDecode_dutyEncode (m : FullOnMatch) (v : Int) :
    dutyDecode m (dutyEncode v).1 (dutyEncode v).2 = rt v := by
  by_cases full : v = 0xFFFF
  · subst full
    cases m <;> rfl
  · rw [dutyEncode_native full, dutyDecode_of_on_ne (on := 0) (by decide), rt, if_neg full, mul_comm]

/-- Settles O41: the encoding by whether the duty is full, the decoding by `FULL_ON_MATCH`. -/
theorem dutyEncodingAndDecoding : Obligations.DutyEncodingAndDecoding := by
  refine ⟨fun v h0 h1 => ⟨?_, fun native => ⟨dutyEncode_native native, ?_, ?_⟩,
      fun m => dutyDecode_dutyEncode m v⟩,
    fun on off _ _ => ⟨dutyDecode_pair on off, dutyDecode_onWord on off⟩⟩
  · rintro rfl
    exact dutyEncode_fullOn
  · omega
  · omega

/-! ### Duty accesses -/

section duty

variable {s : State} {ch : ObjRef} {hi : ObjId} {h : Channel} {ctl : Controller}

theorem OwnsChan.chDutyGet (owns : OwnsChan s ch hi h ctl) (dst : Option Name) :
    scriptOf (.chDutyGet dst ch) s =
      getDuty s.params h.controller ctl h.index fun v => .done (.result dst (.int v)) := owns.withChan _

theorem OwnsChan.chDutySet (owns : OwnsChan s ch hi h ctl) (v : Int) :
    scriptOf (.chDutySet ch v) s = setDuty h.controller ctl h.index v (.done .none) := owns.withChan _

end duty

/-- A duty outside 0..0xFFFF is refused before it is encoded (R194). -/
theorem setDuty_raises {v : Int} (hv : ¬ (0 ≤ v ∧ v ≤ 0xFFFF)) (ci : ObjId) (ctl : Controller) (n : Fin 16)
    (k : Script) : setDuty ci ctl n v k = .raise (.range (.int v)) :=
  if_neg (by simpa [fieldHolds] using hv)

/-- Settles O42: the operation is one read of the element's four bytes. -/
theorem channelDutyGetCompletes : Obligations.ChannelDutyGetCompletes := by
  intro s ch hi h ctl r dst call a b
  obtain ⟨w, run, lw, -⟩ := runs_getLed call.ready call.present call.reliable (call.owns.chDutyGet dst)
    call.owns.controller
  rw [decodeLed] at run
  exact ⟨_, run, lw.enter_done_result dst _ _⟩

/-- The bytes of the element that `CH_DUTY_SET` of a duty in range writes (R194, R195). -/
def dutyPayload (v : Int) : List Byte :=
  if v = 0xFFFF then [0x00, 0x10, 0x00, 0x00]
  else [0x00, 0x00, BitVec.ofInt 8 ((v + 1) / 16), BitVec.ofInt 8 ((v + 1) / 16 / 256)]

/-- `CH_DUTY_SET` of a duty in range, and the free choices that it leaves (R194). -/
theorem ChanCall.dutySet {s : State} {ch : ObjRef} {hi : ObjId} {h : Channel} {ctl : Controller} {r : DeviceRegs}
    (call : ChanCall s ch hi h ctl r) {v : Int} (h0 : 0 ≤ v) (h1 : v ≤ 0xFFFF) :
    ∃ t q, Runs (.chDutySet ch v) 3 s t ∧
      Leaves s t .free [] (heldTx s.turn ctl.devAddr .w (ledAddr h.index :: dutyPayload v) [] true)
        (devWith s ctl.devAddr q) (s.me.done.withBuf h.controller ctl (ledAddr h.index :: dutyPayload v)) ∧
      (q.wake = r.wake ∧ q.ptr = ptrAfter (r.adv s.params) (ledAddr h.index) 4 ∧
        ∀ x, q.read x = storedAt (r.adv s.params) r (ledAddr h.index) (dutyPayload v) x) ∧
      t.oracle = s.oracle.drawResult.2 := by
  obtain ⟨w, q, run, lw, ow, hq⟩ := runs_duty call.ready call.present call.reliable h0 h1 (call.owns.chDutySet v)
    call.owns.controller rfl
  exact ⟨_, q, run, lw.enter_done_none _, hq, ow⟩

/-- Settles O43: in range the operation is one write of the element's four bytes, out of it the error. -/
theorem channelDutySetCompletes : Obligations.ChannelDutySetCompletes := by
  refine ⟨fun s ch hi h ctl r v call h0 h1 => ?_, fun s ch hi h ctl v owns idle hv =>
    exec_raises idle ((owns.chDutySet v).trans (setDuty_raises hv ..))⟩
  obtain ⟨t, q, run, lt, hq, -⟩ := call.dutySet h0 h1
  exact ⟨t, q, run, lt, hq⟩

/-! ### The round trip -/

/-- A duty access leaves the channel, its controller changed in the transfer buffer alone (R150). -/
theorem OwnsChan.of_withBuf {s t : State} {ch : ObjRef} {hi : ObjId} {h : Channel} {ctl : Controller}
    {bs : List Byte} {l fs evs dev} (owns : OwnsChan s ch hi h ctl)
    (lt : Leaves s t l fs evs dev (s.me.done.withBuf h.controller ctl bs)) :
    OwnsChan t ch hi h { ctl with buf := fillBuf ctl.buf bs } :=
  OwnsChan_of owns (by rw [lt.me]; rfl) lt.turn (by rw [lt.me]; rfl) owns.live

theorem rt_native {v : Int} (h : v ≠ 0xFFFF) : rt v = 16 * ((v + 1) / 16) := if_neg h

/-- A value read back is full, or a multiple of 16, which is read back unchanged (R197). -/
theorem rt_idem (v : Int) : rt (rt v) = rt v := by
  by_cases full : v = 0xFFFF
  · subst full
    rfl
  · rw [rt_native full, rt_native (by omega)]
    omega

/-- Settles O44: the get finds the element that the set has left, and the pointer still advancing. -/
theorem dutyRoundTrip : Obligations.DutyRoundTrip := by
  refine ⟨fun s ch hi h ctl r n v call reliable adv h0 h1 => ?_, fun v h0 h1 => ?_, fun v _ _ => rt_idem v⟩
  · obtain ⟨t, q, run, lt, ⟨-, -, stored⟩, oracle⟩ := call.dutySet h0 h1
    rw [adv] at stored
    have call' : ChanCall t ch hi h _ q :=
      { ready := ⟨by rw [lt.me]; rfl, lt.lock⟩
        owns := call.owns.of_withBuf lt
        present := (lt.devices _).trans (if_pos rfl)
        reliable := by rw [oracle]; exact reliable.two.2 }
    obtain ⟨u, run', lu⟩ := channelDutyGetCompletes t ch hi h _ q (some n) call'
    have adv' : q.adv t.params = true := by rw [lt.params]; exact duty_adv adv stored
    have decoded := decode_after (m := t.params.fullOnMatch) h0 h1 stored
    refine ⟨t, u, run, run', ?_⟩
    rw [lu.me, adv']
    exact (bindName_lookup_self ..).trans (congrArg (fun x => some (Value.int x)) decoded)
  · rw [rt_native (by omega)]
    omega

/-! ### What a channel operation writes -/

/-- A script of lock holds alone, each of whose primitives meets `Q`, that ends with an effect or an error. -/
inductive Script.OnlyTransacts (Q : DevAddr → Prim → Prop) : Script → Prop where
  | done (eff : Effect) : OnlyTransacts Q (.done eff)
  | raise (e : ErrorCode) : OnlyTransacts Q (.raise e)
  | transact (d : DevAddr) (via : Option ObjId) (p : Prim) (k : List Byte → Script) (hp : Q d p)
      (hk : ∀ bs, OnlyTransacts Q (k bs)) : OnlyTransacts Q (.transact d via p k)

/-- What such a script goes on to is such a script. -/
theorem Script.OnlyTransacts.resume {Q : DevAddr → Prim → Prop} {sc n : Script} {rs : List (List Byte)}
    (h : sc.OnlyTransacts Q) (hr : sc.resume rs = some n) : n.OnlyTransacts Q := by
  induction rs generalizing sc with
  | nil =>
    have same : sc.resume [] = some sc := by cases sc <;> rfl
    obtain rfl := Option.some.inj (same.symm.trans hr)
    exact h
  | cons r rs ih =>
    cases h with
    | done eff => cases hr
    | raise e => cases hr
    | transact d via p k hp hk => exact ih (hk r) hr

/-- The primitive goes to device `d`, and its write part stores to element `n` alone, whatever MODE1 holds (R198). -/
def WithinElement (d : DevAddr) (n : Fin 16) (e : DevAddr) (p : Prim) : Prop :=
  e = d ∧ ∀ P m, ∀ x ∈ storedAddrs P m p.out, x ∈ elementAddrs n

/-- The write part of a register read sets the pointer and stores nothing (R61). -/
theorem WithinElement.read (d : DevAddr) (n : Fin 16) (a : Byte) (k : Nat) :
    WithinElement d n d (Prim.writeRead [a] k) := ⟨rfl, fun _ _ _ hx => nomatch hx⟩

/-- A step of an operation whose primitives keep to element `n` of device `d` changes no other register. -/
theorem exec_keeps_outside_element {i : Instr} {s t : State} {d : DevAddr} {n : Fin 16}
    (hs : (scriptOf i s).OnlyTransacts (WithinElement d n)) (he : exec i s = .next t) {e : DevAddr} {r : DeviceRegs}
    (hr : s.device e = some r) :
    ∃ q, t.device e = some q ∧ ∀ x, e ≠ d ∨ x ∉ elementAddrs n → q.read x = r.read x := by
  have device_of_dev {u : State} (h : t.dev = u.dev) : t.device e = u.device e := by rw [State.device, h]; rfl
  cases exec_memory he with
  | same h => exact ⟨r, (device_of_dev h).trans hr, fun _ _ => rfl⟩
  | transact rs d' via p k hn h =>
    cases hs.resume hn with
    | transact _ _ _ _ within _ =>
      obtain ⟨rfl, stores⟩ := within
      obtain ⟨q, hq, keeps⟩ := s.transfer_read d' p hr
      exact ⟨q, (device_of_dev h).trans hq, fun x hx => keeps x (hx.imp_right (mt (stores _ _ x)))⟩
  | probe rs d' k p hn _ _ => cases hs.resume hn
  | delay rs ms k hn _ => cases hs.resume hn

section elements

variable {s : State} {c ch : ObjRef} {ci hi : ObjId} {h : Channel} {ctl : Controller} {d : DevAddr} {n : Fin 16}

/-- A lookup has no primitive (R190). -/
theorem OwnsCtrl.chLookup_writes (owns : OwnsCtrl s c ci ctl) (Q : DevAddr → Prim → Prop) (dst : Option Name)
    (k : Int) : (scriptOf (.chLookup dst c k) s).OnlyTransacts Q := by
  have script : scriptOf (.chLookup dst c k) s = _ := owns.withCtrl _
  rw [script, checkIndex]
  split
  · exact .done _
  · exact .raise _

theorem OwnsChan.chFreqGet (owns : OwnsChan s ch hi h ctl) (dst : Option Name) :
    scriptOf (.chFreqGet dst ch) s = getFreq s.params ctl fun f => .done (.result dst (.num f)) := owns.withChan _

/-- A frequency read stores nothing (R162, R191). -/
theorem OwnsChan.chFreqGet_writes (owns : OwnsChan s ch hi h ctl) (dst : Option Name) :
    (scriptOf (.chFreqGet dst ch) s).OnlyTransacts (WithinElement ctl.devAddr h.index) := by
  rw [owns.chFreqGet]
  refine .transact _ _ _ _ (.read ..) fun bs => ?_
  dsimp only
  split
  · exact .raise _
  · exact .done _

theorem OwnsChan.chFreqSet_writes (owns : OwnsChan s ch hi h ctl) (Q : DevAddr → Prim → Prop) (f : Num) :
    (scriptOf (.chFreqSet ch f) s).OnlyTransacts Q := by
  have script : scriptOf (.chFreqSet ch f) s = _ := owns.withChan _
  rw [script]
  exact .raise _

theorem OwnsChan.chDutyGet_writes (owns : OwnsChan s ch hi h ctl) (dst : Option Name) :
    (scriptOf (.chDutyGet dst ch) s).OnlyTransacts (WithinElement ctl.devAddr h.index) := by
  rw [owns.chDutyGet]
  exact .transact _ _ _ _ (.read ..) fun bs => .done _

/-- A duty write stores four bytes at the element's address, or raises RangeError (R194, R198). -/
theorem OwnsChan.chDutySet_writes (owns : OwnsChan s ch hi h ctl) (v : Int) :
    (scriptOf (.chDutySet ch v) s).OnlyTransacts (WithinElement ctl.devAddr h.index) := by
  rw [owns.chDutySet]
  by_cases hv : 0 ≤ v ∧ v ≤ 0xFFFF
  · obtain ⟨b0, b1, b2, b3, script, -⟩ := setDuty_eq (ci := h.controller) (ctl := ctl) (n := h.index)
      (k := .done .none) hv.1 hv.2
    rw [script]
    exact .transact _ _ _ _ ⟨rfl, fun P m x => storedAddrs_led P m h.index b0 b1 b2 b3⟩ fun bs => .done _
  · rw [setDuty_raises hv]
    exact .raise _

end elements

/-- Settles O45: the primitives of a channel operation are reads, and the write of its own element; and the frequency
read is the same script for every channel of the controller. -/
theorem channelsWriteOnlyTheirElement : Obligations.ChannelsWriteOnlyTheirElement := by
  refine ⟨fun s t i c ch ci hi h ctl ctl' dst f n v chan ctrl hi he d r hd => ?_,
    fun s c1 c2 h1 h2 n1 n2 ci ctl dst first second => ?_⟩
  · refine exec_keeps_outside_element ?_ he hd
    simp only [List.mem_cons, List.not_mem_nil, or_false] at hi
    obtain rfl | rfl | rfl | rfl | rfl := hi
    · exact ctrl.chLookup_writes _ dst n
    · exact chan.chFreqGet_writes dst
    · exact chan.chFreqSet_writes _ f
    · exact chan.chDutyGet_writes dst
    · exact chan.chDutySet_writes v
  · rw [exec_eq_runScript, exec_eq_runScript, first.chFreqGet, second.chFreqGet]

end Sys2Proof.Machine
end

section
/-! SUPPORT. The servos: calibration from the frequency read, the fraction and the angle read and written through the
element of their channel, their errors, and the quantisation of an angle (R210 to R218). -/

namespace Sys2Proof.Machine

open Sys2Proof

/-! ### Calibration -/

/-- An operation that goes on from `get frequency()`, undisturbed: with a prescale of 3 or more it comes to what
follows with the frequency of that moment, below 3 it ends in CalibrationError (R162, R191). -/
theorem runs_getFreq {i : Instr} {s : State} {ctl : Controller} {r : DeviceRegs} {k : Num → Script} (ready : Ready s)
    (hd : s.device ctl.devAddr = some r) (ho : s.oracle.drawResult.1 = true)
    (hs : scriptOf i s = getFreq s.params ctl k) :
    let leaves := fun (t : State) (me : AgentState) =>
      Leaves s t .free [] (heldTx s.turn ctl.devAddr .wr [0xFE] [r.read 0xFE] true)
        (devWith s ctl.devAddr (r.setPtr (ptrAfter (r.adv s.params) 0xFE 1))) me
    (3 ≤ (r.read 0xFE).toNat → ∃ w rs phase,
      Runs i 3 s (w.enter (k (freqOf s.params.arith ctl.refClk (r.read 0xFE))) rs) ∧
        leaves w { s.me with holding := false, attempts := 0, phase := phase }) ∧
    ((r.read 0xFE).toNat < 3 → ∃ t, Runs i 3 s t ∧
      leaves t (s.me.stopped (.errored (.calibration (.prescale (r.read 0xFE).toNat))))) := by
  intro leaves
  obtain ⟨w, run, lw⟩ := runs_prescale ready hd ho hs
  refine ⟨fun high => ?_, fun low => ?_⟩
  · rw [if_neg (Nat.not_lt.mpr high)] at run
    exact ⟨w, _, _, run, lw⟩
  · rw [if_pos low] at run
    exact ⟨_, run, lw.enter_raise nofun _ _⟩

/-- Settles O46: both operations are `get frequency()` of the channel's controller, then their one effect. -/
theorem servoCalibrationCompletes : Obligations.ServoCalibrationCompletes := by
  refine ⟨fun s ch hi h ctl r dst range min max A p0 p1 call hA hpos h0 h1 => ?_,
    fun s sr si sv h ctl r min max p0 p1 call h0 h1 => ?_⟩
  · have script : scriptOf (.servoInit dst ch range min max) s = getFreq s.params ctl _ :=
      (call.owns.withChan _).trans <| (withNum_operand hA _).trans <| (withNum_operand h0 _).trans <|
        (withNum_operand h1 _).trans (require_true hpos _)
    obtain ⟨high, low⟩ := runs_getFreq call.ready call.present call.reliable script
    refine ⟨fun hp => ?_, low⟩
    obtain ⟨w, rs, phase, run, lw⟩ := high hp
    exact ⟨_, run, lw.enter_newServo dst _ rs⟩
  · have script : scriptOf (.servoSetPulseRange sr min max) s = getFreq s.params ctl _ :=
      (call.owns.withServo _).trans <| (withNum_operand h0 _).trans (withNum_operand h1 _)
    obtain ⟨high, low⟩ := runs_getFreq call.ready call.present call.reliable script
    refine ⟨fun hp => ?_, low⟩
    obtain ⟨w, rs, phase, run, lw⟩ := high hp
    exact ⟨_, run, lw.enter_calibrate call.owns.object _ _ _ _ rs⟩

/-! ### The scripts of the reads and the writes -/

section scripts

variable {s : State} {sr : ObjRef} {si : ObjId} {sv : Servo} {h : Channel} {ctl : Controller} {v y : Num}

theorem OwnsServo.fractionGet (owns : OwnsServo s sr si sv h ctl) (dst : Option Name) :
    scriptOf (.servoFractionGet dst sr) s =
      getFraction s si sv h ctl fun fr => .done (.result dst (optValue fr)) := owns.withServo _

theorem OwnsServo.angleGet (owns : OwnsServo s sr si sv h ctl) (dst : Option Name) :
    scriptOf (.servoAngleGet dst sr) s =
      getFraction s si sv h ctl fun fr =>
        .done (.result dst (optValue (fr.map (Num.mul s.params.arith sv.actuationRange)))) := owns.withServo _

theorem OwnsServo.fractionRelease (owns : OwnsServo s sr si sv h ctl) :
    scriptOf (.servoFractionSet sr none) s = setDuty h.controller ctl h.index 0 (.done .none) := owns.withServo _

theorem OwnsServo.angleRelease (owns : OwnsServo s sr si sv h ctl) :
    scriptOf (.servoAngleSet sr none) s = setDuty h.controller ctl h.index 0 (.done .none) := owns.withServo _

theorem OwnsServo.fractionSet (owns : OwnsServo s sr si sv h ctl) (hy : Num.operand s.params.arith v = some y) :
    scriptOf (.servoFractionSet sr (some v)) s = setFraction s.params sv h ctl y :=
  (owns.withServo _).trans (withNum_operand hy _)

/-- An angle in its range is set as a fraction of the range (R216). -/
theorem OwnsServo.angleSet (owns : OwnsServo s sr si sv h ctl) (hy : Num.operand s.params.arith v = some y)
    (hr : inRange y sv.actuationRange = true) :
    scriptOf (.servoAngleSet sr (some v)) s =
      setFraction s.params sv h ctl (Num.div s.params.arith y sv.actuationRange) :=
  (owns.withServo _).trans <| (withNum_operand hy _).trans (if_pos hr)

/-- An angle outside its range is an error (R216). -/
theorem OwnsServo.angleSet_raises (owns : OwnsServo s sr si sv h ctl)
    (hy : Num.operand s.params.arith v = some y) (hr : inRange y sv.actuationRange = false) :
    scriptOf (.servoAngleSet sr (some v)) s = .raise (.range (.num y)) :=
  (owns.withServo _).trans <| (withNum_operand hy _).trans (if_neg (Bool.not_eq_true _ ▸ hr))

theorem setFraction_inRange (P : Params) (hr : inRange y (.rat 1) = true) :
    setFraction P sv h ctl y = setDuty h.controller ctl h.index (fractionDuty P sv y) (.done .none) := if_pos hr

theorem setFraction_raises (P : Params) (hr : inRange y (.rat 1) = false) :
    setFraction P sv h ctl y = .raise (.range (.num y)) := if_neg (Bool.not_eq_true _ ▸ hr)

end scripts

/-! ### Reads -/

/-- Settles O48: the element read, then the three cases of `get fraction()` (R213). -/
theorem servoReadsComplete : Obligations.ServoReadsComplete := by
  intro s sr si sv h ctl r dst call a b dc fr leaves
  have reads {i : Instr} {k : Option Num → Script} (hs : scriptOf i s = getFraction s si sv h ctl k) :=
    runs_getFraction call.ready call.present call.reliable hs call.owns.controller (dc := dc) rfl
  have absent {i : Instr} {k : Option Num → Script} (hs : scriptOf i s = getFraction s si sv h ctl k)
      (hk : k none = .done (.result dst .absent)) (zero : dc = 0) :
      ∃ t, Runs i 3 s t ∧ leaves t [] (s.me.done.bound dst .absent) := by
    obtain ⟨w, rs, run, lw⟩ := reads hs
    rw [if_pos zero, hk] at run
    exact ⟨_, run, lw.enter_done_result dst .absent rs⟩
  have driven {i : Instr} {k : Option Num → Script} {v : Value} (hs : scriptOf i s = getFraction s si sv h ctl k)
      (hk : k (some fr) = .done (.result dst v)) (drives : dc ≠ 0) (live : sv.dutyRange ≠ 0) :
      ∃ t, Runs i 3 s t ∧ leaves t [] (s.me.done.bound dst v) := by
    obtain ⟨w, rs, run, lw⟩ := reads hs
    rw [if_neg drives, if_neg live, show fractionOf .. = fr from rfl, hk] at run
    exact ⟨_, run, lw.enter_done_result dst v rs⟩
  have faults {i : Instr} {k : Option Num → Script} (hs : scriptOf i s = getFraction s si sv h ctl k)
      (drives : dc ≠ 0) (flat : sv.dutyRange = 0) :
      ∃ t, Runs i 3 s t ∧ leaves t [.zeroDutyRange s.turn si] (s.me.advanced.stopped .faulted) := by
    obtain ⟨w, rs, run, lw⟩ := reads hs
    rw [if_neg drives, if_pos flat] at run
    exact ⟨_, run, lw.enter_faultDone nofun _ rs⟩
  have fraction := call.owns.fractionGet dst
  have angle := call.owns.angleGet dst
  exact ⟨fun zero => List.forall_mem_cons.mpr ⟨absent fraction rfl zero,
      List.forall_mem_singleton.mpr (absent angle rfl zero)⟩,
    fun drives live => ⟨driven fraction rfl drives live, driven angle rfl drives live⟩,
    fun drives flat => List.forall_mem_cons.mpr ⟨faults fraction drives flat,
      List.forall_mem_singleton.mpr (faults angle drives flat)⟩⟩

/-! ### Writes -/

/-- An operation of a servo that sets its channel's duty to `w` in range, and the free choices that it leaves (R194,
R214). -/
theorem ServoCall.setsDuty {s : State} {sr : ObjRef} {si : ObjId} {sv : Servo} {h : Channel} {ctl : Controller}
    {r : DeviceRegs} (call : ServoCall s sr si sv h ctl r) {i : Instr} {w : Int}
    (hs : scriptOf i s = setDuty h.controller ctl h.index w (.done .none)) (h0 : 0 ≤ w) (h1 : w ≤ 0xFFFF) :
    ∃ t q, Runs i 3 s t ∧
      Leaves s t .free [] (heldTx s.turn ctl.devAddr .w (ledAddr h.index :: dutyPayload w) [] true)
        (devWith s ctl.devAddr q) (s.me.done.withBuf h.controller ctl (ledAddr h.index :: dutyPayload w)) ∧
      (q.wake = r.wake ∧ q.ptr = ptrAfter (r.adv s.params) (ledAddr h.index) 4 ∧
        ∀ x, q.read x = storedAt (r.adv s.params) r (ledAddr h.index) (dutyPayload w) x) ∧
      t.oracle = s.oracle.drawResult.2 := by
  obtain ⟨u, q, run, lu, ou, hq⟩ := runs_duty call.ready call.present call.reliable h0 h1 hs
    call.owns.controller rfl
  exact ⟨_, q, run, lu.enter_done_none _, hq, ou⟩

/-- Settles O49: each set is a duty write of the channel's element. -/
theorem servoSetsComplete : Obligations.ServoSetsComplete := by
  intro s sr si sv h ctl r v y call hy a writes
  have duty {i : Instr} {w : Int} (hs : scriptOf i s = setDuty h.controller ctl h.index w (.done .none))
      (h0 : 0 ≤ w) (h1 : w ≤ 0xFFFF) : writes i w := by
    obtain ⟨t, q, run, lt, hq, -⟩ := call.setsDuty hs h0 h1
    exact ⟨t, q, _, run, rfl, lt, hq⟩
  refine ⟨duty call.owns.fractionRelease (by decide) (by decide), duty call.owns.angleRelease (by decide) (by decide),
    fun hr => duty ((call.owns.fractionSet hy).trans (setFraction_inRange _ hr)),
    fun hA hr => duty ((call.owns.angleSet hy hA).trans (setFraction_inRange _ hr))⟩

/-- Settles O50: every range check comes before the element is written. -/
theorem servoRangeErrorsTouchNoBus : Obligations.ServoRangeErrorsTouchNoBus := by
  intro s sr si sv h ctl v y owns idle hy fails fr
  refine ⟨fun hr => exec_raises idle ((owns.fractionSet hy).trans (setFraction_raises _ hr)), ?_,
    fun hA => exec_raises idle (owns.angleSet_raises hy hA),
    fun hA hr => exec_raises idle ((owns.angleSet hy hA).trans (setFraction_raises _ hr)), ?_,
    inRange_nonFinite y⟩
  · rintro w hr rfl hw
    exact exec_raises idle ((owns.fractionSet hy).trans <| (setFraction_inRange _ hr).trans (setDuty_raises hw ..))
  · rintro w hA hr rfl hw
    exact exec_raises idle ((owns.angleSet hy hA).trans <| (setFraction_inRange _ hr).trans (setDuty_raises hw ..))

/-! ### The round trip of an angle -/

/-- The range check on rationals (R214, R216). -/
theorem inRange_rat {v hi : Rat} (h0 : 0 ≤ v) (h1 : v ≤ hi) : inRange (.rat v) (.rat hi) = true := by
  simp [inRange, Num.isFinite, Num.finiteValue, Num.le, h0, h1]

/-- A duty access leaves the servo, its channel and its controller, that changed in the transfer buffer alone (R150). -/
theorem OwnsServo.of_withBuf {s t : State} {sr : ObjRef} {si : ObjId} {sv : Servo} {h : Channel} {ctl : Controller}
    {bs : List Byte} {l fs evs dev} (owns : OwnsServo s sr si sv h ctl)
    (lt : Leaves s t l fs evs dev (s.me.done.withBuf h.controller ctl bs)) :
    OwnsServo t sr si sv h { ctl with buf := fillBuf ctl.buf bs } :=
  OwnsServo_of owns (by rw [lt.me]; rfl) lt.turn (by rw [lt.me]; rfl) owns.live

/-- The angle read from an element that drives the channel (R213, R215). -/
theorem ServoCall.angleRead {s : State} {sr : ObjRef} {si : ObjId} {sv : Servo} {h : Channel} {ctl : Controller}
    {r : DeviceRegs} (call : ServoCall s sr si sv h ctl r) {dc : Int}
    (hdc : let b := fun k => r.read (readAddr (r.adv s.params) (ledAddr h.index) k)
      dutyDecode s.params.fullOnMatch ((b 0).toNat + 256 * (b 1).toNat) ((b 2).toNat + 256 * (b 3).toNat) = dc)
    (driven : dc ≠ 0) (live : sv.dutyRange ≠ 0) (n : Name) :
    ∃ t, Runs (.servoAngleGet (some n) sr) 3 s t ∧ t.me.results.lookup n =
      some (.num (Num.mul s.params.arith sv.actuationRange
        (fractionOf s.params.arith dc sv.minDuty sv.dutyRange))) := by
  subst hdc
  obtain ⟨-, drives, -⟩ := servoReadsComplete s sr si sv h ctl r (some n) call
  obtain ⟨-, t, run, lt⟩ := drives driven live
  refine ⟨t, run, ?_⟩
  rw [lt.me]
  exact bindName_lookup_self ..

/-- The error of an angle that is read back (R218): what the round trip of the duty `w` adds and what the rounding of
`x` to `n` adds, both in units of the duty range `R`, scaled to the actuation range `A`. -/
def quantisationError (A R x : Rat) (n w : Int) : Rat := A * (((rt w - w : Int) : Rat) + ((n : Rat) - x)) / R

/-- The angle read back is the angle written and its quantisation error (R213, R215, R218). -/
theorem angle_readBack {A a R : Rat} (hA : A ≠ 0) (hR : R ≠ 0) {md n w : Int} (hw : w = md + n) :
    A * (((rt w : Rat) - md) / R) = a + quantisationError A R (a / A * R) n w := by
  subst hw
  unfold quantisationError
  push_cast
  field_simp
  ring

/-- The duty read back is within -14 and 1 of the one written, and the rounding within a half (R197, R218). -/
theorem quantisationError_bounds {A R x : Rat} (hA : 0 < A) (hR : 0 < R) (tie : RoundTie) {w : Int} (h0 : 0 ≤ w)
    (h1 : w < 0xFFFF) :
    -(29 / 2) * A / R ≤ quantisationError A R x (roundRat tie x) w ∧
      quantisationError A R x (roundRat tie x) w ≤ 3 / 2 * A / R := by
  obtain ⟨near0, near1⟩ := round_near tie x
  have back : -14 ≤ rt w - w ∧ rt w - w ≤ 1 := by
    rw [rt_native (by omega)]
    omega
  have back0 : (-14 : Rat) ≤ ((rt w - w : Int) : Rat) := by exact_mod_cast back.1
  have back1 : ((rt w - w : Int) : Rat) ≤ 1 := by exact_mod_cast back.2
  unfold quantisationError
  constructor
  · gcongr ?_ / R
    nlinarith
  · gcongr ?_ / R
    nlinarith

/-- Settles O51: the get finds the element that the set has left, and the pointer still advancing; the rest is the
arithmetic of the error. -/
theorem angleQuantisationBound : Obligations.AngleQuantisationBound := by
  intro s sr si sv h ctl r n A a call reliable adv hexact hrange hA hR ha0 ha1 x w hw0 hw1
  have hR' : (0 : Rat) < sv.dutyRange := by exact_mod_cast hR
  obtain ⟨-, -, -, -, duty⟩ := calibrationFormulas s.params 0 0 0 (a / A) 0 sv 0 0 0 hexact
  have script : scriptOf (.servoAngleSet sr (some (.rat a))) s =
      setDuty h.controller ctl h.index w (.done .none) := by
    have operand : Num.operand s.params.arith (.rat a) = some (.rat a) := by rw [hexact]; rfl
    have fraction : Num.div s.params.arith (.rat a) sv.actuationRange = .rat (a / A) := by rw [hexact, hrange]; rfl
    rw [call.owns.angleSet operand (hrange ▸ inRange_rat ha0 ha1), fraction,
      setFraction_inRange _ (inRange_rat (div_nonneg ha0 hA.le) ((div_le_one hA).mpr ha1)), duty]
  obtain ⟨t, q, run, lt, ⟨-, -, stored⟩, oracle⟩ := call.setsDuty script (by omega) (by omega)
  rw [adv] at stored
  have call' : ServoCall t sr si sv h _ q :=
    { ready := ⟨by rw [lt.me]; rfl, lt.lock⟩
      owns := call.owns.of_withBuf lt
      present := (lt.devices _).trans (if_pos rfl)
      reliable := by rw [oracle]; exact reliable.two.2 }
  have adv' : q.adv t.params = true := by rw [lt.params]; exact duty_adv adv stored
  have decoded := decode_after (m := t.params.fullOnMatch) (by omega) (by omega) stored
  have native : rt w ≠ 0 := by
    rw [rt_native (by omega)]
    omega
  obtain ⟨u, run', angle⟩ := call'.angleRead (by rw [adv']; exact decoded) native hR.ne' n
  refine ⟨t, u, quantisationError A sv.dutyRange x (roundRat s.params.roundTie x) w, run, run', ?_, rfl,
    quantisationError_bounds hA hR' _ (by omega) (by omega)⟩
  rw [angle, lt.params, hexact, hrange, ← angle_readBack hA.ne' hR'.ne' rfl]
  rfl

end Sys2Proof.Machine
end

section
/-! SUPPORT. Calibrations go stale: no operation changes a servo but `SERVO_SET_PULSE_RANGE` of that servo (R212,
R285). -/

namespace Sys2Proof.Machine

open Sys2Proof

/-- Objects that differ in transfer buffers alone have the same servos. -/
theorem servo_of_bare {objs objs' : List Object} (h : objs'.map Object.bare = objs.map Object.bare) {j : ObjId}
    {sv : Servo} (hj : objs[j]? = some (.servo sv)) : objs'[j]? = some (.servo sv) := by
  have same : objs'[j]?.map Object.bare = some (Object.servo sv).bare := by
    rw [← List.getElem?_map, h, List.getElem?_map, hj]; rfl
  obtain ⟨o, ho, bare⟩ := Option.map_eq_some_iff.mp same
  rw [ho, Object.bare_servo bare]

/-- Replacing a controller keeps the servos. -/
theorem servo_set_controller {objs : List Object} {c j : ObjId} {ctl : Controller} {sv : Servo}
    (hc : objs[c]? = some (.controller ctl)) (hj : objs[j]? = some (.servo sv)) (o : Object) :
    (objs.set c o)[j]? = some (.servo sv) := by
  have hne : c ≠ j := by
    rintro rfl
    cases hc.symm.trans hj
  rw [List.getElem?_set_ne hne, hj]

/-- A new object keeps the servos. -/
theorem servo_append {objs : List Object} {j : ObjId} {sv : Servo} (hj : objs[j]? = some (.servo sv)) (o : Object) :
    (objs ++ [o])[j]? = some (.servo sv) := by
  rw [List.getElem?_append_left (List.getElem?_eq_some_iff.mp hj).1, hj]

/-- What an effect does to a servo: it leaves it as it is, or it is the calibration of that servo, which keeps the
channel and the range (R211, R212). -/
theorem State.applyEffect_servo {s : State} {j : ObjId} {sv : Servo} (hj : s.me.objs[j]? = some (.servo sv))
    (eff : Effect) :
    (s.applyEffect eff).me.objs[j]? = some (.servo sv) ∨
    ∃ p0 p1 md dr, eff = .calibrate j p0 p1 md dr ∧ (s.applyEffect eff).me.objs[j]? =
      some (.servo { sv with minPulseUs := p0, maxPulseUs := p1, minDuty := md, dutyRange := dr }) := by
  cases eff with
  | none => exact .inl hj
  | result dst v => exact .inl (by simpa [State.applyEffect] using hj)
  | newController dst addr ref => exact .inl (by simpa [State.applyEffect] using servo_append hj _)
  | lookup dst c n =>
    left
    simp only [State.applyEffect]
    split
    · rename_i ctl hc
      split
      · simpa using hj
      · simpa using servo_append (servo_set_controller hc hj _) _
    · exact hj
  | deinit c =>
    left
    simp only [State.applyEffect]
    split
    · rename_i ctl hc
      simpa using servo_set_controller hc hj _
    · exact hj
  | newServo dst new => exact .inl (by simpa [State.applyEffect] using servo_append hj _)
  | calibrate i p0 p1 md dr =>
    by_cases hi : i = j
    · subst hi
      have object : s.object i = some (.servo sv) := hj
      refine .inr ⟨p0, p1, md, dr, rfl, ?_⟩
      simp only [State.applyEffect, object, State.setObject_eq, State.updMe_me]
      exact List.getElem?_set_self (List.getElem?_eq_some_iff.mp hj).1
    · left
      simp only [State.applyEffect]
      split
      · simpa [List.getElem?_set_ne hi] using hj
      · exact hj

/-- Settles O52: a step keeps the agents other than its own, and the objects of its own but for buffers, unless it ends
the operation; then the effect is the only one that an operation may end with. -/
theorem calibrationsGoStale : Obligations.CalibrationsGoStale := by
  intro i s t g j sv he hj
  have own := (exec_shape he).own
  by_cases hg : g = s.turn
  · subst hg
    rw [own.agent_turn]
    cases exec_place he with
    | inside h _ => exact .inl (servo_of_bare h.view.objs hj)
    | lock _ ho _ => exact .inl (servo_of_bare ho hj)
    | stopped h _ => exact .inl (servo_of_bare h.view.objs hj)
    | ended rs eff u hn hu ht =>
      have objs : t.me.objs = (u.applyEffect eff).me.objs := by rw [ht, State.finish_eq, State.updMe_me]
      rw [objs]
      rcases State.applyEffect_servo (servo_of_bare hu.view.objs hj) eff with keeps | ⟨p0, p1, md, dr, rfl, new⟩
      · exact .inl keeps
      · obtain ⟨ref, min, max, hi, operand⟩ := mayEnd_of_done hn
        exact .inr ⟨rfl, ref, min, max, _, hi, operand, new, rfl, rfl⟩
  · rw [own.others g hg]
    exact .inl hj

end Sys2Proof.Machine
end

section
/-! SUPPORT. Operations whose operand check of R248 fails: the refusal of their scripts, which only a deinitialised
controller comes before (R168, R242; log entry 18). -/

namespace Sys2Proof.Machine

open Sys2Proof

/-- The reference names an object of kind `kind` that stands on a deinitialised controller (R168). -/
def DeadOperand (s : State) (kind : OperandKind) (ref : ObjRef) : Prop :=
  ∃ oi ci ctl, s.resolve ref = some oi ∧ standsOn s kind oi ci ∧ s.object ci = some (.controller ctl) ∧ ctl.live = false

theorem require_false {b : Bool} (h : b = false) (sc : Script) : require b sc = .refuse := by simp [require, h]

theorem withNum_refuses {s : State} {x : Num} {k : Num → Script}
    (h : ∀ y, Num.operand s.params.arith x = some y → k y = .refuse) : withNum s x k = .refuse := by
  unfold withNum
  split
  · exact h _ ‹_›
  · rfl

theorem withLive_refuses {s : State} {i : ObjId} {k : Controller → Script} (h : ∀ c, k c = .refuse) :
    withLive s i k = .refuse ∨ ∃ ctl, s.object i = some (.controller ctl) ∧ ctl.live = false := by
  unfold withLive
  split
  · rename_i ctl hobj
    cases hl : ctl.live
    · exact .inr ⟨ctl, hobj, hl⟩
    · exact .inl (h ctl)
  · exact .inl rfl

theorem withCtrl_refuses {s : State} {r : ObjRef} {k : ObjId → Controller → Script} (h : ∀ i c, k i c = .refuse) :
    withCtrl s r k = .refuse ∨ DeadOperand s .controller r := by
  unfold withCtrl
  split
  · rename_i i hr
    exact (withLive_refuses (h i)).imp_right fun ⟨ctl, hobj, hl⟩ => ⟨i, i, ctl, hr, rfl, hobj, hl⟩
  · exact .inl rfl

theorem withChan_refuses {s : State} {r : ObjRef} {k : ObjId → Channel → Controller → Script}
    (h : ∀ i ch c, k i ch c = .refuse) : withChan s r k = .refuse ∨ DeadOperand s .channel r := by
  unfold withChan withHandle
  split
  · rename_i i hr
    split
    · rename_i ch hch
      exact (withLive_refuses (h i ch)).imp_right fun ⟨ctl, hobj, hl⟩ =>
        ⟨i, ch.controller, ctl, hr, ⟨ch, hch, rfl⟩, hobj, hl⟩
    · exact .inl rfl
  · exact .inl rfl

/-- `CTRL_INIT` has no object operand: a bad address or reference clock is refused whatever the state (R160). -/
theorem ctrlInit_refuses {dst : Option Name} {addr : Int} {ref : Num} {probe : Bool}
    (h : (Instr.ctrlInit dst addr ref probe).wf = false) (s : State) :
    ctrlInitScript dst addr ref probe s = .refuse := by
  rcases Bool.and_eq_false_iff.mp h with haddr | href
  · exact require_false haddr _
  · unfold ctrlInitScript require
    split
    · exact withNum_refuses fun _ hF => require_false (operand_pos hF href) _
    · rfl

/-- `SERVO_INIT` checks its range after its channel and its three numbers, whose failures are refusals too (R210). -/
theorem servoInit_refuses {range : Num} (h : range.pos = false) (dst : Option Name) (ch : ObjRef) (min max : Num)
    (s : State) : servoInitScript dst ch range min max s = .refuse ∨ DeadOperand s .channel ch :=
  withChan_refuses fun _ _ _ => withNum_refuses fun _ hA => withNum_refuses fun _ _ => withNum_refuses fun _ _ =>
    require_false (operand_pos hA h) _

/-- The script of an operation whose operand check fails is the refusal, unless its object operand stands on a
deinitialised controller. -/
theorem script_illFormed {i : Instr} (h : i.wf = false) (s : State) :
    scriptOf i s = .refuse ∨ ∃ ref, operandRef i = some ref ∧ DeadOperand s (operandKind i) ref := by
  cases i with
  | ctrlInit dst addr ref probe => exact .inl (ctrlInit_refuses h s)
  | servoInit dst ch range min max => exact (servoInit_refuses h dst ch min max s).imp_right fun hd => ⟨ch, rfl, hd⟩
  | busWrite | busRead | busWriteRead | scalarGet | scalarSet | tupleGet | tupleSet | arrayGet | arraySet =>
    exact (withCtrl_refuses fun _ _ => require_false h _).imp_right fun hd => ⟨_, rfl, hd⟩
  | _ => cases h

/-- Settles O6: the script is the refusal, or the operand is dead and the script is its fault; either stops the agent
at once. -/
theorem illFormedOperandsAreRefused : Obligations.IllFormedOperandsAreRefused := by
  intro i s hwf hp
  rcases script_illFormed hwf s with hs | ⟨ref, href, oi, ci, ctl, hr, hst, hobj, hl⟩
  · obtain ⟨t, he, ha⟩ := exec_refusesAtOnce hp hs
    exact ⟨t, he, .inl ha⟩
  · obtain ⟨t, he, ha⟩ := exec_faultsAtOnce hp (script_dead href hr hst hobj hl)
    exact ⟨t, he, .inr ⟨ref, oi, ci, ctl, href, hr, hst, hobj, hl, ha⟩⟩

end Sys2Proof.Machine
end

section
/-! SUPPORT. The state at launch (R270): its agents, its devices, and the invariants that every step keeps. -/

namespace Sys2Proof.Machine

open Sys2Proof

/-- A table with an entry `f k` for each key `k` of a list that passes a test reads as `f` there. -/
theorem Table.get_filterMap {β : Type} {dflt : Nat → β} (p : Nat → Bool) (f : Nat → β) (l : List Nat) (a : Nat) :
    Table.get dflt (l.filterMap fun k => if p k then some (k, f k) else none) a =
      if a ∈ l ∧ p a = true then f a else dflt a := by
  induction l with
  | nil => simp [Table.get]
  | cons k l ih =>
    rcases eq_or_ne a k with rfl | hne
    · cases hp : p a with
      | true => simp [Table.get, hp]
      | false => simp [hp, ih]
    · cases hp : p k with
      | true => simp [Table.get, hp, hne, ih]
      | false => simp [hp, hne, ih]

theorem State.reset_agent (g : AgentId) : State.reset.agent g = AgentState.launch [] := rfl

/-- The devices at launch are those of the OPEN set `DEVICES`. -/
theorem State.reset_device (d : DevAddr) : State.reset.device d =
    if Config.devicePresent d.toNat then some (DeviceRegs.launch d.toNat) else none := by
  have listed : d.toNat ∈ List.range 128 := List.mem_range.mpr d.isLt
  refine (Table.get_filterMap Config.devicePresent (fun k => some (DeviceRegs.launch k)) _ _).trans ?_
  simp only [listed, true_and]

/-- No agent holds the lock at launch, and none has taken it. -/
theorem LockInv.reset : LockInv State.reset where
  holder g h := by cases h
  inHold g h := by rw [State.reset_agent] at h; cases h
  exclusive _ g h := by rw [State.reset_agent] at h; cases h

/-- No agent is inside an operation at launch. -/
theorem Consistent.reset : Consistent State.reset :=
  fun _ _ _ _ => Phase.fits_of_idle rfl _

/-- Settles O58: every agent is launched with an empty program, and every device is present with its launch contents or
absent. -/
theorem resetState : Obligations.ResetState := by
  refine ⟨Memory.wf_reset, .reset, .reset, rfl, rfl, rfl, rfl, fun g => ?agents, fun g prog h => ?loaded,
    fun d => ?present, fun d r h => ?contents⟩
  case agents => rw [State.reset_agent]; exact ⟨rfl, rfl, rfl, rfl, rfl, rfl⟩
  case loaded =>
    refine ⟨AgentState.launch_running h, rfl, rfl, ?_⟩
    rw [State.setAgent_agent, if_pos rfl]; rfl
  case present =>
    rw [State.reset_device]
    cases Config.devicePresent d.toNat <;> rfl
  case contents =>
    rw [State.reset_device] at h
    obtain ⟨-, ⟨⟩⟩ := Option.ite_none_right_eq_some.mp h
    exact ⟨rfl, rfl, fun _ => rfl⟩

end Sys2Proof.Machine
end
